-- ==== Sys2Proof/Word.lean ====
section
/-! DEFINITION. The word types of the block (R12, R13): bytes on the wire, 32-bit registers, 16-bit
velocities and the 64-bit time, with the index types of the motor table and of the groups. -/

namespace Sys2Proof

/-- `Byte8` of R12: one byte of a frame or of a host word. -/
abbrev Byte := BitVec 8

/-- A 16-bit field: a setpoint, a ramp output, a ramp step, an address operand (R56, R57, R133). -/
abbrev Half := BitVec 16

/-- A register of the register map (R33) or a 32-bit operand (R133, R134). -/
abbrev Word := BitVec 32

/-- The time `now`, a 64-bit count of microseconds (R10, R318). -/
abbrev Time := BitVec 64

/-- A byte list, byte 0 first on the wire (R12, R92). -/
abbrev Bytes := List Byte

/-- A motor table index m, 0..M_MAX-1 (R10, R54). -/
abbrev MotorIx := Fin 8

/-- A group index g, 0..G_MAX-1 (R10, R260). -/
abbrev GroupIx := Fin 4

/-- The motor table indices in increasing order (R55). -/
def allMotors : List MotorIx := [0, 1, 2, 3, 4, 5, 6, 7]

/-- The group indices in increasing order (R263). -/
def allGroups : List GroupIx := [0, 1, 2, 3]

end Sys2Proof
end

