-- ==== Sys2Proof/Config.lean ====
section
/-! DEFINITION. The implementation parameters of R10 and the free values: the open reset value of the
StatusQuery code (R11) and the transport's unscripted answers to `Send` (R14). -/

namespace Sys2Proof

/-- One answer of the transport to a `Send` (R14, R96). `ioErr n` is IoErr with the first `n` bytes of the
frame on the wire: any prefix, none or all, may have reached the motors (R96, R399, I31; log 3). -/
inductive SendOutcome
  | ok
  | ioErr (reached : Nat)
  deriving DecidableEq, Repr, Inhabited

/-- The two wire formats (R110), PROTO = 0 and PROTO = 1. -/
inductive Proto
  | can
  | rs485
  deriving DecidableEq, Repr

/-- `RXBUF_CAP` (R10, R91). -/
def Config.rxbufCap : Nat := 256

/-- `CAN_MAX_PAYLOAD` (R10). -/
def Config.canMaxPayload : Nat := 8

/-- `CAN_ID_MAX` (R10). -/
def Config.canIdMax : Nat := 0x7FF

/-- `RS485_ADDR_MAX` (R10). -/
def Config.rs485AddrMax : Nat := 0xFF

/-- `M_MAX` (R10). -/
def Config.motorMax : Nat := 8

/-- `WC_MAX` in mA (R10). -/
def Config.wcMax : Nat := 3000

/-- `GAIN_MAX` (R10). -/
def Config.gainMax : Nat := 1024

/-- `ACCEL_MAX` (R10). -/
def Config.accelMax : Nat := 255

/-- The six command codes the source gives (R11, R122): Velocity, Enable, WorkingCurrent,
HoldingCurrentPercent and the two PidGains codes. -/
def Config.fixedCodes : List Byte := [0xF6, 0xF3, 0x83, 0x9B, 0x96, 0x97]

/-- The values `SQ_CODE` may hold: every byte outside the six command codes (R11, R45). -/
def Config.legalSqCodes : List Byte :=
  ((List.range 256).map (BitVec.ofNat 8)).filter (fun b => !Config.fixedCodes.contains b)

/-- DESIGN CHOICE (log 5): which legal code `SQ_CODE_RESET` is. R11 leaves it OPEN; nothing can evaluate it. -/
opaque Config.sqCodeIndex : Fin 250

/-- The open parameter `SQ_CODE_RESET` (R10, R11): any legal code, none preferred (log 5). -/
def Config.sqCodeReset : Byte := Config.legalSqCodes.getD Config.sqCodeIndex.val 0

/-- DESIGN CHOICE (log 2): the transport's answer to the `n`-th `Send` when no draw is scripted.
"Chosen by the transport agent under no law" (R14): nothing can evaluate it. -/
opaque Config.freeSend : Nat → SendOutcome

end Sys2Proof
end

