-- ==== Sys2Proof/Syntax.lean ====
section
/-! DEFINITION. The CMD operand (R134) and the one instruction type `Instr`: a constructor for each row of
spec/opcode_table.json, the seven wire command payloads (R122) and the sixteen host operations (R133). -/

namespace Sys2Proof

/-- The CMD operand of ENCODE and TRANSACT (R134), written as R15 writes commands. The signed arguments are
s32 fields, read with `BitVec.toInt`; `e` and `sel` are the raw u8 operands. -/
inductive Cmd
  /-- tag 0 -/
  | velocity (rpm accel : Word)
  /-- tag 1; legal for e = 0 (false) and e = 1 (true) -/
  | enable (e : Byte)
  /-- tag 2 -/
  | workingCurrent (ma : Word)
  /-- tag 3 -/
  | holdingCurrentPercent (pct : Word)
  /-- tag 4; legal for sel = 0 (code 0x96) and sel = 1 (code 0x97) -/
  | pidGains (sel : Byte) (kp ki kd kv : Word)
  /-- tag 5 -/
  | statusQuery
  deriving DecidableEq, Repr

/-- The instructions: one constructor per row of spec/opcode_table.json. The first seven are the wire command
payloads, which the model runs on the codec's command port (log 6); the others are host operations. -/
inductive Instr
  -- wire command payloads (R122, R164..R169)
  | velocity (rpm accel : Word)
  | enable (e : Byte)
  | workingCurrent (ma : Word)
  | holdingCurrentPercent (pct : Word)
  | pidGains0 (kp ki kd kv : Word)
  | pidGains1 (kp ki kd kv : Word)
  | statusQuery
  -- host operations (R133)
  | cfgWrite (idx : Byte) (value : Word)
  | regRead (idx : Byte)
  | readLast (which : Byte)
  | encodeOp (variant : Byte) (addr : Half) (cmd : Cmd)
  | decodeOp (variant : Byte) (frame : Bytes)
  | rxFeed (data : Bytes)
  | rxNext
  | rampEval (cur tgt : Half) (delta : Half)
  | inputSample (now : Time) (targets : List Half)
  | inputLost
  | enableToggle (mask : Byte)
  | ioError
  | transportReopened
  | tick (now : Time)
  | shutdown
  | transact (m : Byte) (cmd : Cmd) (aw : Byte)
  deriving DecidableEq, Repr

/-- The command a wire payload row stands for (R122); none for a host operation. -/
def Instr.toCmd : Instr → Option Cmd
  | .velocity rpm accel => some (.velocity rpm accel)
  | .enable e => some (.enable e)
  | .workingCurrent ma => some (.workingCurrent ma)
  | .holdingCurrentPercent pct => some (.holdingCurrentPercent pct)
  | .pidGains0 kp ki kd kv => some (.pidGains 0 kp ki kd kv)
  | .pidGains1 kp ki kd kv => some (.pidGains 1 kp ki kd kv)
  | .statusQuery => some .statusQuery
  | .cfgWrite _ _ => none
  | .regRead _ => none
  | .readLast _ => none
  | .encodeOp _ _ _ => none
  | .decodeOp _ _ => none
  | .rxFeed _ => none
  | .rxNext => none
  | .rampEval _ _ _ => none
  | .inputSample _ _ => none
  | .inputLost => none
  | .enableToggle _ => none
  | .ioError => none
  | .transportReopened => none
  | .tick _ => none
  | .shutdown => none
  | .transact _ _ _ => none

/-- True of the seven wire payload rows, false of the host operations. -/
def Instr.isWire (i : Instr) : Bool := i.toCmd.isSome

end Sys2Proof
end

