-- ==== Sys2Proof/WellFormed.lean ====
section
/-! DEFINITION. Which instructions an encoding admits. A host operation's operands fill their fields, so only
the byte and sample counts are bounded (`bytes[k]`, `k:u8`, R132, R133). A wire payload row is well formed when
its operands lie in the ranges its wire fields admit (R123..R130), for a magnitude cap `cap` (VEL.VEL_CAP). -/

namespace Sys2Proof

/-- A signed field lies between two bounds. -/
def inRange (v : Word) (lo hi : Int) : Bool := decide (lo ≤ v.toInt) && decide (v.toInt ≤ hi)

/-- A count that fits the u8 length of `bytes[k]` or of INPUT_SAMPLE (R132, R133). -/
def fitsCount {α : Type} (l : List α) : Bool := decide (l.length ≤ 255)

/-- A command every argument of which is in its range, so that nothing is clamped (R130, R181). -/
def Cmd.legal (cap : BitVec 12) : Cmd → Bool
  | .velocity rpm accel => inRange rpm (-(cap.toNat : Int)) cap.toNat && inRange accel 0 255
  | .enable e => e == 0 || e == 1
  | .workingCurrent ma => inRange ma 0 3000
  | .holdingCurrentPercent pct => inRange pct 10 90 && pct.toInt % 10 == 0
  | .pidGains sel kp ki kd kv =>
    (sel == 0 || sel == 1) && inRange kp 0 1024 && inRange ki 0 1024 && inRange kd 0 1024 && inRange kv 0 1024
  | .statusQuery => true

/-- An instruction that has an encoding under the velocity cap `cap`. -/
def Instr.wellFormed (cap : BitVec 12) : Instr → Bool
  | .velocity rpm accel => (Cmd.velocity rpm accel).legal cap
  | .enable e => (Cmd.enable e).legal cap
  | .workingCurrent ma => (Cmd.workingCurrent ma).legal cap
  | .holdingCurrentPercent pct => (Cmd.holdingCurrentPercent pct).legal cap
  | .pidGains0 kp ki kd kv => (Cmd.pidGains 0 kp ki kd kv).legal cap
  | .pidGains1 kp ki kd kv => (Cmd.pidGains 1 kp ki kd kv).legal cap
  | .statusQuery => true
  | .cfgWrite _ _ => true
  | .regRead _ => true
  | .readLast _ => true
  | .encodeOp _ _ _ => true
  | .decodeOp _ frame => fitsCount frame
  | .rxFeed data => fitsCount data
  | .rxNext => true
  | .rampEval _ _ _ => true
  | .inputSample _ targets => fitsCount targets
  | .inputLost => true
  | .enableToggle _ => true
  | .ioError => true
  | .transportReopened => true
  | .tick _ => true
  | .shutdown => true
  | .transact _ _ _ => true

end Sys2Proof
end

