-- ==== Sys2Proof/Decode.lean ====
section
/-! DEFINITION. The decoder and the encoder: host operation words (R132..R135), wire command payloads
(R122..R130, R164..R169, R174..R179), and the reading of the opcode table's words. Total on any bytes; what is
no instruction is rejected by name. -/

namespace Sys2Proof

/-- Why bytes are no instruction. The first four are the word-format errors of R334; the last is R130's. -/
inductive Reject
  /-- an empty host word: it has no opcode byte -/
  | emptyWord
  /-- a reserved opcode (R133) -/
  | reservedOpcode
  /-- a reserved CMD tag (R134) -/
  | reservedTag
  /-- a length that does not match the operands (R334) -/
  | badLength
  /-- a payload that is the image of no command (R130) -/
  | illegalPayload
  deriving DecidableEq, Repr

/-! ### Little-endian operand fields (R94, R132)

A reader takes its value from the front of a byte list and answers it with the bytes after it. -/

/-- `n` bytes of `v`, low byte first; `le16` of R13 is `writeLE 2`. -/
def writeLE : Nat → Nat → Bytes
  | 0, _ => []
  | n + 1, v => BitVec.ofNat 8 v :: writeLE n (v / 256)

/-- A number of `n` bytes, low byte first. -/
def readLE : Nat → Bytes → Except Reject (Nat × Bytes)
  | 0, bs => .ok (0, bs)
  | _ + 1, [] => .error .badLength
  | n + 1, b :: bs =>
    match readLE n bs with
    | .ok (v, rest) => .ok (b.toNat + 256 * v, rest)
    | .error e => .error e

def readByte : Bytes → Except Reject (Byte × Bytes)
  | [] => .error .badLength
  | b :: bs => .ok (b, bs)

def readHalf (bs : Bytes) : Except Reject (Half × Bytes) := do
  let (v, rest) ← readLE 2 bs
  pure (BitVec.ofNat 16 v, rest)

def readWord (bs : Bytes) : Except Reject (Word × Bytes) := do
  let (v, rest) ← readLE 4 bs
  pure (BitVec.ofNat 32 v, rest)

def readTime (bs : Bytes) : Except Reject (Time × Bytes) := do
  let (v, rest) ← readLE 8 bs
  pure (BitVec.ofNat 64 v, rest)

/-- `bytes[k]`: a u8 length and that many bytes (R132). -/
def readBytes (bs : Bytes) : Except Reject (Bytes × Bytes) := do
  let (k, rest) ← readByte bs
  if rest.length < k.toNat then .error .badLength else pure (rest.take k.toNat, rest.drop k.toNat)

/-- `k` s16 fields (INPUT_SAMPLE, R133). -/
def readHalves : Nat → Bytes → Except Reject (List Half × Bytes)
  | 0, bs => .ok ([], bs)
  | k + 1, bs => do
    let (h, bs) ← readHalf bs
    let (hs, bs) ← readHalves k bs
    pure (h :: hs, bs)

def writeHalf (v : Half) : Bytes := writeLE 2 v.toNat
def writeWord (v : Word) : Bytes := writeLE 4 v.toNat
def writeTime (v : Time) : Bytes := writeLE 8 v.toNat
def writeBytes (l : Bytes) : Bytes := BitVec.ofNat 8 l.length :: l

/-! ### The CMD operand (R134) -/

def decodeCmd (bs : Bytes) : Except Reject (Cmd × Bytes) := do
  let (tag, bs) ← readByte bs
  if tag = 0 then
    let (rpm, bs) ← readWord bs
    let (accel, bs) ← readWord bs
    pure (.velocity rpm accel, bs)
  else if tag = 1 then
    let (e, bs) ← readByte bs
    pure (.enable e, bs)
  else if tag = 2 then
    let (ma, bs) ← readWord bs
    pure (.workingCurrent ma, bs)
  else if tag = 3 then
    let (pct, bs) ← readWord bs
    pure (.holdingCurrentPercent pct, bs)
  else if tag = 4 then
    let (sel, bs) ← readByte bs
    let (kp, bs) ← readWord bs
    let (ki, bs) ← readWord bs
    let (kd, bs) ← readWord bs
    let (kv, bs) ← readWord bs
    pure (.pidGains sel kp ki kd kv, bs)
  else if tag = 5 then
    pure (.statusQuery, bs)
  else .error .reservedTag

def encodeCmd : Cmd → Bytes
  | .velocity rpm accel => 0 :: (writeWord rpm ++ writeWord accel)
  | .enable e => [1, e]
  | .workingCurrent ma => 2 :: writeWord ma
  | .holdingCurrentPercent pct => 3 :: writeWord pct
  | .pidGains sel kp ki kd kv => 4 :: sel :: (writeWord kp ++ writeWord ki ++ writeWord kd ++ writeWord kv)
  | .statusQuery => [5]

/-! ### Host operation words (R132, R133) -/

/-- The assigned host opcodes of R133. -/
inductive Opcode
  | cfgWrite | regRead | readLast | encodeOp | decodeOp | rxFeed | rxNext | rampEval
  | inputSample | inputLost | enableToggle | ioError | transportReopened | tick | shutdown | transact
  deriving DecidableEq, Repr

/-- The opcode byte of each host operation (R133). -/
def Opcode.byte : Opcode → Byte
  | .cfgWrite => 0x01
  | .regRead => 0x02
  | .readLast => 0x03
  | .encodeOp => 0x10
  | .decodeOp => 0x11
  | .rxFeed => 0x20
  | .rxNext => 0x21
  | .rampEval => 0x30
  | .inputSample => 0x40
  | .inputLost => 0x41
  | .enableToggle => 0x42
  | .ioError => 0x43
  | .transportReopened => 0x44
  | .tick => 0x45
  | .shutdown => 0x46
  | .transact => 0x47

def allOpcodes : List Opcode :=
  [.cfgWrite, .regRead, .readLast, .encodeOp, .decodeOp, .rxFeed, .rxNext, .rampEval,
   .inputSample, .inputLost, .enableToggle, .ioError, .transportReopened, .tick, .shutdown, .transact]

/-- The opcode a byte names; every other byte is reserved (R133). -/
def opcodeOf (b : Byte) : Option Opcode := allOpcodes.find? (fun o => o.byte == b)

/-- The operands that follow an opcode byte (R133). -/
def decodeOperands (o : Opcode) (bs : Bytes) : Except Reject (Instr × Bytes) :=
  match o with
  | .cfgWrite => do
    let (idx, bs) ← readByte bs
    let (value, bs) ← readWord bs
    pure (.cfgWrite idx value, bs)
  | .regRead => do
    let (idx, bs) ← readByte bs
    pure (.regRead idx, bs)
  | .readLast => do
    let (which, bs) ← readByte bs
    pure (.readLast which, bs)
  | .encodeOp => do
    let (variant, bs) ← readByte bs
    let (addr, bs) ← readHalf bs
    let (cmd, bs) ← decodeCmd bs
    pure (.encodeOp variant addr cmd, bs)
  | .decodeOp => do
    let (variant, bs) ← readByte bs
    let (frame, bs) ← readBytes bs
    pure (.decodeOp variant frame, bs)
  | .rxFeed => do
    let (data, bs) ← readBytes bs
    pure (.rxFeed data, bs)
  | .rxNext => pure (.rxNext, bs)
  | .rampEval => do
    let (cur, bs) ← readHalf bs
    let (tgt, bs) ← readHalf bs
    let (delta, bs) ← readHalf bs
    pure (.rampEval cur tgt delta, bs)
  | .inputSample => do
    let (now, bs) ← readTime bs
    let (k, bs) ← readByte bs
    let (targets, bs) ← readHalves k.toNat bs
    pure (.inputSample now targets, bs)
  | .inputLost => pure (.inputLost, bs)
  | .enableToggle => do
    let (mask, bs) ← readByte bs
    pure (.enableToggle mask, bs)
  | .ioError => pure (.ioError, bs)
  | .transportReopened => pure (.transportReopened, bs)
  | .tick => do
    let (now, bs) ← readTime bs
    pure (.tick now, bs)
  | .shutdown => pure (.shutdown, bs)
  | .transact => do
    let (m, bs) ← readByte bs
    let (cmd, bs) ← decodeCmd bs
    let (aw, bs) ← readByte bs
    pure (.transact m cmd aw, bs)

/-- One host operation at the front of a byte list, with the bytes after it. -/
def decodeFront : Bytes → Except Reject (Instr × Bytes)
  | [] => .error .emptyWord
  | b :: bs =>
    match opcodeOf b with
    | none => .error .reservedOpcode
    | some o => decodeOperands o bs

/-- A host operation word: exactly one operation, no byte missing and none left over (R132, R334). -/
def decodeWord (bs : Bytes) : Except Reject Instr :=
  match decodeFront bs with
  | .error e => .error e
  | .ok (i, []) => .ok i
  | .ok (_, _ :: _) => .error .badLength

/-! ### Wire command payloads (R122, R129, R130) -/

/-- `REQ_LEN`, the bytes after CMD of a request frame (R119); undefined for any other code. -/
def reqLen (sq : Byte) (code : Byte) : Option Nat :=
  if code = 0xF6 then some 3
  else if code = 0xF3 then some 1
  else if code = 0x83 then some 2
  else if code = 0x9B then some 1
  else if code = 0x96 then some 8
  else if code = 0x97 then some 8
  else if code = sq then some 0
  else none

/-- A two-byte little-endian wire field (R93): `lo + 256 * hi`. -/
def wireLE16 (lo hi : Byte) : Nat := lo.toNat + 256 * hi.toNat

/-- R174: Parse Velocity, under the cap VEL.VEL_CAP. -/
def parseVelocity (cap : BitVec 12) : Bytes → Option Cmd
  | [_, b1, b2, b3] =>
    let speed := (b1.extractLsb' 0 4).toNat * 256 + b2.toNat
    let dir := b1.extractLsb' 7 1 == 1
    if b1.extractLsb' 4 3 ≠ 0 then none
    else if cap.toNat < speed ∨ (dir ∧ speed = 0) then none
    else some (.velocity (BitVec.ofInt 32 (if dir then -(speed : Int) else speed)) (BitVec.ofNat 32 b3.toNat))
  | _ => none

/-- R175: Parse Enable. -/
def parseEnable : Bytes → Option Cmd
  | [_, e] => if e = 0 ∨ e = 1 then some (.enable e) else none
  | _ => none

/-- R176: Parse WorkingCurrent. -/
def parseWorkingCurrent : Bytes → Option Cmd
  | [_, lo, hi] => if wireLE16 lo hi ≤ Config.wcMax then some (.workingCurrent (BitVec.ofNat 32 (wireLE16 lo hi))) else none
  | _ => none

/-- R177: Parse HoldingCurrentPercent. -/
def parseHoldingCurrentPercent : Bytes → Option Cmd
  | [_, i] => if i.toNat ≤ 8 then some (.holdingCurrentPercent (BitVec.ofNat 32 (10 * (i.toNat + 1)))) else none
  | _ => none

/-- R178: Parse PidGains, with the selector its code names. -/
def parsePidGains (sel : Byte) : Bytes → Option Cmd
  | [_, p0, p1, i0, i1, d0, d1, v0, v1] =>
    if wireLE16 p0 p1 ≤ Config.gainMax ∧ wireLE16 i0 i1 ≤ Config.gainMax
        ∧ wireLE16 d0 d1 ≤ Config.gainMax ∧ wireLE16 v0 v1 ≤ Config.gainMax then
      some (.pidGains sel (BitVec.ofNat 32 (wireLE16 p0 p1)) (BitVec.ofNat 32 (wireLE16 i0 i1))
        (BitVec.ofNat 32 (wireLE16 d0 d1)) (BitVec.ofNat 32 (wireLE16 v0 v1)))
    else none
  | _ => none

/-- R179: Parse StatusQuery. -/
def parseStatusQuery : Bytes → Option Cmd
  | [_] => some .statusQuery
  | _ => none

/-- ParseCommand of R173: the command a payload is the image of (R174..R179), none for an illegal payload
(R130). The code decides the row (R124). -/
def parseCommand (cap : BitVec 12) (sq : Byte) (q : Bytes) : Option Cmd :=
  match q with
  | [] => none
  | code :: _ =>
    if code = 0xF6 then parseVelocity cap q
    else if code = 0xF3 then parseEnable q
    else if code = 0x83 then parseWorkingCurrent q
    else if code = 0x9B then parseHoldingCurrentPercent q
    else if code = 0x96 then parsePidGains 0 q
    else if code = 0x97 then parsePidGains 1 q
    else if code = sq then parseStatusQuery q
    else none

/-- The table row a command's payload belongs to (R122). -/
def instrOfCmd : Cmd → Instr
  | .velocity rpm accel => .velocity rpm accel
  | .enable e => .enable e
  | .workingCurrent ma => .workingCurrent ma
  | .holdingCurrentPercent pct => .holdingCurrentPercent pct
  | .pidGains sel kp ki kd kv => if sel = 0 then .pidGains0 kp ki kd kv else .pidGains1 kp ki kd kv
  | .statusQuery => .statusQuery

/-- A command payload on the codec's command port, under the current VEL_CAP and SQ_CODE (R130; log 6). -/
def decodePayload (cap : BitVec 12) (sq : Byte) (q : Bytes) : Except Reject Instr :=
  match parseCommand cap sq q with
  | some c => .ok (instrOfCmd c)
  | none => .error .illegalPayload

/-! ### The payload rules (R164..R169) and the encoder -/

/-- `clamp` of R13. -/
def clampInt (v lo hi : Int) : Int := min (max v lo) hi

/-- R164: the magnitude is `min(abs(rpm), VEL_CAP)`, the direction bit is set only for a negative rpm with a
non-zero magnitude, the acceleration is clamped to 0..255. -/
def velocityPayload (cap : BitVec 12) (rpm accel : Int) : Bytes :=
  let speed := min rpm.natAbs cap.toNat
  let dir : Byte := if rpm < 0 ∧ 0 < speed then 0x80 else 0
  [0xF6, dir ||| BitVec.ofNat 8 (speed / 256), BitVec.ofNat 8 (speed % 256),
   BitVec.ofInt 8 (clampInt accel 0 Config.accelMax)]

/-- R165. -/
def enablePayload (on : Bool) : Bytes := [0xF3, if on then 0x01 else 0x00]

/-- R166. -/
def workingCurrentPayload (ma : Int) : Bytes := 0x83 :: writeLE 2 (clampInt ma 0 Config.wcMax).toNat

/-- R167: clamped to 10..90 and rounded down to a multiple of ten. -/
def holdingCurrentPayload (pct : Int) : Bytes :=
  let q := 10 * ((clampInt pct 10 90).toNat / 10)
  [0x9B, BitVec.ofNat 8 (q / 10 - 1)]

/-- `le16(g(x))` of R168. -/
def gainBytes (x : Int) : Bytes := writeLE 2 (clampInt x 0 Config.gainMax).toNat

/-- R168. -/
def pidGainsPayload (sel : Byte) (kp ki kd kv : Int) : Bytes :=
  (0x96 + sel) :: (gainBytes kp ++ gainBytes ki ++ gainBytes kd ++ gainBytes kv)

/-- R169. -/
def statusQueryPayload (sq : Byte) : Bytes := [sq]

/-- `Payload(cmd)` of R160, for a command whose u8 operands are legal (R134, R168). -/
def Cmd.payload (cap : BitVec 12) (sq : Byte) : Cmd → Bytes
  | .velocity rpm accel => velocityPayload cap rpm.toInt accel.toInt
  | .enable e => enablePayload (e == 1)
  | .workingCurrent ma => workingCurrentPayload ma.toInt
  | .holdingCurrentPercent pct => holdingCurrentPayload pct.toInt
  | .pidGains sel kp ki kd kv => pidGainsPayload sel kp.toInt ki.toInt kd.toInt kv.toInt
  | .statusQuery => statusQueryPayload sq

/-- The bytes of a well-formed instruction: a host operation's word (R132, R133), or a wire row's payload under
the cap `cap` and the StatusQuery code `sq` (R122). -/
def encode (cap : BitVec 12) (sq : Byte) : Instr → Bytes
  | .velocity rpm accel => (Cmd.velocity rpm accel).payload cap sq
  | .enable e => (Cmd.enable e).payload cap sq
  | .workingCurrent ma => (Cmd.workingCurrent ma).payload cap sq
  | .holdingCurrentPercent pct => (Cmd.holdingCurrentPercent pct).payload cap sq
  | .pidGains0 kp ki kd kv => (Cmd.pidGains 0 kp ki kd kv).payload cap sq
  | .pidGains1 kp ki kd kv => (Cmd.pidGains 1 kp ki kd kv).payload cap sq
  | .statusQuery => Cmd.statusQuery.payload cap sq
  | .cfgWrite idx value => Opcode.cfgWrite.byte :: idx :: writeWord value
  | .regRead idx => [Opcode.regRead.byte, idx]
  | .readLast which => [Opcode.readLast.byte, which]
  | .encodeOp variant addr cmd => Opcode.encodeOp.byte :: variant :: (writeHalf addr ++ encodeCmd cmd)
  | .decodeOp variant frame => Opcode.decodeOp.byte :: variant :: writeBytes frame
  | .rxFeed data => Opcode.rxFeed.byte :: writeBytes data
  | .rxNext => [Opcode.rxNext.byte]
  | .rampEval cur tgt delta => Opcode.rampEval.byte :: (writeHalf cur ++ writeHalf tgt ++ writeHalf delta)
  | .inputSample now targets =>
    Opcode.inputSample.byte :: (writeTime now ++ BitVec.ofNat 8 targets.length :: targets.flatMap writeHalf)
  | .inputLost => [Opcode.inputLost.byte]
  | .enableToggle mask => [Opcode.enableToggle.byte, mask]
  | .ioError => [Opcode.ioError.byte]
  | .transportReopened => [Opcode.transportReopened.byte]
  | .tick now => Opcode.tick.byte :: writeTime now
  | .shutdown => [Opcode.shutdown.byte]
  | .transact m cmd aw => Opcode.transact.byte :: m :: (encodeCmd cmd ++ [aw])

/-! ### The opcode table's words -/

/-- The longest host word: an INPUT_SAMPLE that counts 255 samples (R133). -/
def longestWord : Nat := 520

/-- The bytes of a table word, bit 0 the least significant bit of byte 0, with zeros above its `nbits` bits up
to the longest instruction (log 11). -/
def tableBytes (nbits w : Nat) : Bytes :=
  (List.range ((nbits + 7) / 8)).map (fun k => BitVec.ofNat 8 (w / 256 ^ k)) ++ List.replicate longestWord 0

/-- The table numbers host words and payloads together (log 11): a byte that is an assigned opcode begins a host
word, any other begins a payload. -/
def startsHostWord (bs : Bytes) : Bool :=
  match bs with
  | [] => false
  | b :: _ => (opcodeOf b).isSome

/-- The bytes of the one instruction a byte list begins with. -/
def cutFront (sq : Byte) (bs : Bytes) : Bytes :=
  if startsHostWord bs then
    match decodeFront bs with
    | .ok (_, rest) => bs.take (bs.length - rest.length)
    | .error _ => bs.take 1
  else
    match bs with
    | [] => []
    | code :: _ => bs.take (1 + (reqLen sq code).getD 0)

/-- VEL_CAP after reset (R40), the cap a table word is read under. -/
def capAtReset : BitVec 12 := 3000

/-- The instruction the decoder reads from a word of spec/opcode_table.json, numbered as the table numbers its
bits, all operand bits above `nbits` zero (log 11). -/
def decodeTableWord (nbits w : Nat) : Option Instr :=
  let bs := tableBytes nbits w
  if startsHostWord bs then (decodeWord (cutFront Config.sqCodeReset bs)).toOption
  else (decodePayload capAtReset Config.sqCodeReset (cutFront Config.sqCodeReset bs)).toOption

end Sys2Proof
end

