-- ==== Sys2Proof/Machine/State.lean ====
section
/-! DEFINITION. The state of the block: the tuple of R32, then the model's own fields (pending inputs, the
environment's draws, the transmit stream and the reply of the latest operation). Plain data throughout. -/

namespace Sys2Proof.Machine

/-- Motor State (R59). -/
inductive MState
  | disabled
  | enabling
  | enabled
  | disabling
  | emergencyStop
  deriving DecidableEq, Repr

/-- Operation statuses (R360). -/
inductive Status
  | ok
  | invalidArgument
  | checksumMismatch
  | truncated
  | unknownCommand
  | noResponse
  | transportError
  | verificationFailed
  | halted
  deriving DecidableEq, Repr

/-- The configuration registers `Reg[0x00..0x09]` (R32, R33). -/
structure Regs where
  cfg : Word
  seq : Word
  vel : Word
  cur : Word
  ramp : Word
  wdTimeout : Word
  rspTimeout : Word
  sq : Word
  rsplen : Word
  verify : Word
  deriving DecidableEq, Repr

/-- The record DECODE returns (R170): `command` is `some c` for kind Command c and `none` for Response. -/
structure Decoded where
  command : Option Cmd
  marker : Byte
  addr : Half
  code : Byte
  data : Bytes
  deriving DecidableEq, Repr

/-- The result of an operation (R133); `none` where the operation returns no result or none is produced. -/
inductive Result
  | none
  /-- u32, REG_READ -/
  | word (v : Word)
  /-- s16, RAMP_EVAL -/
  | half (v : Half)
  /-- bytes[k]: ENCODE, RX_NEXT, READ_LAST, TRANSACT, and a payload built on the command port -/
  | bytes (l : Bytes)
  /-- DECODE -/
  | decoded (d : Decoded)
  deriving DecidableEq, Repr

/-- What the latest operation returned (R360, R133), with the events R368 ranks: whether a transport fault
occurred during it and whether a verification was exhausted during it. The MODEL's own record (log 7). -/
structure Reply where
  status : Status
  result : Result
  ioErr : Bool
  verifyFailed : Bool
  deriving DecidableEq, Repr

/-- One frame put on the transmit stream and the transport's answer. The MODEL's own record (log 8). -/
structure Sent where
  frame : Bytes
  outcome : SendOutcome
  deriving DecidableEq, Repr

/-- What the world outside presents to the block between operations. The MODEL's own (log 1, log 6, log 9). -/
inductive Input
  /-- a host operation word (R132) -/
  | word (bs : Bytes)
  /-- a command payload on the codec's command port (R122) -/
  | payload (bs : Bytes)
  /-- the reset input (R391) -/
  | reset
  deriving DecidableEq, Repr

/-- The state of the block. The fields down to `lastRx` are R32's; the rest are the model's own. -/
structure State where
  /-- `Reg[0x00..0x09]` -/
  regs : Regs
  /-- STATUS bits 7:0; bits 11:8 mirror other fields (R48) -/
  sticky : Byte
  norspCnt : Word
  rxdropCnt : Word
  estopCnt : Word
  /-- `ECAUSE[g]` (R51) -/
  ecause : Vector (BitVec 2) 4
  /-- `MOTOR[m]` (R54) -/
  motor : Vector Word 8
  /-- `SETPOINT[m]`, signed (R56) -/
  setpoint : Vector Half 8
  /-- `RAMPCUR[m]`, signed (R57) -/
  rampcur : Vector Half 8
  /-- `state[g]` (R59) -/
  mstate : Vector MState 4
  /-- `pending[g]` (R262) -/
  pending : Vector Bool 4
  rxbuf : Bytes
  lastInputTime : Time
  inputValid : Bool
  inputLost : Bool
  reopenReq : Bool
  halted : Bool
  lastTx : Bytes
  lastRx : Bytes
  /-- model's own: what the host will present, next first (log 1) -/
  inputs : List Input
  /-- model's own: scripted answers to `Send`, next first (log 2) -/
  sends : List SendOutcome
  /-- model's own: how many `Send`s were made, the index of an unscripted answer (log 2) -/
  sendCount : Nat
  /-- model's own: the `Arrivals` draws, next first (R222; log 4) -/
  arrivals : List Bytes
  /-- model's own: the transmit stream, oldest first (log 8) -/
  txLog : List Sent
  /-- model's own: what the latest operation returned (log 7) -/
  reply : Reply
  deriving DecidableEq, Repr

/-- Nothing stops this machine: errors are statuses of a completed operation (R360, R363), and the emergency
stop is a state (R371). No meaning and no step raises a fault, so the type has no constructor (log 14). -/
inductive Fault
  deriving DecidableEq, Repr

/-- Why a step has no meaning for what it is given. -/
inductive Refusal
  /-- raised by an arm of `exec` whose instruction has no meaning yet; no arm does. Safe: nothing is claimed. -/
  | notModelled (mnemonic : String)
  /-- raised by `step` for a payload on the command port that is the image of no command (R130): the port takes
  commands, and no rule of the transmit direction covers it. Safe: the model stops where nothing is specified (log 6). -/
  | illegalPayload
  deriving DecidableEq, Repr

/-- The reply before any operation (log 7). -/
def Reply.fresh : Reply := ⟨.ok, .none, false, false⟩

/-- The configuration registers after reset (R390). -/
def Regs.reset : Regs where
  cfg := 0x000018C0
  seq := 0x00000244
  vel := 0x00000BB8
  cur := 0x000A0000
  ramp := 0
  wdTimeout := 0
  rspTimeout := 20000
  sq := Config.sqCodeReset.setWidth 32
  rsplen := 0x0FFFFFFF
  verify := 0x00000001

/-- The machine right after reset (R390). -/
def State.reset : State where
  regs := Regs.reset
  sticky := 0
  norspCnt := 0
  rxdropCnt := 0
  estopCnt := 0
  ecause := Vector.replicate 4 0
  motor := Vector.replicate 8 0
  setpoint := Vector.replicate 8 0
  rampcur := Vector.replicate 8 0
  mstate := Vector.replicate 4 .disabled
  pending := Vector.replicate 4 false
  rxbuf := []
  lastInputTime := 0
  inputValid := false
  inputLost := false
  reopenReq := false
  halted := false
  lastTx := []
  lastRx := []
  inputs := []
  sends := []
  sendCount := 0
  arrivals := []
  txLog := []
  reply := Reply.fresh

end Sys2Proof.Machine
end

