-- ==== Sys2Proof/Machine/Flags.lean ====
section
/-! DEFINITION. The flags of the block: STATUS (R48), the status codes and the sticky bit of each (R360). -/

namespace Sys2Proof.Machine

/-- The sticky error bits, STATUS bits 0 to 7 in order (R48). -/
inductive Flag
  | invalid
  | checksum
  | trunc
  | unknown
  | norsp
  | transport
  | verify
  | rxOvf
  deriving DecidableEq, Repr

/-- The STATUS bit of a flag as a mask (R48). -/
def flagMask : Flag → Byte
  | .invalid => 0x01
  | .checksum => 0x02
  | .trunc => 0x04
  | .unknown => 0x08
  | .norsp => 0x10
  | .transport => 0x20
  | .verify => 0x40
  | .rxOvf => 0x80

/-- The numeric status codes (R360). -/
def statusCode : Status → Byte
  | .ok => 0
  | .invalidArgument => 1
  | .checksumMismatch => 2
  | .truncated => 3
  | .unknownCommand => 4
  | .noResponse => 5
  | .transportError => 6
  | .verificationFailed => 7
  | .halted => 8

/-- The sticky bit a status stands for (R360); OK and Halted have none. -/
def statusFlag : Status → Option Flag
  | .ok => none
  | .invalidArgument => some .invalid
  | .checksumMismatch => some .checksum
  | .truncated => some .trunc
  | .unknownCommand => some .unknown
  | .noResponse => some .norsp
  | .transportError => some .transport
  | .verificationFailed => some .verify
  | .halted => none

/-- Set a sticky bit; it stays set until a W1C write or reset (R48). -/
def State.setFlag (f : Flag) (s : State) : State := { s with sticky := s.sticky ||| flagMask f }

/-- The W1C write to STATUS: a written 1 in bits 7:0 clears the bit (R34, R332). -/
def State.clearFlags (mask : Byte) (s : State) : State := { s with sticky := s.sticky &&& ~~~mask }

/-- STATUS as REG_READ sees it: the sticky bits and the mirrors in bits 11:8 (R48). -/
def statusReg (s : State) : Word :=
  BitVec.ofNat 32 (s.sticky.toNat + 256 * s.reopenReq.toNat + 512 * s.halted.toNat
    + 1024 * s.inputValid.toNat + 2048 * s.inputLost.toNat)

end Sys2Proof.Machine
end

