-- ==== Sys2Proof/Machine/Operands.lean ====
section
/-! DEFINITION. The operand forms: the fields of the registers (R36..R47, R54), the register map and its access
rules (R33, R34, R332), the variant operand (R135), and the legal forms of the CMD operand (R134, R168). -/

namespace Sys2Proof.Machine

/-! ### The indexed components (R32): one accessor each -/

/-- `state[g]`. -/
def State.stateOf (s : State) (g : GroupIx) : MState := s.mstate[g]

/-- `pending[g]`. -/
def State.pendingOf (s : State) (g : GroupIx) : Bool := s.pending[g]

/-- `ECAUSE[g]`. -/
def State.causeOf (s : State) (g : GroupIx) : BitVec 2 := s.ecause[g]

/-- `MOTOR[m]`. -/
def State.entryOf (s : State) (m : MotorIx) : Word := s.motor[m]

/-- `SETPOINT[m]`. -/
def State.setpointOf (s : State) (m : MotorIx) : Half := s.setpoint[m]

/-- `RAMPCUR[m]`. -/
def State.rampOf (s : State) (m : MotorIx) : Half := s.rampcur[m]

/-! ### Fields of the configuration registers -/

/-- CFG.PROTO (R36, R110). -/
def State.proto (s : State) : Proto := if s.regs.cfg.getLsbD 0 then .rs485 else .can

/-- CFG.CAN_CTRL_HI (R36, R38). -/
def State.ctrlHi (s : State) : BitVec 4 := s.regs.cfg.extractLsb' 4 4

/-- CFG.VERIFY_EN (R36). -/
def State.verifyEn (s : State) : Bool := s.regs.cfg.getLsbD 8

/-- CFG.VERIFY_DIS (R36). -/
def State.verifyDis (s : State) : Bool := s.regs.cfg.getLsbD 9

/-- CFG.RSP_EXPECTED (R36). -/
def State.rspExpected (s : State) : Bool := s.regs.cfg.getLsbD 10

/-- CFG.HS_WC (R36). -/
def State.hsWc (s : State) : Bool := s.regs.cfg.getLsbD 11

/-- CFG.HS_HC (R36). -/
def State.hsHc (s : State) : Bool := s.regs.cfg.getLsbD 12

/-- CFG.HS_ORDER (R36): set for HoldingCurrentPercent first. -/
def State.hsOrder (s : State) : Bool := s.regs.cfg.getLsbD 13

/-- SEQ.ENABLE_ATTEMPTS (R39). -/
def State.enableAttempts (s : State) : Nat := (s.regs.seq.extractLsb' 0 4).toNat

/-- SEQ.DISABLE_ATTEMPTS (R39). -/
def State.disableAttempts (s : State) : Nat := (s.regs.seq.extractLsb' 4 4).toNat

/-- SEQ.ZERO_REPEAT (R39). -/
def State.zeroRepeat (s : State) : Nat := (s.regs.seq.extractLsb' 8 4).toNat

/-- VEL.VEL_CAP (R40). -/
def State.velCap (s : State) : BitVec 12 := s.regs.vel.extractLsb' 0 12

/-- VEL.VEL_ACCEL (R40). -/
def State.velAccel (s : State) : Byte := s.regs.vel.extractLsb' 16 8

/-- CUR.WC_MA (R41). -/
def State.wcMa (s : State) : BitVec 12 := s.regs.cur.extractLsb' 0 12

/-- CUR.HC_PCT (R41). -/
def State.hcPct (s : State) : Byte := s.regs.cur.extractLsb' 16 8

/-- RAMP.RAMP_STEP (R42). -/
def State.rampStep (s : State) : Half := s.regs.ramp.extractLsb' 0 16

/-- RAMP.ESTOP_STEP (R42). -/
def State.estopStep (s : State) : Half := s.regs.ramp.extractLsb' 16 16

/-- SQ.SQ_CODE (R45). -/
def State.sqCode (s : State) : Byte := s.regs.sq.extractLsb' 0 8

/-- VERIFY.EN_OK_VAL (R47). -/
def State.enOkVal (s : State) : Byte := s.regs.verify.extractLsb' 0 8

/-- VERIFY.DIS_OK_VAL (R47). -/
def State.disOkVal (s : State) : Byte := s.regs.verify.extractLsb' 8 8

/-- The RSPLEN nibble of a code (R46); none for a code that is not in RSPLEN's table. -/
def rsplenNibble (rsplen : Word) (sq : Byte) (code : Byte) : Option (BitVec 4) :=
  if code = 0xF6 then some (rsplen.extractLsb' 0 4)
  else if code = 0xF3 then some (rsplen.extractLsb' 4 4)
  else if code = 0x83 then some (rsplen.extractLsb' 8 4)
  else if code = 0x9B then some (rsplen.extractLsb' 12 4)
  else if code = 0x96 then some (rsplen.extractLsb' 16 4)
  else if code = 0x97 then some (rsplen.extractLsb' 20 4)
  else if code = sq then some (rsplen.extractLsb' 24 4)
  else none

/-! ### The motor table (R54, R55) -/

/-- MOTOR.VALID of a table word. -/
def entryValid (w : Word) : Bool := w.getLsbD 31

/-- MOTOR.ADDR of a table word. -/
def entryAddr (w : Word) : Nat := (w.extractLsb' 0 11).toNat

/-- MOTOR.GROUP of a table word. -/
def entryGroup (w : Word) : Nat := (w.extractLsb' 12 2).toNat

/-- `MOTOR[m].ADDR`. -/
def State.addrOf (s : State) (m : MotorIx) : Nat := entryAddr (s.entryOf m)

/-- Entry m is a member of group g (R55). -/
def State.isMember (s : State) (g : GroupIx) (m : MotorIx) : Bool :=
  entryValid (s.entryOf m) && entryGroup (s.entryOf m) == g.val

/-- `members(g)`, in increasing m (R55). -/
def State.members (s : State) (g : GroupIx) : List MotorIx := allMotors.filter (s.isMember g)

/-- Every group is Disabled, the condition of a restricted write (R34). -/
def State.allDisabled (s : State) : Bool := allGroups.all (fun g => s.stateOf g == .disabled)

/-! ### The register map (R33) -/

/-- The assigned registers (R33). -/
inductive Reg
  | cfg | seq | vel | cur | ramp | wdTimeout | rspTimeout | sq | rsplen | verify
  | status | gstate | ecause | norspCnt | rxdropCnt | estopCnt | rxLevel
  | motor (m : MotorIx)
  | setpoint (m : MotorIx)
  | rampcur (m : MotorIx)
  deriving DecidableEq, Repr

/-- The register an index names; none for an unassigned index (R33). -/
def regOf (idx : Byte) : Option Reg :=
  match idx.toNat with
  | 0x00 => some .cfg
  | 0x01 => some .seq
  | 0x02 => some .vel
  | 0x03 => some .cur
  | 0x04 => some .ramp
  | 0x05 => some .wdTimeout
  | 0x06 => some .rspTimeout
  | 0x07 => some .sq
  | 0x08 => some .rsplen
  | 0x09 => some .verify
  | 0x10 => some .status
  | 0x11 => some .gstate
  | 0x12 => some .ecause
  | 0x13 => some .norspCnt
  | 0x14 => some .rxdropCnt
  | 0x15 => some .estopCnt
  | 0x16 => some .rxLevel
  | n =>
    if h : 0x20 ≤ n ∧ n < 0x28 then some (.motor ⟨n - 0x20, by omega⟩)
    else if h : 0x30 ≤ n ∧ n < 0x38 then some (.setpoint ⟨n - 0x30, by omega⟩)
    else if h : 0x38 ≤ n ∧ n < 0x40 then some (.rampcur ⟨n - 0x38, by omega⟩)
    else none

/-- The GSTATE code of a Motor State (R59). -/
def mstateCode : MState → Nat
  | .disabled => 0
  | .enabling => 1
  | .enabled => 2
  | .disabling => 3
  | .emergencyStop => 4

/-- GSTATE (R50). -/
def gstateReg (s : State) : Word :=
  BitVec.ofNat 32 ((allGroups.map (fun g => 16 ^ g.val * (mstateCode (s.stateOf g) + 8 * (s.pendingOf g).toNat))).sum)

/-- ECAUSE (R51). -/
def ecauseReg (s : State) : Word :=
  BitVec.ofNat 32 ((allGroups.map (fun g => 4 ^ g.val * (s.causeOf g).toNat)).sum)

/-- The value REG_READ returns (R330); SETPOINT and RAMPCUR read sign-extended (R56, R57). -/
def readReg (r : Reg) (s : State) : Word :=
  match r with
  | .cfg => s.regs.cfg
  | .seq => s.regs.seq
  | .vel => s.regs.vel
  | .cur => s.regs.cur
  | .ramp => s.regs.ramp
  | .wdTimeout => s.regs.wdTimeout
  | .rspTimeout => s.regs.rspTimeout
  | .sq => s.regs.sq
  | .rsplen => s.regs.rsplen
  | .verify => s.regs.verify
  | .status => statusReg s
  | .gstate => gstateReg s
  | .ecause => ecauseReg s
  | .norspCnt => s.norspCnt
  | .rxdropCnt => s.rxdropCnt
  | .estopCnt => s.estopCnt
  | .rxLevel => BitVec.ofNat 32 s.rxbuf.length
  | .motor m => s.entryOf m
  | .setpoint m => (s.setpointOf m).signExtend 32
  | .rampcur m => (s.rampOf m).signExtend 32

/-! ### What a write stores (R34, R332): WARL fields legalised, reserved bits forced to 0 -/

/-- CFG's fields are bits 0, 7:4 and 13:8 (R36). -/
def legalCfg (v : Word) : Word := v &&& 0x00003FF1

/-- R39: a zero count of attempts becomes 1, a zero repeat below 2 becomes 2. -/
def legalSeq (v : Word) : Word :=
  BitVec.ofNat 32 (max 1 (v.extractLsb' 0 4).toNat + 16 * max 1 (v.extractLsb' 4 4).toNat
    + 256 * max 2 (v.extractLsb' 8 4).toNat)

/-- VEL's fields are bits 11:0 and 23:16 (R40). -/
def legalVel (v : Word) : Word := v &&& 0x00FF0FFF

/-- R41: `min(w, 3000)` mA and `10 * (clamp(w, 10, 90) div 10)` percent. -/
def legalCur (v : Word) : Word :=
  BitVec.ofNat 32 (min (v.extractLsb' 0 12).toNat Config.wcMax
    + 65536 * (10 * (min (max (v.extractLsb' 16 8).toNat 10) 90 / 10)))

/-- SQ's field is bits 7:0 (R45). -/
def legalSq (v : Word) : Word := v &&& 0x000000FF

/-- RSPLEN's fields are bits 27:0 (R46). -/
def legalRsplen (v : Word) : Word := v &&& 0x0FFFFFFF

/-- VERIFY's fields are bits 15:0 (R47). -/
def legalVerify (v : Word) : Word := v &&& 0x0000FFFF

/-- MOTOR's fields are bits 10:0, 13:12 and 31 (R54). -/
def legalMotor (v : Word) : Word := v &&& 0x800037FF

/-! ### Which writes are refused (R34, R37, R45, R54) -/

/-- R37: a write that changes PROTO needs every group Disabled and, towards RS485, every valid address to fit. -/
def cfgWriteOk (v : Word) (s : State) : Bool :=
  v.getLsbD 0 == s.regs.cfg.getLsbD 0 ||
  (s.allDisabled && (!v.getLsbD 0 ||
    allMotors.all (fun m => !entryValid (s.entryOf m) || decide (s.addrOf m ≤ Config.rs485AddrMax))))

/-- R45: SQ_CODE may not be one of the six command codes. -/
def sqWriteOk (v : Word) : Bool := !Config.fixedCodes.contains (v.extractLsb' 0 8)

/-- R54 (c): another valid entry has the address. -/
def addrTaken (m : MotorIx) (addr : Nat) (s : State) : Bool :=
  allMotors.any (fun k => k != m && entryValid (s.entryOf k) && s.addrOf k == addr)

/-- R54: a motor entry is written only while every group is Disabled; a valid one needs a fitting, free address. -/
def motorWriteOk (m : MotorIx) (v : Word) (s : State) : Bool :=
  s.allDisabled &&
  (!entryValid v ||
    (entryAddr v != 0 && !(s.proto == .rs485 && decide (Config.rs485AddrMax < entryAddr v))
      && !addrTaken m (entryAddr v) s))

/-! ### Operands of host operations -/

/-- The variant operand (R135). -/
def variantOf (v : Byte) : Option Proto :=
  if v = 0 then some .can else if v = 1 then some .rs485 else none

/-- The motor index operand of TRANSACT (R336). -/
def motorIxOf (m : Byte) : Option MotorIx :=
  if h : m.toNat < 8 then some ⟨m.toNat, h⟩ else none

/-- The u8 operands of a command are legal: Enable's argument (R134) and the PidGains selector (R168). -/
def cmdOk : Cmd → Bool
  | .velocity _ _ => true
  | .enable e => e == 0 || e == 1
  | .workingCurrent _ => true
  | .holdingCurrentPercent _ => true
  | .pidGains sel _ _ _ _ => sel == 0 || sel == 1
  | .statusQuery => true

end Sys2Proof.Machine
end

