-- ==== Sys2Proof/Machine/Framing.lean ====
section
/-! DEFINITION. The frame formats (R110..R121): checksums, building a frame (R160..R163), checking one
(R113, R116, R120), taking one apart (R171, R172) and classifying its payload (R173). Pure functions. -/

namespace Sys2Proof.Machine

/-- The sum of a byte list as a number. -/
def sumNat (l : Bytes) : Nat := (l.map BitVec.toNat).sum

/-- `sum8` of R13. -/
def sum8 (l : Bytes) : Byte := BitVec.ofNat 8 (sumNat l)

/-- R115: `CRC = (ID + sum(p)) mod 256`, over the full identifier and the payload. -/
def canCrc (id : Nat) (p : Bytes) : Byte := BitVec.ofNat 8 (id + sumNat p)

/-- R112: the CTRL byte, CAN_CTRL_HI above the length N + 1. -/
def ctrlByte (hi : BitVec 4) (n : Nat) : Byte := hi ++ BitVec.ofNat 4 (n + 1)

/-- R111, R162: the CAN frame of a payload. -/
def frameCan (hi : BitVec 4) (addr : Nat) (p : Bytes) : Bytes :=
  [0xAA, ctrlByte hi p.length, BitVec.ofNat 8 (addr % 256), BitVec.ofNat 8 (addr / 256)] ++ p
    ++ [canCrc addr p, 0x55]

/-- R117, R163: the RS485 request frame of a payload. -/
def frameRs (addr : Nat) (p : Bytes) : Bytes :=
  let f : Bytes := [0xFA, BitVec.ofNat 8 addr] ++ p
  f ++ [sum8 f]

/-- The frame of a payload in a format (R110). -/
def frameOf (v : Proto) (hi : BitVec 4) (addr : Nat) (p : Bytes) : Bytes :=
  match v with
  | .can => frameCan hi addr p
  | .rs485 => frameRs addr p

/-- R161: the addresses a format can carry. -/
def addrOk (v : Proto) (addr : Nat) : Bool :=
  match v with
  | .can => decide (1 ≤ addr) && decide (addr ≤ Config.canIdMax)
  | .rs485 => decide (1 ≤ addr) && decide (addr ≤ Config.rs485AddrMax)

/-- R162, R163: a CAN payload has at most 8 bytes, an RS485 payload has no maximum of its own. -/
def payloadFits (v : Proto) (p : Bytes) : Bool :=
  match v with
  | .can => decide (p.length ≤ Config.canMaxPayload)
  | .rs485 => true

/-- The payload of a command under the current VEL_CAP and SQ_CODE (R164..R169). -/
def State.payload (s : State) (c : Cmd) : Bytes := c.payload s.velCap s.sqCode

/-- R160: `encode(protocol_variant, address, command)`; every error is InvalidArgument. -/
def encodeFrame (v : Proto) (addr : Nat) (c : Cmd) (s : State) : Except Status Bytes :=
  if cmdOk c && addrOk v addr && payloadFits v (s.payload c) then .ok (frameOf v s.ctrlHi addr (s.payload c))
  else .error .invalidArgument

/-! ### Lengths and validity -/

/-- R113: a plausible CAN header. -/
def plausibleCan (hi : BitVec 4) (b0 b1 : Byte) : Bool :=
  b0 == 0xAA && b1.extractLsb' 4 4 == hi && decide (1 ≤ (b1.extractLsb' 0 4).toNat)
    && decide ((b1.extractLsb' 0 4).toNat ≤ 9)

/-- The payload length N a CTRL byte announces, L - 1 (R112). -/
def ctrlN (b1 : Byte) : Nat := (b1.extractLsb' 0 4).toNat - 1

/-- R114: the identifier of a received frame. -/
def canId (f : Bytes) : Nat := (f.getD 2 0).toNat + 256 * ((f.getD 3 0).extractLsb' 0 3).toNat

/-- The N payload bytes of a CAN frame, from index 4 (R111). -/
def canPayload (n : Nat) (f : Bytes) : Bytes := (f.drop 4).take n

/-- R114: ID_HI[7:3] is zero. -/
def canIdHiOk (f : Bytes) : Bool := (f.getD 3 0).extractLsb' 3 5 == 0

/-- R115, R116: the CRC byte is the checksum of identifier and payload. -/
def canCrcOk (n : Nat) (f : Bytes) : Bool := f.getD (4 + n) 0 == canCrc (canId f) (canPayload n f)

/-- R116: a list of N + 6 bytes with a plausible header is a valid CAN frame. -/
def validCan (f : Bytes) : Bool :=
  let n := ctrlN (f.getD 1 0)
  canIdHiOk f && canCrcOk n f && f.getD (5 + n) 0 == 0x55

/-- R119: `RSP_LEN`, the bytes after CMD of a response frame; a nibble of 0xF defines none (R46). -/
def State.rspLen (s : State) (code : Byte) : Option Nat :=
  match rsplenNibble s.regs.rsplen s.sqCode code with
  | none => none
  | some n => if n = 0xF then none else some n.toNat

/-- R119: `n(SOF, CMD)`. -/
def State.rsLen (s : State) (sof code : Byte) : Option Nat :=
  if sof = 0xFA then reqLen s.sqCode code else if sof = 0xFB then s.rspLen code else none

/-- R118, R120: the last of n + 4 bytes is the sum of the bytes before it. -/
def rsChkOk (n : Nat) (f : Bytes) : Bool := f.getD (n + 3) 0 == sum8 (f.take (n + 3))

/-! ### Taking a frame apart (R171, R172) -/

/-- What unframing answers: the start marker, the address and the payload with its code first. -/
structure Unframed where
  marker : Byte
  addr : Nat
  payload : Bytes
  deriving DecidableEq, Repr

/-- R171: UnframeCAN; the first failing check decides the error. -/
def unframeCan (f : Bytes) (s : State) : Except Status Unframed :=
  let n := ctrlN (f.getD 1 0)
  if f.length = 0 then .error .truncated
  else if f.getD 0 0 ≠ 0xAA then .error .checksumMismatch
  else if f.length < 2 then .error .truncated
  else if !plausibleCan s.ctrlHi (f.getD 0 0) (f.getD 1 0) then .error .checksumMismatch
  else if f.length < n + 6 then .error .truncated
  else if n + 6 < f.length then .error .checksumMismatch
  else if !canIdHiOk f then .error .checksumMismatch
  else if !canCrcOk n f then .error .checksumMismatch
  else if f.getD (5 + n) 0 ≠ 0x55 then .error .checksumMismatch
  else .ok ⟨0xAA, canId f, canPayload n f⟩

/-- R172: UnframeRS; the first failing check decides the error. -/
def unframeRs (f : Bytes) (s : State) : Except Status Unframed :=
  if f.length = 0 then .error .truncated
  else if f.getD 0 0 ≠ 0xFA ∧ f.getD 0 0 ≠ 0xFB then .error .checksumMismatch
  else if f.length < 3 then .error .truncated
  else
    match s.rsLen (f.getD 0 0) (f.getD 2 0) with
    | none => .error .unknownCommand
    | some n =>
      if f.length < n + 4 then .error .truncated
      else if n + 4 < f.length then .error .checksumMismatch
      else if !rsChkOk n f then .error .checksumMismatch
      else .ok ⟨f.getD 0 0, (f.getD 1 0).toNat, (f.drop 2).take (n + 1)⟩

/-- The seven codes the block knows (R173). -/
def State.knownCode (s : State) (code : Byte) : Bool := Config.fixedCodes.contains code || code == s.sqCode

/-- R173: Classify. -/
def classify (v : Proto) (u : Unframed) (s : State) : Except Status Decoded :=
  match u.payload with
  | [] => .error .unknownCommand
  | code :: data =>
    let answer (c : Option Cmd) : Decoded := ⟨c, u.marker, BitVec.ofNat 16 u.addr, code, data⟩
    if !s.knownCode code then .error .unknownCommand
    else if v = .rs485 ∧ u.marker = 0xFB then .ok (answer none)
    else
      match parseCommand s.velCap s.sqCode u.payload with
      | some c => .ok (answer (some c))
      | none => if v = .rs485 then .error .unknownCommand else .ok (answer none)

/-- R170: `decode(protocol_variant, bytes)`. -/
def decodeFrame (v : Proto) (f : Bytes) (s : State) : Except Status Decoded :=
  match (match v with | .can => unframeCan f s | .rs485 => unframeRs f s) with
  | .error e => .error e
  | .ok u => classify v u s

/-! ### Host result words (R132, R133, R170) -/

/-- R170: kind, marker, addr, code, then the data as bytes[k]. -/
def decodedWord (d : Decoded) : Bytes :=
  [if d.command.isSome then 0 else 1, d.marker] ++ writeHalf d.addr ++ [d.code] ++ writeBytes d.data

/-- The bytes a result is returned as, multi-byte values little-endian (R94, R133). -/
def resultWord : Result → Bytes
  | .none => []
  | .word v => writeWord v
  | .half v => writeHalf v
  | .bytes l => writeBytes l
  | .decoded d => decodedWord d

end Sys2Proof.Machine
end

