-- ==== Sys2Proof/Machine/Deframer.lean ====
section
/-! DEFINITION. The stream deframer (R210..R224): the receive buffer, the scanning algorithm in both formats, and
the matching of responses. -/

namespace Sys2Proof.Machine

/-! ### Feeding (R210, R211) -/

/-- R211: append a byte; when the buffer is full the oldest byte is dropped, counted and flagged. -/
def State.appendByte (b : Byte) (s : State) : State :=
  if s.rxbuf.length = Config.rxbufCap then
    { s with rxbuf := s.rxbuf.tail ++ [b], rxdropCnt := s.rxdropCnt + 1, sticky := s.sticky ||| flagMask .rxOvf }
  else { s with rxbuf := s.rxbuf ++ [b] }

/-- Append every byte in order (R210, R222). -/
def State.appendAll (bs : Bytes) (s : State) : State := bs.foldl (fun s b => s.appendByte b) s

/-! ### Scanning (R213, R214) -/

/-- What the scanner does with the bytes at the head of the buffer. -/
inductive Look
  /-- the header or the frame is not complete: return None and keep the bytes -/
  | wait
  /-- drop one byte and rescan -/
  | drop
  /-- a valid frame of `n` bytes -/
  | take (n : Nat)
  deriving DecidableEq, Repr

/-- One iteration of NextFrame_CAN on a non-empty buffer (R213). -/
def lookCan (hi : BitVec 4) (b : Bytes) : Look :=
  if b.getD 0 0 ≠ 0xAA then .drop
  else if b.length < 2 then .wait
  else if !plausibleCan hi (b.getD 0 0) (b.getD 1 0) then .drop
  else
    let t := ctrlN (b.getD 1 0) + 6
    if b.length < t then .wait
    else if validCan (b.take t) then .take t
    else .drop

/-- One iteration of NextFrame_RS on a non-empty buffer (R214). -/
def State.lookRs (s : State) (b : Bytes) : Look :=
  if b.getD 0 0 ≠ 0xFA ∧ b.getD 0 0 ≠ 0xFB then .drop
  else if b.length < 3 then .wait
  else
    match s.rsLen (b.getD 0 0) (b.getD 2 0) with
    | none => .drop
    | some n =>
      if b.length < n + 4 then .wait
      else if rsChkOk n (b.take (n + 4)) then .take (n + 4)
      else .drop

/-- The iteration of the configured format, read at the time of the call (R221). -/
def State.look (s : State) (b : Bytes) : Look :=
  match s.proto with
  | .can => lookCan s.ctrlHi b
  | .rs485 => s.lookRs b

/-- What a scan leaves: how many bytes it dropped, the frame it found, the bytes that stay buffered. -/
structure Scan where
  drops : Nat
  frame : Option Bytes
  rest : Bytes
  deriving DecidableEq, Repr

/-- The loop of R213 and R214: it returns or drops the leading byte (R220). -/
def scan (look : Bytes → Look) : Bytes → Scan
  | [] => ⟨0, none, []⟩
  | b :: bs =>
    match look (b :: bs) with
    | .wait => ⟨0, none, b :: bs⟩
    | .take n => ⟨0, some ((b :: bs).take n), (b :: bs).drop n⟩
    | .drop => ⟨(scan look bs).drops + 1, (scan look bs).frame, (scan look bs).rest⟩

/-- The bytes that stay buffered after a scan, its drops counted modulo 2^32 (R52, R215). -/
def State.keepBuffer (rest : Bytes) (drops : Nat) (s : State) : State :=
  { s with rxbuf := rest, rxdropCnt := s.rxdropCnt + BitVec.ofNat 32 drops }

/-- NextFrame (R213, R214). -/
def State.nextFrame (s : State) : Option Bytes × State :=
  let r := scan s.look s.rxbuf
  (r.frame, s.keepBuffer r.rest r.drops)

/-! ### Matching a response (R223) -/

/-- The length N of a CAN frame of N + 6 bytes, or n of an RS485 frame of n + 4 bytes. -/
def frameN (v : Proto) (f : Bytes) : Nat :=
  match v with
  | .can => f.length - 6
  | .rs485 => f.length - 4

/-- R223: Match(f, addr, code). -/
def matchesRsp (v : Proto) (addr : Nat) (code : Byte) (f : Bytes) : Bool :=
  match v with
  | .can => canId f == addr && decide (1 ≤ frameN .can f) && f.getD 4 0 == code
  | .rs485 => f.getD 0 0 == 0xFB && (f.getD 1 0).toNat == addr && f.getD 2 0 == code

/-- R223: Data(f). -/
def rspData (v : Proto) (f : Bytes) : Bytes :=
  match v with
  | .can => (f.drop 5).take (frameN .can f - 1)
  | .rs485 => (f.drop 3).take (frameN .rs485 f)

end Sys2Proof.Machine
end

