-- ==== Sys2Proof/Machine/Ops.lean ====
section
/-! DEFINITION. The named operations: replies, register writes, the emergency stop (the block's trap, R369..R374)
and its exit, `Send`, `Await`, the ramp, and the sequences of the safety state machine (R263..R284). -/

namespace Sys2Proof.Machine

/-! ### Updates of single components -/

def State.setRegs (r : Regs) (s : State) : State := { s with regs := r }
def State.setMotor (m : MotorIx) (w : Word) (s : State) : State := { s with motor := s.motor.set m w }
def State.setRamp (m : MotorIx) (v : Half) (s : State) : State := { s with rampcur := s.rampcur.set m v }
def State.setState (g : GroupIx) (x : MState) (s : State) : State := { s with mstate := s.mstate.set g x }
def State.setPending (g : GroupIx) (b : Bool) (s : State) : State := { s with pending := s.pending.set g b }
def State.setReopen (b : Bool) (s : State) : State := { s with reopenReq := b }
def State.setHalted (s : State) : State := { s with halted := true }
def State.setLost (s : State) : State := { s with inputLost := true }
def State.setLastRx (f : Bytes) (s : State) : State := { s with lastRx := f }
def State.setInputs (l : List Input) (s : State) : State := { s with inputs := l }

/-- TRANSPORT_REOPENED's discard of the old session's bytes, not counted as drops (R215, R317). -/
def State.emptyBuffer (s : State) : State := { s with rxbuf := [] }

/-- INPUT_SAMPLE's update (R310): the whole setpoint vector, the time and the two link flags. -/
def State.takeSample (now : Time) (targets : List Half) (s : State) : State :=
  { s with
    setpoint := Vector.ofFn (fun m : MotorIx => targets.getD m.val 0)
    lastInputTime := now
    inputValid := true
    inputLost := false }

/-! ### Replies (R360, R363, R368) -/

/-- Start an operation: no event has occurred in it yet. -/
def State.begin (s : State) : State := { s with reply := Reply.fresh }

/-- The status and the result an operation returns. -/
def State.answer (st : Status) (r : Result) (s : State) : State :=
  { s with reply := { s.reply with status := st, result := r } }

/-- A transport fault occurred in this operation (R365, R368). -/
def State.noteIoErr (s : State) : State := { s with reply := { s.reply with ioErr := true } }

/-- A verification was exhausted in this operation (R366, R368). -/
def State.noteVerify (s : State) : State := { s with reply := { s.reply with verifyFailed := true } }

/-- Set the sticky bit a status stands for (R360). -/
def State.flagStatus (st : Status) (s : State) : State :=
  match statusFlag st with
  | none => s
  | some f => s.setFlag f

/-- `raise E` (R14): end the operation with status E and set its sticky bit. -/
def State.raise (st : Status) (s : State) : State := (s.flagStatus st).answer st .none

/-- End an operation that reports events (R368): TransportError before VerificationFailed before OK. -/
def State.answerEvents (s : State) : State :=
  s.answer (if s.reply.ioErr then .transportError
    else if s.reply.verifyFailed then .verificationFailed else .ok) .none

/-- A host operation: while halted it returns Halted and does nothing else (R335, R367). -/
def hostOp (body : State → State) (s : State) : Host.Outcome State Fault Refusal :=
  .next (if s.halted then s.begin.answer .halted .none else body s.begin)

/-- An operation that is allowed while halted (R335). -/
def openOp (body : State → State) (s : State) : Host.Outcome State Fault Refusal := .next (body s.begin)

/-- A host word that is no operation: InvalidArgument, or Halted while halted (R334, R368). -/
def badWord (s : State) : Host.Outcome State Fault Refusal := hostOp (State.raise .invalidArgument) s

/-! ### Register writes (R332) -/

/-- CFG_WRITE to an assigned register; none where it raises InvalidArgument. -/
def writeReg (r : Reg) (v : Word) (s : State) : Option State :=
  match r with
  | .cfg => if cfgWriteOk v s then some (s.setRegs { s.regs with cfg := legalCfg v }) else none
  | .seq => some (s.setRegs { s.regs with seq := legalSeq v })
  | .vel => some (s.setRegs { s.regs with vel := legalVel v })
  | .cur => some (s.setRegs { s.regs with cur := legalCur v })
  | .ramp => some (s.setRegs { s.regs with ramp := v })
  | .wdTimeout => some (s.setRegs { s.regs with wdTimeout := v })
  | .rspTimeout => some (s.setRegs { s.regs with rspTimeout := v })
  | .sq => if sqWriteOk v then some (s.setRegs { s.regs with sq := legalSq v }) else none
  | .rsplen => some (s.setRegs { s.regs with rsplen := legalRsplen v })
  | .verify => some (s.setRegs { s.regs with verify := legalVerify v })
  | .status => some (s.clearFlags (v.extractLsb' 0 8))
  | .motor m => if motorWriteOk m v s then some (s.setMotor m (legalMotor v)) else none
  | .gstate => none
  | .ecause => none
  | .norspCnt => none
  | .rxdropCnt => none
  | .estopCnt => none
  | .rxLevel => none
  | .setpoint _ => none
  | .rampcur _ => none

/-! ### The emergency stop: the block's trap (R278, R316, R371) -/

/-- EnterEStop(g, cause) (R278, R371): the cause is saved, the entry counted, the pending request cleared. -/
def State.enterEStop (g : GroupIx) (cause : BitVec 2) (s : State) : State :=
  { s with
    mstate := s.mstate.set g .emergencyStop
    ecause := s.ecause.set g cause
    estopCnt := s.estopCnt + 1
    pending := s.pending.set g false }

/-- EnterEStop for every group whose state the trigger acts on, in increasing g. -/
def State.estopWhere (p : MState → Bool) (cause : BitVec 2) (s : State) : State :=
  allGroups.foldl (fun s g => if p (s.stateOf g) then s.enterEStop g cause else s) s

/-- The states a transport fault acts on (R316). -/
def reactsToFault (x : MState) : Bool := x == .enabled || x == .enabling

/-- TransportFault() (R316): E_TRANSPORT, the reopen request, and cause 3 for every Enabled or Enabling group. -/
def State.transportFault (s : State) : State :=
  (((s.setFlag .transport).setReopen true).noteIoErr).estopWhere reactsToFault 3

/-- Stale(now) (R311). -/
def State.stale (now : Time) (s : State) : Bool :=
  !s.inputValid || s.inputLost || decide (now.toNat < s.lastInputTime.toNat)
    || decide (s.regs.wdTimeout.toNat < now.toNat - s.lastInputTime.toNat)

/-- WatchdogCheck(now) (R313, R314): cause 2 when the input is lost, else cause 1; Enabled groups only. -/
def State.watchdogCheck (now : Time) (s : State) : State :=
  if s.stale now then s.estopWhere (· == .enabled) (if s.inputLost then 2 else 1) else s

/-! ### Send (R14, R96) -/

/-- The transport's next answer: scripted, or free when the script is exhausted (log 2). -/
def State.nextSend (s : State) : SendOutcome :=
  match s.sends with
  | o :: _ => o
  | [] => Config.freeSend s.sendCount

/-- Put a frame on the transmit stream: LAST_TX is the frame, whatever the outcome (R14, R338). -/
def State.recordSend (f : Bytes) (s : State) : State :=
  { s with
    lastTx := f
    txLog := s.txLog ++ [⟨f, s.nextSend⟩]
    sends := s.sends.tail
    sendCount := s.sendCount + 1 }

/-- Whether the transport accepted the whole frame (R96). -/
def sendOk (o : SendOutcome) : Bool :=
  match o with
  | .ok => true
  | .ioErr _ => false

/-- `Send(f)`, and TransportFault where it returns IoErr, as every caller does (R14, R316). -/
def State.transmit (f : Bytes) (s : State) : Bool × State :=
  if sendOk s.nextSend then (true, s.recordSend f) else (false, (s.recordSend f).transportFault)

/-- The bytes of a sent frame that reached the wire: all of them on Ok, the drawn prefix on IoErr (R96, R399). -/
def reachedWire (t : Sent) : Bytes :=
  match t.outcome with
  | .ok => t.frame
  | .ioErr n => t.frame.take n

/-! ### Await (R222) -/

/-- The next Arrivals draw; an exhausted script draws the empty list (R222). -/
def State.nextArrival (s : State) : Bytes := s.arrivals.headD []

/-- Consume one Arrivals draw. -/
def State.popArrival (s : State) : State := { s with arrivals := s.arrivals.tail }

/-- An `Await` returned None: telemetry only (R222, R364). -/
def State.noResponse (s : State) : State :=
  { s with norspCnt := s.norspCnt + 1, sticky := s.sticky ||| flagMask .norsp }

/-- The loop of R222. Every frame shortens the buffer, so one call more than the buffer holds bytes suffices
(R220; log 16). -/
def awaitLoop (addr : Nat) (code : Byte) : Nat → State → Option Bytes × State
  | 0, s => (none, s.noResponse)
  | k + 1, s =>
    match s.nextFrame with
    | (none, s1) => (none, s1.noResponse)
    | (some f, s1) =>
      if matchesRsp s.proto addr code f then (some (rspData s.proto f), s1.setLastRx f)
      else awaitLoop addr code k s1

/-- Await(addr, code) (R222): the drawn bytes are appended, then frames are taken until one matches. -/
def State.await (addr : Nat) (code : Byte) (s : State) : Option Bytes × State :=
  let s1 := (s.popArrival).appendAll s.nextArrival
  awaitLoop addr code (s1.rxbuf.length + 1) s1

/-! ### The velocity ramp (R241..R244) -/

/-- Ramp(c, t, d) (R241), on unbounded integers. -/
def ramp (c t : Int) (d : Nat) : Int :=
  if (t - c).natAbs ≤ d then t else if c < t then c + d else c - d

/-- Ramp with the step of the emergency stop, where 0 means no limit (R243). -/
def rampEStop (c : Int) (step : Nat) : Int := if step = 0 then 0 else ramp c 0 step

/-- Target(m) (R244). -/
def State.target (s : State) (m : MotorIx) : Int :=
  clampInt (s.setpointOf m).toInt (-(s.velCap.toNat : Int)) s.velCap.toNat

/-- R242, R281: one ramp step of a driven motor. -/
def State.rampMotor (m : MotorIx) (s : State) : State :=
  s.setRamp m (BitVec.ofInt 16 (ramp (s.rampOf m).toInt (s.target m) s.rampStep.toNat))

/-- R243: one deceleration step. -/
def State.decelMotor (m : MotorIx) (s : State) : State :=
  s.setRamp m (BitVec.ofInt 16 (rampEStop (s.rampOf m).toInt s.estopStep.toNat))

/-! ### Frames of the sequences -/

/-- `F(m, c)`, the frame of a command to motor m in the configured format. A member's address passes ENCODE's
checks in every state a run reaches, so no check stands here (R54, R160; log 10). -/
def State.frameFor (s : State) (m : MotorIx) (c : Cmd) : Bytes :=
  frameOf s.proto s.ctrlHi (s.addrOf m) (s.payload c)

/-- `V(v)`, Velocity with the configured acceleration (43_safety_fsm.md). -/
def State.velocityCmd (s : State) (v : Half) : Cmd := .velocity (v.signExtend 32) (s.velAccel.setWidth 32)

/-- Send a command to a motor. -/
def State.command (m : MotorIx) (c : Cmd) (s : State) : Bool × State := s.transmit (s.frameFor m c)

/-! ### The stop sequence (R275, R276), the exit from the emergency stop (R279, R372) -/

/-- One round of V(0) to the members in order; an IoErr does not shorten it (R275). -/
def State.zeroRound (ms : List MotorIx) (s : State) : State :=
  ms.foldl (fun s m => (s.command m (s.velocityCmd 0)).2) s

/-- ZERO_REPEAT rounds (R275). -/
def zeroRounds (ms : List MotorIx) : Nat → State → State
  | 0, s => s
  | k + 1, s => zeroRounds ms k (s.zeroRound ms)

/-- A verification predicate of R272: the first data byte is the configured value. -/
def firstByteIs (v : Byte) (d : Option Bytes) : Bool :=
  match d with
  | some (b :: _) => b == v
  | some [] => false
  | none => false

/-- The attempts to disable one member with verification (R275); true when verified. -/
def tryDisable (m : MotorIx) : Nat → State → Bool × State
  | 0, s => (false, s)
  | k + 1, s =>
    let s1 := (s.command m (.enable 0)).2
    let s2 := (s1.command m .statusQuery).2
    let (d, s3) := s2.await (s2.addrOf m) s2.sqCode
    if firstByteIs s3.disOkVal d then (true, s3) else tryDisable m k s3

/-- Enable(false) to one member, verified when VERIFY_DIS is set (R275); true unless attempts were exhausted. -/
def State.disableMember (m : MotorIx) (s : State) : Bool × State :=
  if s.verifyDis then tryDisable m s.disableAttempts s else (true, (s.command m (.enable 0)).2)

/-- Disable the members in order; true when every one succeeded (R275). -/
def disableMembers : List MotorIx → State → Bool × State
  | [], s => (true, s)
  | m :: ms, s =>
    let (ok, s1) := s.disableMember m
    let (oks, s2) := disableMembers ms s1
    (ok && oks, s2)

/-- R276: every member's ramp output becomes 0. -/
def State.zeroRamps (ms : List MotorIx) (s : State) : State := ms.foldl (fun s m => s.setRamp m 0) s

/-- VerificationFailed in a sequence (R273, R277): E_VERIFY and the event of this operation. -/
def State.verifyFailure (s : State) : State := (s.setFlag .verify).noteVerify

/-- StopSequence(g) (R275). -/
def State.stopSequence (g : GroupIx) (s : State) : State :=
  let ms := s.members g
  let s1 := zeroRounds ms s.zeroRepeat s
  let (ok, s2) := disableMembers ms s1
  let s3 := s2.zeroRamps ms
  if ok then s3 else s3.verifyFailure

/-- Leave the emergency stop, or any driven state, to Disabled after the stop sequence (R279, R372). -/
def State.stopToDisabled (g : GroupIx) (s : State) : State := (s.stopSequence g).setState g .disabled

/-- Disabling(g) (R274). -/
def State.disabling (g : GroupIx) (s : State) : State := (s.setState g .disabling).stopToDisabled g

/-- EStopStep(g) (R279): the handler of the emergency stop. -/
def State.estopStepGroup (g : GroupIx) (s : State) : State :=
  let ms := s.members g
  if ms.all (fun m => s.rampOf m == 0) then s.stopToDisabled g
  else
    let s1 := ms.foldl (fun s m => s.decelMotor m) s
    ms.foldl (fun s m => (s.command m (s.velocityCmd (s.rampOf m))).2) s1

/-! ### Enabling (R270..R273) -/

/-- Handshake() (R271). -/
def State.handshake (s : State) : List Cmd :=
  let wc : List Cmd := if s.hsWc then [.workingCurrent (s.wcMa.setWidth 32)] else []
  let hc : List Cmd := if s.hsHc then [.holdingCurrentPercent (s.hcPct.setWidth 32)] else []
  if s.hsOrder then hc ++ wc else wc ++ hc

/-- Send commands until one returns IoErr; true when all were accepted (R270). -/
def sendUntilErr (m : MotorIx) : List Cmd → State → Bool × State
  | [], s => (true, s)
  | c :: cs, s =>
    match s.command m c with
    | (true, s1) => sendUntilErr m cs s1
    | (false, s1) => (false, s1)

/-- How the attempts to enable one member end. -/
inductive Attempt
  | verified
  | exhausted
  | ioErr
  deriving DecidableEq, Repr

/-- The attempts to enable one member (R270). -/
def tryEnable (m : MotorIx) : Nat → State → Attempt × State
  | 0, s => (.exhausted, s)
  | k + 1, s =>
    match s.command m (.enable 1) with
    | (false, s1) => (.ioErr, s1)
    | (true, s1) =>
      if !s1.verifyEn then (.verified, s1)
      else
        match s1.command m .statusQuery with
        | (false, s2) => (.ioErr, s2)
        | (true, s2) =>
          let (d, s3) := s2.await (s2.addrOf m) s2.sqCode
          if firstByteIs s3.enOkVal d then (.verified, s3) else tryEnable m k s3

/-- EnableFailed(g) (R273 (a)): Enable(false) to every member, then Disabled with VerificationFailed
(log 20). -/
def State.enableFailed (g : GroupIx) (s : State) : State :=
  (((s.members g).foldl (fun s m => (s.command m (.enable 0)).2) s).setState g .disabled).verifyFailure

/-- The member loop of Enabling(g) (R270): it stops at an IoErr (R273 (b)) and at exhausted attempts (R273 (a)). -/
def enableMembers (g : GroupIx) : List MotorIx → State → State
  | [], s => s.setState g .enabled
  | m :: ms, s =>
    match sendUntilErr m s.handshake s with
    | (false, s1) => s1
    | (true, s1) =>
      match tryEnable m s1.enableAttempts s1 with
      | (.ioErr, s2) => s2
      | (.exhausted, s2) => s2.enableFailed g
      | (.verified, s2) => enableMembers g ms s2

/-- Enabling(g) (R270). -/
def State.enabling (g : GroupIx) (s : State) : State :=
  enableMembers g (s.members g) (s.setState g .enabling)

/-- RequestEnable(g, now) (R264): a request made while the input is stale is discarded. -/
def State.requestEnable (g : GroupIx) (now : Time) (s : State) : State :=
  if s.stale now then s else s.enabling g

/-! ### The tick (R263) -/

/-- Step 3 for one group: the transition of its state at the moment the loop reaches it (R263; log 19). DESIGN CHOICE
(log 22): a group that an IoErr of a lower group's sequence, in this same step, has moved to EmergencyStop runs its first
EStopStep in this TICK, by R263, R279 and R374 (d), where R278 says that it comes in the next one. -/
def State.transition (now : Time) (g : GroupIx) (s : State) : State :=
  match s.stateOf g with
  | .disabled => if s.pendingOf g then (s.setPending g false).requestEnable g now else s
  | .enabled => if s.pendingOf g then (s.setPending g false).disabling g else s
  | .emergencyStop => s.estopStepGroup g
  | .enabling => s
  | .disabling => s

/-- Step 4 for one group (R263, R281). -/
def State.rampGroup (g : GroupIx) (s : State) : State :=
  if s.stateOf g = .enabled then (s.members g).foldl (fun s m => s.rampMotor m) s else s

/-- SendVelocity(m) (R282..R284). -/
def State.sendVelocity (m : MotorIx) (s : State) : State :=
  match s.command m (s.velocityCmd (s.rampOf m)) with
  | (false, s1) => s1
  | (true, s1) => if s1.rspExpected then (s1.await (s1.addrOf m) 0xF6).2 else s1

/-- Step 5 for one group: the state is read again before each send (R263, R282). -/
def State.driveGroup (g : GroupIx) (s : State) : State :=
  (s.members g).foldl (fun s m => if s.stateOf g = .enabled then s.sendVelocity m else s) s

/-- Run a step for every group in increasing g (R263). -/
def forGroups (f : GroupIx → State → State) (s : State) : State := allGroups.foldl (fun s g => f g s) s

/-- The five steps of TICK (R263); step 1 is the setpoint vector itself. -/
def State.tickSteps (now : Time) (s : State) : State :=
  forGroups State.driveGroup (forGroups State.rampGroup (forGroups (State.transition now) (s.watchdogCheck now)))

/-- SHUTDOWN for one group (R345; log 19). -/
def State.shutdownGroup (g : GroupIx) (s : State) : State :=
  let s1 :=
    match s.stateOf g with
    | .enabled => s.disabling g
    | .emergencyStop => s.stopToDisabled g
    | .disabled => s
    | .enabling => s
    | .disabling => s
  s1.setPending g false

end Sys2Proof.Machine
end

