-- ==== Sys2Proof/Machine/CodecOps.lean ====
section
/-! DEFINITION. The frame codec's host operations: ENCODE (R160..R169) and DECODE (R170..R179). -/

namespace Sys2Proof.Machine

/-- R160: ENCODE. -/
def execEncode (variant : Byte) (addr : Half) (cmd : Cmd) (s : State) : Host.Outcome State Fault Refusal :=
  hostOp (fun s =>
    match variantOf variant with
    | none => s.raise .invalidArgument
    | some v =>
      match encodeFrame v addr.toNat cmd s with
      | .error e => s.raise e
      | .ok f => s.answer .ok (.bytes f)) s

/-- R170: DECODE. -/
def execDecode (variant : Byte) (frame : Bytes) (s : State) : Host.Outcome State Fault Refusal :=
  hostOp (fun s =>
    match variantOf variant with
    | none => s.raise .invalidArgument
    | some v =>
      match decodeFrame v frame s with
      | .error e => s.raise e
      | .ok d => s.answer .ok (.decoded d)) s

end Sys2Proof.Machine
end

