-- ==== Sys2Proof/Machine/DeframerOps.lean ====
section
/-! DEFINITION. The deframer's host operations: RX_FEED (R210, R211) and RX_NEXT (R212..R214). -/

namespace Sys2Proof.Machine

/-- R210: RX_FEED. -/
def execRxFeed (data : Bytes) (s : State) : Host.Outcome State Fault Refusal :=
  hostOp (fun s => (s.appendAll data).answer .ok .none) s

/-- R212: RX_NEXT; an empty result means none. -/
def execRxNext (s : State) : Host.Outcome State Fault Refusal :=
  hostOp (fun s =>
    match s.nextFrame with
    | (none, s1) => s1.answer .ok (.bytes [])
    | (some f, s1) => (s1.setLastRx f).answer .ok (.bytes f)) s

end Sys2Proof.Machine
end

