-- ==== Sys2Proof/Machine/HostRegisters.lean ====
section
/-! DEFINITION. The register and read-back operations: CFG_WRITE, REG_READ, READ_LAST (R330, R332, R337). -/

namespace Sys2Proof.Machine

/-- R332: CFG_WRITE. -/
def execCfgWrite (idx : Byte) (value : Word) (s : State) : Host.Outcome State Fault Refusal :=
  hostOp (fun s =>
    match regOf idx with
    | none => s.raise .invalidArgument
    | some r =>
      match writeReg r value s with
      | none => s.raise .invalidArgument
      | some t => t.answer .ok .none) s

/-- R330: REG_READ, allowed while halted. -/
def execRegRead (idx : Byte) (s : State) : Host.Outcome State Fault Refusal :=
  openOp (fun s =>
    match regOf idx with
    | none => s.raise .invalidArgument
    | some r => s.answer .ok (.word (readReg r s))) s

/-- R337: READ_LAST, allowed while halted. -/
def execReadLast (which : Byte) (s : State) : Host.Outcome State Fault Refusal :=
  openOp (fun s =>
    if which = 0 then s.answer .ok (.bytes s.lastTx)
    else if which = 1 then s.answer .ok (.bytes s.lastRx)
    else s.raise .invalidArgument) s

end Sys2Proof.Machine
end

