-- ==== Sys2Proof/Machine/LinkOps.lean ====
section
/-! DEFINITION. The input and link operations: INPUT_SAMPLE (R310), INPUT_LOST (R312), IO_ERROR (R315) and
TRANSPORT_REOPENED (R317). -/

namespace Sys2Proof.Machine

/-- R310: INPUT_SAMPLE. -/
def execInputSample (now : Time) (targets : List Half) (s : State) : Host.Outcome State Fault Refusal :=
  hostOp (fun s =>
    if Config.motorMax < targets.length then s.raise .invalidArgument
    else (s.takeSample now targets).answer .ok .none) s

/-- R312: INPUT_LOST. -/
def execInputLost (s : State) : Host.Outcome State Fault Refusal :=
  hostOp (fun s => s.setLost.answer .ok .none) s

/-- R315: IO_ERROR. -/
def execIoError (s : State) : Host.Outcome State Fault Refusal :=
  hostOp (fun s => s.transportFault.answerEvents) s

/-- R317: TRANSPORT_REOPENED. -/
def execTransportReopened (s : State) : Host.Outcome State Fault Refusal :=
  hostOp (fun s => (s.emptyBuffer.setReopen false).answer .ok .none) s

end Sys2Proof.Machine
end

