-- ==== Sys2Proof/Machine/MotionOps.lean ====
section
/-! DEFINITION. The ramp and the motor safety operations: RAMP_EVAL (R240), ENABLE_TOGGLE (R262), TICK (R263),
SHUTDOWN (R345) and TRANSACT (R336). -/

namespace Sys2Proof.Machine

/-- R240: RAMP_EVAL, on s16 operands and a u16 step. -/
def execRampEval (cur tgt delta : Half) (s : State) : Host.Outcome State Fault Refusal :=
  hostOp (fun s => s.answer .ok (.half (BitVec.ofInt 16 (ramp cur.toInt tgt.toInt delta.toNat)))) s

/-- The groups an ENABLE_TOGGLE mask names (R262). -/
def maskedGroups (mask : Byte) : List GroupIx := allGroups.filter (fun g => mask.getLsbD g.val)

/-- R262: no bit beyond the groups, and no masked group without members. -/
def toggleOk (mask : Byte) (s : State) : Bool :=
  mask.extractLsb' 4 4 == 0 && (maskedGroups mask).all (fun g => !(s.members g).isEmpty)

/-- R262: latch the request of a group; EmergencyStop discards it (R280). -/
def State.latch (g : GroupIx) (s : State) : State :=
  if s.stateOf g = .emergencyStop then s else s.setPending g true

/-- R262: ENABLE_TOGGLE. -/
def execEnableToggle (mask : Byte) (s : State) : Host.Outcome State Fault Refusal :=
  hostOp (fun s =>
    if toggleOk mask s then ((maskedGroups mask).foldl (fun s g => s.latch g) s).answer .ok .none
    else s.raise .invalidArgument) s

/-- R263: TICK. -/
def execTick (now : Time) (s : State) : Host.Outcome State Fault Refusal :=
  hostOp (fun s => (s.tickSteps now).answerEvents) s

/-- R345: SHUTDOWN. -/
def execShutdown (s : State) : Host.Outcome State Fault Refusal :=
  hostOp (fun s => ((forGroups State.shutdownGroup s).setHalted).answerEvents) s

/-- R336: the commands the state machine owns are refused. -/
def ownedByFsm : Cmd → Bool
  | .velocity _ _ => true
  | .enable _ => true
  | .workingCurrent _ => false
  | .holdingCurrentPercent _ => false
  | .pidGains _ _ _ _ _ => false
  | .statusQuery => false

/-- R336: the frame TRANSACT sends and the motor it sends it to; none where an operand check fails. -/
def transactFrame (m : Byte) (cmd : Cmd) (aw : Byte) (s : State) : Option (MotorIx × Bytes) :=
  match motorIxOf m with
  | none => none
  | some k =>
    if entryValid (s.entryOf k) && !ownedByFsm cmd && (aw == 0 || aw == 1) then
      match encodeFrame s.proto (s.addrOf k) cmd s with
      | .ok f => some (k, f)
      | .error _ => none
    else none

/-- R336: TRANSACT. -/
def execTransact (m : Byte) (cmd : Cmd) (aw : Byte) (s : State) : Host.Outcome State Fault Refusal :=
  hostOp (fun s =>
    match transactFrame m cmd aw s with
    | none => s.raise .invalidArgument
    | some (k, f) =>
      match s.transmit f with
      | (false, s1) => s1.answer .transportError (.bytes [])
      | (true, s1) =>
        if aw = 0 then s1.answer .ok (.bytes [])
        else
          match s1.await (s1.addrOf k) ((s1.payload cmd).headD 0) with
          | (none, s2) => s2.answer .noResponse (.bytes [])
          | (some d, s2) => s2.answer .ok (.bytes d)) s

end Sys2Proof.Machine
end

