-- ==== Sys2Proof/Machine/WireCommands.lean ====
section
/-! DEFINITION. The meanings of the seven wire payload rows (R122, R164..R169): a command on the codec's command
port has its payload built under the current configuration, and the payload is the result. Nothing is sent and no
flag is set; only a PidGains in CAN format raises InvalidArgument (R168; log 6). -/

namespace Sys2Proof.Machine

/-- The payload rule of a command, for the configured format (R160..R169). -/
def buildPayload (c : Cmd) (s : State) : State :=
  if cmdOk c && payloadFits s.proto (s.payload c) then s.answer .ok (.bytes (s.payload c))
  else s.raise .invalidArgument

/-- R164: Velocity. -/
def execVelocity (rpm accel : Word) (s : State) : Host.Outcome State Fault Refusal :=
  openOp (buildPayload (.velocity rpm accel)) s

/-- R165: Enable; an argument other than 0 and 1 raises InvalidArgument (R134). -/
def execEnable (e : Byte) (s : State) : Host.Outcome State Fault Refusal :=
  openOp (buildPayload (.enable e)) s

/-- R166: WorkingCurrent. -/
def execWorkingCurrent (ma : Word) (s : State) : Host.Outcome State Fault Refusal :=
  openOp (buildPayload (.workingCurrent ma)) s

/-- R167: HoldingCurrentPercent. -/
def execHoldingCurrentPercent (pct : Word) (s : State) : Host.Outcome State Fault Refusal :=
  openOp (buildPayload (.holdingCurrentPercent pct)) s

/-- R168: PidGains with selector 0, code 0x96. -/
def execPidGains0 (kp ki kd kv : Word) (s : State) : Host.Outcome State Fault Refusal :=
  openOp (buildPayload (.pidGains 0 kp ki kd kv)) s

/-- R168: PidGains with selector 1, code 0x97. -/
def execPidGains1 (kp ki kd kv : Word) (s : State) : Host.Outcome State Fault Refusal :=
  openOp (buildPayload (.pidGains 1 kp ki kd kv)) s

/-- R169: StatusQuery. -/
def execStatusQuery (s : State) : Host.Outcome State Fault Refusal :=
  openOp (buildPayload .statusQuery) s

end Sys2Proof.Machine
end

