-- ==== Sys2Proof/Machine/Dispatch.lean ====
section
/-! DEFINITION. The dispatch: one arm per constructor of Instr, each a call of its meaning. -/

namespace Sys2Proof.Machine

def exec (i : Instr) (s : State) : Host.Outcome State Fault Refusal :=
  match i with
  | .velocity rpm accel => Sys2Proof.Machine.execVelocity rpm accel s
  | .enable e => Sys2Proof.Machine.execEnable e s
  | .workingCurrent ma => Sys2Proof.Machine.execWorkingCurrent ma s
  | .holdingCurrentPercent pct => Sys2Proof.Machine.execHoldingCurrentPercent pct s
  | .pidGains0 kp ki kd kv => Sys2Proof.Machine.execPidGains0 kp ki kd kv s
  | .pidGains1 kp ki kd kv => Sys2Proof.Machine.execPidGains1 kp ki kd kv s
  | .statusQuery => Sys2Proof.Machine.execStatusQuery s
  | .cfgWrite idx value => Sys2Proof.Machine.execCfgWrite idx value s
  | .regRead idx => Sys2Proof.Machine.execRegRead idx s
  | .readLast which => Sys2Proof.Machine.execReadLast which s
  | .encodeOp variant addr cmd => Sys2Proof.Machine.execEncode variant addr cmd s
  | .decodeOp variant frame => Sys2Proof.Machine.execDecode variant frame s
  | .rxFeed data => Sys2Proof.Machine.execRxFeed data s
  | .rxNext => Sys2Proof.Machine.execRxNext s
  | .rampEval cur tgt delta => Sys2Proof.Machine.execRampEval cur tgt delta s
  | .inputSample now targets => Sys2Proof.Machine.execInputSample now targets s
  | .inputLost => Sys2Proof.Machine.execInputLost s
  | .enableToggle mask => Sys2Proof.Machine.execEnableToggle mask s
  | .ioError => Sys2Proof.Machine.execIoError s
  | .transportReopened => Sys2Proof.Machine.execTransportReopened s
  | .tick now => Sys2Proof.Machine.execTick now s
  | .shutdown => Sys2Proof.Machine.execShutdown s
  | .transact m cmd aw => Sys2Proof.Machine.execTransact m cmd aw s

end Sys2Proof.Machine
end

