-- ==== Sys2Proof/Machine/Step.lean ====
section
/-! DEFINITION. One step: the next input is taken and acted on. With no input pending the block waits (R391). -/

namespace Sys2Proof.Machine

/-- Run a host operation word: a word that is no operation raises InvalidArgument (R334). -/
def runWord (bs : Bytes) (s : State) : Host.Outcome State Fault Refusal :=
  match decodeWord bs with
  | .ok i => exec i s
  | .error _ => badWord s

/-- Run a command payload on the command port, read under the current configuration (R130; log 6). -/
def runPayload (q : Bytes) (s : State) : Host.Outcome State Fault Refusal :=
  match decodePayload s.velCap s.sqCode q with
  | .ok i => exec i s
  | .error _ => .refused .illegalPayload

/-- The reset input (R390, R391): every component of the block at its reset value; the world outside (its pending
inputs, its draws, the transmit stream) is not the block's to reset (log 9). -/
def State.afterReset (s : State) : State :=
  { State.reset with
    inputs := s.inputs
    sends := s.sends
    sendCount := s.sendCount
    arrivals := s.arrivals
    txLog := s.txLog }

def step (s : State) : Host.Outcome State Fault Refusal :=
  match s.inputs with
  | [] => .next s
  | .word bs :: rest => runWord bs (s.setInputs rest)
  | .payload q :: rest => runPayload q (s.setInputs rest)
  | .reset :: rest => .next (s.setInputs rest).afterReset

/-- The input that presents a table word's instruction (log 11). -/
def inputOfTable (sq : Byte) (nbits w : Nat) : Input :=
  let bs := tableBytes nbits w
  if startsHostWord bs then .word (cutFront sq bs) else .payload (cutFront sq bs)

/-- The state with one table word presented as the next input (log 12). -/
def State.withFetchWord (s : State) (nbits w : Nat) : State :=
  s.setInputs (inputOfTable s.sqCode nbits w :: s.inputs)

end Sys2Proof.Machine
end

