-- ==== Sys2Proof/Safety.lean ====
section
/-! DEFINITION. The terms in which claims are stated: the invariant of a run, what the sequences never change, the
announced windows of the receive stream, the clamped form of a command, and runs of ticks. -/

namespace Sys2Proof.Machine

/-- A group is driven: its motors may be turning (R260). -/
def driven (x : MState) : Bool := x == .enabled || x == .emergencyStop

/-- A state a group may have at an operation boundary (R286). -/
def boundary (x : MState) : Bool := x == .disabled || x == .enabled || x == .emergencyStop

/-- The reserved bits of the configuration registers read 0 and their WARL fields are legal (R34, R36..R47). -/
structure Regs.Legal (r : Regs) : Prop where
  cfg : r.cfg &&& 0xFFFFC00E = 0
  seqReserved : r.seq &&& 0xFFFFF000 = 0
  enableAttempts : 1 ≤ (r.seq.extractLsb' 0 4).toNat
  disableAttempts : 1 ≤ (r.seq.extractLsb' 4 4).toNat
  zeroRepeat : 2 ≤ (r.seq.extractLsb' 8 4).toNat
  vel : r.vel &&& 0xFF00F000 = 0
  curReserved : r.cur &&& 0xFF00F000 = 0
  wcMa : (r.cur.extractLsb' 0 12).toNat ≤ 3000
  hcPct : (r.cur.extractLsb' 16 8).toNat ∈ [10, 20, 30, 40, 50, 60, 70, 80, 90]
  sqReserved : r.sq &&& 0xFFFFFF00 = 0
  sqCode : r.sq.extractLsb' 0 8 ∉ Config.fixedCodes
  rsplen : r.rsplen &&& 0xF0000000 = 0
  verify : r.verify &&& 0xFFFF0000 = 0

/-- The motor table keeps R54's rules: reserved bits 0, addresses of valid entries fit the format and are unique. -/
structure State.TableLegal (s : State) : Prop where
  reserved : ∀ m : MotorIx, (s.entryOf m) &&& 0x7FFFC800 = 0
  addrPositive : ∀ m : MotorIx, entryValid (s.entryOf m) → 1 ≤ s.addrOf m
  addrFits : ∀ m : MotorIx, entryValid (s.entryOf m) → s.proto = .rs485 → s.addrOf m ≤ 255
  addrUnique : ∀ m k : MotorIx, entryValid (s.entryOf m) → entryValid (s.entryOf k) → s.addrOf m = s.addrOf k → m = k

/-- What holds of the block between operations, in every run from reset. -/
structure State.Inv (s : State) : Prop where
  /-- R34, R39..R47 -/
  regs : s.regs.Legal
  /-- R54 -/
  table : s.TableLegal
  /-- R91 -/
  rxbuf : s.rxbuf.length ≤ 256
  /-- R32, R121 -/
  lastTx : s.lastTx.length ≤ 18
  /-- R32, R121 -/
  lastRx : s.lastRx.length ≤ 18
  /-- R286 -/
  visible : ∀ g : GroupIx, boundary (s.stateOf g)
  /-- R278, R280: no request survives the entry into the emergency stop -/
  noRequest : ∀ g : GroupIx, s.stateOf g = .emergencyStop → s.pendingOf g = false
  /-- R51, I28: the cause of an emergency stop is recorded -/
  causeSaved : ∀ g : GroupIx, s.stateOf g = .emergencyStop → s.causeOf g ≠ 0
  /-- R247: a ramp output is non-zero only for a member of a driven group -/
  rampsIdle : ∀ m : MotorIx, s.rampOf m ≠ 0 → ∃ g : GroupIx, s.isMember g m ∧ driven (s.stateOf g)
  /-- R264, R311: a group is driven only after an input sample -/
  sampled : ∀ g : GroupIx, driven (s.stateOf g) → s.inputValid = true
  /-- R345: after SHUTDOWN every group is Disabled and nothing is pending -/
  stopped : s.halted = true → ∀ g : GroupIx, s.stateOf g = .disabled ∧ s.pendingOf g = false

/-- The components no sequence of TICK, SHUTDOWN or TRANSACT writes: the registers, the motor table, the setpoints
and the input state. -/
structure State.KeepsConfig (s t : State) : Prop where
  regs : t.regs = s.regs
  motor : t.motor = s.motor
  setpoint : t.setpoint = s.setpoint
  lastInputTime : t.lastInputTime = s.lastInputTime
  inputValid : t.inputValid = s.inputValid
  inputLost : t.inputLost = s.inputLost
  inputs : t.inputs = s.inputs

/-- The length of the frame a plausible header of a format at the head of `b` announces (R113, R119, R120, R131);
none where no plausible header begins. -/
def State.announcedAs (s : State) (v : Proto) (b : Bytes) : Option Nat :=
  match v with
  | .can =>
    if 2 ≤ b.length ∧ plausibleCan s.ctrlHi (b.getD 0 0) (b.getD 1 0) then
      some (((b.getD 1 0).extractLsb' 0 4).toNat + 5)
    else none
  | .rs485 => if 3 ≤ b.length then (s.rsLen (b.getD 0 0) (b.getD 2 0)).map (· + 4) else none

/-- R116, R120: a valid frame of a format. -/
def State.validAs (s : State) (v : Proto) (f : Bytes) : Bool :=
  match s.announcedAs v f with
  | none => false
  | some t =>
    f.length == t &&
    match v with
    | .can => validCan f
    | .rs485 => rsChkOk (t - 4) f

/-- The length announced in the configured format. -/
def State.announced (s : State) (b : Bytes) : Option Nat := s.announcedAs s.proto b

/-- A valid frame of the configured format. -/
def State.validFrame (s : State) (f : Bytes) : Bool := s.validAs s.proto f

/-- The address a frame of a format carries (R114, R117). -/
def addressIn (v : Proto) (f : Bytes) : Nat :=
  match v with
  | .can => (f.getD 2 0).toNat + 256 * ((f.getD 3 0).extractLsb' 0 3).toNat
  | .rs485 => (f.getD 1 0).toNat

/-- The command payload a frame of a format carries, its code first (R111, R117). -/
def payloadIn (v : Proto) (f : Bytes) : Bytes :=
  match v with
  | .can => (f.drop 4).take (f.length - 6)
  | .rs485 => (f.drop 2).take (f.length - 3)

/-- The condition of R219 on noise that the bytes `after` follow: at every position of the noise where a plausible
header begins, the window it announces lies within the bytes present and is not a valid frame. -/
def State.harmless (s : State) (noise after : Bytes) : Prop :=
  ∀ i, i < noise.length → ∀ t, s.announced ((noise ++ after).drop i) = some t →
    t ≤ ((noise ++ after).drop i).length ∧ s.validFrame (((noise ++ after).drop i).take t) = false

/-- The command a clamped payload stands for (R164..R168, R181). -/
def clampedCmd (cap : BitVec 12) : Cmd → Cmd
  | .velocity rpm accel =>
    .velocity (BitVec.ofInt 32 (clampInt rpm.toInt (-(cap.toNat : Int)) cap.toNat)) (BitVec.ofInt 32 (clampInt accel.toInt 0 255))
  | .enable e => .enable e
  | .workingCurrent ma => .workingCurrent (BitVec.ofInt 32 (clampInt ma.toInt 0 3000))
  | .holdingCurrentPercent pct => .holdingCurrentPercent (BitVec.ofInt 32 (10 * (clampInt pct.toInt 10 90 / 10)))
  | .pidGains sel kp ki kd kv =>
    .pidGains sel (BitVec.ofInt 32 (clampInt kp.toInt 0 1024)) (BitVec.ofInt 32 (clampInt ki.toInt 0 1024))
      (BitVec.ofInt 32 (clampInt kd.toInt 0 1024)) (BitVec.ofInt 32 (clampInt kv.toInt 0 1024))
  | .statusQuery => .statusQuery

/-- The frames put on the transmit stream so far, oldest first. -/
def State.framesSent (s : State) : List Bytes := s.txLog.map Sent.frame

/-- A run of TICK operations at the given times; none if one does not answer a next state. -/
def runTicks : List Time → State → Option State
  | [], s => some s
  | now :: later, s =>
    match exec (.tick now) s with
    | .next t => runTicks later t
    | .fault _ => none
    | .refused _ => none

/-! ### What operations leave -/

/-- The sticky bit of each status as R360 lists it. -/
def stickyBit : Status → Byte
  | .ok => 0x00
  | .invalidArgument => 0x01
  | .checksumMismatch => 0x02
  | .truncated => 0x04
  | .unknownCommand => 0x08
  | .noResponse => 0x10
  | .transportError => 0x20
  | .verificationFailed => 0x40
  | .halted => 0x00

/-- An operation that changes nothing and returns a status and a result. -/
def State.returned (st : Status) (r : Result) (s : State) : State := { s with reply := ⟨st, r, false, false⟩ }

/-- An operation refused with a fault status: nothing but the named sticky bit changes (R363). -/
def State.failedWith (st : Status) (s : State) : State :=
  { s with sticky := s.sticky ||| stickyBit st, reply := ⟨st, .none, false, false⟩ }

/-- What TransportFault leaves (R316): the sticky bit, the reopen request, and the emergency stop with cause 3 for
every Enabled or Enabling group, each entry counted. -/
structure State.FaultTaken (s t : State) : Prop where
  sticky : t.sticky = s.sticky ||| 0x20
  reopen : t.reopenReq = true
  state : ∀ g, t.stateOf g = if s.stateOf g = .enabled ∨ s.stateOf g = .enabling then .emergencyStop else s.stateOf g
  cause : ∀ g, t.causeOf g = if s.stateOf g = .enabled ∨ s.stateOf g = .enabling then 3 else s.causeOf g
  pending : ∀ g, t.pendingOf g = if s.stateOf g = .enabled ∨ s.stateOf g = .enabling then false else s.pendingOf g
  entries : t.estopCnt = s.estopCnt
    + BitVec.ofNat 32 (allGroups.countP (fun g => decide (s.stateOf g = .enabled ∨ s.stateOf g = .enabling)))
  ramps : t.rampcur = s.rampcur
  buffer : t.rxbuf = s.rxbuf ∧ t.rxdropCnt = s.rxdropCnt ∧ t.norspCnt = s.norspCnt ∧ t.lastRx = s.lastRx
  halted : t.halted = s.halted

/-! ### The payload and frame rules in numbers -/

/-- `Payload(cmd)` as R164..R169 write it, on unbounded integers; none where the rule raises InvalidArgument. -/
def payloadByRule (cap sq : Nat) : Cmd → Option (List Nat)
  | .velocity rpm accel =>
    let speed := min rpm.toInt.natAbs cap
    let dir := if rpm.toInt < 0 ∧ 0 < speed then 1 else 0
    some [0xF6, dir * 128 + speed / 256, speed % 256, (clampInt accel.toInt 0 255).toNat]
  | .enable e => if e.toNat = 0 then some [0xF3, 0] else if e.toNat = 1 then some [0xF3, 1] else none
  | .workingCurrent ma =>
    let m := (clampInt ma.toInt 0 3000).toNat
    some [0x83, m % 256, m / 256]
  | .holdingCurrentPercent pct =>
    let q := 10 * (clampInt pct.toInt 10 90 / 10)
    some [0x9B, (q / 10 - 1).toNat]
  | .pidGains sel kp ki kd kv =>
    let le16 (x : Word) : List Nat := [(clampInt x.toInt 0 1024).toNat % 256, (clampInt x.toInt 0 1024).toNat / 256 % 256]
    if sel.toNat = 0 ∨ sel.toNat = 1 then some ((0x96 + sel.toNat) :: (le16 kp ++ le16 ki ++ le16 kd ++ le16 kv)) else none
  | .statusQuery => some [sq]

/-- FrameCAN and FrameRS as R162 and R163 write them; none where they raise InvalidArgument. -/
def frameByRule (v : Proto) (ctrlHi addr : Nat) (p : List Nat) : Option (List Nat) :=
  match v with
  | .can =>
    if addr < 1 ∨ 0x7FF < addr ∨ 8 < p.length then none
    else some ([0xAA, ctrlHi * 16 + (p.length + 1), addr % 256, addr / 256] ++ p ++ [(addr + p.sum) % 256, 0x55])
  | .rs485 =>
    if addr < 1 ∨ 0xFF < addr then none
    else some ([0xFA, addr] ++ p ++ [(0xFA + addr + p.sum) % 256])

/-- The frame of a command to a motor by the rules R160..R169, in the configured format; none where they raise
InvalidArgument. -/
def State.commandFrame (s : State) (m : MotorIx) (c : Cmd) : Option (List Nat) :=
  (payloadByRule s.velCap.toNat s.sqCode.toNat c).bind (frameByRule s.proto s.ctrlHi.toNat (s.addrOf m))

/-- The start markers of a format (R111, R117). -/
def startMarkers : Proto → List Byte
  | .can => [0xAA]
  | .rs485 => [0xFA, 0xFB]

/-- How many bytes of a format tell the length of the frame (R171, R172). -/
def headerLength : Proto → Nat
  | .can => 2
  | .rs485 => 3

/-- The start marker of a request in a format (R111, R117). -/
def requestMarker : Proto → Byte
  | .can => 0xAA
  | .rs485 => 0xFA

/-- A wire payload row completes with the payload its rule gives, as the model runs it (R164..R169; log 6). -/
def State.builds (s : State) (i : Instr) (c : Cmd) : Prop :=
  ∃ l : Bytes, payloadByRule s.velCap.toNat s.sqCode.toNat c = some (l.map BitVec.toNat)
    ∧ exec i s = .next (s.returned .ok (.bytes l))

/-! ### The receive stream -/

/-- The head of the buffer may still become a frame and is kept (R213, R214, R217): the marker of the format with too
few bytes to tell the length, or a plausible header that announces more bytes than are present. -/
def State.mustWait (s : State) (b : Bytes) : Prop :=
  (s.proto = .can ∧ b.head? = some 0xAA ∧ b.length < 2)
  ∨ (s.proto = .rs485 ∧ (b.head? = some 0xFA ∨ b.head? = some 0xFB) ∧ b.length < 3)
  ∨ (∃ t, s.announced b = some t ∧ b.length < t)

/-- A valid frame of the configured format stands at the head of the bytes (R116, R120). -/
def State.frameAt (s : State) (b : Bytes) : Prop :=
  ∃ t, s.announced b = some t ∧ t ≤ b.length ∧ s.validFrame (b.take t) = true

/-- Match(f, addr, code) as R223 writes it, byte by byte. -/
def matchByRule (v : Proto) (addr : Nat) (code : Byte) (f : Bytes) : Prop :=
  match v with
  | .can =>
    (f.getD 2 0).toNat + 256 * ((f.getD 3 0).extractLsb' 0 3).toNat = addr ∧ 1 + 6 ≤ f.length ∧ f.getD 4 0 = code
  | .rs485 => f.getD 0 0 = 0xFB ∧ (f.getD 1 0).toNat = addr ∧ f.getD 2 0 = code

/-- Data(f) as R223 writes it: the bytes between the code and the checksum. -/
def dataByRule (v : Proto) (f : Bytes) : Bytes :=
  match v with
  | .can => (f.drop 5).take (f.length - 7)
  | .rs485 => (f.drop 3).take (f.length - 4)

/-- The next `Await` for an address and a code is answered (R222): the buffered bytes and the next draw are frames that
do not match, then the answer, then any bytes at all, and they fit the buffer. -/
structure State.Answered (s : State) (addr : Nat) (code : Byte) (skipped : List Bytes) (rsp rest : Bytes) : Prop where
  stream : s.rxbuf ++ s.arrivals.headD [] = skipped.flatten ++ rsp ++ rest
  fits : (s.rxbuf ++ s.arrivals.headD []).length ≤ 256
  skips : ∀ f ∈ skipped, s.validFrame f = true ∧ ¬ matchByRule s.proto addr code f
  valid : s.validFrame rsp = true
  answers : matchByRule s.proto addr code rsp

/-- The next `Await` for an address and a code is not answered (R222): the buffered bytes and the next draw are frames
that do not match, then nothing or what must still be waited for. -/
structure State.Unanswered (s : State) (addr : Nat) (code : Byte) (skipped : List Bytes) (rest : Bytes) : Prop where
  stream : s.rxbuf ++ s.arrivals.headD [] = skipped.flatten ++ rest
  fits : (s.rxbuf ++ s.arrivals.headD []).length ≤ 256
  skips : ∀ f ∈ skipped, s.validFrame f = true ∧ ¬ matchByRule s.proto addr code f
  waits : rest = [] ∨ s.mustWait rest

/-! ### The sequences -/

/-- A frame put on the transmit stream between two states was answered with IoErr. -/
def State.sawIoErr (s t : State) : Prop := ∃ x ∈ t.txLog.drop s.txLog.length, x.outcome ≠ .ok

/-- Every group but `g` is Disabled without a request. -/
def State.othersIdle (s : State) (g : GroupIx) : Prop :=
  ∀ h : GroupIx, h ≠ g → s.stateOf h = .disabled ∧ s.pendingOf h = false

/-- The Velocity(0) frames that begin StopSequence(g), round by round (R275). -/
def State.zeroFrames (s : State) (g : GroupIx) : List Bytes :=
  (List.replicate s.zeroRepeat ((s.members g).map (fun m => s.frameFor m (s.velocityCmd 0)))).flatten

/-- The frames of StopSequence(g) with VERIFY_DIS = 0 (R275). -/
def State.stopFrames (s : State) (g : GroupIx) : List Bytes :=
  s.zeroFrames g ++ (s.members g).map (fun m => s.frameFor m (.enable 0))

/-- The frames of StopSequence(g) with VERIFY_DIS = 1 when no query is answered: DISABLE_ATTEMPTS pairs of
Enable(false) and StatusQuery for each member (R275). -/
def State.exhaustedStopFrames (s : State) (g : GroupIx) : List Bytes :=
  s.zeroFrames g ++ (s.members g).flatMap (fun m =>
    ((List.replicate s.disableAttempts [Cmd.enable 0, Cmd.statusQuery]).flatten).map (s.frameFor m))

/-- The frames of Enabling(g) with VERIFY_EN = 0 (R270). -/
def State.enableFrames (s : State) (g : GroupIx) : List Bytes :=
  (s.members g).flatMap (fun m => (s.handshake ++ [Cmd.enable 1]).map (s.frameFor m))

/-- The ramp output of a driven motor after the ramp step of a TICK (R242, R281). -/
def State.rampedOf (s : State) (m : MotorIx) : Half :=
  BitVec.ofInt 16 (ramp (s.rampOf m).toInt (s.target m) s.rampStep.toNat)

/-- The ramp output after one step of the emergency stop's deceleration (R243). -/
def State.deceledOf (s : State) (m : MotorIx) : Half :=
  BitVec.ofInt 16 (if s.estopStep = 0 then 0 else ramp (s.rampOf m).toInt 0 s.estopStep.toNat)

/-- The ramp outputs with those of a group's members replaced. -/
def State.rampsWith (s : State) (g : GroupIx) (f : MotorIx → Half) : Vector Half 8 :=
  Vector.ofFn (fun m : MotorIx => if s.isMember g m then f m else s.rampOf m)

/-- The state after frames were sent, each accepted by the transport (R14, R96). -/
def State.sentOk (s : State) (frames : List Bytes) (later : List SendOutcome) : State :=
  { s with
    lastTx := frames.getLastD s.lastTx
    txLog := s.txLog ++ frames.map (fun f => ⟨f, .ok⟩)
    sends := later
    sendCount := s.sendCount + frames.length }

/-- What StopSequence(g) leaves, but for the ramp outputs, on a transport that accepts every frame (R275, R277, R272):
without verification; with verification and no answer from any member; with verification and one member whose first
answer is DIS_OK_VAL; and with one member whose only attempt is answered with something else. -/
inductive State.StopsTo (s : State) (g : GroupIx) : State → Prop
  | unverified (later : List SendOutcome) :
    s.verifyDis = false → s.sends = List.replicate (s.stopFrames g).length .ok ++ later →
    State.StopsTo s g { s.sentOk (s.stopFrames g) later with reply := ⟨.ok, .none, false, false⟩ }
  | exhausted (later : List SendOutcome) :
    s.verifyDis = true → 1 ≤ s.disableAttempts → s.members g ≠ [] → s.rxbuf = [] → s.arrivals = [] →
    s.sends = List.replicate (s.exhaustedStopFrames g).length .ok ++ later →
    State.StopsTo s g { s.sentOk (s.exhaustedStopFrames g) later with
      norspCnt := s.norspCnt + BitVec.ofNat 32 ((s.members g).length * s.disableAttempts)
      sticky := s.sticky ||| 0x50
      reply := ⟨.verificationFailed, .none, false, true⟩ }
  | verified (m : MotorIx) (skipped : List Bytes) (rsp rest : Bytes) (later : List SendOutcome) :
    s.verifyDis = true → 1 ≤ s.disableAttempts → s.members g = [m] →
    s.Answered (s.addrOf m) s.sqCode skipped rsp rest → (dataByRule s.proto rsp).head? = some s.disOkVal →
    s.sends = List.replicate ((s.zeroFrames g).length + 2) .ok ++ later →
    State.StopsTo s g
      { s.sentOk (s.zeroFrames g ++ [s.frameFor m (.enable 0), s.frameFor m .statusQuery]) later with
        rxbuf := rest
        arrivals := s.arrivals.tail
        lastRx := rsp
        reply := ⟨.ok, .none, false, false⟩ }
  | refuted (m : MotorIx) (skipped : List Bytes) (rsp rest : Bytes) (later : List SendOutcome) :
    s.verifyDis = true → s.disableAttempts = 1 → s.members g = [m] →
    s.Answered (s.addrOf m) s.sqCode skipped rsp rest → (dataByRule s.proto rsp).head? ≠ some s.disOkVal →
    s.sends = List.replicate ((s.zeroFrames g).length + 2) .ok ++ later →
    State.StopsTo s g
      { s.sentOk (s.zeroFrames g ++ [s.frameFor m (.enable 0), s.frameFor m .statusQuery]) later with
        rxbuf := rest
        arrivals := s.arrivals.tail
        lastRx := rsp
        sticky := s.sticky ||| 0x40
        reply := ⟨.verificationFailed, .none, false, true⟩ }

/-- What an enabling TICK leaves when the transport accepts the first `k` of the frames it would send and refuses the
next (R273 (b), R316). -/
def State.cutAt (s : State) (g : GroupIx) (frames : List Bytes) (k n : Nat) (later : List SendOutcome) : State :=
  { s with
    mstate := s.mstate.set g .emergencyStop
    pending := s.pending.set g false
    ecause := s.ecause.set g 3
    estopCnt := s.estopCnt + 1
    sticky := s.sticky ||| 0x20
    reopenReq := true
    lastTx := frames.getD k []
    txLog := s.txLog ++ (frames.take k).map (fun f => ⟨f, .ok⟩) ++ [⟨frames.getD k [], .ioErr n⟩]
    sends := later
    sendCount := s.sendCount + k + 1
    reply := ⟨.transportError, .none, true, false⟩ }

/-- The largest ramp magnitude of a group's members (R287). -/
def State.maxRamp (s : State) (g : GroupIx) : Nat :=
  ((s.members g).map (fun m => (s.rampOf m).toInt.natAbs)).foldr max 0

/-- The number of TICKs in which R287 brings a group from the watchdog's firing to Disabled. -/
def State.stopTicks (s : State) (g : GroupIx) : Nat :=
  if s.maxRamp g = 0 then 1
  else if s.estopStep = 0 then 2
  else (s.maxRamp g + s.estopStep.toNat - 1) / s.estopStep.toNat + 1

/-- The most frames one StopSequence(g) sends (R289). -/
def State.stopBound (s : State) (g : GroupIx) : Nat :=
  (s.members g).length * s.zeroRepeat + (s.members g).length * 2 * s.disableAttempts

/-- The most frames one Enabling(g) sends (R289). -/
def State.enableBound (s : State) (g : GroupIx) : Nat :=
  (s.members g).length * (2 + 2 * s.enableAttempts) + (s.members g).length

end Sys2Proof.Machine
end

