-- ==== Sys2Proof/Certificates/Slice0/Obligations.lean ====
section
/-! DEFINITION. The statements for the provers. "log n" is notes/assumptions/n.md. A draw of the environment (an answer
to `Send`, a list of arrivals) is a field of the state, so every statement holds for every draw its hypotheses
admit. -/

open Sys2Proof Sys2Proof.Machine

/-! ### Encodings -/

/-- Every instruction is read back from its own bytes, a wire payload row on the command port under the configuration
it was written with, a host operation as a host word (R122, R132..R134). -/
def Obligations.EveryInstructionRoundTrips : Prop :=
  ∀ (cap : BitVec 12) (sq : Byte) (i : Instr), sq ∉ Config.fixedCodes → i.wellFormed cap = true →
    (i.isWire = true → decodePayload cap sq (encode cap sq i) = .ok i) ∧
    (i.isWire = false → decodeWord (encode cap sq i) = .ok i)

/-- The last sentence of R130: the payloads that are read as a command are exactly the images of the legal commands
under the configuration, and each is read as the command it is the image of (R174..R179). -/
def Obligations.PayloadReadsExactlyTheImages : Prop :=
  ∀ (cap : BitVec 12) (sq : Byte) (q : Bytes) (c : Cmd), sq ∉ Config.fixedCodes →
    (parseCommand cap sq q = some c ↔ c.legal cap = true ∧ c.payload cap sq = q)

/-- A byte list that is read as a host operation is the word of a well-formed host operation, every byte of it. -/
def Obligations.HostWordsReadExactly : Prop :=
  ∀ (bs : Bytes) (i : Instr), decodeWord bs = .ok i →
    i.isWire = false ∧ ∀ (cap : BitVec 12) (sq : Byte), i.wellFormed cap = true ∧ encode cap sq i = bs

/-- A few words written out byte by byte from the tables of R122, R133 and R134. -/
def Obligations.SpecWordsDecode : Prop :=
  decodeWord [0x01, 0x03, 0x40, 0x06, 0x32, 0x00] = .ok (.cfgWrite 0x03 0x00320640) ∧
  decodeWord [0x02, 0x11] = .ok (.regRead 0x11) ∧
  decodeWord [0x10, 0x00, 0x01, 0x00, 0x00, 0x64, 0x00, 0x00, 0x00, 0x02, 0x00, 0x00, 0x00]
    = .ok (.encodeOp 0 1 (.velocity 100 2)) ∧
  decodeWord [0x20, 0x03, 0xAA, 0xC5, 0x01] = .ok (.rxFeed [0xAA, 0xC5, 0x01]) ∧
  decodeWord [0x30, 0x00, 0x00, 0x64, 0x00, 0x1E, 0x00] = .ok (.rampEval 0 100 30) ∧
  decodeWord [0x40, 0xA0, 0x86, 0x01, 0x00, 0x00, 0x00, 0x00, 0x00, 0x02, 0x64, 0x00, 0x9C, 0xFF]
    = .ok (.inputSample 100000 [0x0064, 0xFF9C]) ∧
  decodeWord [0x42, 0x01] = .ok (.enableToggle 0x01) ∧
  decodeWord [0x45, 0x50, 0xC3, 0x00, 0x00, 0x00, 0x00, 0x00, 0x00] = .ok (.tick 50000) ∧
  decodeWord [0x47, 0x00, 0x05, 0x01] = .ok (.transact 0 .statusQuery 1) ∧
  decodePayload 3000 0x3A [0xF6, 0x80, 0x32, 0x00] = .ok (.velocity (-50) 0) ∧
  decodePayload 3000 0x3A [0x9B, 0x04] = .ok (.holdingCurrentPercent 50) ∧
  decodePayload 3000 0x3A [0x3A] = .ok .statusQuery

/-- R334, R368: a host word that is the word of no host operation (a reserved opcode or tag, a length that does not
match) raises InvalidArgument and does nothing else; while halted it returns Halted and sets no flag (log 15). -/
def Obligations.BadHostWordRaisesInvalidArgument : Prop :=
  ∀ (s : State) (bs : Bytes) (rest : List Input), s.inputs = .word bs :: rest →
    (∀ i : Instr, i.isWire = false → i.wellFormed 0 = true → encode 0 0 i ≠ bs) →
    (s.halted = false → step s = .next (({ s with inputs := rest } : State).failedWith .invalidArgument)) ∧
    (s.halted = true → step s = .next (({ s with inputs := rest } : State).returned .halted .none))

/-! ### The frame codec -/

/-- R160..R169: ENCODE returns the frame its rules give, byte for byte, or raises InvalidArgument; it changes nothing
but the reply and E_INVALID. The rules are `payloadByRule` and `frameByRule`, on unbounded integers. -/
def Obligations.EncodeFollowsTheRules : Prop :=
  ∀ (s : State) (variant : Byte) (addr : Half) (c : Cmd), s.halted = false →
    (1 < variant.toNat → exec (.encodeOp variant addr c) s = .next (s.failedWith .invalidArgument)) ∧
    ∀ v : Proto, (variant = 0 ∧ v = .can ∨ variant = 1 ∧ v = .rs485) →
      (∀ f, (payloadByRule s.velCap.toNat s.sqCode.toNat c).bind (frameByRule v s.ctrlHi.toNat addr.toNat) = some f →
        ∃ l : Bytes, l.map BitVec.toNat = f ∧ exec (.encodeOp variant addr c) s = .next (s.returned .ok (.bytes l))) ∧
      ((payloadByRule s.velCap.toNat s.sqCode.toNat c).bind (frameByRule v s.ctrlHi.toNat addr.toNat) = none →
        exec (.encodeOp variant addr c) s = .next (s.failedWith .invalidArgument))

/-- The seven wire payload rows, which the model runs on the codec's command port (the model's choice, log 6): each
builds the payload its rule gives (R164..R169); Enable of another argument and PidGains in CAN format raise
InvalidArgument. -/
def Obligations.WirePayloadRowsBuildTheirPayload : Prop :=
  ∀ s : State,
    (∀ rpm accel, s.builds (.velocity rpm accel) (.velocity rpm accel)) ∧
    (∀ e : Byte, e = 0 ∨ e = 1 → s.builds (.enable e) (.enable e)) ∧
    (∀ e : Byte, e ≠ 0 → e ≠ 1 → exec (.enable e) s = .next (s.failedWith .invalidArgument)) ∧
    (∀ ma, s.builds (.workingCurrent ma) (.workingCurrent ma)) ∧
    (∀ pct, s.builds (.holdingCurrentPercent pct) (.holdingCurrentPercent pct)) ∧
    (∀ kp ki kd kv, s.proto = .rs485 →
      s.builds (.pidGains0 kp ki kd kv) (.pidGains 0 kp ki kd kv) ∧
      s.builds (.pidGains1 kp ki kd kv) (.pidGains 1 kp ki kd kv)) ∧
    (∀ kp ki kd kv, s.proto = .can →
      exec (.pidGains0 kp ki kd kv) s = .next (s.failedWith .invalidArgument) ∧
      exec (.pidGains1 kp ki kd kv) s = .next (s.failedWith .invalidArgument)) ∧
    s.builds .statusQuery .statusQuery

/-- R181: DECODE gives back the command ENCODE was given, clamped where it was out of range, and a legal command is
its own clamped form. -/
def Obligations.DecodeInvertsEncode : Prop :=
  ∀ (s : State) (variant : Byte) (v : Proto) (addr : Half) (c : Cmd), s.halted = false →
    s.sqCode ∉ Config.fixedCodes → (variant = 0 ∧ v = .can ∨ variant = 1 ∧ v = .rs485) →
    1 ≤ addr.toNat → addr.toNat ≤ (if v = .can then 0x7FF else 0xFF) →
    (∀ e, c = .enable e → e = 0 ∨ e = 1) →
    (∀ sel kp ki kd kv, c = .pidGains sel kp ki kd kv → v = .rs485 ∧ (sel = 0 ∨ sel = 1)) →
    ∃ f : Bytes, exec (.encodeOp variant addr c) s = .next (s.returned .ok (.bytes f)) ∧
      exec (.decodeOp variant f) s
        = .next (s.returned .ok (.decoded ⟨some (clampedCmd s.velCap c), requestMarker v, addr,
            (s.payload c).headD 0, (s.payload c).tail⟩)) ∧
      (c.legal s.velCap = true → clampedCmd s.velCap c = c)

/-- R182: what DECODE answers to a valid frame with one byte changed, in both formats. -/
def Obligations.SingleByteCorruption : Prop :=
  ∀ (s : State) (f : Bytes) (i : Nat) (b : Byte), s.halted = false → i < f.length → b ≠ f.getD i 0 →
    (s.validAs .can f = true →
      ((i = 0 ∨ i = 2 ∨ 4 ≤ i) → exec (.decodeOp 0 (f.set i b)) s = .next (s.failedWith .checksumMismatch)) ∧
      (i = 1 →
        (plausibleCan s.ctrlHi 0xAA b = true → f.length < (b.extractLsb' 0 4).toNat + 5 →
          exec (.decodeOp 0 (f.set i b)) s = .next (s.failedWith .truncated)) ∧
        (plausibleCan s.ctrlHi 0xAA b = true → (b.extractLsb' 0 4).toNat + 5 ≤ f.length →
          exec (.decodeOp 0 (f.set i b)) s = .next (s.failedWith .checksumMismatch)) ∧
        (plausibleCan s.ctrlHi 0xAA b = false →
          exec (.decodeOp 0 (f.set i b)) s = .next (s.failedWith .checksumMismatch))) ∧
      (i = 3 →
        (b.extractLsb' 3 5 ≠ 0 → exec (.decodeOp 0 (f.set i b)) s = .next (s.failedWith .checksumMismatch)) ∧
        (b.extractLsb' 3 5 = 0 →
          (∀ d, exec (.decodeOp 0 f) s = .next (s.returned .ok (.decoded d)) →
            exec (.decodeOp 0 (f.set i b)) s = .next (s.returned .ok (.decoded
              { d with addr := BitVec.ofNat 16 ((f.getD 2 0).toNat + 256 * (b.extractLsb' 0 3).toNat) }))) ∧
          (∀ st, exec (.decodeOp 0 f) s = .next (s.failedWith st) →
            exec (.decodeOp 0 (f.set i b)) s = .next (s.failedWith st))))) ∧
    (s.validAs .rs485 f = true →
      ((i = 1 ∨ 3 ≤ i) → exec (.decodeOp 1 (f.set i b)) s = .next (s.failedWith .checksumMismatch)) ∧
      (i = 0 → b ≠ 0xFA → b ≠ 0xFB →
        exec (.decodeOp 1 (f.set i b)) s = .next (s.failedWith .checksumMismatch)) ∧
      (i = 0 ∧ (b = 0xFA ∨ b = 0xFB) ∨ i = 2 →
        let n := s.rsLen ((f.set i b).getD 0 0) ((f.set i b).getD 2 0)
        (n = none → exec (.decodeOp 1 (f.set i b)) s = .next (s.failedWith .unknownCommand)) ∧
        (∀ k, n = some k → f.length < k + 4 →
          exec (.decodeOp 1 (f.set i b)) s = .next (s.failedWith .truncated)) ∧
        (∀ k, n = some k → k + 4 ≤ f.length →
          exec (.decodeOp 1 (f.set i b)) s = .next (s.failedWith .checksumMismatch))))

/-- R170..R173, R362: DECODE takes exactly the valid frames apart. A byte list that is no valid frame gives the error of
its first failing check: Truncated for no byte, for a header cut short and for fewer bytes than the header announces,
ChecksumMismatch for a wrong start marker, an implausible CAN header and every later check, UnknownCommand for an RS485
code without a length. A valid frame of an unknown code, of no code, or an RS485 request that is no command gives
UnknownCommand; every other valid frame gives its record. -/
def Obligations.DecodeReturnsTheFrameOrAnError : Prop :=
  ∀ (s : State) (variant : Byte) (f : Bytes), s.halted = false →
    (1 < variant.toNat → exec (.decodeOp variant f) s = .next (s.failedWith .invalidArgument)) ∧
    ∀ v : Proto, (variant = 0 ∧ v = .can ∨ variant = 1 ∧ v = .rs485) →
      (s.validAs v f = false →
        (f = [] → exec (.decodeOp variant f) s = .next (s.failedWith .truncated)) ∧
        (f ≠ [] → f.getD 0 0 ∉ startMarkers v →
          exec (.decodeOp variant f) s = .next (s.failedWith .checksumMismatch)) ∧
        (f ≠ [] → f.getD 0 0 ∈ startMarkers v → f.length < headerLength v →
          exec (.decodeOp variant f) s = .next (s.failedWith .truncated)) ∧
        (f.getD 0 0 ∈ startMarkers v → headerLength v ≤ f.length → s.announcedAs v f = none →
          exec (.decodeOp variant f) s
            = .next (s.failedWith (if v = .can then .checksumMismatch else .unknownCommand))) ∧
        ∀ t, s.announcedAs v f = some t →
          (f.length < t → exec (.decodeOp variant f) s = .next (s.failedWith .truncated)) ∧
          (t ≤ f.length → exec (.decodeOp variant f) s = .next (s.failedWith .checksumMismatch))) ∧
      (s.validAs v f = true →
        (payloadIn v f = [] → exec (.decodeOp variant f) s = .next (s.failedWith .unknownCommand)) ∧
        ∀ code data, payloadIn v f = code :: data →
          (s.knownCode code = false → exec (.decodeOp variant f) s = .next (s.failedWith .unknownCommand)) ∧
          (s.knownCode code = true → v = .rs485 → f.getD 0 0 = 0xFB →
            exec (.decodeOp variant f) s
              = .next (s.returned .ok (.decoded ⟨none, 0xFB, BitVec.ofNat 16 (addressIn v f), code, data⟩))) ∧
          (s.knownCode code = true → v = .rs485 → f.getD 0 0 = 0xFA →
            parseCommand s.velCap s.sqCode (code :: data) = none →
            exec (.decodeOp variant f) s = .next (s.failedWith .unknownCommand)) ∧
          (s.knownCode code = true → (v = .can ∨ f.getD 0 0 = 0xFA ∧
              parseCommand s.velCap s.sqCode (code :: data) ≠ none) →
            exec (.decodeOp variant f) s
              = .next (s.returned .ok (.decoded ⟨parseCommand s.velCap s.sqCode (code :: data), requestMarker v,
                  BitVec.ofNat 16 (addressIn v f), code, data⟩))))

/-! ### The stream deframer -/

/-- R210, R211: RX_FEED appends every byte; beyond 256 the oldest bytes are dropped, each counted, and RX_OVF is set. -/
def Obligations.RxFeedKeepsTheNewest : Prop :=
  ∀ (s : State) (data : Bytes), s.halted = false → s.rxbuf.length ≤ 256 →
    exec (.rxFeed data) s = .next { s with
      rxbuf := (s.rxbuf ++ data).drop (s.rxbuf.length + data.length - 256)
      rxdropCnt := s.rxdropCnt + BitVec.ofNat 32 (s.rxbuf.length + data.length - 256)
      sticky := if s.rxbuf.length + data.length ≤ 256 then s.sticky else s.sticky ||| 0x80
      reply := ⟨.ok, .none, false, false⟩ }

/-- R212..R216, R220: RX_NEXT always completes. It drops leading bytes, each counted, none of which begins a valid frame
or must be waited for, and then either returns the valid frame that stands there or keeps what must be waited for. -/
def Obligations.RxNextEmitsTheFirstFrame : Prop :=
  ∀ s : State, s.halted = false →
    ∃ dropped kept : Bytes, s.rxbuf = dropped ++ kept ∧
      (∀ i, i < dropped.length → ¬ s.mustWait (s.rxbuf.drop i) ∧ ¬ s.frameAt (s.rxbuf.drop i)) ∧
      ((∃ f rest, kept = f ++ rest ∧ s.validFrame f = true ∧
          exec .rxNext s = .next { s with
            rxbuf := rest
            rxdropCnt := s.rxdropCnt + BitVec.ofNat 32 dropped.length
            lastRx := f
            reply := ⟨.ok, .bytes f, false, false⟩ }) ∨
        ((kept = [] ∨ s.mustWait kept) ∧
          exec .rxNext s = .next { s with
            rxbuf := kept
            rxdropCnt := s.rxdropCnt + BitVec.ofNat 32 dropped.length
            reply := ⟨.ok, .bytes [], false, false⟩ }))

/-- R219, the resynchronisation guarantee: two frames in noise are both returned, in order, and what stays buffered
after them is the third noise. -/
def Obligations.Resynchronisation : Prop :=
  ∀ (s : State) (noise1 f1 noise2 f2 noise3 : Bytes), s.halted = false → s.rxbuf = [] →
    (noise1 ++ f1 ++ noise2 ++ f2 ++ noise3).length ≤ 256 →
    s.validFrame f1 = true → s.validFrame f2 = true →
    s.harmless noise1 (f1 ++ noise2 ++ f2 ++ noise3) → s.harmless noise2 (f2 ++ noise3) →
    ∃ s1 s2 s3 : State,
      exec (.rxFeed (noise1 ++ f1 ++ noise2 ++ f2 ++ noise3)) s = .next s1 ∧
      exec .rxNext s1 = .next s2 ∧ s2.reply = ⟨.ok, .bytes f1, false, false⟩ ∧
      s2.rxbuf = noise2 ++ f2 ++ noise3 ∧ s2.lastRx = f1 ∧
      exec .rxNext s2 = .next s3 ∧ s3.reply = ⟨.ok, .bytes f2, false, false⟩ ∧
      s3.rxbuf = noise3 ∧ s3.lastRx = f2 ∧
      s3.rxdropCnt = s.rxdropCnt + BitVec.ofNat 32 (noise1.length + noise2.length)

/-! ### The velocity ramp -/

/-- R240, R241, R246: RAMP_EVAL moves from `cur` towards `tgt` by at most `delta`, never past it; the result is exact
in 16 bits and no state changes. -/
def Obligations.RampEvalMovesTowardsTheTarget : Prop :=
  ∀ (s : State) (cur tgt delta : Half), s.halted = false →
    ∃ v : Half, exec (.rampEval cur tgt delta) s = .next (s.returned .ok (.half v)) ∧
      ((tgt.toInt - cur.toInt).natAbs ≤ delta.toNat → v = tgt) ∧
      (delta.toNat < (tgt.toInt - cur.toInt).natAbs → cur.toInt < tgt.toInt → v.toInt = cur.toInt + delta.toNat) ∧
      (delta.toNat < (tgt.toInt - cur.toInt).natAbs → tgt.toInt < cur.toInt → v.toInt = cur.toInt - delta.toNat) ∧
      min cur.toInt tgt.toInt ≤ v.toInt ∧ v.toInt ≤ max cur.toInt tgt.toInt

/-- R245, every clause: the step bound, no overshoot, arrival after exactly the quotient rounded up, no movement at
step 0, and rest at the target. -/
def Obligations.RampConverges : Prop :=
  ∀ (c t : Int) (d : Nat),
    (ramp c t d - c).natAbs ≤ d ∧
    min c t ≤ ramp c t d ∧ ramp c t d ≤ max c t ∧
    (0 < d → ∀ n : Nat, ((fun x => ramp x t d)^[n] c = t ↔ ((t - c).natAbs + d - 1) / d ≤ n)) ∧
    (t ≠ c → ∀ n : Nat, (fun x => ramp x t 0)^[n] c = c) ∧
    ramp c c d = c

/-! ### Registers -/

/-- R330, R33: REG_READ of a stored register returns it, an unassigned index raises InvalidArgument; nothing else
changes, halted or not. -/
def Obligations.RegReadReturnsStoredRegisters : Prop :=
  ∀ s : State,
    exec (.regRead 0x00) s = .next (s.returned .ok (.word s.regs.cfg)) ∧
    exec (.regRead 0x01) s = .next (s.returned .ok (.word s.regs.seq)) ∧
    exec (.regRead 0x02) s = .next (s.returned .ok (.word s.regs.vel)) ∧
    exec (.regRead 0x03) s = .next (s.returned .ok (.word s.regs.cur)) ∧
    exec (.regRead 0x04) s = .next (s.returned .ok (.word s.regs.ramp)) ∧
    exec (.regRead 0x05) s = .next (s.returned .ok (.word s.regs.wdTimeout)) ∧
    exec (.regRead 0x06) s = .next (s.returned .ok (.word s.regs.rspTimeout)) ∧
    exec (.regRead 0x07) s = .next (s.returned .ok (.word s.regs.sq)) ∧
    exec (.regRead 0x08) s = .next (s.returned .ok (.word s.regs.rsplen)) ∧
    exec (.regRead 0x09) s = .next (s.returned .ok (.word s.regs.verify)) ∧
    exec (.regRead 0x13) s = .next (s.returned .ok (.word s.norspCnt)) ∧
    exec (.regRead 0x14) s = .next (s.returned .ok (.word s.rxdropCnt)) ∧
    exec (.regRead 0x15) s = .next (s.returned .ok (.word s.estopCnt)) ∧
    (∀ m : MotorIx, exec (.regRead (BitVec.ofNat 8 (0x20 + m.val))) s
      = .next (s.returned .ok (.word (s.entryOf m)))) ∧
    (∀ idx : Byte, ((0x0A ≤ idx.toNat ∧ idx.toNat < 0x10) ∨ (0x17 ≤ idx.toNat ∧ idx.toNat < 0x20)
        ∨ (0x28 ≤ idx.toNat ∧ idx.toNat < 0x30) ∨ 0x40 ≤ idx.toNat) →
      exec (.regRead idx) s = .next (s.failedWith .invalidArgument))

/-- R48, R50, R51, R53, R56, R57, R59: the registers computed at the read. STATUS mirrors internal state in bits 11:8, GSTATE
and ECAUSE hold a field for each group, RX_LEVEL the buffer's length, SETPOINT and RAMPCUR read sign-extended, and
reserved bits read 0. -/
def Obligations.RegReadComputesTheViews : Prop :=
  ∀ s : State,
    (∃ v : Word, exec (.regRead 0x10) s = .next (s.returned .ok (.word v)) ∧ v.extractLsb' 0 8 = s.sticky ∧
      v.getLsbD 8 = s.reopenReq ∧ v.getLsbD 9 = s.halted ∧ v.getLsbD 10 = s.inputValid ∧
      v.getLsbD 11 = s.inputLost ∧ v.extractLsb' 12 20 = 0) ∧
    (∃ v : Word, exec (.regRead 0x11) s = .next (s.returned .ok (.word v)) ∧ v.extractLsb' 16 16 = 0 ∧
      ∀ g : GroupIx,
        (v.extractLsb' (4 * g.val) 3 = match s.stateOf g with
          | .disabled => 0 | .enabling => 1 | .enabled => 2 | .disabling => 3 | .emergencyStop => 4) ∧
        v.getLsbD (4 * g.val + 3) = s.pendingOf g) ∧
    (∃ v : Word, exec (.regRead 0x12) s = .next (s.returned .ok (.word v)) ∧ v.extractLsb' 8 24 = 0 ∧
      ∀ g : GroupIx, v.extractLsb' (2 * g.val) 2 = s.causeOf g) ∧
    (s.rxbuf.length ≤ 256 → ∃ v : Word, exec (.regRead 0x16) s = .next (s.returned .ok (.word v)) ∧
      v.toNat = s.rxbuf.length) ∧
    (∀ m : MotorIx, ∃ v : Word, exec (.regRead (BitVec.ofNat 8 (0x30 + m.val))) s = .next (s.returned .ok (.word v)) ∧
      v.toInt = (s.setpointOf m).toInt) ∧
    (∀ m : MotorIx, ∃ v : Word, exec (.regRead (BitVec.ofNat 8 (0x38 + m.val))) s = .next (s.returned .ok (.word v)) ∧
      v.toInt = (s.rampOf m).toInt)

/-- R34, R36, R39..R47, R332: what an accepted CFG_WRITE of a configuration register stores, field by field, in any
state of the groups; reserved bits become 0 and no other register changes. -/
def Obligations.CfgWriteStoresLegalValues : Prop :=
  ∀ (s : State) (v : Word), s.halted = false →
    (v.getLsbD 0 = s.regs.cfg.getLsbD 0 → exec (.cfgWrite 0x00 v) s = .next { s with
      regs := { s.regs with cfg := v &&& 0x00003FF1 }, reply := ⟨.ok, .none, false, false⟩ }) ∧
    (∃ w : Word, exec (.cfgWrite 0x01 v) s = .next { s with
        regs := { s.regs with seq := w }, reply := ⟨.ok, .none, false, false⟩ } ∧
      (w.extractLsb' 0 4).toNat = max 1 (v.extractLsb' 0 4).toNat ∧
      (w.extractLsb' 4 4).toNat = max 1 (v.extractLsb' 4 4).toNat ∧
      (w.extractLsb' 8 4).toNat = max 2 (v.extractLsb' 8 4).toNat ∧ w.extractLsb' 12 20 = 0) ∧
    exec (.cfgWrite 0x02 v) s = .next { s with
      regs := { s.regs with vel := v &&& 0x00FF0FFF }, reply := ⟨.ok, .none, false, false⟩ } ∧
    (∃ w : Word, exec (.cfgWrite 0x03 v) s = .next { s with
        regs := { s.regs with cur := w }, reply := ⟨.ok, .none, false, false⟩ } ∧
      (w.extractLsb' 0 12).toNat = min (v.extractLsb' 0 12).toNat 3000 ∧
      (w.extractLsb' 16 8).toNat = 10 * (min (max (v.extractLsb' 16 8).toNat 10) 90 / 10) ∧
      w.extractLsb' 12 4 = 0 ∧ w.extractLsb' 24 8 = 0) ∧
    exec (.cfgWrite 0x04 v) s = .next { s with
      regs := { s.regs with ramp := v }, reply := ⟨.ok, .none, false, false⟩ } ∧
    exec (.cfgWrite 0x05 v) s = .next { s with
      regs := { s.regs with wdTimeout := v }, reply := ⟨.ok, .none, false, false⟩ } ∧
    exec (.cfgWrite 0x06 v) s = .next { s with
      regs := { s.regs with rspTimeout := v }, reply := ⟨.ok, .none, false, false⟩ } ∧
    exec (.cfgWrite 0x08 v) s = .next { s with
      regs := { s.regs with rsplen := v &&& 0x0FFFFFFF }, reply := ⟨.ok, .none, false, false⟩ } ∧
    exec (.cfgWrite 0x09 v) s = .next { s with
      regs := { s.regs with verify := v &&& 0x0000FFFF }, reply := ⟨.ok, .none, false, false⟩ }

/-- R37, R45, R54 with R33, R34: exactly when a checked or restricted CFG_WRITE is accepted, and that a refused one, a
write to a read-only register and a write to an unassigned index raise InvalidArgument and change nothing else. -/
def Obligations.CfgWriteChecksProtoSqAndMotor : Prop :=
  ∀ (s : State) (v : Word), s.halted = false →
    (v.getLsbD 0 ≠ s.regs.cfg.getLsbD 0 →
      let accepted := (∀ g : GroupIx, s.stateOf g = .disabled) ∧
        (v.getLsbD 0 = true → ∀ m : MotorIx, (s.entryOf m).getLsbD 31 = true → ((s.entryOf m).extractLsb' 0 11).toNat ≤ 0xFF)
      (accepted → exec (.cfgWrite 0x00 v) s = .next { s with
        regs := { s.regs with cfg := v &&& 0x00003FF1 }, reply := ⟨.ok, .none, false, false⟩ }) ∧
      (¬ accepted → exec (.cfgWrite 0x00 v) s = .next (s.failedWith .invalidArgument))) ∧
    (v.extractLsb' 0 8 ∈ [0xF6, 0xF3, 0x83, 0x9B, 0x96, 0x97] →
      exec (.cfgWrite 0x07 v) s = .next (s.failedWith .invalidArgument)) ∧
    (v.extractLsb' 0 8 ∉ [0xF6, 0xF3, 0x83, 0x9B, 0x96, 0x97] →
      exec (.cfgWrite 0x07 v) s = .next { s with
        regs := { s.regs with sq := v &&& 0x000000FF }, reply := ⟨.ok, .none, false, false⟩ }) ∧
    (∀ m : MotorIx,
      let addr := (v.extractLsb' 0 11).toNat
      let accepted := (∀ g : GroupIx, s.stateOf g = .disabled) ∧
        (v.getLsbD 31 = true → addr ≠ 0 ∧ (s.proto = .rs485 → addr ≤ 0xFF) ∧
          ∀ k : MotorIx, k ≠ m → (s.entryOf k).getLsbD 31 = true → ((s.entryOf k).extractLsb' 0 11).toNat ≠ addr)
      (accepted → exec (.cfgWrite (BitVec.ofNat 8 (0x20 + m.val)) v) s = .next { s with
        motor := s.motor.set m (v &&& 0x800037FF), reply := ⟨.ok, .none, false, false⟩ }) ∧
      (¬ accepted →
        exec (.cfgWrite (BitVec.ofNat 8 (0x20 + m.val)) v) s = .next (s.failedWith .invalidArgument))) ∧
    (∀ idx : Byte, ((0x0A ≤ idx.toNat ∧ idx.toNat < 0x10) ∨ (0x11 ≤ idx.toNat ∧ idx.toNat < 0x20)
        ∨ 0x28 ≤ idx.toNat) →
      exec (.cfgWrite idx v) s = .next (s.failedWith .invalidArgument))

/-- The W1C write of R332: a 1 in bits 7:0 clears the sticky bit, a 0 leaves it, bits 31:8 are ignored. -/
def Obligations.StatusWriteClearsWrittenBits : Prop :=
  ∀ (s : State) (v : Word), s.halted = false →
    ∃ t : State, exec (.cfgWrite 0x10 v) s = .next t ∧
      t = { s with sticky := t.sticky, reply := ⟨.ok, .none, false, false⟩ } ∧
      ∀ k, k < 8 → t.sticky.getLsbD k = (s.sticky.getLsbD k && !v.getLsbD k)

/-- R337: READ_LAST returns the last frame sent or received, halted or not, and refuses any other selector. -/
def Obligations.ReadLastReturnsTheLastFrames : Prop :=
  ∀ s : State,
    exec (.readLast 0) s = .next (s.returned .ok (.bytes s.lastTx)) ∧
    exec (.readLast 1) s = .next (s.returned .ok (.bytes s.lastRx)) ∧
    (∀ which : Byte, 1 < which.toNat → exec (.readLast which) s = .next (s.failedWith .invalidArgument)) ∧
    State.reset.lastTx = [] ∧ State.reset.lastRx = []

/-- R48: no operation but the W1C write to STATUS clears a sticky error bit. -/
def Obligations.StickyBitsStaySet : Prop :=
  ∀ (i : Instr) (s t : State), exec i s = .next t → (∀ v, i ≠ .cfgWrite 0x10 v) →
    ∀ k, s.sticky.getLsbD k = true → t.sticky.getLsbD k = true

/-! ### Inputs, link reports and requests -/

/-- R310: an accepted sample replaces every setpoint, stamps the time and marks the input live; more than eight values
raise InvalidArgument. -/
def Obligations.InputSampleReplacesTheSetpoints : Prop :=
  ∀ (s : State) (now : Time) (targets : List Half), s.halted = false →
    (8 < targets.length → exec (.inputSample now targets) s = .next (s.failedWith .invalidArgument)) ∧
    (targets.length ≤ 8 → ∃ t : State, exec (.inputSample now targets) s = .next t ∧
      t = { s with setpoint := t.setpoint, lastInputTime := now, inputValid := true, inputLost := false,
                   reply := ⟨.ok, .none, false, false⟩ } ∧
      ∀ m : MotorIx, t.setpointOf m = if h : m.val < targets.length then targets[m.val] else 0)

/-- R312, R317: INPUT_LOST sets its flag; TRANSPORT_REOPENED empties the buffer without counting and clears the request. -/
def Obligations.LinkReportsSetTheirFlags : Prop :=
  ∀ s : State, s.halted = false →
    exec .inputLost s = .next { s with inputLost := true, reply := ⟨.ok, .none, false, false⟩ } ∧
    exec .transportReopened s
      = .next { s with rxbuf := [], reopenReq := false, reply := ⟨.ok, .none, false, false⟩ }

/-- R315, R316: IO_ERROR is a transport fault: every Enabled or Enabling group enters the emergency stop with cause 3,
each entry counted, the reopen request and E_TRANSPORT are set, and TransportError is returned. Nothing is sent. -/
def Obligations.IoErrorStopsTheEnabledGroups : Prop :=
  ∀ s : State, s.halted = false →
    ∃ t : State, exec .ioError s = .next t ∧ s.FaultTaken t ∧ s.KeepsConfig t ∧
      t.reply = ⟨.transportError, .none, true, false⟩ ∧
      t.lastTx = s.lastTx ∧ t.txLog = s.txLog ∧ t.sends = s.sends ∧ t.sendCount = s.sendCount ∧
      t.arrivals = s.arrivals

/-- R262, R280: ENABLE_TOGGLE latches a request for every group its mask names, but for a group in EmergencyStop; a bit
beyond the groups or an empty group raises InvalidArgument. -/
def Obligations.EnableToggleLatchesRequests : Prop :=
  ∀ (s : State) (mask : Byte), s.halted = false →
    let accepted := mask.toNat < 16 ∧ ∀ g : GroupIx, mask.getLsbD g.val = true → ∃ m : MotorIx, s.isMember g m = true
    (¬ accepted → exec (.enableToggle mask) s = .next (s.failedWith .invalidArgument)) ∧
    (accepted → ∃ t : State, exec (.enableToggle mask) s = .next t ∧
      t = { s with pending := t.pending, reply := ⟨.ok, .none, false, false⟩ } ∧
      ∀ g : GroupIx, t.pendingOf g
        = if mask.getLsbD g.val = true ∧ s.stateOf g ≠ .emergencyStop then true else s.pendingOf g)

/-- R311: the staleness of the input at a time. -/
def Obligations.StaleByAgeOrLoss : Prop :=
  ∀ (s : State) (now : Time), s.stale now = true ↔
    s.inputValid = false ∨ s.inputLost = true ∨ now.toNat < s.lastInputTime.toNat ∨
      s.regs.wdTimeout.toNat < now.toNat - s.lastInputTime.toNat

/-! ### The control tick -/

/-- A corner case of R263: with every group Disabled and no request, TICK sends nothing and changes nothing. -/
def Obligations.QuietTickChangesNothing : Prop :=
  ∀ (s : State) (now : Time), s.halted = false → (∀ g : GroupIx, s.stateOf g = .disabled ∧ s.pendingOf g = false) →
    exec (.tick now) s = .next (s.returned .ok .none)

/-- R264: a request consumed while the input is stale is discarded; no frame, no error bit, every group stays Disabled. -/
def Obligations.StaleRequestIsDiscarded : Prop :=
  ∀ (s : State) (now : Time), s.halted = false → s.stale now = true → (∀ g : GroupIx, s.stateOf g = .disabled) →
    exec (.tick now) s = .next { s with
      pending := Vector.replicate 4 false, reply := ⟨.ok, .none, false, false⟩ }

/-- R263, R270, R271, R281, R282: a fresh request of a Disabled group with VERIFY_EN = 0: the handshake and one
Enable(true) to every member in order, the group Enabled, and in the same TICK one ramp step and one velocity command
for each member. First, the commands themselves: the handshake for each HS_WC, HS_HC and HS_ORDER, and `V(v)`. -/
def Obligations.EnablingTickDrivesTheGroup : Prop :=
  ∀ s : State,
    (let wc := Cmd.workingCurrent ((s.regs.cur.extractLsb' 0 12).setWidth 32)
     let hc := Cmd.holdingCurrentPercent ((s.regs.cur.extractLsb' 16 8).setWidth 32)
     s.handshake = match s.regs.cfg.getLsbD 11, s.regs.cfg.getLsbD 12, s.regs.cfg.getLsbD 13 with
      | false, false, _ => []
      | true, false, _ => [wc]
      | false, true, _ => [hc]
      | true, true, false => [wc, hc]
      | true, true, true => [hc, wc]) ∧
    (∀ v : Half, s.velocityCmd v = .velocity (v.signExtend 32) ((s.regs.vel.extractLsb' 16 8).setWidth 32)) ∧
    ∀ (g : GroupIx) (now : Time) (later : List SendOutcome), s.halted = false → s.stale now = false →
      s.stateOf g = .disabled → s.pendingOf g = true → s.othersIdle g →
      s.verifyEn = false → s.rspExpected = false → 1 ≤ s.enableAttempts →
      let frames := s.enableFrames g ++ (s.members g).map (fun m => s.frameFor m (s.velocityCmd (s.rampedOf m)))
      s.sends = List.replicate frames.length .ok ++ later →
      exec (.tick now) s = .next { s.sentOk frames later with
        mstate := s.mstate.set g .enabled
        pending := s.pending.set g false
        rampcur := s.rampsWith g s.rampedOf
        reply := ⟨.ok, .none, false, false⟩ }

/-- R270, R272, R222, R223: with VERIFY_EN = 1 a member whose StatusQuery is answered with EN_OK_VAL is verified at the
first attempt, whatever frames that do not match come before the answer. -/
def Obligations.EnablingVerifiedByAResponse : Prop :=
  ∀ (s : State) (g : GroupIx) (m : MotorIx) (now : Time) (later : List SendOutcome) (skipped : List Bytes)
    (rsp rest : Bytes),
    s.halted = false → s.stale now = false → s.stateOf g = .disabled → s.pendingOf g = true → s.othersIdle g →
    s.members g = [m] → s.verifyEn = true → s.rspExpected = false → 1 ≤ s.enableAttempts →
    s.Answered (s.addrOf m) s.sqCode skipped rsp rest → (dataByRule s.proto rsp).head? = some s.enOkVal →
    let frames := (s.handshake ++ [Cmd.enable 1, Cmd.statusQuery, s.velocityCmd (s.rampedOf m)]).map (s.frameFor m)
    s.sends = List.replicate frames.length .ok ++ later →
    exec (.tick now) s = .next { s.sentOk frames later with
      mstate := s.mstate.set g .enabled
      pending := s.pending.set g false
      rampcur := s.rampsWith g s.rampedOf
      rxbuf := rest
      arrivals := s.arrivals.tail
      lastRx := rsp
      reply := ⟨.ok, .none, false, false⟩ }

/-- R291 for any number of attempts (R270, R273 (a)): a member that never answers gets exactly ENABLE_ATTEMPTS pairs of
Enable(true) and StatusQuery, each a NoResponse, then Enable(false); the group ends Disabled and TICK returns
VerificationFailed. -/
def Obligations.EnablingExhaustedFailsSafe : Prop :=
  ∀ (s : State) (g : GroupIx) (m : MotorIx) (now : Time) (later : List SendOutcome),
    s.halted = false → s.stale now = false → s.stateOf g = .disabled → s.pendingOf g = true → s.othersIdle g →
    s.members g = [m] → s.verifyEn = true → 1 ≤ s.enableAttempts → s.rxbuf = [] → s.arrivals = [] →
    let frames := (s.handshake
      ++ (List.replicate s.enableAttempts [Cmd.enable 1, Cmd.statusQuery]).flatten ++ [Cmd.enable 0]).map (s.frameFor m)
    s.sends = List.replicate frames.length .ok ++ later →
    exec (.tick now) s = .next { s.sentOk frames later with
      pending := s.pending.set g false
      norspCnt := s.norspCnt + BitVec.ofNat 32 s.enableAttempts
      sticky := s.sticky ||| 0x50
      reply := ⟨.verificationFailed, .none, false, true⟩ }

/-- R273 (b), R316: an IoErr at any frame of Enabling ends the sequence there: no further frame, the group in
EmergencyStop with cause 3, the reopen request set, TransportError returned. With VERIFY_EN = 0 for any members; with
VERIFY_EN = 1 for one member that never answers, the queries answered so far each counted as a missing response. -/
def Obligations.EnablingStopsAtAnIoErr : Prop :=
  ∀ (s : State) (g : GroupIx) (now : Time) (k n : Nat) (later : List SendOutcome), s.halted = false →
    s.stale now = false → s.stateOf g = .disabled → s.pendingOf g = true → s.othersIdle g → 1 ≤ s.enableAttempts →
    s.sends = List.replicate k .ok ++ .ioErr n :: later →
    (s.verifyEn = false → k < (s.enableFrames g).length →
      exec (.tick now) s = .next (s.cutAt g (s.enableFrames g) k n later)) ∧
    ∀ m : MotorIx, s.verifyEn = true → s.members g = [m] → s.rxbuf = [] → s.arrivals = [] →
      let frames := (s.handshake
        ++ (List.replicate s.enableAttempts [Cmd.enable 1, Cmd.statusQuery]).flatten).map (s.frameFor m)
      let missing := (k - s.handshake.length) / 2
      k < frames.length →
      exec (.tick now) s = .next { s.cutAt g frames k n later with
        norspCnt := s.norspCnt + BitVec.ofNat 32 missing
        sticky := s.sticky ||| (if missing = 0 then 0x20 else 0x30) }

/-- R242, R244, R281..R283: a TICK of an Enabled group with fresh input and no request: one ramp step and one velocity
command for each member. With RSP_EXPECTED = 1 and no answer, each command counts one missing response and nothing
else differs. -/
def Obligations.DrivingTickRampsAndSends : Prop :=
  ∀ (s : State) (g : GroupIx) (now : Time) (later : List SendOutcome), s.halted = false → s.stale now = false →
    s.stateOf g = .enabled → s.pendingOf g = false → s.othersIdle g →
    let frames := (s.members g).map (fun m => s.frameFor m (s.velocityCmd (s.rampedOf m)))
    s.sends = List.replicate frames.length .ok ++ later →
    (s.rspExpected = false → exec (.tick now) s = .next { s.sentOk frames later with
      rampcur := s.rampsWith g s.rampedOf
      reply := ⟨.ok, .none, false, false⟩ }) ∧
    (s.rspExpected = true → s.rxbuf = [] → s.arrivals = [] → exec (.tick now) s = .next { s.sentOk frames later with
      rampcur := s.rampsWith g s.rampedOf
      norspCnt := s.norspCnt + BitVec.ofNat 32 (s.members g).length
      sticky := if s.members g = [] then s.sticky else s.sticky ||| 0x10
      reply := ⟨.ok, .none, false, false⟩ })

/-- R284, R316: an IoErr at the first velocity command of a TICK stops the driving at once: no further send, the group
in EmergencyStop with cause 3, the ramp stepped once, TransportError returned. -/
def Obligations.DrivingStopsAtAnIoErr : Prop :=
  ∀ (s : State) (g : GroupIx) (m : MotorIx) (ms : List MotorIx) (now : Time) (n : Nat) (later : List SendOutcome),
    s.halted = false → s.stale now = false → s.stateOf g = .enabled → s.pendingOf g = false → s.othersIdle g →
    s.members g = m :: ms → s.sends = .ioErr n :: later →
    exec (.tick now) s = .next { s with
      mstate := s.mstate.set g .emergencyStop
      ecause := s.ecause.set g 3
      estopCnt := s.estopCnt + 1
      rampcur := s.rampsWith g s.rampedOf
      sticky := s.sticky ||| 0x20
      reopenReq := true
      lastTx := s.frameFor m (s.velocityCmd (s.rampedOf m))
      txLog := s.txLog ++ [⟨s.frameFor m (s.velocityCmd (s.rampedOf m)), .ioErr n⟩]
      sends := later
      sendCount := s.sendCount + 1
      reply := ⟨.transportError, .none, true, false⟩ }

/-- R243, R279: a TICK of a group in EmergencyStop that has not come to rest: every ramp output one step nearer to 0 and
one velocity command for each member; the group stays in EmergencyStop whatever the input. -/
def Obligations.EStopTickDecelerates : Prop :=
  ∀ (s : State) (g : GroupIx) (now : Time) (later : List SendOutcome), s.halted = false →
    s.stateOf g = .emergencyStop → s.othersIdle g → (∃ m : MotorIx, s.isMember g m = true ∧ s.rampOf m ≠ 0) →
    let frames := (s.members g).map (fun m => s.frameFor m (s.velocityCmd (s.deceledOf m)))
    s.sends = List.replicate frames.length .ok ++ later →
    exec (.tick now) s = .next { s.sentOk frames later with
      rampcur := s.rampsWith g s.deceledOf
      reply := ⟨.ok, .none, false, false⟩ }

/-- R275..R277, R279, R280, R372: a TICK of a group in EmergencyStop at rest: the stop sequence, verified or not, and
Disabled whatever the verification gave. -/
def Obligations.EStopTickAtRestDisables : Prop :=
  ∀ (s t : State) (g : GroupIx) (now : Time), s.halted = false →
    s.stateOf g = .emergencyStop → s.othersIdle g → (∀ m : MotorIx, s.isMember g m = true → s.rampOf m = 0) →
    s.StopsTo g t →
    exec (.tick now) s = .next { t with mstate := s.mstate.set g .disabled }

/-- R274..R277: a request consumed while Enabled: the stop sequence at once, verified or not and whatever the ramp outputs
were, and Disabled whatever the verification gave. -/
def Obligations.DisablingTickStopsTheGroup : Prop :=
  ∀ (s t : State) (g : GroupIx) (now : Time), s.halted = false → s.stale now = false →
    s.stateOf g = .enabled → s.pendingOf g = true → s.othersIdle g → s.StopsTo g t →
    exec (.tick now) s = .next { t with
      mstate := s.mstate.set g .disabled
      pending := s.pending.set g false
      rampcur := s.rampsWith g (fun _ => 0) }

/-- R313, R314, R278, R374: a stale TICK takes every Enabled group out of Enabled with cause 2 when the input is lost and
1 otherwise, drops its request and counts each entry: such a group at rest is Disabled in the same TICK, another is in
EmergencyStop. A group that was not Enabled keeps its cause and is not Enabled after it. -/
def Obligations.WatchdogStopsEveryEnabledGroup : Prop :=
  ∀ (s : State) (now : Time), s.halted = false → s.stale now = true → (∀ g : GroupIx, boundary (s.stateOf g) = true) →
    ∃ t : State, exec (.tick now) s = .next t ∧
      t.estopCnt = s.estopCnt + BitVec.ofNat 32 (allGroups.countP (fun g => s.stateOf g == .enabled)) ∧
      ∀ g : GroupIx,
        (s.stateOf g = .enabled → t.stateOf g = (if s.maxRamp g = 0 then .disabled else .emergencyStop) ∧
          t.causeOf g = (if s.inputLost = true then 2 else 1) ∧ t.pendingOf g = false) ∧
        (s.stateOf g ≠ .enabled → t.causeOf g = s.causeOf g ∧ t.stateOf g ≠ .enabled ∧
          (s.stateOf g = .disabled → t.stateOf g = .disabled))

/-- R287, the bounded stop: once the watchdog fires on an Enabled group, the group is in EmergencyStop after each TICK
before the k-th and Disabled from the k-th on, for the k of R287, whatever the transport answers, whatever the times
are and whatever the other groups do; k is at most 32769; no request is left, and no operation takes the group out of
Disabled or latches a request for it but an ENABLE_TOGGLE that names it. -/
def Obligations.BoundedStopAfterAWatchdogTimeout : Prop :=
  ∀ (s : State) (g : GroupIx) (now : Time) (later : List Time), s.halted = false → s.stateOf g = .enabled →
    s.stale now = true →
    ∃ t : State, runTicks (now :: later) s = some t ∧
      t.stateOf g = (if later.length + 1 < s.stopTicks g then .emergencyStop else .disabled) ∧
      t.pendingOf g = false ∧ s.stopTicks g ≤ 32769 ∧
      (s.stopTicks g ≤ later.length + 1 → ∀ (i : Instr) (u : State), exec i t = .next u →
        u.stateOf g = .disabled ∧ (u.pendingOf g = true → ∃ mask : Byte, i = .enableToggle mask ∧ mask.getLsbD g.val = true))

/-! ### Shutdown and direct transactions -/

/-- R345: SHUTDOWN runs one stop sequence for each group that is Enabled or in EmergencyStop, in order, leaves every group
Disabled without a request, and halts, whatever the transport answers and whatever arrives. The frames are given for
VERIFY_DIS = 0, and for VERIFY_DIS = 1 when no query is answered: then VerificationFailed is an event of the operation
if there is a member to stop (R277). -/
def Obligations.ShutdownStopsEveryGroup : Prop :=
  ∀ s : State, s.halted = false → (∀ g : GroupIx, boundary (s.stateOf g) = true) →
    ∃ t : State, exec .shutdown s = .next t ∧ t.halted = true ∧
      (∀ g : GroupIx, t.stateOf g = .disabled ∧ t.pendingOf g = false) ∧
      (∀ m : MotorIx, ((∃ g : GroupIx, s.isMember g m = true ∧ driven (s.stateOf g) = true) → t.rampOf m = 0) ∧
        ((∀ g : GroupIx, s.isMember g m = true → driven (s.stateOf g) = false) → t.rampOf m = s.rampOf m)) ∧
      s.KeepsConfig t ∧ t.reply.status ∈ [Status.ok, .transportError, .verificationFailed] ∧
      (s.verifyDis = false →
        t.framesSent = s.framesSent
          ++ allGroups.flatMap (fun g => if driven (s.stateOf g) then s.stopFrames g else []) ∧
        t.rxbuf = s.rxbuf ∧ t.rxdropCnt = s.rxdropCnt ∧ t.norspCnt = s.norspCnt ∧
        t.lastRx = s.lastRx ∧ t.arrivals = s.arrivals ∧ t.reply.status ≠ .verificationFailed) ∧
      (s.verifyDis = true → s.rxbuf = [] → s.arrivals = [] →
        let stopped := (allGroups.map (fun g => if driven (s.stateOf g) then (s.members g).length else 0)).sum
        t.framesSent = s.framesSent
          ++ allGroups.flatMap (fun g => if driven (s.stateOf g) then s.exhaustedStopFrames g else []) ∧
        t.rxbuf = [] ∧ t.arrivals = [] ∧ t.rxdropCnt = s.rxdropCnt ∧ t.lastRx = s.lastRx ∧
        t.norspCnt = s.norspCnt + BitVec.ofNat 32 (stopped * s.disableAttempts) ∧
        (0 < stopped * s.disableAttempts → t.sticky &&& 0x10 = 0x10) ∧
        (0 < stopped → t.sticky &&& 0x40 = 0x40 ∧ t.reply.status ∈ [Status.transportError, .verificationFailed]))

/-- R336 with R222, R223: TRANSACT refuses what its checks name; otherwise it completes with one frame sent, the frame of
the encode rules, and where it awaits a response it returns the data of the first frame that matches, or NoResponse. -/
def Obligations.TransactSendsOneFrame : Prop :=
  ∀ (s : State) (m : Byte) (c : Cmd) (aw : Byte), s.halted = false →
    (8 ≤ m.toNat ∨ 1 < aw.toNat ∨ (∃ rpm accel, c = .velocity rpm accel) ∨ (∃ e, c = .enable e) →
      exec (.transact m c aw) s = .next (s.failedWith .invalidArgument)) ∧
    (∀ k : MotorIx, m.toNat = k.val → ((s.entryOf k).getLsbD 31 = false ∨ s.commandFrame k c = none) →
      exec (.transact m c aw) s = .next (s.failedWith .invalidArgument)) ∧
    (∀ (k : MotorIx) (f : Bytes) (later : List SendOutcome), m.toNat = k.val → (s.entryOf k).getLsbD 31 = true →
      (∀ rpm accel, c ≠ .velocity rpm accel) → (∀ e, c ≠ .enable e) →
      s.commandFrame k c = some (f.map BitVec.toNat) → s.sends = .ok :: later →
      let code := (payloadIn s.proto f).headD 0
      (aw = 0 → exec (.transact m c aw) s
        = .next { s.sentOk [f] later with reply := ⟨.ok, .bytes [], false, false⟩ }) ∧
      (aw = 1 →
        (∃ t : State, exec (.transact m c aw) s = .next t ∧ t.lastTx = f ∧ t.txLog = s.txLog ++ [⟨f, .ok⟩] ∧
          s.KeepsConfig t ∧
          (t.reply = ⟨.noResponse, .bytes [], false, false⟩ ∧ t.norspCnt = s.norspCnt + 1 ∧ t.lastRx = s.lastRx ∨
            matchByRule s.proto (s.addrOf k) code t.lastRx ∧ t.norspCnt = s.norspCnt ∧
              t.reply = ⟨.ok, .bytes (dataByRule s.proto t.lastRx), false, false⟩)) ∧
        (∀ (skipped : List Bytes) (rest : Bytes), s.Unanswered (s.addrOf k) code skipped rest →
          exec (.transact m c aw) s = .next { s.sentOk [f] later with
            rxbuf := rest, arrivals := s.arrivals.tail,
            norspCnt := s.norspCnt + 1, sticky := s.sticky ||| 0x10,
            reply := ⟨.noResponse, .bytes [], false, false⟩ }) ∧
        (∀ (skipped : List Bytes) (rsp rest : Bytes), s.Answered (s.addrOf k) code skipped rsp rest →
          exec (.transact m c aw) s = .next { s.sentOk [f] later with
            rxbuf := rest, arrivals := s.arrivals.tail, lastRx := rsp,
            reply := ⟨.ok, .bytes (dataByRule s.proto rsp), false, false⟩ })))

/-- R336, R316, R338: a TRANSACT whose Send returns IoErr is a transport fault; LAST_TX holds the frame, TransportError is
returned with no data, and nothing is awaited. -/
def Obligations.TransactIoErrIsATransportFault : Prop :=
  ∀ (s : State) (m aw : Byte) (c : Cmd) (k : MotorIx) (f : Bytes) (n : Nat) (later : List SendOutcome),
    s.halted = false → m.toNat = k.val → aw.toNat ≤ 1 → (s.entryOf k).getLsbD 31 = true →
    (∀ rpm accel, c ≠ .velocity rpm accel) → (∀ e, c ≠ .enable e) →
    s.commandFrame k c = some (f.map BitVec.toNat) →
    s.sends = .ioErr n :: later →
    ∃ t : State, exec (.transact m c aw) s = .next t ∧ s.FaultTaken t ∧ s.KeepsConfig t ∧
      t.lastTx = f ∧ t.txLog = s.txLog ++ [⟨f, .ioErr n⟩] ∧ t.sends = later ∧ t.sendCount = s.sendCount + 1 ∧
      t.arrivals = s.arrivals ∧ t.reply = ⟨.transportError, .bytes [], true, false⟩

/-! ### The machine as a whole -/

/-- Every step keeps the invariant, from every state that has it. -/
def Obligations.StepKeepsTheInvariant : Prop :=
  ∀ s t : State, s.Inv → step s = .next t → t.Inv

/-- The state after reset has the invariant. -/
def Obligations.ResetHasTheInvariant : Prop := State.reset.Inv

/-- The reset state of R261 and R390. CFG's CAN_CTRL_HI = 0xC is the spec's value from general knowledge (log 17). SQ holds
some code outside the six command codes, which one is open (R11, log 5). The model's own fields are not the spec's and
are not stated here. -/
def Obligations.ResetState : Prop :=
  let s := State.reset
  s.regs = { cfg := 0x000018C0, seq := 0x00000244, vel := 0x00000BB8, cur := 0x000A0000, ramp := 0, wdTimeout := 0,
             rspTimeout := 20000, sq := s.regs.sq, rsplen := 0x0FFFFFFF, verify := 0x00000001 } ∧
  (∃ q : Byte, s.regs.sq = q.setWidth 32 ∧ q ∉ [0xF6, 0xF3, 0x83, 0x9B, 0x96, 0x97]) ∧
  s.sticky = 0 ∧ s.norspCnt = 0 ∧ s.rxdropCnt = 0 ∧ s.estopCnt = 0 ∧
  (∀ g : GroupIx, s.stateOf g = .disabled ∧ s.pendingOf g = false ∧ s.causeOf g = 0) ∧
  (∀ m : MotorIx, s.entryOf m = 0 ∧ s.setpointOf m = 0 ∧ s.rampOf m = 0) ∧
  s.rxbuf = [] ∧ s.lastInputTime = 0 ∧ s.inputValid = false ∧ s.inputLost = false ∧ s.reopenReq = false ∧
  s.halted = false ∧ s.lastTx = [] ∧ s.lastRx = []

/-- A step takes the next input and runs the instruction decoded from it: a host word, or a command payload read under
the current VEL_CAP and SQ_CODE (the queue of inputs and the command port are the model's choice, log 1 and log 6). -/
def Obligations.StepRunsTheDecodedInstruction : Prop :=
  ∀ (s : State) (rest : List Input) (bs : Bytes) (i : Instr),
    (s.inputs = .word bs :: rest → decodeWord bs = .ok i → step s = exec i { s with inputs := rest }) ∧
    (s.inputs = .payload bs :: rest → decodePayload s.velCap s.sqCode bs = .ok i →
      step s = exec i { s with inputs := rest })

/-- R391: the reset input gives the reset state and sends nothing; with no input the block waits. The world's own fields
(the pending inputs, the draws, the transmit stream) stay (the model's choice, log 1 and log 9). -/
def Obligations.ResetInputResetsTheBlock : Prop :=
  ∀ (s : State) (rest : List Input),
    (s.inputs = .reset :: rest → step s = .next { State.reset with
      inputs := rest, sends := s.sends, sendCount := s.sendCount, arrivals := s.arrivals, txLog := s.txLog }) ∧
    (s.inputs = [] → step s = .next s)

/-- R335, R367: while halted every host operation but REG_READ and READ_LAST returns Halted and does nothing else; no
operation clears halted, and the reset input does. -/
def Obligations.HaltedDoesNothing : Prop :=
  ∀ (i : Instr) (s : State), s.halted = true →
    (i.isWire = false → (∀ idx, i ≠ .regRead idx) → (∀ which, i ≠ .readLast which) →
      exec i s = .next (s.returned .halted .none)) ∧
    (∀ t, exec i s = .next t → t.halted = true) ∧
    ∀ rest, s.inputs = .reset :: rest → ∃ t, step s = .next t ∧ t.halted = false

/-- R363: an operation that returns a fault status changed nothing but the sticky bit of that status. -/
def Obligations.FaultStatusChangesNothing : Prop :=
  ∀ (i : Instr) (s t : State), exec i s = .next t →
    t.reply.status ∈ [Status.invalidArgument, .checksumMismatch, .truncated, .unknownCommand, .halted] →
    t = s.failedWith t.reply.status

/-- R339: REG_READ, READ_LAST, RAMP_EVAL, ENCODE and DECODE always complete; they send nothing, draw nothing, and change
no state but the reply and the sticky bit of an error they raise. -/
def Obligations.PureOperationsChangeNothing : Prop :=
  ∀ (i : Instr) (s : State),
    ((∃ idx, i = .regRead idx) ∨ (∃ which, i = .readLast which) ∨ (∃ cur tgt delta, i = .rampEval cur tgt delta) ∨
      (∃ variant addr c, i = .encodeOp variant addr c) ∨ (∃ variant f, i = .decodeOp variant f)) →
    (∃ r, exec i s = .next (s.returned .ok r)) ∨ (∃ st, st ≠ .ok ∧ exec i s = .next (s.failedWith st))

/-- R340: only TICK, SHUTDOWN and TRANSACT send frames or draw from the link. -/
def Obligations.OnlyThreeOperationsSend : Prop :=
  ∀ (i : Instr) (s t : State), exec i s = .next t →
    (∀ now, i ≠ .tick now) → i ≠ .shutdown → (∀ m c aw, i ≠ .transact m c aw) →
    t.txLog = s.txLog ∧ t.lastTx = s.lastTx ∧ t.sends = s.sends ∧ t.sendCount = s.sendCount ∧ t.arrivals = s.arrivals

/-- Which operation may write which component (R33, R54, R56, R57, R310, R312, R316, R317, R345): every other operation
leaves it as it was, and none consumes an input. -/
def Obligations.ComponentsHaveTheirWriters : Prop :=
  ∀ (i : Instr) (s t : State), exec i s = .next t →
    ((∀ idx v, i ≠ .cfgWrite idx v) → t.regs = s.regs ∧ t.motor = s.motor) ∧
    ((∀ now l, i ≠ .inputSample now l) →
      t.setpoint = s.setpoint ∧ t.lastInputTime = s.lastInputTime ∧ t.inputValid = s.inputValid) ∧
    ((∀ now l, i ≠ .inputSample now l) → i ≠ .inputLost → t.inputLost = s.inputLost) ∧
    ((∀ now, i ≠ .tick now) → i ≠ .shutdown → t.rampcur = s.rampcur) ∧
    ((∀ data, i ≠ .rxFeed data) → i ≠ .rxNext → i ≠ .transportReopened → (∀ now, i ≠ .tick now) → i ≠ .shutdown →
      (∀ m c aw, i ≠ .transact m c aw) → t.rxbuf = s.rxbuf ∧ t.rxdropCnt = s.rxdropCnt) ∧
    (i ≠ .rxNext → (∀ now, i ≠ .tick now) → i ≠ .shutdown → (∀ m c aw, i ≠ .transact m c aw) →
      t.lastRx = s.lastRx) ∧
    ((∀ now, i ≠ .tick now) → i ≠ .shutdown → (∀ m c aw, i ≠ .transact m c aw) → t.norspCnt = s.norspCnt) ∧
    ((∀ now, i ≠ .tick now) → i ≠ .shutdown → i ≠ .ioError → (∀ m c aw, i ≠ .transact m c aw) →
      t.mstate = s.mstate ∧ t.ecause = s.ecause ∧ t.estopCnt = s.estopCnt) ∧
    (i ≠ .shutdown → t.halted = s.halted) ∧
    t.inputs = s.inputs

/-- The transition table of R260, between operation boundaries: a group changes state only on the events the table
names, and with the cause that belongs to each. Where one TICK or SHUTDOWN takes a group through EmergencyStop to Disabled
(a group at rest, R279; a group stopped after an IoErr, R345) the statement names the two ends. That a TICK may take a group
at rest from Enabled to Disabled after an IoErr in it is the model's choice between R278 and R263 (log 22). -/
def Obligations.TransitionsAreTheTable : Prop :=
  ∀ (i : Instr) (s t : State) (g : GroupIx), exec i s = .next t → boundary (s.stateOf g) = true →
    -- what a stale input or an IoErr in this operation makes of the cause
    let watchdog (now : Time) := s.stale now = true ∧ t.causeOf g = if s.inputLost = true then 2 else 1
    let fault := s.sawIoErr t ∧ t.causeOf g = 3
    t.stateOf g = s.stateOf g ∨
    (s.stateOf g = .disabled ∧ (t.stateOf g = .enabled ∨ t.stateOf g = .emergencyStop ∧ fault) ∧
      s.pendingOf g = true ∧ ∃ now, i = .tick now ∧ s.stale now = false) ∨
    (s.stateOf g = .enabled ∧ t.stateOf g = .disabled ∧
      ((∃ now, i = .tick now ∧ s.stale now = false ∧ s.pendingOf g = true ∧ t.causeOf g = s.causeOf g) ∨
        (∃ now, i = .tick now ∧ s.maxRamp g = 0 ∧ (watchdog now ∨ s.stale now = false ∧ fault)) ∨
        (i = .shutdown ∧ (t.causeOf g = s.causeOf g ∨ fault)))) ∨
    (s.stateOf g = .enabled ∧ t.stateOf g = .emergencyStop ∧
      ((∃ now, i = .tick now ∧ (s.maxRamp g ≠ 0 ∧ watchdog now ∨ s.stale now = false ∧ fault)) ∨
        (i = .ioError ∧ t.causeOf g = 3) ∨ ((∃ m c aw, i = .transact m c aw) ∧ fault))) ∨
    (s.stateOf g = .emergencyStop ∧ t.stateOf g = .disabled ∧ t.causeOf g = s.causeOf g ∧
      ((∃ now, i = .tick now ∧ s.maxRamp g = 0) ∨ i = .shutdown))

/-- R262, R280: a request comes from an ENABLE_TOGGLE that names the group, made while it was not in EmergencyStop, and
from nothing else. -/
def Obligations.RequestsComeFromToggles : Prop :=
  ∀ (i : Instr) (s t : State) (g : GroupIx), exec i s = .next t → t.pendingOf g = true → s.pendingOf g = false →
    s.stateOf g ≠ .emergencyStop ∧ ∃ mask : Byte, i = .enableToggle mask ∧ mask.getLsbD g.val = true

/-- R280, R288, R373: a group in EmergencyStop keeps its cause, takes no request and is not entered again; it leaves
only to Disabled. -/
def Obligations.EmergencyStopIsNotReentered : Prop :=
  ∀ (i : Instr) (s t : State) (g : GroupIx), exec i s = .next t → s.stateOf g = .emergencyStop →
    (t.stateOf g = .emergencyStop ∨ t.stateOf g = .disabled) ∧ t.causeOf g = s.causeOf g ∧
    (s.pendingOf g = false → t.pendingOf g = false) ∧
    ((∀ h : GroupIx, s.stateOf h = .emergencyStop ∨ s.stateOf h = .disabled ∧ s.pendingOf h = false) →
      t.estopCnt = s.estopCnt)

/-- R290: whenever an operation leaves a group Disabled that was Enabled, in EmergencyStop, or that it tried to enable,
it sent an Enable(false) to every member of the group. -/
def Obligations.NeverDisabledWithoutEnableFalse : Prop :=
  ∀ (i : Instr) (s t : State) (g : GroupIx), exec i s = .next t → s.halted = false → s.regs.Legal →
    t.stateOf g = .disabled →
    (s.stateOf g = .enabled ∨ s.stateOf g = .emergencyStop ∨
      (s.stateOf g = .disabled ∧ s.pendingOf g = true ∧ ∃ now, i = .tick now ∧ s.stale now = false)) →
    ∃ sent : List Sent, t.txLog = s.txLog ++ sent ∧
      ∀ m : MotorIx, s.isMember g m = true → ∃ x ∈ sent, x.frame = s.frameFor m (.enable 0)

/-- R365, R366, R368: the status of a TICK or SHUTDOWN. TransportError exactly when a Send in it returned IoErr, and then
E_TRANSPORT and the reopen request are set; VerificationFailed only with E_VERIFY set; otherwise OK. -/
def Obligations.SequencesReportTheirEvents : Prop :=
  ∀ (i : Instr) (s t : State), ((∃ now, i = .tick now) ∨ i = .shutdown) → s.halted = false → exec i s = .next t →
    ∃ sent : List Sent, t.txLog = s.txLog ++ sent ∧
      (t.reply.status = .transportError ↔ ∃ x ∈ sent, x.outcome ≠ .ok) ∧
      (t.reply.status = .transportError → t.sticky &&& 0x20 = 0x20 ∧ t.reopenReq = true) ∧
      (t.reply.status = .verificationFailed → t.sticky &&& 0x40 = 0x40) ∧
      t.reply.status ∈ [Status.ok, .transportError, .verificationFailed]

/-- R285, R160: every frame of a TICK goes to a member of some group and is a handshake command, an Enable, a StatusQuery
or a velocity; a velocity goes only to a group that is Enabled or in EmergencyStop at the end of the TICK, or is
Velocity(0). And the frame of a command to a valid entry of a legal table, the `F(m, c)` of the sequences, is the frame
ENCODE returns for the configured format and the entry's address (log 10). -/
def Obligations.TickSendsOnlyItsCommands : Prop :=
  ∀ s : State,
    (∀ (m : MotorIx) (c : Cmd), s.halted = false → s.TableLegal → (s.entryOf m).getLsbD 31 = true →
      (∀ e, c = .enable e → e = 0 ∨ e = 1) →
      (∀ sel kp ki kd kv, c = .pidGains sel kp ki kd kv → s.proto = .rs485 ∧ (sel = 0 ∨ sel = 1)) →
      exec (.encodeOp (if s.proto = .can then 0 else 1) ((s.entryOf m).extractLsb' 0 11 |>.setWidth 16) c) s
        = .next (s.returned .ok (.bytes (s.frameFor m c)))) ∧
    ∀ (t : State) (now : Time), exec (.tick now) s = .next t →
      ∃ sent : List Sent, t.txLog = s.txLog ++ sent ∧
        ∀ x ∈ sent, ∃ (g : GroupIx) (m : MotorIx) (c : Cmd), s.isMember g m = true ∧ x.frame = s.frameFor m c ∧
          (c ∈ s.handshake ∨ c = .enable 0 ∨ c = .enable 1 ∨ c = .statusQuery ∨ c = s.velocityCmd 0 ∨
            ∃ v : Half, c = s.velocityCmd v ∧ driven (t.stateOf g) = true)

/-- R289: a bound on the frames of each operation that sends. -/
def Obligations.FramesAreBounded : Prop :=
  ∀ (s t : State), s.regs.Legal →
    (∀ now, exec (.tick now) s = .next t → ∃ sent : List Sent, t.txLog = s.txLog ++ sent ∧
      sent.length ≤ (allGroups.map (fun g => max (s.enableBound g) (s.stopBound g) + (s.members g).length)).sum) ∧
    (exec .shutdown s = .next t → ∃ sent : List Sent, t.txLog = s.txLog ++ sent ∧
      sent.length ≤ (allGroups.map s.stopBound).sum) ∧
    (∀ m c aw, exec (.transact m c aw) s = .next t → ∃ sent : List Sent, t.txLog = s.txLog ++ sent ∧ sent.length ≤ 1)
end

