-- ==== Sys2Proof/Laws/State.lean ====
section
/-! SUPPORT. One lemma per field per update of State, each true by rfl, so that no later proof unfolds a record
update. -/

namespace Sys2Proof.Machine

/-- Reading one group's component after writing one. -/
theorem getElem_setGroup {α : Type} (v : Vector α 4) (g h : GroupIx) (x : α) :
    (v.set g x)[h] = if h = g then x else v[h] := by
  by_cases e : h = g
  · subst e; simp
  · have : (g : Nat) ≠ h := fun he => e (Fin.ext he.symm)
    simp [e, this]

/-- Reading one motor's component after writing one. -/
theorem getElem_setMotor {α : Type} (v : Vector α 8) (m k : MotorIx) (x : α) :
    (v.set m x)[k] = if k = m then x else v[k] := by
  by_cases e : k = m
  · subst e; simp
  · have : (m : Nat) ≠ k := fun he => e (Fin.ext he.symm)
    simp [e, this]

/-! ### setFlag -/

@[simp] theorem State.setFlag_regs (s : State) (f : Flag) : (s.setFlag f).regs = s.regs := rfl
@[simp] theorem State.setFlag_sticky (s : State) (f : Flag) : (s.setFlag f).sticky = s.sticky ||| flagMask f := rfl
@[simp] theorem State.setFlag_norspCnt (s : State) (f : Flag) : (s.setFlag f).norspCnt = s.norspCnt := rfl
@[simp] theorem State.setFlag_rxdropCnt (s : State) (f : Flag) : (s.setFlag f).rxdropCnt = s.rxdropCnt := rfl
@[simp] theorem State.setFlag_estopCnt (s : State) (f : Flag) : (s.setFlag f).estopCnt = s.estopCnt := rfl
@[simp] theorem State.setFlag_ecause (s : State) (f : Flag) : (s.setFlag f).ecause = s.ecause := rfl
@[simp] theorem State.setFlag_motor (s : State) (f : Flag) : (s.setFlag f).motor = s.motor := rfl
@[simp] theorem State.setFlag_setpoint (s : State) (f : Flag) : (s.setFlag f).setpoint = s.setpoint := rfl
@[simp] theorem State.setFlag_rampcur (s : State) (f : Flag) : (s.setFlag f).rampcur = s.rampcur := rfl
@[simp] theorem State.setFlag_mstate (s : State) (f : Flag) : (s.setFlag f).mstate = s.mstate := rfl
@[simp] theorem State.setFlag_pending (s : State) (f : Flag) : (s.setFlag f).pending = s.pending := rfl
@[simp] theorem State.setFlag_rxbuf (s : State) (f : Flag) : (s.setFlag f).rxbuf = s.rxbuf := rfl
@[simp] theorem State.setFlag_lastInputTime (s : State) (f : Flag) : (s.setFlag f).lastInputTime = s.lastInputTime := rfl
@[simp] theorem State.setFlag_inputValid (s : State) (f : Flag) : (s.setFlag f).inputValid = s.inputValid := rfl
@[simp] theorem State.setFlag_inputLost (s : State) (f : Flag) : (s.setFlag f).inputLost = s.inputLost := rfl
@[simp] theorem State.setFlag_reopenReq (s : State) (f : Flag) : (s.setFlag f).reopenReq = s.reopenReq := rfl
@[simp] theorem State.setFlag_halted (s : State) (f : Flag) : (s.setFlag f).halted = s.halted := rfl
@[simp] theorem State.setFlag_lastTx (s : State) (f : Flag) : (s.setFlag f).lastTx = s.lastTx := rfl
@[simp] theorem State.setFlag_lastRx (s : State) (f : Flag) : (s.setFlag f).lastRx = s.lastRx := rfl
@[simp] theorem State.setFlag_inputs (s : State) (f : Flag) : (s.setFlag f).inputs = s.inputs := rfl
@[simp] theorem State.setFlag_sends (s : State) (f : Flag) : (s.setFlag f).sends = s.sends := rfl
@[simp] theorem State.setFlag_sendCount (s : State) (f : Flag) : (s.setFlag f).sendCount = s.sendCount := rfl
@[simp] theorem State.setFlag_arrivals (s : State) (f : Flag) : (s.setFlag f).arrivals = s.arrivals := rfl
@[simp] theorem State.setFlag_txLog (s : State) (f : Flag) : (s.setFlag f).txLog = s.txLog := rfl
@[simp] theorem State.setFlag_reply (s : State) (f : Flag) : (s.setFlag f).reply = s.reply := rfl
@[simp] theorem State.setFlag_stateOf (s : State) (f : Flag) (k : GroupIx) : (s.setFlag f).stateOf k = s.stateOf k := rfl
@[simp] theorem State.setFlag_pendingOf (s : State) (f : Flag) (k : GroupIx) : (s.setFlag f).pendingOf k = s.pendingOf k := rfl
@[simp] theorem State.setFlag_causeOf (s : State) (f : Flag) (k : GroupIx) : (s.setFlag f).causeOf k = s.causeOf k := rfl
@[simp] theorem State.setFlag_entryOf (s : State) (f : Flag) (k : MotorIx) : (s.setFlag f).entryOf k = s.entryOf k := rfl
@[simp] theorem State.setFlag_setpointOf (s : State) (f : Flag) (k : MotorIx) : (s.setFlag f).setpointOf k = s.setpointOf k := rfl
@[simp] theorem State.setFlag_rampOf (s : State) (f : Flag) (k : MotorIx) : (s.setFlag f).rampOf k = s.rampOf k := rfl

/-! ### clearFlags -/

@[simp] theorem State.clearFlags_regs (s : State) (mask : Byte) : (s.clearFlags mask).regs = s.regs := rfl
@[simp] theorem State.clearFlags_sticky (s : State) (mask : Byte) : (s.clearFlags mask).sticky = s.sticky &&& ~~~mask := rfl
@[simp] theorem State.clearFlags_norspCnt (s : State) (mask : Byte) : (s.clearFlags mask).norspCnt = s.norspCnt := rfl
@[simp] theorem State.clearFlags_rxdropCnt (s : State) (mask : Byte) : (s.clearFlags mask).rxdropCnt = s.rxdropCnt := rfl
@[simp] theorem State.clearFlags_estopCnt (s : State) (mask : Byte) : (s.clearFlags mask).estopCnt = s.estopCnt := rfl
@[simp] theorem State.clearFlags_ecause (s : State) (mask : Byte) : (s.clearFlags mask).ecause = s.ecause := rfl
@[simp] theorem State.clearFlags_motor (s : State) (mask : Byte) : (s.clearFlags mask).motor = s.motor := rfl
@[simp] theorem State.clearFlags_setpoint (s : State) (mask : Byte) : (s.clearFlags mask).setpoint = s.setpoint := rfl
@[simp] theorem State.clearFlags_rampcur (s : State) (mask : Byte) : (s.clearFlags mask).rampcur = s.rampcur := rfl
@[simp] theorem State.clearFlags_mstate (s : State) (mask : Byte) : (s.clearFlags mask).mstate = s.mstate := rfl
@[simp] theorem State.clearFlags_pending (s : State) (mask : Byte) : (s.clearFlags mask).pending = s.pending := rfl
@[simp] theorem State.clearFlags_rxbuf (s : State) (mask : Byte) : (s.clearFlags mask).rxbuf = s.rxbuf := rfl
@[simp] theorem State.clearFlags_lastInputTime (s : State) (mask : Byte) : (s.clearFlags mask).lastInputTime = s.lastInputTime := rfl
@[simp] theorem State.clearFlags_inputValid (s : State) (mask : Byte) : (s.clearFlags mask).inputValid = s.inputValid := rfl
@[simp] theorem State.clearFlags_inputLost (s : State) (mask : Byte) : (s.clearFlags mask).inputLost = s.inputLost := rfl
@[simp] theorem State.clearFlags_reopenReq (s : State) (mask : Byte) : (s.clearFlags mask).reopenReq = s.reopenReq := rfl
@[simp] theorem State.clearFlags_halted (s : State) (mask : Byte) : (s.clearFlags mask).halted = s.halted := rfl
@[simp] theorem State.clearFlags_lastTx (s : State) (mask : Byte) : (s.clearFlags mask).lastTx = s.lastTx := rfl
@[simp] theorem State.clearFlags_lastRx (s : State) (mask : Byte) : (s.clearFlags mask).lastRx = s.lastRx := rfl
@[simp] theorem State.clearFlags_inputs (s : State) (mask : Byte) : (s.clearFlags mask).inputs = s.inputs := rfl
@[simp] theorem State.clearFlags_sends (s : State) (mask : Byte) : (s.clearFlags mask).sends = s.sends := rfl
@[simp] theorem State.clearFlags_sendCount (s : State) (mask : Byte) : (s.clearFlags mask).sendCount = s.sendCount := rfl
@[simp] theorem State.clearFlags_arrivals (s : State) (mask : Byte) : (s.clearFlags mask).arrivals = s.arrivals := rfl
@[simp] theorem State.clearFlags_txLog (s : State) (mask : Byte) : (s.clearFlags mask).txLog = s.txLog := rfl
@[simp] theorem State.clearFlags_reply (s : State) (mask : Byte) : (s.clearFlags mask).reply = s.reply := rfl
@[simp] theorem State.clearFlags_stateOf (s : State) (mask : Byte) (k : GroupIx) : (s.clearFlags mask).stateOf k = s.stateOf k := rfl
@[simp] theorem State.clearFlags_pendingOf (s : State) (mask : Byte) (k : GroupIx) : (s.clearFlags mask).pendingOf k = s.pendingOf k := rfl
@[simp] theorem State.clearFlags_causeOf (s : State) (mask : Byte) (k : GroupIx) : (s.clearFlags mask).causeOf k = s.causeOf k := rfl
@[simp] theorem State.clearFlags_entryOf (s : State) (mask : Byte) (k : MotorIx) : (s.clearFlags mask).entryOf k = s.entryOf k := rfl
@[simp] theorem State.clearFlags_setpointOf (s : State) (mask : Byte) (k : MotorIx) : (s.clearFlags mask).setpointOf k = s.setpointOf k := rfl
@[simp] theorem State.clearFlags_rampOf (s : State) (mask : Byte) (k : MotorIx) : (s.clearFlags mask).rampOf k = s.rampOf k := rfl

/-! ### setRegs -/

@[simp] theorem State.setRegs_regs (s : State) (r : Regs) : (s.setRegs r).regs = r := rfl
@[simp] theorem State.setRegs_sticky (s : State) (r : Regs) : (s.setRegs r).sticky = s.sticky := rfl
@[simp] theorem State.setRegs_norspCnt (s : State) (r : Regs) : (s.setRegs r).norspCnt = s.norspCnt := rfl
@[simp] theorem State.setRegs_rxdropCnt (s : State) (r : Regs) : (s.setRegs r).rxdropCnt = s.rxdropCnt := rfl
@[simp] theorem State.setRegs_estopCnt (s : State) (r : Regs) : (s.setRegs r).estopCnt = s.estopCnt := rfl
@[simp] theorem State.setRegs_ecause (s : State) (r : Regs) : (s.setRegs r).ecause = s.ecause := rfl
@[simp] theorem State.setRegs_motor (s : State) (r : Regs) : (s.setRegs r).motor = s.motor := rfl
@[simp] theorem State.setRegs_setpoint (s : State) (r : Regs) : (s.setRegs r).setpoint = s.setpoint := rfl
@[simp] theorem State.setRegs_rampcur (s : State) (r : Regs) : (s.setRegs r).rampcur = s.rampcur := rfl
@[simp] theorem State.setRegs_mstate (s : State) (r : Regs) : (s.setRegs r).mstate = s.mstate := rfl
@[simp] theorem State.setRegs_pending (s : State) (r : Regs) : (s.setRegs r).pending = s.pending := rfl
@[simp] theorem State.setRegs_rxbuf (s : State) (r : Regs) : (s.setRegs r).rxbuf = s.rxbuf := rfl
@[simp] theorem State.setRegs_lastInputTime (s : State) (r : Regs) : (s.setRegs r).lastInputTime = s.lastInputTime := rfl
@[simp] theorem State.setRegs_inputValid (s : State) (r : Regs) : (s.setRegs r).inputValid = s.inputValid := rfl
@[simp] theorem State.setRegs_inputLost (s : State) (r : Regs) : (s.setRegs r).inputLost = s.inputLost := rfl
@[simp] theorem State.setRegs_reopenReq (s : State) (r : Regs) : (s.setRegs r).reopenReq = s.reopenReq := rfl
@[simp] theorem State.setRegs_halted (s : State) (r : Regs) : (s.setRegs r).halted = s.halted := rfl
@[simp] theorem State.setRegs_lastTx (s : State) (r : Regs) : (s.setRegs r).lastTx = s.lastTx := rfl
@[simp] theorem State.setRegs_lastRx (s : State) (r : Regs) : (s.setRegs r).lastRx = s.lastRx := rfl
@[simp] theorem State.setRegs_inputs (s : State) (r : Regs) : (s.setRegs r).inputs = s.inputs := rfl
@[simp] theorem State.setRegs_sends (s : State) (r : Regs) : (s.setRegs r).sends = s.sends := rfl
@[simp] theorem State.setRegs_sendCount (s : State) (r : Regs) : (s.setRegs r).sendCount = s.sendCount := rfl
@[simp] theorem State.setRegs_arrivals (s : State) (r : Regs) : (s.setRegs r).arrivals = s.arrivals := rfl
@[simp] theorem State.setRegs_txLog (s : State) (r : Regs) : (s.setRegs r).txLog = s.txLog := rfl
@[simp] theorem State.setRegs_reply (s : State) (r : Regs) : (s.setRegs r).reply = s.reply := rfl
@[simp] theorem State.setRegs_stateOf (s : State) (r : Regs) (k : GroupIx) : (s.setRegs r).stateOf k = s.stateOf k := rfl
@[simp] theorem State.setRegs_pendingOf (s : State) (r : Regs) (k : GroupIx) : (s.setRegs r).pendingOf k = s.pendingOf k := rfl
@[simp] theorem State.setRegs_causeOf (s : State) (r : Regs) (k : GroupIx) : (s.setRegs r).causeOf k = s.causeOf k := rfl
@[simp] theorem State.setRegs_entryOf (s : State) (r : Regs) (k : MotorIx) : (s.setRegs r).entryOf k = s.entryOf k := rfl
@[simp] theorem State.setRegs_setpointOf (s : State) (r : Regs) (k : MotorIx) : (s.setRegs r).setpointOf k = s.setpointOf k := rfl
@[simp] theorem State.setRegs_rampOf (s : State) (r : Regs) (k : MotorIx) : (s.setRegs r).rampOf k = s.rampOf k := rfl

/-! ### setMotor -/

@[simp] theorem State.setMotor_regs (s : State) (m : MotorIx) (w : Word) : (s.setMotor m w).regs = s.regs := rfl
@[simp] theorem State.setMotor_sticky (s : State) (m : MotorIx) (w : Word) : (s.setMotor m w).sticky = s.sticky := rfl
@[simp] theorem State.setMotor_norspCnt (s : State) (m : MotorIx) (w : Word) : (s.setMotor m w).norspCnt = s.norspCnt := rfl
@[simp] theorem State.setMotor_rxdropCnt (s : State) (m : MotorIx) (w : Word) : (s.setMotor m w).rxdropCnt = s.rxdropCnt := rfl
@[simp] theorem State.setMotor_estopCnt (s : State) (m : MotorIx) (w : Word) : (s.setMotor m w).estopCnt = s.estopCnt := rfl
@[simp] theorem State.setMotor_ecause (s : State) (m : MotorIx) (w : Word) : (s.setMotor m w).ecause = s.ecause := rfl
@[simp] theorem State.setMotor_motor (s : State) (m : MotorIx) (w : Word) : (s.setMotor m w).motor = s.motor.set m w := rfl
@[simp] theorem State.setMotor_setpoint (s : State) (m : MotorIx) (w : Word) : (s.setMotor m w).setpoint = s.setpoint := rfl
@[simp] theorem State.setMotor_rampcur (s : State) (m : MotorIx) (w : Word) : (s.setMotor m w).rampcur = s.rampcur := rfl
@[simp] theorem State.setMotor_mstate (s : State) (m : MotorIx) (w : Word) : (s.setMotor m w).mstate = s.mstate := rfl
@[simp] theorem State.setMotor_pending (s : State) (m : MotorIx) (w : Word) : (s.setMotor m w).pending = s.pending := rfl
@[simp] theorem State.setMotor_rxbuf (s : State) (m : MotorIx) (w : Word) : (s.setMotor m w).rxbuf = s.rxbuf := rfl
@[simp] theorem State.setMotor_lastInputTime (s : State) (m : MotorIx) (w : Word) : (s.setMotor m w).lastInputTime = s.lastInputTime := rfl
@[simp] theorem State.setMotor_inputValid (s : State) (m : MotorIx) (w : Word) : (s.setMotor m w).inputValid = s.inputValid := rfl
@[simp] theorem State.setMotor_inputLost (s : State) (m : MotorIx) (w : Word) : (s.setMotor m w).inputLost = s.inputLost := rfl
@[simp] theorem State.setMotor_reopenReq (s : State) (m : MotorIx) (w : Word) : (s.setMotor m w).reopenReq = s.reopenReq := rfl
@[simp] theorem State.setMotor_halted (s : State) (m : MotorIx) (w : Word) : (s.setMotor m w).halted = s.halted := rfl
@[simp] theorem State.setMotor_lastTx (s : State) (m : MotorIx) (w : Word) : (s.setMotor m w).lastTx = s.lastTx := rfl
@[simp] theorem State.setMotor_lastRx (s : State) (m : MotorIx) (w : Word) : (s.setMotor m w).lastRx = s.lastRx := rfl
@[simp] theorem State.setMotor_inputs (s : State) (m : MotorIx) (w : Word) : (s.setMotor m w).inputs = s.inputs := rfl
@[simp] theorem State.setMotor_sends (s : State) (m : MotorIx) (w : Word) : (s.setMotor m w).sends = s.sends := rfl
@[simp] theorem State.setMotor_sendCount (s : State) (m : MotorIx) (w : Word) : (s.setMotor m w).sendCount = s.sendCount := rfl
@[simp] theorem State.setMotor_arrivals (s : State) (m : MotorIx) (w : Word) : (s.setMotor m w).arrivals = s.arrivals := rfl
@[simp] theorem State.setMotor_txLog (s : State) (m : MotorIx) (w : Word) : (s.setMotor m w).txLog = s.txLog := rfl
@[simp] theorem State.setMotor_reply (s : State) (m : MotorIx) (w : Word) : (s.setMotor m w).reply = s.reply := rfl
@[simp] theorem State.setMotor_stateOf (s : State) (m : MotorIx) (w : Word) (k : GroupIx) : (s.setMotor m w).stateOf k = s.stateOf k := rfl
@[simp] theorem State.setMotor_pendingOf (s : State) (m : MotorIx) (w : Word) (k : GroupIx) : (s.setMotor m w).pendingOf k = s.pendingOf k := rfl
@[simp] theorem State.setMotor_causeOf (s : State) (m : MotorIx) (w : Word) (k : GroupIx) : (s.setMotor m w).causeOf k = s.causeOf k := rfl
@[simp] theorem State.setMotor_entryOf (s : State) (m : MotorIx) (w : Word) (k : MotorIx) : (s.setMotor m w).entryOf k = if k = m then w else s.entryOf k :=
  getElem_setMotor _ _ _ _
@[simp] theorem State.setMotor_setpointOf (s : State) (m : MotorIx) (w : Word) (k : MotorIx) : (s.setMotor m w).setpointOf k = s.setpointOf k := rfl
@[simp] theorem State.setMotor_rampOf (s : State) (m : MotorIx) (w : Word) (k : MotorIx) : (s.setMotor m w).rampOf k = s.rampOf k := rfl

/-! ### setRamp -/

@[simp] theorem State.setRamp_regs (s : State) (m : MotorIx) (v : Half) : (s.setRamp m v).regs = s.regs := rfl
@[simp] theorem State.setRamp_sticky (s : State) (m : MotorIx) (v : Half) : (s.setRamp m v).sticky = s.sticky := rfl
@[simp] theorem State.setRamp_norspCnt (s : State) (m : MotorIx) (v : Half) : (s.setRamp m v).norspCnt = s.norspCnt := rfl
@[simp] theorem State.setRamp_rxdropCnt (s : State) (m : MotorIx) (v : Half) : (s.setRamp m v).rxdropCnt = s.rxdropCnt := rfl
@[simp] theorem State.setRamp_estopCnt (s : State) (m : MotorIx) (v : Half) : (s.setRamp m v).estopCnt = s.estopCnt := rfl
@[simp] theorem State.setRamp_ecause (s : State) (m : MotorIx) (v : Half) : (s.setRamp m v).ecause = s.ecause := rfl
@[simp] theorem State.setRamp_motor (s : State) (m : MotorIx) (v : Half) : (s.setRamp m v).motor = s.motor := rfl
@[simp] theorem State.setRamp_setpoint (s : State) (m : MotorIx) (v : Half) : (s.setRamp m v).setpoint = s.setpoint := rfl
@[simp] theorem State.setRamp_rampcur (s : State) (m : MotorIx) (v : Half) : (s.setRamp m v).rampcur = s.rampcur.set m v := rfl
@[simp] theorem State.setRamp_mstate (s : State) (m : MotorIx) (v : Half) : (s.setRamp m v).mstate = s.mstate := rfl
@[simp] theorem State.setRamp_pending (s : State) (m : MotorIx) (v : Half) : (s.setRamp m v).pending = s.pending := rfl
@[simp] theorem State.setRamp_rxbuf (s : State) (m : MotorIx) (v : Half) : (s.setRamp m v).rxbuf = s.rxbuf := rfl
@[simp] theorem State.setRamp_lastInputTime (s : State) (m : MotorIx) (v : Half) : (s.setRamp m v).lastInputTime = s.lastInputTime := rfl
@[simp] theorem State.setRamp_inputValid (s : State) (m : MotorIx) (v : Half) : (s.setRamp m v).inputValid = s.inputValid := rfl
@[simp] theorem State.setRamp_inputLost (s : State) (m : MotorIx) (v : Half) : (s.setRamp m v).inputLost = s.inputLost := rfl
@[simp] theorem State.setRamp_reopenReq (s : State) (m : MotorIx) (v : Half) : (s.setRamp m v).reopenReq = s.reopenReq := rfl
@[simp] theorem State.setRamp_halted (s : State) (m : MotorIx) (v : Half) : (s.setRamp m v).halted = s.halted := rfl
@[simp] theorem State.setRamp_lastTx (s : State) (m : MotorIx) (v : Half) : (s.setRamp m v).lastTx = s.lastTx := rfl
@[simp] theorem State.setRamp_lastRx (s : State) (m : MotorIx) (v : Half) : (s.setRamp m v).lastRx = s.lastRx := rfl
@[simp] theorem State.setRamp_inputs (s : State) (m : MotorIx) (v : Half) : (s.setRamp m v).inputs = s.inputs := rfl
@[simp] theorem State.setRamp_sends (s : State) (m : MotorIx) (v : Half) : (s.setRamp m v).sends = s.sends := rfl
@[simp] theorem State.setRamp_sendCount (s : State) (m : MotorIx) (v : Half) : (s.setRamp m v).sendCount = s.sendCount := rfl
@[simp] theorem State.setRamp_arrivals (s : State) (m : MotorIx) (v : Half) : (s.setRamp m v).arrivals = s.arrivals := rfl
@[simp] theorem State.setRamp_txLog (s : State) (m : MotorIx) (v : Half) : (s.setRamp m v).txLog = s.txLog := rfl
@[simp] theorem State.setRamp_reply (s : State) (m : MotorIx) (v : Half) : (s.setRamp m v).reply = s.reply := rfl
@[simp] theorem State.setRamp_stateOf (s : State) (m : MotorIx) (v : Half) (k : GroupIx) : (s.setRamp m v).stateOf k = s.stateOf k := rfl
@[simp] theorem State.setRamp_pendingOf (s : State) (m : MotorIx) (v : Half) (k : GroupIx) : (s.setRamp m v).pendingOf k = s.pendingOf k := rfl
@[simp] theorem State.setRamp_causeOf (s : State) (m : MotorIx) (v : Half) (k : GroupIx) : (s.setRamp m v).causeOf k = s.causeOf k := rfl
@[simp] theorem State.setRamp_entryOf (s : State) (m : MotorIx) (v : Half) (k : MotorIx) : (s.setRamp m v).entryOf k = s.entryOf k := rfl
@[simp] theorem State.setRamp_setpointOf (s : State) (m : MotorIx) (v : Half) (k : MotorIx) : (s.setRamp m v).setpointOf k = s.setpointOf k := rfl
@[simp] theorem State.setRamp_rampOf (s : State) (m : MotorIx) (v : Half) (k : MotorIx) : (s.setRamp m v).rampOf k = if k = m then v else s.rampOf k :=
  getElem_setMotor _ _ _ _

/-! ### setState -/

@[simp] theorem State.setState_regs (s : State) (g : GroupIx) (x : MState) : (s.setState g x).regs = s.regs := rfl
@[simp] theorem State.setState_sticky (s : State) (g : GroupIx) (x : MState) : (s.setState g x).sticky = s.sticky := rfl
@[simp] theorem State.setState_norspCnt (s : State) (g : GroupIx) (x : MState) : (s.setState g x).norspCnt = s.norspCnt := rfl
@[simp] theorem State.setState_rxdropCnt (s : State) (g : GroupIx) (x : MState) : (s.setState g x).rxdropCnt = s.rxdropCnt := rfl
@[simp] theorem State.setState_estopCnt (s : State) (g : GroupIx) (x : MState) : (s.setState g x).estopCnt = s.estopCnt := rfl
@[simp] theorem State.setState_ecause (s : State) (g : GroupIx) (x : MState) : (s.setState g x).ecause = s.ecause := rfl
@[simp] theorem State.setState_motor (s : State) (g : GroupIx) (x : MState) : (s.setState g x).motor = s.motor := rfl
@[simp] theorem State.setState_setpoint (s : State) (g : GroupIx) (x : MState) : (s.setState g x).setpoint = s.setpoint := rfl
@[simp] theorem State.setState_rampcur (s : State) (g : GroupIx) (x : MState) : (s.setState g x).rampcur = s.rampcur := rfl
@[simp] theorem State.setState_mstate (s : State) (g : GroupIx) (x : MState) : (s.setState g x).mstate = s.mstate.set g x := rfl
@[simp] theorem State.setState_pending (s : State) (g : GroupIx) (x : MState) : (s.setState g x).pending = s.pending := rfl
@[simp] theorem State.setState_rxbuf (s : State) (g : GroupIx) (x : MState) : (s.setState g x).rxbuf = s.rxbuf := rfl
@[simp] theorem State.setState_lastInputTime (s : State) (g : GroupIx) (x : MState) : (s.setState g x).lastInputTime = s.lastInputTime := rfl
@[simp] theorem State.setState_inputValid (s : State) (g : GroupIx) (x : MState) : (s.setState g x).inputValid = s.inputValid := rfl
@[simp] theorem State.setState_inputLost (s : State) (g : GroupIx) (x : MState) : (s.setState g x).inputLost = s.inputLost := rfl
@[simp] theorem State.setState_reopenReq (s : State) (g : GroupIx) (x : MState) : (s.setState g x).reopenReq = s.reopenReq := rfl
@[simp] theorem State.setState_halted (s : State) (g : GroupIx) (x : MState) : (s.setState g x).halted = s.halted := rfl
@[simp] theorem State.setState_lastTx (s : State) (g : GroupIx) (x : MState) : (s.setState g x).lastTx = s.lastTx := rfl
@[simp] theorem State.setState_lastRx (s : State) (g : GroupIx) (x : MState) : (s.setState g x).lastRx = s.lastRx := rfl
@[simp] theorem State.setState_inputs (s : State) (g : GroupIx) (x : MState) : (s.setState g x).inputs = s.inputs := rfl
@[simp] theorem State.setState_sends (s : State) (g : GroupIx) (x : MState) : (s.setState g x).sends = s.sends := rfl
@[simp] theorem State.setState_sendCount (s : State) (g : GroupIx) (x : MState) : (s.setState g x).sendCount = s.sendCount := rfl
@[simp] theorem State.setState_arrivals (s : State) (g : GroupIx) (x : MState) : (s.setState g x).arrivals = s.arrivals := rfl
@[simp] theorem State.setState_txLog (s : State) (g : GroupIx) (x : MState) : (s.setState g x).txLog = s.txLog := rfl
@[simp] theorem State.setState_reply (s : State) (g : GroupIx) (x : MState) : (s.setState g x).reply = s.reply := rfl
@[simp] theorem State.setState_stateOf (s : State) (g : GroupIx) (x : MState) (k : GroupIx) : (s.setState g x).stateOf k = if k = g then x else s.stateOf k :=
  getElem_setGroup _ _ _ _
@[simp] theorem State.setState_pendingOf (s : State) (g : GroupIx) (x : MState) (k : GroupIx) : (s.setState g x).pendingOf k = s.pendingOf k := rfl
@[simp] theorem State.setState_causeOf (s : State) (g : GroupIx) (x : MState) (k : GroupIx) : (s.setState g x).causeOf k = s.causeOf k := rfl
@[simp] theorem State.setState_entryOf (s : State) (g : GroupIx) (x : MState) (k : MotorIx) : (s.setState g x).entryOf k = s.entryOf k := rfl
@[simp] theorem State.setState_setpointOf (s : State) (g : GroupIx) (x : MState) (k : MotorIx) : (s.setState g x).setpointOf k = s.setpointOf k := rfl
@[simp] theorem State.setState_rampOf (s : State) (g : GroupIx) (x : MState) (k : MotorIx) : (s.setState g x).rampOf k = s.rampOf k := rfl

/-! ### setPending -/

@[simp] theorem State.setPending_regs (s : State) (g : GroupIx) (b : Bool) : (s.setPending g b).regs = s.regs := rfl
@[simp] theorem State.setPending_sticky (s : State) (g : GroupIx) (b : Bool) : (s.setPending g b).sticky = s.sticky := rfl
@[simp] theorem State.setPending_norspCnt (s : State) (g : GroupIx) (b : Bool) : (s.setPending g b).norspCnt = s.norspCnt := rfl
@[simp] theorem State.setPending_rxdropCnt (s : State) (g : GroupIx) (b : Bool) : (s.setPending g b).rxdropCnt = s.rxdropCnt := rfl
@[simp] theorem State.setPending_estopCnt (s : State) (g : GroupIx) (b : Bool) : (s.setPending g b).estopCnt = s.estopCnt := rfl
@[simp] theorem State.setPending_ecause (s : State) (g : GroupIx) (b : Bool) : (s.setPending g b).ecause = s.ecause := rfl
@[simp] theorem State.setPending_motor (s : State) (g : GroupIx) (b : Bool) : (s.setPending g b).motor = s.motor := rfl
@[simp] theorem State.setPending_setpoint (s : State) (g : GroupIx) (b : Bool) : (s.setPending g b).setpoint = s.setpoint := rfl
@[simp] theorem State.setPending_rampcur (s : State) (g : GroupIx) (b : Bool) : (s.setPending g b).rampcur = s.rampcur := rfl
@[simp] theorem State.setPending_mstate (s : State) (g : GroupIx) (b : Bool) : (s.setPending g b).mstate = s.mstate := rfl
@[simp] theorem State.setPending_pending (s : State) (g : GroupIx) (b : Bool) : (s.setPending g b).pending = s.pending.set g b := rfl
@[simp] theorem State.setPending_rxbuf (s : State) (g : GroupIx) (b : Bool) : (s.setPending g b).rxbuf = s.rxbuf := rfl
@[simp] theorem State.setPending_lastInputTime (s : State) (g : GroupIx) (b : Bool) : (s.setPending g b).lastInputTime = s.lastInputTime := rfl
@[simp] theorem State.setPending_inputValid (s : State) (g : GroupIx) (b : Bool) : (s.setPending g b).inputValid = s.inputValid := rfl
@[simp] theorem State.setPending_inputLost (s : State) (g : GroupIx) (b : Bool) : (s.setPending g b).inputLost = s.inputLost := rfl
@[simp] theorem State.setPending_reopenReq (s : State) (g : GroupIx) (b : Bool) : (s.setPending g b).reopenReq = s.reopenReq := rfl
@[simp] theorem State.setPending_halted (s : State) (g : GroupIx) (b : Bool) : (s.setPending g b).halted = s.halted := rfl
@[simp] theorem State.setPending_lastTx (s : State) (g : GroupIx) (b : Bool) : (s.setPending g b).lastTx = s.lastTx := rfl
@[simp] theorem State.setPending_lastRx (s : State) (g : GroupIx) (b : Bool) : (s.setPending g b).lastRx = s.lastRx := rfl
@[simp] theorem State.setPending_inputs (s : State) (g : GroupIx) (b : Bool) : (s.setPending g b).inputs = s.inputs := rfl
@[simp] theorem State.setPending_sends (s : State) (g : GroupIx) (b : Bool) : (s.setPending g b).sends = s.sends := rfl
@[simp] theorem State.setPending_sendCount (s : State) (g : GroupIx) (b : Bool) : (s.setPending g b).sendCount = s.sendCount := rfl
@[simp] theorem State.setPending_arrivals (s : State) (g : GroupIx) (b : Bool) : (s.setPending g b).arrivals = s.arrivals := rfl
@[simp] theorem State.setPending_txLog (s : State) (g : GroupIx) (b : Bool) : (s.setPending g b).txLog = s.txLog := rfl
@[simp] theorem State.setPending_reply (s : State) (g : GroupIx) (b : Bool) : (s.setPending g b).reply = s.reply := rfl
@[simp] theorem State.setPending_stateOf (s : State) (g : GroupIx) (b : Bool) (k : GroupIx) : (s.setPending g b).stateOf k = s.stateOf k := rfl
@[simp] theorem State.setPending_pendingOf (s : State) (g : GroupIx) (b : Bool) (k : GroupIx) : (s.setPending g b).pendingOf k = if k = g then b else s.pendingOf k :=
  getElem_setGroup _ _ _ _
@[simp] theorem State.setPending_causeOf (s : State) (g : GroupIx) (b : Bool) (k : GroupIx) : (s.setPending g b).causeOf k = s.causeOf k := rfl
@[simp] theorem State.setPending_entryOf (s : State) (g : GroupIx) (b : Bool) (k : MotorIx) : (s.setPending g b).entryOf k = s.entryOf k := rfl
@[simp] theorem State.setPending_setpointOf (s : State) (g : GroupIx) (b : Bool) (k : MotorIx) : (s.setPending g b).setpointOf k = s.setpointOf k := rfl
@[simp] theorem State.setPending_rampOf (s : State) (g : GroupIx) (b : Bool) (k : MotorIx) : (s.setPending g b).rampOf k = s.rampOf k := rfl

/-! ### setReopen -/

@[simp] theorem State.setReopen_regs (s : State) (b : Bool) : (s.setReopen b).regs = s.regs := rfl
@[simp] theorem State.setReopen_sticky (s : State) (b : Bool) : (s.setReopen b).sticky = s.sticky := rfl
@[simp] theorem State.setReopen_norspCnt (s : State) (b : Bool) : (s.setReopen b).norspCnt = s.norspCnt := rfl
@[simp] theorem State.setReopen_rxdropCnt (s : State) (b : Bool) : (s.setReopen b).rxdropCnt = s.rxdropCnt := rfl
@[simp] theorem State.setReopen_estopCnt (s : State) (b : Bool) : (s.setReopen b).estopCnt = s.estopCnt := rfl
@[simp] theorem State.setReopen_ecause (s : State) (b : Bool) : (s.setReopen b).ecause = s.ecause := rfl
@[simp] theorem State.setReopen_motor (s : State) (b : Bool) : (s.setReopen b).motor = s.motor := rfl
@[simp] theorem State.setReopen_setpoint (s : State) (b : Bool) : (s.setReopen b).setpoint = s.setpoint := rfl
@[simp] theorem State.setReopen_rampcur (s : State) (b : Bool) : (s.setReopen b).rampcur = s.rampcur := rfl
@[simp] theorem State.setReopen_mstate (s : State) (b : Bool) : (s.setReopen b).mstate = s.mstate := rfl
@[simp] theorem State.setReopen_pending (s : State) (b : Bool) : (s.setReopen b).pending = s.pending := rfl
@[simp] theorem State.setReopen_rxbuf (s : State) (b : Bool) : (s.setReopen b).rxbuf = s.rxbuf := rfl
@[simp] theorem State.setReopen_lastInputTime (s : State) (b : Bool) : (s.setReopen b).lastInputTime = s.lastInputTime := rfl
@[simp] theorem State.setReopen_inputValid (s : State) (b : Bool) : (s.setReopen b).inputValid = s.inputValid := rfl
@[simp] theorem State.setReopen_inputLost (s : State) (b : Bool) : (s.setReopen b).inputLost = s.inputLost := rfl
@[simp] theorem State.setReopen_reopenReq (s : State) (b : Bool) : (s.setReopen b).reopenReq = b := rfl
@[simp] theorem State.setReopen_halted (s : State) (b : Bool) : (s.setReopen b).halted = s.halted := rfl
@[simp] theorem State.setReopen_lastTx (s : State) (b : Bool) : (s.setReopen b).lastTx = s.lastTx := rfl
@[simp] theorem State.setReopen_lastRx (s : State) (b : Bool) : (s.setReopen b).lastRx = s.lastRx := rfl
@[simp] theorem State.setReopen_inputs (s : State) (b : Bool) : (s.setReopen b).inputs = s.inputs := rfl
@[simp] theorem State.setReopen_sends (s : State) (b : Bool) : (s.setReopen b).sends = s.sends := rfl
@[simp] theorem State.setReopen_sendCount (s : State) (b : Bool) : (s.setReopen b).sendCount = s.sendCount := rfl
@[simp] theorem State.setReopen_arrivals (s : State) (b : Bool) : (s.setReopen b).arrivals = s.arrivals := rfl
@[simp] theorem State.setReopen_txLog (s : State) (b : Bool) : (s.setReopen b).txLog = s.txLog := rfl
@[simp] theorem State.setReopen_reply (s : State) (b : Bool) : (s.setReopen b).reply = s.reply := rfl
@[simp] theorem State.setReopen_stateOf (s : State) (b : Bool) (k : GroupIx) : (s.setReopen b).stateOf k = s.stateOf k := rfl
@[simp] theorem State.setReopen_pendingOf (s : State) (b : Bool) (k : GroupIx) : (s.setReopen b).pendingOf k = s.pendingOf k := rfl
@[simp] theorem State.setReopen_causeOf (s : State) (b : Bool) (k : GroupIx) : (s.setReopen b).causeOf k = s.causeOf k := rfl
@[simp] theorem State.setReopen_entryOf (s : State) (b : Bool) (k : MotorIx) : (s.setReopen b).entryOf k = s.entryOf k := rfl
@[simp] theorem State.setReopen_setpointOf (s : State) (b : Bool) (k : MotorIx) : (s.setReopen b).setpointOf k = s.setpointOf k := rfl
@[simp] theorem State.setReopen_rampOf (s : State) (b : Bool) (k : MotorIx) : (s.setReopen b).rampOf k = s.rampOf k := rfl

/-! ### setHalted -/

@[simp] theorem State.setHalted_regs (s : State) : (s.setHalted).regs = s.regs := rfl
@[simp] theorem State.setHalted_sticky (s : State) : (s.setHalted).sticky = s.sticky := rfl
@[simp] theorem State.setHalted_norspCnt (s : State) : (s.setHalted).norspCnt = s.norspCnt := rfl
@[simp] theorem State.setHalted_rxdropCnt (s : State) : (s.setHalted).rxdropCnt = s.rxdropCnt := rfl
@[simp] theorem State.setHalted_estopCnt (s : State) : (s.setHalted).estopCnt = s.estopCnt := rfl
@[simp] theorem State.setHalted_ecause (s : State) : (s.setHalted).ecause = s.ecause := rfl
@[simp] theorem State.setHalted_motor (s : State) : (s.setHalted).motor = s.motor := rfl
@[simp] theorem State.setHalted_setpoint (s : State) : (s.setHalted).setpoint = s.setpoint := rfl
@[simp] theorem State.setHalted_rampcur (s : State) : (s.setHalted).rampcur = s.rampcur := rfl
@[simp] theorem State.setHalted_mstate (s : State) : (s.setHalted).mstate = s.mstate := rfl
@[simp] theorem State.setHalted_pending (s : State) : (s.setHalted).pending = s.pending := rfl
@[simp] theorem State.setHalted_rxbuf (s : State) : (s.setHalted).rxbuf = s.rxbuf := rfl
@[simp] theorem State.setHalted_lastInputTime (s : State) : (s.setHalted).lastInputTime = s.lastInputTime := rfl
@[simp] theorem State.setHalted_inputValid (s : State) : (s.setHalted).inputValid = s.inputValid := rfl
@[simp] theorem State.setHalted_inputLost (s : State) : (s.setHalted).inputLost = s.inputLost := rfl
@[simp] theorem State.setHalted_reopenReq (s : State) : (s.setHalted).reopenReq = s.reopenReq := rfl
@[simp] theorem State.setHalted_halted (s : State) : (s.setHalted).halted = true := rfl
@[simp] theorem State.setHalted_lastTx (s : State) : (s.setHalted).lastTx = s.lastTx := rfl
@[simp] theorem State.setHalted_lastRx (s : State) : (s.setHalted).lastRx = s.lastRx := rfl
@[simp] theorem State.setHalted_inputs (s : State) : (s.setHalted).inputs = s.inputs := rfl
@[simp] theorem State.setHalted_sends (s : State) : (s.setHalted).sends = s.sends := rfl
@[simp] theorem State.setHalted_sendCount (s : State) : (s.setHalted).sendCount = s.sendCount := rfl
@[simp] theorem State.setHalted_arrivals (s : State) : (s.setHalted).arrivals = s.arrivals := rfl
@[simp] theorem State.setHalted_txLog (s : State) : (s.setHalted).txLog = s.txLog := rfl
@[simp] theorem State.setHalted_reply (s : State) : (s.setHalted).reply = s.reply := rfl
@[simp] theorem State.setHalted_stateOf (s : State) (k : GroupIx) : (s.setHalted).stateOf k = s.stateOf k := rfl
@[simp] theorem State.setHalted_pendingOf (s : State) (k : GroupIx) : (s.setHalted).pendingOf k = s.pendingOf k := rfl
@[simp] theorem State.setHalted_causeOf (s : State) (k : GroupIx) : (s.setHalted).causeOf k = s.causeOf k := rfl
@[simp] theorem State.setHalted_entryOf (s : State) (k : MotorIx) : (s.setHalted).entryOf k = s.entryOf k := rfl
@[simp] theorem State.setHalted_setpointOf (s : State) (k : MotorIx) : (s.setHalted).setpointOf k = s.setpointOf k := rfl
@[simp] theorem State.setHalted_rampOf (s : State) (k : MotorIx) : (s.setHalted).rampOf k = s.rampOf k := rfl

/-! ### setLost -/

@[simp] theorem State.setLost_regs (s : State) : (s.setLost).regs = s.regs := rfl
@[simp] theorem State.setLost_sticky (s : State) : (s.setLost).sticky = s.sticky := rfl
@[simp] theorem State.setLost_norspCnt (s : State) : (s.setLost).norspCnt = s.norspCnt := rfl
@[simp] theorem State.setLost_rxdropCnt (s : State) : (s.setLost).rxdropCnt = s.rxdropCnt := rfl
@[simp] theorem State.setLost_estopCnt (s : State) : (s.setLost).estopCnt = s.estopCnt := rfl
@[simp] theorem State.setLost_ecause (s : State) : (s.setLost).ecause = s.ecause := rfl
@[simp] theorem State.setLost_motor (s : State) : (s.setLost).motor = s.motor := rfl
@[simp] theorem State.setLost_setpoint (s : State) : (s.setLost).setpoint = s.setpoint := rfl
@[simp] theorem State.setLost_rampcur (s : State) : (s.setLost).rampcur = s.rampcur := rfl
@[simp] theorem State.setLost_mstate (s : State) : (s.setLost).mstate = s.mstate := rfl
@[simp] theorem State.setLost_pending (s : State) : (s.setLost).pending = s.pending := rfl
@[simp] theorem State.setLost_rxbuf (s : State) : (s.setLost).rxbuf = s.rxbuf := rfl
@[simp] theorem State.setLost_lastInputTime (s : State) : (s.setLost).lastInputTime = s.lastInputTime := rfl
@[simp] theorem State.setLost_inputValid (s : State) : (s.setLost).inputValid = s.inputValid := rfl
@[simp] theorem State.setLost_inputLost (s : State) : (s.setLost).inputLost = true := rfl
@[simp] theorem State.setLost_reopenReq (s : State) : (s.setLost).reopenReq = s.reopenReq := rfl
@[simp] theorem State.setLost_halted (s : State) : (s.setLost).halted = s.halted := rfl
@[simp] theorem State.setLost_lastTx (s : State) : (s.setLost).lastTx = s.lastTx := rfl
@[simp] theorem State.setLost_lastRx (s : State) : (s.setLost).lastRx = s.lastRx := rfl
@[simp] theorem State.setLost_inputs (s : State) : (s.setLost).inputs = s.inputs := rfl
@[simp] theorem State.setLost_sends (s : State) : (s.setLost).sends = s.sends := rfl
@[simp] theorem State.setLost_sendCount (s : State) : (s.setLost).sendCount = s.sendCount := rfl
@[simp] theorem State.setLost_arrivals (s : State) : (s.setLost).arrivals = s.arrivals := rfl
@[simp] theorem State.setLost_txLog (s : State) : (s.setLost).txLog = s.txLog := rfl
@[simp] theorem State.setLost_reply (s : State) : (s.setLost).reply = s.reply := rfl
@[simp] theorem State.setLost_stateOf (s : State) (k : GroupIx) : (s.setLost).stateOf k = s.stateOf k := rfl
@[simp] theorem State.setLost_pendingOf (s : State) (k : GroupIx) : (s.setLost).pendingOf k = s.pendingOf k := rfl
@[simp] theorem State.setLost_causeOf (s : State) (k : GroupIx) : (s.setLost).causeOf k = s.causeOf k := rfl
@[simp] theorem State.setLost_entryOf (s : State) (k : MotorIx) : (s.setLost).entryOf k = s.entryOf k := rfl
@[simp] theorem State.setLost_setpointOf (s : State) (k : MotorIx) : (s.setLost).setpointOf k = s.setpointOf k := rfl
@[simp] theorem State.setLost_rampOf (s : State) (k : MotorIx) : (s.setLost).rampOf k = s.rampOf k := rfl

/-! ### setLastRx -/

@[simp] theorem State.setLastRx_regs (s : State) (f : Bytes) : (s.setLastRx f).regs = s.regs := rfl
@[simp] theorem State.setLastRx_sticky (s : State) (f : Bytes) : (s.setLastRx f).sticky = s.sticky := rfl
@[simp] theorem State.setLastRx_norspCnt (s : State) (f : Bytes) : (s.setLastRx f).norspCnt = s.norspCnt := rfl
@[simp] theorem State.setLastRx_rxdropCnt (s : State) (f : Bytes) : (s.setLastRx f).rxdropCnt = s.rxdropCnt := rfl
@[simp] theorem State.setLastRx_estopCnt (s : State) (f : Bytes) : (s.setLastRx f).estopCnt = s.estopCnt := rfl
@[simp] theorem State.setLastRx_ecause (s : State) (f : Bytes) : (s.setLastRx f).ecause = s.ecause := rfl
@[simp] theorem State.setLastRx_motor (s : State) (f : Bytes) : (s.setLastRx f).motor = s.motor := rfl
@[simp] theorem State.setLastRx_setpoint (s : State) (f : Bytes) : (s.setLastRx f).setpoint = s.setpoint := rfl
@[simp] theorem State.setLastRx_rampcur (s : State) (f : Bytes) : (s.setLastRx f).rampcur = s.rampcur := rfl
@[simp] theorem State.setLastRx_mstate (s : State) (f : Bytes) : (s.setLastRx f).mstate = s.mstate := rfl
@[simp] theorem State.setLastRx_pending (s : State) (f : Bytes) : (s.setLastRx f).pending = s.pending := rfl
@[simp] theorem State.setLastRx_rxbuf (s : State) (f : Bytes) : (s.setLastRx f).rxbuf = s.rxbuf := rfl
@[simp] theorem State.setLastRx_lastInputTime (s : State) (f : Bytes) : (s.setLastRx f).lastInputTime = s.lastInputTime := rfl
@[simp] theorem State.setLastRx_inputValid (s : State) (f : Bytes) : (s.setLastRx f).inputValid = s.inputValid := rfl
@[simp] theorem State.setLastRx_inputLost (s : State) (f : Bytes) : (s.setLastRx f).inputLost = s.inputLost := rfl
@[simp] theorem State.setLastRx_reopenReq (s : State) (f : Bytes) : (s.setLastRx f).reopenReq = s.reopenReq := rfl
@[simp] theorem State.setLastRx_halted (s : State) (f : Bytes) : (s.setLastRx f).halted = s.halted := rfl
@[simp] theorem State.setLastRx_lastTx (s : State) (f : Bytes) : (s.setLastRx f).lastTx = s.lastTx := rfl
@[simp] theorem State.setLastRx_lastRx (s : State) (f : Bytes) : (s.setLastRx f).lastRx = f := rfl
@[simp] theorem State.setLastRx_inputs (s : State) (f : Bytes) : (s.setLastRx f).inputs = s.inputs := rfl
@[simp] theorem State.setLastRx_sends (s : State) (f : Bytes) : (s.setLastRx f).sends = s.sends := rfl
@[simp] theorem State.setLastRx_sendCount (s : State) (f : Bytes) : (s.setLastRx f).sendCount = s.sendCount := rfl
@[simp] theorem State.setLastRx_arrivals (s : State) (f : Bytes) : (s.setLastRx f).arrivals = s.arrivals := rfl
@[simp] theorem State.setLastRx_txLog (s : State) (f : Bytes) : (s.setLastRx f).txLog = s.txLog := rfl
@[simp] theorem State.setLastRx_reply (s : State) (f : Bytes) : (s.setLastRx f).reply = s.reply := rfl
@[simp] theorem State.setLastRx_stateOf (s : State) (f : Bytes) (k : GroupIx) : (s.setLastRx f).stateOf k = s.stateOf k := rfl
@[simp] theorem State.setLastRx_pendingOf (s : State) (f : Bytes) (k : GroupIx) : (s.setLastRx f).pendingOf k = s.pendingOf k := rfl
@[simp] theorem State.setLastRx_causeOf (s : State) (f : Bytes) (k : GroupIx) : (s.setLastRx f).causeOf k = s.causeOf k := rfl
@[simp] theorem State.setLastRx_entryOf (s : State) (f : Bytes) (k : MotorIx) : (s.setLastRx f).entryOf k = s.entryOf k := rfl
@[simp] theorem State.setLastRx_setpointOf (s : State) (f : Bytes) (k : MotorIx) : (s.setLastRx f).setpointOf k = s.setpointOf k := rfl
@[simp] theorem State.setLastRx_rampOf (s : State) (f : Bytes) (k : MotorIx) : (s.setLastRx f).rampOf k = s.rampOf k := rfl

/-! ### setInputs -/

@[simp] theorem State.setInputs_regs (s : State) (l : List Input) : (s.setInputs l).regs = s.regs := rfl
@[simp] theorem State.setInputs_sticky (s : State) (l : List Input) : (s.setInputs l).sticky = s.sticky := rfl
@[simp] theorem State.setInputs_norspCnt (s : State) (l : List Input) : (s.setInputs l).norspCnt = s.norspCnt := rfl
@[simp] theorem State.setInputs_rxdropCnt (s : State) (l : List Input) : (s.setInputs l).rxdropCnt = s.rxdropCnt := rfl
@[simp] theorem State.setInputs_estopCnt (s : State) (l : List Input) : (s.setInputs l).estopCnt = s.estopCnt := rfl
@[simp] theorem State.setInputs_ecause (s : State) (l : List Input) : (s.setInputs l).ecause = s.ecause := rfl
@[simp] theorem State.setInputs_motor (s : State) (l : List Input) : (s.setInputs l).motor = s.motor := rfl
@[simp] theorem State.setInputs_setpoint (s : State) (l : List Input) : (s.setInputs l).setpoint = s.setpoint := rfl
@[simp] theorem State.setInputs_rampcur (s : State) (l : List Input) : (s.setInputs l).rampcur = s.rampcur := rfl
@[simp] theorem State.setInputs_mstate (s : State) (l : List Input) : (s.setInputs l).mstate = s.mstate := rfl
@[simp] theorem State.setInputs_pending (s : State) (l : List Input) : (s.setInputs l).pending = s.pending := rfl
@[simp] theorem State.setInputs_rxbuf (s : State) (l : List Input) : (s.setInputs l).rxbuf = s.rxbuf := rfl
@[simp] theorem State.setInputs_lastInputTime (s : State) (l : List Input) : (s.setInputs l).lastInputTime = s.lastInputTime := rfl
@[simp] theorem State.setInputs_inputValid (s : State) (l : List Input) : (s.setInputs l).inputValid = s.inputValid := rfl
@[simp] theorem State.setInputs_inputLost (s : State) (l : List Input) : (s.setInputs l).inputLost = s.inputLost := rfl
@[simp] theorem State.setInputs_reopenReq (s : State) (l : List Input) : (s.setInputs l).reopenReq = s.reopenReq := rfl
@[simp] theorem State.setInputs_halted (s : State) (l : List Input) : (s.setInputs l).halted = s.halted := rfl
@[simp] theorem State.setInputs_lastTx (s : State) (l : List Input) : (s.setInputs l).lastTx = s.lastTx := rfl
@[simp] theorem State.setInputs_lastRx (s : State) (l : List Input) : (s.setInputs l).lastRx = s.lastRx := rfl
@[simp] theorem State.setInputs_inputs (s : State) (l : List Input) : (s.setInputs l).inputs = l := rfl
@[simp] theorem State.setInputs_sends (s : State) (l : List Input) : (s.setInputs l).sends = s.sends := rfl
@[simp] theorem State.setInputs_sendCount (s : State) (l : List Input) : (s.setInputs l).sendCount = s.sendCount := rfl
@[simp] theorem State.setInputs_arrivals (s : State) (l : List Input) : (s.setInputs l).arrivals = s.arrivals := rfl
@[simp] theorem State.setInputs_txLog (s : State) (l : List Input) : (s.setInputs l).txLog = s.txLog := rfl
@[simp] theorem State.setInputs_reply (s : State) (l : List Input) : (s.setInputs l).reply = s.reply := rfl
@[simp] theorem State.setInputs_stateOf (s : State) (l : List Input) (k : GroupIx) : (s.setInputs l).stateOf k = s.stateOf k := rfl
@[simp] theorem State.setInputs_pendingOf (s : State) (l : List Input) (k : GroupIx) : (s.setInputs l).pendingOf k = s.pendingOf k := rfl
@[simp] theorem State.setInputs_causeOf (s : State) (l : List Input) (k : GroupIx) : (s.setInputs l).causeOf k = s.causeOf k := rfl
@[simp] theorem State.setInputs_entryOf (s : State) (l : List Input) (k : MotorIx) : (s.setInputs l).entryOf k = s.entryOf k := rfl
@[simp] theorem State.setInputs_setpointOf (s : State) (l : List Input) (k : MotorIx) : (s.setInputs l).setpointOf k = s.setpointOf k := rfl
@[simp] theorem State.setInputs_rampOf (s : State) (l : List Input) (k : MotorIx) : (s.setInputs l).rampOf k = s.rampOf k := rfl

/-! ### emptyBuffer -/

@[simp] theorem State.emptyBuffer_regs (s : State) : (s.emptyBuffer).regs = s.regs := rfl
@[simp] theorem State.emptyBuffer_sticky (s : State) : (s.emptyBuffer).sticky = s.sticky := rfl
@[simp] theorem State.emptyBuffer_norspCnt (s : State) : (s.emptyBuffer).norspCnt = s.norspCnt := rfl
@[simp] theorem State.emptyBuffer_rxdropCnt (s : State) : (s.emptyBuffer).rxdropCnt = s.rxdropCnt := rfl
@[simp] theorem State.emptyBuffer_estopCnt (s : State) : (s.emptyBuffer).estopCnt = s.estopCnt := rfl
@[simp] theorem State.emptyBuffer_ecause (s : State) : (s.emptyBuffer).ecause = s.ecause := rfl
@[simp] theorem State.emptyBuffer_motor (s : State) : (s.emptyBuffer).motor = s.motor := rfl
@[simp] theorem State.emptyBuffer_setpoint (s : State) : (s.emptyBuffer).setpoint = s.setpoint := rfl
@[simp] theorem State.emptyBuffer_rampcur (s : State) : (s.emptyBuffer).rampcur = s.rampcur := rfl
@[simp] theorem State.emptyBuffer_mstate (s : State) : (s.emptyBuffer).mstate = s.mstate := rfl
@[simp] theorem State.emptyBuffer_pending (s : State) : (s.emptyBuffer).pending = s.pending := rfl
@[simp] theorem State.emptyBuffer_rxbuf (s : State) : (s.emptyBuffer).rxbuf = [] := rfl
@[simp] theorem State.emptyBuffer_lastInputTime (s : State) : (s.emptyBuffer).lastInputTime = s.lastInputTime := rfl
@[simp] theorem State.emptyBuffer_inputValid (s : State) : (s.emptyBuffer).inputValid = s.inputValid := rfl
@[simp] theorem State.emptyBuffer_inputLost (s : State) : (s.emptyBuffer).inputLost = s.inputLost := rfl
@[simp] theorem State.emptyBuffer_reopenReq (s : State) : (s.emptyBuffer).reopenReq = s.reopenReq := rfl
@[simp] theorem State.emptyBuffer_halted (s : State) : (s.emptyBuffer).halted = s.halted := rfl
@[simp] theorem State.emptyBuffer_lastTx (s : State) : (s.emptyBuffer).lastTx = s.lastTx := rfl
@[simp] theorem State.emptyBuffer_lastRx (s : State) : (s.emptyBuffer).lastRx = s.lastRx := rfl
@[simp] theorem State.emptyBuffer_inputs (s : State) : (s.emptyBuffer).inputs = s.inputs := rfl
@[simp] theorem State.emptyBuffer_sends (s : State) : (s.emptyBuffer).sends = s.sends := rfl
@[simp] theorem State.emptyBuffer_sendCount (s : State) : (s.emptyBuffer).sendCount = s.sendCount := rfl
@[simp] theorem State.emptyBuffer_arrivals (s : State) : (s.emptyBuffer).arrivals = s.arrivals := rfl
@[simp] theorem State.emptyBuffer_txLog (s : State) : (s.emptyBuffer).txLog = s.txLog := rfl
@[simp] theorem State.emptyBuffer_reply (s : State) : (s.emptyBuffer).reply = s.reply := rfl
@[simp] theorem State.emptyBuffer_stateOf (s : State) (k : GroupIx) : (s.emptyBuffer).stateOf k = s.stateOf k := rfl
@[simp] theorem State.emptyBuffer_pendingOf (s : State) (k : GroupIx) : (s.emptyBuffer).pendingOf k = s.pendingOf k := rfl
@[simp] theorem State.emptyBuffer_causeOf (s : State) (k : GroupIx) : (s.emptyBuffer).causeOf k = s.causeOf k := rfl
@[simp] theorem State.emptyBuffer_entryOf (s : State) (k : MotorIx) : (s.emptyBuffer).entryOf k = s.entryOf k := rfl
@[simp] theorem State.emptyBuffer_setpointOf (s : State) (k : MotorIx) : (s.emptyBuffer).setpointOf k = s.setpointOf k := rfl
@[simp] theorem State.emptyBuffer_rampOf (s : State) (k : MotorIx) : (s.emptyBuffer).rampOf k = s.rampOf k := rfl

/-! ### takeSample -/

@[simp] theorem State.takeSample_regs (s : State) (now : Time) (targets : List Half) : (s.takeSample now targets).regs = s.regs := rfl
@[simp] theorem State.takeSample_sticky (s : State) (now : Time) (targets : List Half) : (s.takeSample now targets).sticky = s.sticky := rfl
@[simp] theorem State.takeSample_norspCnt (s : State) (now : Time) (targets : List Half) : (s.takeSample now targets).norspCnt = s.norspCnt := rfl
@[simp] theorem State.takeSample_rxdropCnt (s : State) (now : Time) (targets : List Half) : (s.takeSample now targets).rxdropCnt = s.rxdropCnt := rfl
@[simp] theorem State.takeSample_estopCnt (s : State) (now : Time) (targets : List Half) : (s.takeSample now targets).estopCnt = s.estopCnt := rfl
@[simp] theorem State.takeSample_ecause (s : State) (now : Time) (targets : List Half) : (s.takeSample now targets).ecause = s.ecause := rfl
@[simp] theorem State.takeSample_motor (s : State) (now : Time) (targets : List Half) : (s.takeSample now targets).motor = s.motor := rfl
@[simp] theorem State.takeSample_setpoint (s : State) (now : Time) (targets : List Half) : (s.takeSample now targets).setpoint = Vector.ofFn (fun m : MotorIx => targets.getD m.val 0) := rfl
@[simp] theorem State.takeSample_rampcur (s : State) (now : Time) (targets : List Half) : (s.takeSample now targets).rampcur = s.rampcur := rfl
@[simp] theorem State.takeSample_mstate (s : State) (now : Time) (targets : List Half) : (s.takeSample now targets).mstate = s.mstate := rfl
@[simp] theorem State.takeSample_pending (s : State) (now : Time) (targets : List Half) : (s.takeSample now targets).pending = s.pending := rfl
@[simp] theorem State.takeSample_rxbuf (s : State) (now : Time) (targets : List Half) : (s.takeSample now targets).rxbuf = s.rxbuf := rfl
@[simp] theorem State.takeSample_lastInputTime (s : State) (now : Time) (targets : List Half) : (s.takeSample now targets).lastInputTime = now := rfl
@[simp] theorem State.takeSample_inputValid (s : State) (now : Time) (targets : List Half) : (s.takeSample now targets).inputValid = true := rfl
@[simp] theorem State.takeSample_inputLost (s : State) (now : Time) (targets : List Half) : (s.takeSample now targets).inputLost = false := rfl
@[simp] theorem State.takeSample_reopenReq (s : State) (now : Time) (targets : List Half) : (s.takeSample now targets).reopenReq = s.reopenReq := rfl
@[simp] theorem State.takeSample_halted (s : State) (now : Time) (targets : List Half) : (s.takeSample now targets).halted = s.halted := rfl
@[simp] theorem State.takeSample_lastTx (s : State) (now : Time) (targets : List Half) : (s.takeSample now targets).lastTx = s.lastTx := rfl
@[simp] theorem State.takeSample_lastRx (s : State) (now : Time) (targets : List Half) : (s.takeSample now targets).lastRx = s.lastRx := rfl
@[simp] theorem State.takeSample_inputs (s : State) (now : Time) (targets : List Half) : (s.takeSample now targets).inputs = s.inputs := rfl
@[simp] theorem State.takeSample_sends (s : State) (now : Time) (targets : List Half) : (s.takeSample now targets).sends = s.sends := rfl
@[simp] theorem State.takeSample_sendCount (s : State) (now : Time) (targets : List Half) : (s.takeSample now targets).sendCount = s.sendCount := rfl
@[simp] theorem State.takeSample_arrivals (s : State) (now : Time) (targets : List Half) : (s.takeSample now targets).arrivals = s.arrivals := rfl
@[simp] theorem State.takeSample_txLog (s : State) (now : Time) (targets : List Half) : (s.takeSample now targets).txLog = s.txLog := rfl
@[simp] theorem State.takeSample_reply (s : State) (now : Time) (targets : List Half) : (s.takeSample now targets).reply = s.reply := rfl
@[simp] theorem State.takeSample_stateOf (s : State) (now : Time) (targets : List Half) (k : GroupIx) : (s.takeSample now targets).stateOf k = s.stateOf k := rfl
@[simp] theorem State.takeSample_pendingOf (s : State) (now : Time) (targets : List Half) (k : GroupIx) : (s.takeSample now targets).pendingOf k = s.pendingOf k := rfl
@[simp] theorem State.takeSample_causeOf (s : State) (now : Time) (targets : List Half) (k : GroupIx) : (s.takeSample now targets).causeOf k = s.causeOf k := rfl
@[simp] theorem State.takeSample_entryOf (s : State) (now : Time) (targets : List Half) (k : MotorIx) : (s.takeSample now targets).entryOf k = s.entryOf k := rfl
@[simp] theorem State.takeSample_rampOf (s : State) (now : Time) (targets : List Half) (k : MotorIx) : (s.takeSample now targets).rampOf k = s.rampOf k := rfl

/-! ### begin -/

@[simp] theorem State.begin_regs (s : State) : (s.begin).regs = s.regs := rfl
@[simp] theorem State.begin_sticky (s : State) : (s.begin).sticky = s.sticky := rfl
@[simp] theorem State.begin_norspCnt (s : State) : (s.begin).norspCnt = s.norspCnt := rfl
@[simp] theorem State.begin_rxdropCnt (s : State) : (s.begin).rxdropCnt = s.rxdropCnt := rfl
@[simp] theorem State.begin_estopCnt (s : State) : (s.begin).estopCnt = s.estopCnt := rfl
@[simp] theorem State.begin_ecause (s : State) : (s.begin).ecause = s.ecause := rfl
@[simp] theorem State.begin_motor (s : State) : (s.begin).motor = s.motor := rfl
@[simp] theorem State.begin_setpoint (s : State) : (s.begin).setpoint = s.setpoint := rfl
@[simp] theorem State.begin_rampcur (s : State) : (s.begin).rampcur = s.rampcur := rfl
@[simp] theorem State.begin_mstate (s : State) : (s.begin).mstate = s.mstate := rfl
@[simp] theorem State.begin_pending (s : State) : (s.begin).pending = s.pending := rfl
@[simp] theorem State.begin_rxbuf (s : State) : (s.begin).rxbuf = s.rxbuf := rfl
@[simp] theorem State.begin_lastInputTime (s : State) : (s.begin).lastInputTime = s.lastInputTime := rfl
@[simp] theorem State.begin_inputValid (s : State) : (s.begin).inputValid = s.inputValid := rfl
@[simp] theorem State.begin_inputLost (s : State) : (s.begin).inputLost = s.inputLost := rfl
@[simp] theorem State.begin_reopenReq (s : State) : (s.begin).reopenReq = s.reopenReq := rfl
@[simp] theorem State.begin_halted (s : State) : (s.begin).halted = s.halted := rfl
@[simp] theorem State.begin_lastTx (s : State) : (s.begin).lastTx = s.lastTx := rfl
@[simp] theorem State.begin_lastRx (s : State) : (s.begin).lastRx = s.lastRx := rfl
@[simp] theorem State.begin_inputs (s : State) : (s.begin).inputs = s.inputs := rfl
@[simp] theorem State.begin_sends (s : State) : (s.begin).sends = s.sends := rfl
@[simp] theorem State.begin_sendCount (s : State) : (s.begin).sendCount = s.sendCount := rfl
@[simp] theorem State.begin_arrivals (s : State) : (s.begin).arrivals = s.arrivals := rfl
@[simp] theorem State.begin_txLog (s : State) : (s.begin).txLog = s.txLog := rfl
@[simp] theorem State.begin_reply (s : State) : (s.begin).reply = Reply.fresh := rfl
@[simp] theorem State.begin_stateOf (s : State) (k : GroupIx) : (s.begin).stateOf k = s.stateOf k := rfl
@[simp] theorem State.begin_pendingOf (s : State) (k : GroupIx) : (s.begin).pendingOf k = s.pendingOf k := rfl
@[simp] theorem State.begin_causeOf (s : State) (k : GroupIx) : (s.begin).causeOf k = s.causeOf k := rfl
@[simp] theorem State.begin_entryOf (s : State) (k : MotorIx) : (s.begin).entryOf k = s.entryOf k := rfl
@[simp] theorem State.begin_setpointOf (s : State) (k : MotorIx) : (s.begin).setpointOf k = s.setpointOf k := rfl
@[simp] theorem State.begin_rampOf (s : State) (k : MotorIx) : (s.begin).rampOf k = s.rampOf k := rfl

/-! ### answer -/

@[simp] theorem State.answer_regs (s : State) (st : Status) (r : Result) : (s.answer st r).regs = s.regs := rfl
@[simp] theorem State.answer_sticky (s : State) (st : Status) (r : Result) : (s.answer st r).sticky = s.sticky := rfl
@[simp] theorem State.answer_norspCnt (s : State) (st : Status) (r : Result) : (s.answer st r).norspCnt = s.norspCnt := rfl
@[simp] theorem State.answer_rxdropCnt (s : State) (st : Status) (r : Result) : (s.answer st r).rxdropCnt = s.rxdropCnt := rfl
@[simp] theorem State.answer_estopCnt (s : State) (st : Status) (r : Result) : (s.answer st r).estopCnt = s.estopCnt := rfl
@[simp] theorem State.answer_ecause (s : State) (st : Status) (r : Result) : (s.answer st r).ecause = s.ecause := rfl
@[simp] theorem State.answer_motor (s : State) (st : Status) (r : Result) : (s.answer st r).motor = s.motor := rfl
@[simp] theorem State.answer_setpoint (s : State) (st : Status) (r : Result) : (s.answer st r).setpoint = s.setpoint := rfl
@[simp] theorem State.answer_rampcur (s : State) (st : Status) (r : Result) : (s.answer st r).rampcur = s.rampcur := rfl
@[simp] theorem State.answer_mstate (s : State) (st : Status) (r : Result) : (s.answer st r).mstate = s.mstate := rfl
@[simp] theorem State.answer_pending (s : State) (st : Status) (r : Result) : (s.answer st r).pending = s.pending := rfl
@[simp] theorem State.answer_rxbuf (s : State) (st : Status) (r : Result) : (s.answer st r).rxbuf = s.rxbuf := rfl
@[simp] theorem State.answer_lastInputTime (s : State) (st : Status) (r : Result) : (s.answer st r).lastInputTime = s.lastInputTime := rfl
@[simp] theorem State.answer_inputValid (s : State) (st : Status) (r : Result) : (s.answer st r).inputValid = s.inputValid := rfl
@[simp] theorem State.answer_inputLost (s : State) (st : Status) (r : Result) : (s.answer st r).inputLost = s.inputLost := rfl
@[simp] theorem State.answer_reopenReq (s : State) (st : Status) (r : Result) : (s.answer st r).reopenReq = s.reopenReq := rfl
@[simp] theorem State.answer_halted (s : State) (st : Status) (r : Result) : (s.answer st r).halted = s.halted := rfl
@[simp] theorem State.answer_lastTx (s : State) (st : Status) (r : Result) : (s.answer st r).lastTx = s.lastTx := rfl
@[simp] theorem State.answer_lastRx (s : State) (st : Status) (r : Result) : (s.answer st r).lastRx = s.lastRx := rfl
@[simp] theorem State.answer_inputs (s : State) (st : Status) (r : Result) : (s.answer st r).inputs = s.inputs := rfl
@[simp] theorem State.answer_sends (s : State) (st : Status) (r : Result) : (s.answer st r).sends = s.sends := rfl
@[simp] theorem State.answer_sendCount (s : State) (st : Status) (r : Result) : (s.answer st r).sendCount = s.sendCount := rfl
@[simp] theorem State.answer_arrivals (s : State) (st : Status) (r : Result) : (s.answer st r).arrivals = s.arrivals := rfl
@[simp] theorem State.answer_txLog (s : State) (st : Status) (r : Result) : (s.answer st r).txLog = s.txLog := rfl
@[simp] theorem State.answer_reply (s : State) (st : Status) (r : Result) : (s.answer st r).reply = { s.reply with status := st, result := r } := rfl
@[simp] theorem State.answer_stateOf (s : State) (st : Status) (r : Result) (k : GroupIx) : (s.answer st r).stateOf k = s.stateOf k := rfl
@[simp] theorem State.answer_pendingOf (s : State) (st : Status) (r : Result) (k : GroupIx) : (s.answer st r).pendingOf k = s.pendingOf k := rfl
@[simp] theorem State.answer_causeOf (s : State) (st : Status) (r : Result) (k : GroupIx) : (s.answer st r).causeOf k = s.causeOf k := rfl
@[simp] theorem State.answer_entryOf (s : State) (st : Status) (r : Result) (k : MotorIx) : (s.answer st r).entryOf k = s.entryOf k := rfl
@[simp] theorem State.answer_setpointOf (s : State) (st : Status) (r : Result) (k : MotorIx) : (s.answer st r).setpointOf k = s.setpointOf k := rfl
@[simp] theorem State.answer_rampOf (s : State) (st : Status) (r : Result) (k : MotorIx) : (s.answer st r).rampOf k = s.rampOf k := rfl

/-! ### noteIoErr -/

@[simp] theorem State.noteIoErr_regs (s : State) : (s.noteIoErr).regs = s.regs := rfl
@[simp] theorem State.noteIoErr_sticky (s : State) : (s.noteIoErr).sticky = s.sticky := rfl
@[simp] theorem State.noteIoErr_norspCnt (s : State) : (s.noteIoErr).norspCnt = s.norspCnt := rfl
@[simp] theorem State.noteIoErr_rxdropCnt (s : State) : (s.noteIoErr).rxdropCnt = s.rxdropCnt := rfl
@[simp] theorem State.noteIoErr_estopCnt (s : State) : (s.noteIoErr).estopCnt = s.estopCnt := rfl
@[simp] theorem State.noteIoErr_ecause (s : State) : (s.noteIoErr).ecause = s.ecause := rfl
@[simp] theorem State.noteIoErr_motor (s : State) : (s.noteIoErr).motor = s.motor := rfl
@[simp] theorem State.noteIoErr_setpoint (s : State) : (s.noteIoErr).setpoint = s.setpoint := rfl
@[simp] theorem State.noteIoErr_rampcur (s : State) : (s.noteIoErr).rampcur = s.rampcur := rfl
@[simp] theorem State.noteIoErr_mstate (s : State) : (s.noteIoErr).mstate = s.mstate := rfl
@[simp] theorem State.noteIoErr_pending (s : State) : (s.noteIoErr).pending = s.pending := rfl
@[simp] theorem State.noteIoErr_rxbuf (s : State) : (s.noteIoErr).rxbuf = s.rxbuf := rfl
@[simp] theorem State.noteIoErr_lastInputTime (s : State) : (s.noteIoErr).lastInputTime = s.lastInputTime := rfl
@[simp] theorem State.noteIoErr_inputValid (s : State) : (s.noteIoErr).inputValid = s.inputValid := rfl
@[simp] theorem State.noteIoErr_inputLost (s : State) : (s.noteIoErr).inputLost = s.inputLost := rfl
@[simp] theorem State.noteIoErr_reopenReq (s : State) : (s.noteIoErr).reopenReq = s.reopenReq := rfl
@[simp] theorem State.noteIoErr_halted (s : State) : (s.noteIoErr).halted = s.halted := rfl
@[simp] theorem State.noteIoErr_lastTx (s : State) : (s.noteIoErr).lastTx = s.lastTx := rfl
@[simp] theorem State.noteIoErr_lastRx (s : State) : (s.noteIoErr).lastRx = s.lastRx := rfl
@[simp] theorem State.noteIoErr_inputs (s : State) : (s.noteIoErr).inputs = s.inputs := rfl
@[simp] theorem State.noteIoErr_sends (s : State) : (s.noteIoErr).sends = s.sends := rfl
@[simp] theorem State.noteIoErr_sendCount (s : State) : (s.noteIoErr).sendCount = s.sendCount := rfl
@[simp] theorem State.noteIoErr_arrivals (s : State) : (s.noteIoErr).arrivals = s.arrivals := rfl
@[simp] theorem State.noteIoErr_txLog (s : State) : (s.noteIoErr).txLog = s.txLog := rfl
@[simp] theorem State.noteIoErr_reply (s : State) : (s.noteIoErr).reply = { s.reply with ioErr := true } := rfl
@[simp] theorem State.noteIoErr_stateOf (s : State) (k : GroupIx) : (s.noteIoErr).stateOf k = s.stateOf k := rfl
@[simp] theorem State.noteIoErr_pendingOf (s : State) (k : GroupIx) : (s.noteIoErr).pendingOf k = s.pendingOf k := rfl
@[simp] theorem State.noteIoErr_causeOf (s : State) (k : GroupIx) : (s.noteIoErr).causeOf k = s.causeOf k := rfl
@[simp] theorem State.noteIoErr_entryOf (s : State) (k : MotorIx) : (s.noteIoErr).entryOf k = s.entryOf k := rfl
@[simp] theorem State.noteIoErr_setpointOf (s : State) (k : MotorIx) : (s.noteIoErr).setpointOf k = s.setpointOf k := rfl
@[simp] theorem State.noteIoErr_rampOf (s : State) (k : MotorIx) : (s.noteIoErr).rampOf k = s.rampOf k := rfl

/-! ### noteVerify -/

@[simp] theorem State.noteVerify_regs (s : State) : (s.noteVerify).regs = s.regs := rfl
@[simp] theorem State.noteVerify_sticky (s : State) : (s.noteVerify).sticky = s.sticky := rfl
@[simp] theorem State.noteVerify_norspCnt (s : State) : (s.noteVerify).norspCnt = s.norspCnt := rfl
@[simp] theorem State.noteVerify_rxdropCnt (s : State) : (s.noteVerify).rxdropCnt = s.rxdropCnt := rfl
@[simp] theorem State.noteVerify_estopCnt (s : State) : (s.noteVerify).estopCnt = s.estopCnt := rfl
@[simp] theorem State.noteVerify_ecause (s : State) : (s.noteVerify).ecause = s.ecause := rfl
@[simp] theorem State.noteVerify_motor (s : State) : (s.noteVerify).motor = s.motor := rfl
@[simp] theorem State.noteVerify_setpoint (s : State) : (s.noteVerify).setpoint = s.setpoint := rfl
@[simp] theorem State.noteVerify_rampcur (s : State) : (s.noteVerify).rampcur = s.rampcur := rfl
@[simp] theorem State.noteVerify_mstate (s : State) : (s.noteVerify).mstate = s.mstate := rfl
@[simp] theorem State.noteVerify_pending (s : State) : (s.noteVerify).pending = s.pending := rfl
@[simp] theorem State.noteVerify_rxbuf (s : State) : (s.noteVerify).rxbuf = s.rxbuf := rfl
@[simp] theorem State.noteVerify_lastInputTime (s : State) : (s.noteVerify).lastInputTime = s.lastInputTime := rfl
@[simp] theorem State.noteVerify_inputValid (s : State) : (s.noteVerify).inputValid = s.inputValid := rfl
@[simp] theorem State.noteVerify_inputLost (s : State) : (s.noteVerify).inputLost = s.inputLost := rfl
@[simp] theorem State.noteVerify_reopenReq (s : State) : (s.noteVerify).reopenReq = s.reopenReq := rfl
@[simp] theorem State.noteVerify_halted (s : State) : (s.noteVerify).halted = s.halted := rfl
@[simp] theorem State.noteVerify_lastTx (s : State) : (s.noteVerify).lastTx = s.lastTx := rfl
@[simp] theorem State.noteVerify_lastRx (s : State) : (s.noteVerify).lastRx = s.lastRx := rfl
@[simp] theorem State.noteVerify_inputs (s : State) : (s.noteVerify).inputs = s.inputs := rfl
@[simp] theorem State.noteVerify_sends (s : State) : (s.noteVerify).sends = s.sends := rfl
@[simp] theorem State.noteVerify_sendCount (s : State) : (s.noteVerify).sendCount = s.sendCount := rfl
@[simp] theorem State.noteVerify_arrivals (s : State) : (s.noteVerify).arrivals = s.arrivals := rfl
@[simp] theorem State.noteVerify_txLog (s : State) : (s.noteVerify).txLog = s.txLog := rfl
@[simp] theorem State.noteVerify_reply (s : State) : (s.noteVerify).reply = { s.reply with verifyFailed := true } := rfl
@[simp] theorem State.noteVerify_stateOf (s : State) (k : GroupIx) : (s.noteVerify).stateOf k = s.stateOf k := rfl
@[simp] theorem State.noteVerify_pendingOf (s : State) (k : GroupIx) : (s.noteVerify).pendingOf k = s.pendingOf k := rfl
@[simp] theorem State.noteVerify_causeOf (s : State) (k : GroupIx) : (s.noteVerify).causeOf k = s.causeOf k := rfl
@[simp] theorem State.noteVerify_entryOf (s : State) (k : MotorIx) : (s.noteVerify).entryOf k = s.entryOf k := rfl
@[simp] theorem State.noteVerify_setpointOf (s : State) (k : MotorIx) : (s.noteVerify).setpointOf k = s.setpointOf k := rfl
@[simp] theorem State.noteVerify_rampOf (s : State) (k : MotorIx) : (s.noteVerify).rampOf k = s.rampOf k := rfl

/-! ### keepBuffer -/

@[simp] theorem State.keepBuffer_regs (s : State) (rest : Bytes) (drops : Nat) : (s.keepBuffer rest drops).regs = s.regs := rfl
@[simp] theorem State.keepBuffer_sticky (s : State) (rest : Bytes) (drops : Nat) : (s.keepBuffer rest drops).sticky = s.sticky := rfl
@[simp] theorem State.keepBuffer_norspCnt (s : State) (rest : Bytes) (drops : Nat) : (s.keepBuffer rest drops).norspCnt = s.norspCnt := rfl
@[simp] theorem State.keepBuffer_rxdropCnt (s : State) (rest : Bytes) (drops : Nat) : (s.keepBuffer rest drops).rxdropCnt = s.rxdropCnt + BitVec.ofNat 32 drops := rfl
@[simp] theorem State.keepBuffer_estopCnt (s : State) (rest : Bytes) (drops : Nat) : (s.keepBuffer rest drops).estopCnt = s.estopCnt := rfl
@[simp] theorem State.keepBuffer_ecause (s : State) (rest : Bytes) (drops : Nat) : (s.keepBuffer rest drops).ecause = s.ecause := rfl
@[simp] theorem State.keepBuffer_motor (s : State) (rest : Bytes) (drops : Nat) : (s.keepBuffer rest drops).motor = s.motor := rfl
@[simp] theorem State.keepBuffer_setpoint (s : State) (rest : Bytes) (drops : Nat) : (s.keepBuffer rest drops).setpoint = s.setpoint := rfl
@[simp] theorem State.keepBuffer_rampcur (s : State) (rest : Bytes) (drops : Nat) : (s.keepBuffer rest drops).rampcur = s.rampcur := rfl
@[simp] theorem State.keepBuffer_mstate (s : State) (rest : Bytes) (drops : Nat) : (s.keepBuffer rest drops).mstate = s.mstate := rfl
@[simp] theorem State.keepBuffer_pending (s : State) (rest : Bytes) (drops : Nat) : (s.keepBuffer rest drops).pending = s.pending := rfl
@[simp] theorem State.keepBuffer_rxbuf (s : State) (rest : Bytes) (drops : Nat) : (s.keepBuffer rest drops).rxbuf = rest := rfl
@[simp] theorem State.keepBuffer_lastInputTime (s : State) (rest : Bytes) (drops : Nat) : (s.keepBuffer rest drops).lastInputTime = s.lastInputTime := rfl
@[simp] theorem State.keepBuffer_inputValid (s : State) (rest : Bytes) (drops : Nat) : (s.keepBuffer rest drops).inputValid = s.inputValid := rfl
@[simp] theorem State.keepBuffer_inputLost (s : State) (rest : Bytes) (drops : Nat) : (s.keepBuffer rest drops).inputLost = s.inputLost := rfl
@[simp] theorem State.keepBuffer_reopenReq (s : State) (rest : Bytes) (drops : Nat) : (s.keepBuffer rest drops).reopenReq = s.reopenReq := rfl
@[simp] theorem State.keepBuffer_halted (s : State) (rest : Bytes) (drops : Nat) : (s.keepBuffer rest drops).halted = s.halted := rfl
@[simp] theorem State.keepBuffer_lastTx (s : State) (rest : Bytes) (drops : Nat) : (s.keepBuffer rest drops).lastTx = s.lastTx := rfl
@[simp] theorem State.keepBuffer_lastRx (s : State) (rest : Bytes) (drops : Nat) : (s.keepBuffer rest drops).lastRx = s.lastRx := rfl
@[simp] theorem State.keepBuffer_inputs (s : State) (rest : Bytes) (drops : Nat) : (s.keepBuffer rest drops).inputs = s.inputs := rfl
@[simp] theorem State.keepBuffer_sends (s : State) (rest : Bytes) (drops : Nat) : (s.keepBuffer rest drops).sends = s.sends := rfl
@[simp] theorem State.keepBuffer_sendCount (s : State) (rest : Bytes) (drops : Nat) : (s.keepBuffer rest drops).sendCount = s.sendCount := rfl
@[simp] theorem State.keepBuffer_arrivals (s : State) (rest : Bytes) (drops : Nat) : (s.keepBuffer rest drops).arrivals = s.arrivals := rfl
@[simp] theorem State.keepBuffer_txLog (s : State) (rest : Bytes) (drops : Nat) : (s.keepBuffer rest drops).txLog = s.txLog := rfl
@[simp] theorem State.keepBuffer_reply (s : State) (rest : Bytes) (drops : Nat) : (s.keepBuffer rest drops).reply = s.reply := rfl
@[simp] theorem State.keepBuffer_stateOf (s : State) (rest : Bytes) (drops : Nat) (k : GroupIx) : (s.keepBuffer rest drops).stateOf k = s.stateOf k := rfl
@[simp] theorem State.keepBuffer_pendingOf (s : State) (rest : Bytes) (drops : Nat) (k : GroupIx) : (s.keepBuffer rest drops).pendingOf k = s.pendingOf k := rfl
@[simp] theorem State.keepBuffer_causeOf (s : State) (rest : Bytes) (drops : Nat) (k : GroupIx) : (s.keepBuffer rest drops).causeOf k = s.causeOf k := rfl
@[simp] theorem State.keepBuffer_entryOf (s : State) (rest : Bytes) (drops : Nat) (k : MotorIx) : (s.keepBuffer rest drops).entryOf k = s.entryOf k := rfl
@[simp] theorem State.keepBuffer_setpointOf (s : State) (rest : Bytes) (drops : Nat) (k : MotorIx) : (s.keepBuffer rest drops).setpointOf k = s.setpointOf k := rfl
@[simp] theorem State.keepBuffer_rampOf (s : State) (rest : Bytes) (drops : Nat) (k : MotorIx) : (s.keepBuffer rest drops).rampOf k = s.rampOf k := rfl

/-! ### enterEStop -/

@[simp] theorem State.enterEStop_regs (s : State) (g : GroupIx) (c : BitVec 2) : (s.enterEStop g c).regs = s.regs := rfl
@[simp] theorem State.enterEStop_sticky (s : State) (g : GroupIx) (c : BitVec 2) : (s.enterEStop g c).sticky = s.sticky := rfl
@[simp] theorem State.enterEStop_norspCnt (s : State) (g : GroupIx) (c : BitVec 2) : (s.enterEStop g c).norspCnt = s.norspCnt := rfl
@[simp] theorem State.enterEStop_rxdropCnt (s : State) (g : GroupIx) (c : BitVec 2) : (s.enterEStop g c).rxdropCnt = s.rxdropCnt := rfl
@[simp] theorem State.enterEStop_estopCnt (s : State) (g : GroupIx) (c : BitVec 2) : (s.enterEStop g c).estopCnt = s.estopCnt + 1 := rfl
@[simp] theorem State.enterEStop_ecause (s : State) (g : GroupIx) (c : BitVec 2) : (s.enterEStop g c).ecause = s.ecause.set g c := rfl
@[simp] theorem State.enterEStop_motor (s : State) (g : GroupIx) (c : BitVec 2) : (s.enterEStop g c).motor = s.motor := rfl
@[simp] theorem State.enterEStop_setpoint (s : State) (g : GroupIx) (c : BitVec 2) : (s.enterEStop g c).setpoint = s.setpoint := rfl
@[simp] theorem State.enterEStop_rampcur (s : State) (g : GroupIx) (c : BitVec 2) : (s.enterEStop g c).rampcur = s.rampcur := rfl
@[simp] theorem State.enterEStop_mstate (s : State) (g : GroupIx) (c : BitVec 2) : (s.enterEStop g c).mstate = s.mstate.set g .emergencyStop := rfl
@[simp] theorem State.enterEStop_pending (s : State) (g : GroupIx) (c : BitVec 2) : (s.enterEStop g c).pending = s.pending.set g false := rfl
@[simp] theorem State.enterEStop_rxbuf (s : State) (g : GroupIx) (c : BitVec 2) : (s.enterEStop g c).rxbuf = s.rxbuf := rfl
@[simp] theorem State.enterEStop_lastInputTime (s : State) (g : GroupIx) (c : BitVec 2) : (s.enterEStop g c).lastInputTime = s.lastInputTime := rfl
@[simp] theorem State.enterEStop_inputValid (s : State) (g : GroupIx) (c : BitVec 2) : (s.enterEStop g c).inputValid = s.inputValid := rfl
@[simp] theorem State.enterEStop_inputLost (s : State) (g : GroupIx) (c : BitVec 2) : (s.enterEStop g c).inputLost = s.inputLost := rfl
@[simp] theorem State.enterEStop_reopenReq (s : State) (g : GroupIx) (c : BitVec 2) : (s.enterEStop g c).reopenReq = s.reopenReq := rfl
@[simp] theorem State.enterEStop_halted (s : State) (g : GroupIx) (c : BitVec 2) : (s.enterEStop g c).halted = s.halted := rfl
@[simp] theorem State.enterEStop_lastTx (s : State) (g : GroupIx) (c : BitVec 2) : (s.enterEStop g c).lastTx = s.lastTx := rfl
@[simp] theorem State.enterEStop_lastRx (s : State) (g : GroupIx) (c : BitVec 2) : (s.enterEStop g c).lastRx = s.lastRx := rfl
@[simp] theorem State.enterEStop_inputs (s : State) (g : GroupIx) (c : BitVec 2) : (s.enterEStop g c).inputs = s.inputs := rfl
@[simp] theorem State.enterEStop_sends (s : State) (g : GroupIx) (c : BitVec 2) : (s.enterEStop g c).sends = s.sends := rfl
@[simp] theorem State.enterEStop_sendCount (s : State) (g : GroupIx) (c : BitVec 2) : (s.enterEStop g c).sendCount = s.sendCount := rfl
@[simp] theorem State.enterEStop_arrivals (s : State) (g : GroupIx) (c : BitVec 2) : (s.enterEStop g c).arrivals = s.arrivals := rfl
@[simp] theorem State.enterEStop_txLog (s : State) (g : GroupIx) (c : BitVec 2) : (s.enterEStop g c).txLog = s.txLog := rfl
@[simp] theorem State.enterEStop_reply (s : State) (g : GroupIx) (c : BitVec 2) : (s.enterEStop g c).reply = s.reply := rfl
@[simp] theorem State.enterEStop_stateOf (s : State) (g : GroupIx) (c : BitVec 2) (k : GroupIx) : (s.enterEStop g c).stateOf k = if k = g then .emergencyStop else s.stateOf k :=
  getElem_setGroup _ _ _ _
@[simp] theorem State.enterEStop_pendingOf (s : State) (g : GroupIx) (c : BitVec 2) (k : GroupIx) : (s.enterEStop g c).pendingOf k = if k = g then false else s.pendingOf k :=
  getElem_setGroup _ _ _ _
@[simp] theorem State.enterEStop_causeOf (s : State) (g : GroupIx) (c : BitVec 2) (k : GroupIx) : (s.enterEStop g c).causeOf k = if k = g then c else s.causeOf k :=
  getElem_setGroup _ _ _ _
@[simp] theorem State.enterEStop_entryOf (s : State) (g : GroupIx) (c : BitVec 2) (k : MotorIx) : (s.enterEStop g c).entryOf k = s.entryOf k := rfl
@[simp] theorem State.enterEStop_setpointOf (s : State) (g : GroupIx) (c : BitVec 2) (k : MotorIx) : (s.enterEStop g c).setpointOf k = s.setpointOf k := rfl
@[simp] theorem State.enterEStop_rampOf (s : State) (g : GroupIx) (c : BitVec 2) (k : MotorIx) : (s.enterEStop g c).rampOf k = s.rampOf k := rfl

/-! ### recordSend -/

@[simp] theorem State.recordSend_regs (s : State) (f : Bytes) : (s.recordSend f).regs = s.regs := rfl
@[simp] theorem State.recordSend_sticky (s : State) (f : Bytes) : (s.recordSend f).sticky = s.sticky := rfl
@[simp] theorem State.recordSend_norspCnt (s : State) (f : Bytes) : (s.recordSend f).norspCnt = s.norspCnt := rfl
@[simp] theorem State.recordSend_rxdropCnt (s : State) (f : Bytes) : (s.recordSend f).rxdropCnt = s.rxdropCnt := rfl
@[simp] theorem State.recordSend_estopCnt (s : State) (f : Bytes) : (s.recordSend f).estopCnt = s.estopCnt := rfl
@[simp] theorem State.recordSend_ecause (s : State) (f : Bytes) : (s.recordSend f).ecause = s.ecause := rfl
@[simp] theorem State.recordSend_motor (s : State) (f : Bytes) : (s.recordSend f).motor = s.motor := rfl
@[simp] theorem State.recordSend_setpoint (s : State) (f : Bytes) : (s.recordSend f).setpoint = s.setpoint := rfl
@[simp] theorem State.recordSend_rampcur (s : State) (f : Bytes) : (s.recordSend f).rampcur = s.rampcur := rfl
@[simp] theorem State.recordSend_mstate (s : State) (f : Bytes) : (s.recordSend f).mstate = s.mstate := rfl
@[simp] theorem State.recordSend_pending (s : State) (f : Bytes) : (s.recordSend f).pending = s.pending := rfl
@[simp] theorem State.recordSend_rxbuf (s : State) (f : Bytes) : (s.recordSend f).rxbuf = s.rxbuf := rfl
@[simp] theorem State.recordSend_lastInputTime (s : State) (f : Bytes) : (s.recordSend f).lastInputTime = s.lastInputTime := rfl
@[simp] theorem State.recordSend_inputValid (s : State) (f : Bytes) : (s.recordSend f).inputValid = s.inputValid := rfl
@[simp] theorem State.recordSend_inputLost (s : State) (f : Bytes) : (s.recordSend f).inputLost = s.inputLost := rfl
@[simp] theorem State.recordSend_reopenReq (s : State) (f : Bytes) : (s.recordSend f).reopenReq = s.reopenReq := rfl
@[simp] theorem State.recordSend_halted (s : State) (f : Bytes) : (s.recordSend f).halted = s.halted := rfl
@[simp] theorem State.recordSend_lastTx (s : State) (f : Bytes) : (s.recordSend f).lastTx = f := rfl
@[simp] theorem State.recordSend_lastRx (s : State) (f : Bytes) : (s.recordSend f).lastRx = s.lastRx := rfl
@[simp] theorem State.recordSend_inputs (s : State) (f : Bytes) : (s.recordSend f).inputs = s.inputs := rfl
@[simp] theorem State.recordSend_sends (s : State) (f : Bytes) : (s.recordSend f).sends = s.sends.tail := rfl
@[simp] theorem State.recordSend_sendCount (s : State) (f : Bytes) : (s.recordSend f).sendCount = s.sendCount + 1 := rfl
@[simp] theorem State.recordSend_arrivals (s : State) (f : Bytes) : (s.recordSend f).arrivals = s.arrivals := rfl
@[simp] theorem State.recordSend_txLog (s : State) (f : Bytes) : (s.recordSend f).txLog = s.txLog ++ [⟨f, s.nextSend⟩] := rfl
@[simp] theorem State.recordSend_reply (s : State) (f : Bytes) : (s.recordSend f).reply = s.reply := rfl
@[simp] theorem State.recordSend_stateOf (s : State) (f : Bytes) (k : GroupIx) : (s.recordSend f).stateOf k = s.stateOf k := rfl
@[simp] theorem State.recordSend_pendingOf (s : State) (f : Bytes) (k : GroupIx) : (s.recordSend f).pendingOf k = s.pendingOf k := rfl
@[simp] theorem State.recordSend_causeOf (s : State) (f : Bytes) (k : GroupIx) : (s.recordSend f).causeOf k = s.causeOf k := rfl
@[simp] theorem State.recordSend_entryOf (s : State) (f : Bytes) (k : MotorIx) : (s.recordSend f).entryOf k = s.entryOf k := rfl
@[simp] theorem State.recordSend_setpointOf (s : State) (f : Bytes) (k : MotorIx) : (s.recordSend f).setpointOf k = s.setpointOf k := rfl
@[simp] theorem State.recordSend_rampOf (s : State) (f : Bytes) (k : MotorIx) : (s.recordSend f).rampOf k = s.rampOf k := rfl

/-! ### popArrival -/

@[simp] theorem State.popArrival_regs (s : State) : (s.popArrival).regs = s.regs := rfl
@[simp] theorem State.popArrival_sticky (s : State) : (s.popArrival).sticky = s.sticky := rfl
@[simp] theorem State.popArrival_norspCnt (s : State) : (s.popArrival).norspCnt = s.norspCnt := rfl
@[simp] theorem State.popArrival_rxdropCnt (s : State) : (s.popArrival).rxdropCnt = s.rxdropCnt := rfl
@[simp] theorem State.popArrival_estopCnt (s : State) : (s.popArrival).estopCnt = s.estopCnt := rfl
@[simp] theorem State.popArrival_ecause (s : State) : (s.popArrival).ecause = s.ecause := rfl
@[simp] theorem State.popArrival_motor (s : State) : (s.popArrival).motor = s.motor := rfl
@[simp] theorem State.popArrival_setpoint (s : State) : (s.popArrival).setpoint = s.setpoint := rfl
@[simp] theorem State.popArrival_rampcur (s : State) : (s.popArrival).rampcur = s.rampcur := rfl
@[simp] theorem State.popArrival_mstate (s : State) : (s.popArrival).mstate = s.mstate := rfl
@[simp] theorem State.popArrival_pending (s : State) : (s.popArrival).pending = s.pending := rfl
@[simp] theorem State.popArrival_rxbuf (s : State) : (s.popArrival).rxbuf = s.rxbuf := rfl
@[simp] theorem State.popArrival_lastInputTime (s : State) : (s.popArrival).lastInputTime = s.lastInputTime := rfl
@[simp] theorem State.popArrival_inputValid (s : State) : (s.popArrival).inputValid = s.inputValid := rfl
@[simp] theorem State.popArrival_inputLost (s : State) : (s.popArrival).inputLost = s.inputLost := rfl
@[simp] theorem State.popArrival_reopenReq (s : State) : (s.popArrival).reopenReq = s.reopenReq := rfl
@[simp] theorem State.popArrival_halted (s : State) : (s.popArrival).halted = s.halted := rfl
@[simp] theorem State.popArrival_lastTx (s : State) : (s.popArrival).lastTx = s.lastTx := rfl
@[simp] theorem State.popArrival_lastRx (s : State) : (s.popArrival).lastRx = s.lastRx := rfl
@[simp] theorem State.popArrival_inputs (s : State) : (s.popArrival).inputs = s.inputs := rfl
@[simp] theorem State.popArrival_sends (s : State) : (s.popArrival).sends = s.sends := rfl
@[simp] theorem State.popArrival_sendCount (s : State) : (s.popArrival).sendCount = s.sendCount := rfl
@[simp] theorem State.popArrival_arrivals (s : State) : (s.popArrival).arrivals = s.arrivals.tail := rfl
@[simp] theorem State.popArrival_txLog (s : State) : (s.popArrival).txLog = s.txLog := rfl
@[simp] theorem State.popArrival_reply (s : State) : (s.popArrival).reply = s.reply := rfl
@[simp] theorem State.popArrival_stateOf (s : State) (k : GroupIx) : (s.popArrival).stateOf k = s.stateOf k := rfl
@[simp] theorem State.popArrival_pendingOf (s : State) (k : GroupIx) : (s.popArrival).pendingOf k = s.pendingOf k := rfl
@[simp] theorem State.popArrival_causeOf (s : State) (k : GroupIx) : (s.popArrival).causeOf k = s.causeOf k := rfl
@[simp] theorem State.popArrival_entryOf (s : State) (k : MotorIx) : (s.popArrival).entryOf k = s.entryOf k := rfl
@[simp] theorem State.popArrival_setpointOf (s : State) (k : MotorIx) : (s.popArrival).setpointOf k = s.setpointOf k := rfl
@[simp] theorem State.popArrival_rampOf (s : State) (k : MotorIx) : (s.popArrival).rampOf k = s.rampOf k := rfl

/-! ### noResponse -/

@[simp] theorem State.noResponse_regs (s : State) : (s.noResponse).regs = s.regs := rfl
@[simp] theorem State.noResponse_sticky (s : State) : (s.noResponse).sticky = s.sticky ||| flagMask .norsp := rfl
@[simp] theorem State.noResponse_norspCnt (s : State) : (s.noResponse).norspCnt = s.norspCnt + 1 := rfl
@[simp] theorem State.noResponse_rxdropCnt (s : State) : (s.noResponse).rxdropCnt = s.rxdropCnt := rfl
@[simp] theorem State.noResponse_estopCnt (s : State) : (s.noResponse).estopCnt = s.estopCnt := rfl
@[simp] theorem State.noResponse_ecause (s : State) : (s.noResponse).ecause = s.ecause := rfl
@[simp] theorem State.noResponse_motor (s : State) : (s.noResponse).motor = s.motor := rfl
@[simp] theorem State.noResponse_setpoint (s : State) : (s.noResponse).setpoint = s.setpoint := rfl
@[simp] theorem State.noResponse_rampcur (s : State) : (s.noResponse).rampcur = s.rampcur := rfl
@[simp] theorem State.noResponse_mstate (s : State) : (s.noResponse).mstate = s.mstate := rfl
@[simp] theorem State.noResponse_pending (s : State) : (s.noResponse).pending = s.pending := rfl
@[simp] theorem State.noResponse_rxbuf (s : State) : (s.noResponse).rxbuf = s.rxbuf := rfl
@[simp] theorem State.noResponse_lastInputTime (s : State) : (s.noResponse).lastInputTime = s.lastInputTime := rfl
@[simp] theorem State.noResponse_inputValid (s : State) : (s.noResponse).inputValid = s.inputValid := rfl
@[simp] theorem State.noResponse_inputLost (s : State) : (s.noResponse).inputLost = s.inputLost := rfl
@[simp] theorem State.noResponse_reopenReq (s : State) : (s.noResponse).reopenReq = s.reopenReq := rfl
@[simp] theorem State.noResponse_halted (s : State) : (s.noResponse).halted = s.halted := rfl
@[simp] theorem State.noResponse_lastTx (s : State) : (s.noResponse).lastTx = s.lastTx := rfl
@[simp] theorem State.noResponse_lastRx (s : State) : (s.noResponse).lastRx = s.lastRx := rfl
@[simp] theorem State.noResponse_inputs (s : State) : (s.noResponse).inputs = s.inputs := rfl
@[simp] theorem State.noResponse_sends (s : State) : (s.noResponse).sends = s.sends := rfl
@[simp] theorem State.noResponse_sendCount (s : State) : (s.noResponse).sendCount = s.sendCount := rfl
@[simp] theorem State.noResponse_arrivals (s : State) : (s.noResponse).arrivals = s.arrivals := rfl
@[simp] theorem State.noResponse_txLog (s : State) : (s.noResponse).txLog = s.txLog := rfl
@[simp] theorem State.noResponse_reply (s : State) : (s.noResponse).reply = s.reply := rfl
@[simp] theorem State.noResponse_stateOf (s : State) (k : GroupIx) : (s.noResponse).stateOf k = s.stateOf k := rfl
@[simp] theorem State.noResponse_pendingOf (s : State) (k : GroupIx) : (s.noResponse).pendingOf k = s.pendingOf k := rfl
@[simp] theorem State.noResponse_causeOf (s : State) (k : GroupIx) : (s.noResponse).causeOf k = s.causeOf k := rfl
@[simp] theorem State.noResponse_entryOf (s : State) (k : MotorIx) : (s.noResponse).entryOf k = s.entryOf k := rfl
@[simp] theorem State.noResponse_setpointOf (s : State) (k : MotorIx) : (s.noResponse).setpointOf k = s.setpointOf k := rfl
@[simp] theorem State.noResponse_rampOf (s : State) (k : MotorIx) : (s.noResponse).rampOf k = s.rampOf k := rfl

end Sys2Proof.Machine
end

