-- ==== Sys2Proof/Laws/Trap.lean ====
section
/-! SUPPORT. What the emergency stop does, said once: entering it for the groups a trigger acts on (R278, R313, R316),
and the transport fault. -/

namespace Sys2Proof.Machine

@[simp] theorem mem_allGroups (g : GroupIx) : g ∈ allGroups := by
  revert g; decide

@[simp] theorem mem_allMotors (m : MotorIx) : m ∈ allMotors := by
  revert m; decide

theorem nodup_allGroups : allGroups.Nodup := by decide

theorem nodup_allMotors : allMotors.Nodup := by decide

/-- A fold preserves what every step preserves. -/
theorem foldl_keeps {α : Type} {P : State → Prop} (f : State → α → State) (l : List α) (s : State)
    (h : ∀ s a, a ∈ l → P s → P (f s a)) (hs : P s) : P (l.foldl f s) := by
  induction l generalizing s with
  | nil => exact hs
  | cons a l ih =>
    exact ih _ (fun s b hb => h s b (List.mem_cons_of_mem _ hb)) (h s a List.mem_cons_self hs)

/-- A fold relates its ends by any reflexive, transitive relation that every step respects. -/
theorem foldl_rel {α : Type} {R : State → State → Prop} (refl : ∀ s, R s s)
    (trans : ∀ a b c, R a b → R b c → R a c) (f : State → α → State) (l : List α) (s : State)
    (h : ∀ s a, a ∈ l → R s (f s a)) : R s (l.foldl f s) :=
  foldl_keeps (P := R s) f l s (fun t a ha ht => trans _ _ _ ht (h t a ha)) (refl s)

/-! ### EnterEStop for the groups a trigger acts on -/

/-- One iteration of `estopWhere`. -/
def estopOne (p : MState → Bool) (c : BitVec 2) (s : State) (g : GroupIx) : State :=
  if p (s.stateOf g) then s.enterEStop g c else s

theorem estopWhere_eq_foldl (p : MState → Bool) (c : BitVec 2) (s : State) :
    s.estopWhere p c = allGroups.foldl (estopOne p c) s := rfl

theorem estopOne_stateOf (p : MState → Bool) (c : BitVec 2) (s : State) (g h : GroupIx) :
    (estopOne p c s g).stateOf h = if h = g ∧ p (s.stateOf g) then .emergencyStop else s.stateOf h := by
  unfold estopOne
  split
  · simp only [State.enterEStop_stateOf, ]; by_cases e : h = g <;> simp_all
  · simp_all

theorem estopOne_pendingOf (p : MState → Bool) (c : BitVec 2) (s : State) (g h : GroupIx) :
    (estopOne p c s g).pendingOf h = if h = g ∧ p (s.stateOf g) then false else s.pendingOf h := by
  unfold estopOne
  split
  · simp only [State.enterEStop_pendingOf, ]; by_cases e : h = g <;> simp_all
  · simp_all

theorem estopOne_causeOf (p : MState → Bool) (c : BitVec 2) (s : State) (g h : GroupIx) :
    (estopOne p c s g).causeOf h = if h = g ∧ p (s.stateOf g) then c else s.causeOf h := by
  unfold estopOne
  split
  · simp only [State.enterEStop_causeOf, ]; by_cases e : h = g <;> simp_all
  · simp_all

theorem estopOne_estopCnt (p : MState → Bool) (c : BitVec 2) (s : State) (g : GroupIx) :
    (estopOne p c s g).estopCnt = s.estopCnt + if p (s.stateOf g) then 1 else 0 := by
  unfold estopOne
  split <;> simp

/-- The four fields of a group after the trigger has acted on a list of distinct groups. -/
theorem foldl_estopOne (p : MState → Bool) (c : BitVec 2) (l : List GroupIx) (hl : l.Nodup) (s : State) (h : GroupIx) :
    (l.foldl (estopOne p c) s).stateOf h = (if h ∈ l ∧ p (s.stateOf h) then .emergencyStop else s.stateOf h)
    ∧ (l.foldl (estopOne p c) s).pendingOf h = (if h ∈ l ∧ p (s.stateOf h) then false else s.pendingOf h)
    ∧ (l.foldl (estopOne p c) s).causeOf h = (if h ∈ l ∧ p (s.stateOf h) then c else s.causeOf h)
    ∧ (l.foldl (estopOne p c) s).estopCnt
        = s.estopCnt + BitVec.ofNat 32 (l.filter (fun g => p (s.stateOf g))).length := by
  induction l generalizing s with
  | nil => simp
  | cons g l ih =>
    obtain ⟨hg, hl⟩ := List.nodup_cons.mp hl
    obtain ⟨h1, h2, h3, h4⟩ := ih hl (estopOne p c s g)
    have keep : ∀ k ∈ l, (estopOne p c s g).stateOf k = s.stateOf k := by
      intro k hk
      have : k ≠ g := fun e => hg (e ▸ hk)
      simp [estopOne_stateOf, this]
    rw [List.foldl_cons, h1, h2, h3, h4]
    refine ⟨?_, ?_, ?_, ?_⟩
    · rw [estopOne_stateOf]
      by_cases e : h = g
      · subst e; simp [hg]
      · simp [e]
    · rw [estopOne_stateOf, estopOne_pendingOf]
      by_cases e : h = g
      · subst e; simp [hg]
      · simp [e]
    · rw [estopOne_stateOf, estopOne_causeOf]
      by_cases e : h = g
      · subst e; simp [hg]
      · simp [e]
    · rw [estopOne_estopCnt, List.filter_congr (fun k hk => by rw [keep k hk]), List.filter_cons]
      by_cases e : p (s.stateOf g) = true
      · rw [if_pos e, if_pos e, BitVec.add_assoc, List.length_cons, BitVec.ofNat_add]
        simp [BitVec.add_comm]
      · simp [e]

theorem estopWhere_stateOf (p : MState → Bool) (c : BitVec 2) (s : State) (g : GroupIx) :
    (s.estopWhere p c).stateOf g = if p (s.stateOf g) then .emergencyStop else s.stateOf g := by
  simpa [estopWhere_eq_foldl] using (foldl_estopOne p c allGroups nodup_allGroups s g).1

theorem estopWhere_pendingOf (p : MState → Bool) (c : BitVec 2) (s : State) (g : GroupIx) :
    (s.estopWhere p c).pendingOf g = if p (s.stateOf g) then false else s.pendingOf g := by
  simpa [estopWhere_eq_foldl] using (foldl_estopOne p c allGroups nodup_allGroups s g).2.1

theorem estopWhere_causeOf (p : MState → Bool) (c : BitVec 2) (s : State) (g : GroupIx) :
    (s.estopWhere p c).causeOf g = if p (s.stateOf g) then c else s.causeOf g := by
  simpa [estopWhere_eq_foldl] using (foldl_estopOne p c allGroups nodup_allGroups s g).2.2.1

/-- ESTOP_CNT grows by the number of groups that enter (R52, R278). -/
theorem estopWhere_estopCnt (p : MState → Bool) (c : BitVec 2) (s : State) :
    (s.estopWhere p c).estopCnt
      = s.estopCnt + BitVec.ofNat 32 (allGroups.filter (fun g => p (s.stateOf g))).length := by
  simpa [estopWhere_eq_foldl] using (foldl_estopOne p c allGroups nodup_allGroups s 0).2.2.2

/-- Entering the emergency stop changes the four fields of R278 and nothing else. -/
theorem estopWhere_frame (p : MState → Bool) (c : BitVec 2) (s : State) :
    s.estopWhere p c = { s with
      mstate := (s.estopWhere p c).mstate
      ecause := (s.estopWhere p c).ecause
      estopCnt := (s.estopWhere p c).estopCnt
      pending := (s.estopWhere p c).pending } := by
  rw [estopWhere_eq_foldl]
  refine foldl_keeps (P := fun t => t = { s with
      mstate := t.mstate, ecause := t.ecause, estopCnt := t.estopCnt, pending := t.pending })
    (estopOne p c) allGroups s ?_ rfl
  intro t g _ ht
  unfold estopOne
  split
  · rw [ht]; rfl
  · exact ht

@[simp] theorem estopWhere_regs (p : MState → Bool) (c : BitVec 2) (s : State) :
    (s.estopWhere p c).regs = s.regs := by rw [estopWhere_frame]
@[simp] theorem estopWhere_sticky (p : MState → Bool) (c : BitVec 2) (s : State) :
    (s.estopWhere p c).sticky = s.sticky := by rw [estopWhere_frame]
@[simp] theorem estopWhere_norspCnt (p : MState → Bool) (c : BitVec 2) (s : State) :
    (s.estopWhere p c).norspCnt = s.norspCnt := by rw [estopWhere_frame]
@[simp] theorem estopWhere_rxdropCnt (p : MState → Bool) (c : BitVec 2) (s : State) :
    (s.estopWhere p c).rxdropCnt = s.rxdropCnt := by rw [estopWhere_frame]
@[simp] theorem estopWhere_motor (p : MState → Bool) (c : BitVec 2) (s : State) :
    (s.estopWhere p c).motor = s.motor := by rw [estopWhere_frame]
@[simp] theorem estopWhere_setpoint (p : MState → Bool) (c : BitVec 2) (s : State) :
    (s.estopWhere p c).setpoint = s.setpoint := by rw [estopWhere_frame]
@[simp] theorem estopWhere_rampcur (p : MState → Bool) (c : BitVec 2) (s : State) :
    (s.estopWhere p c).rampcur = s.rampcur := by rw [estopWhere_frame]
@[simp] theorem estopWhere_rxbuf (p : MState → Bool) (c : BitVec 2) (s : State) :
    (s.estopWhere p c).rxbuf = s.rxbuf := by rw [estopWhere_frame]
@[simp] theorem estopWhere_lastInputTime (p : MState → Bool) (c : BitVec 2) (s : State) :
    (s.estopWhere p c).lastInputTime = s.lastInputTime := by rw [estopWhere_frame]
@[simp] theorem estopWhere_inputValid (p : MState → Bool) (c : BitVec 2) (s : State) :
    (s.estopWhere p c).inputValid = s.inputValid := by rw [estopWhere_frame]
@[simp] theorem estopWhere_inputLost (p : MState → Bool) (c : BitVec 2) (s : State) :
    (s.estopWhere p c).inputLost = s.inputLost := by rw [estopWhere_frame]
@[simp] theorem estopWhere_reopenReq (p : MState → Bool) (c : BitVec 2) (s : State) :
    (s.estopWhere p c).reopenReq = s.reopenReq := by rw [estopWhere_frame]
@[simp] theorem estopWhere_halted (p : MState → Bool) (c : BitVec 2) (s : State) :
    (s.estopWhere p c).halted = s.halted := by rw [estopWhere_frame]
@[simp] theorem estopWhere_lastTx (p : MState → Bool) (c : BitVec 2) (s : State) :
    (s.estopWhere p c).lastTx = s.lastTx := by rw [estopWhere_frame]
@[simp] theorem estopWhere_lastRx (p : MState → Bool) (c : BitVec 2) (s : State) :
    (s.estopWhere p c).lastRx = s.lastRx := by rw [estopWhere_frame]
@[simp] theorem estopWhere_inputs (p : MState → Bool) (c : BitVec 2) (s : State) :
    (s.estopWhere p c).inputs = s.inputs := by rw [estopWhere_frame]
@[simp] theorem estopWhere_sends (p : MState → Bool) (c : BitVec 2) (s : State) :
    (s.estopWhere p c).sends = s.sends := by rw [estopWhere_frame]
@[simp] theorem estopWhere_sendCount (p : MState → Bool) (c : BitVec 2) (s : State) :
    (s.estopWhere p c).sendCount = s.sendCount := by rw [estopWhere_frame]
@[simp] theorem estopWhere_arrivals (p : MState → Bool) (c : BitVec 2) (s : State) :
    (s.estopWhere p c).arrivals = s.arrivals := by rw [estopWhere_frame]
@[simp] theorem estopWhere_txLog (p : MState → Bool) (c : BitVec 2) (s : State) :
    (s.estopWhere p c).txLog = s.txLog := by rw [estopWhere_frame]
@[simp] theorem estopWhere_reply (p : MState → Bool) (c : BitVec 2) (s : State) :
    (s.estopWhere p c).reply = s.reply := by rw [estopWhere_frame]

@[simp] theorem estopWhere_entryOf (p : MState → Bool) (c : BitVec 2) (s : State) (m : MotorIx) :
    (s.estopWhere p c).entryOf m = s.entryOf m := by simp [State.entryOf]
@[simp] theorem estopWhere_setpointOf (p : MState → Bool) (c : BitVec 2) (s : State) (m : MotorIx) :
    (s.estopWhere p c).setpointOf m = s.setpointOf m := by simp [State.setpointOf]
@[simp] theorem estopWhere_rampOf (p : MState → Bool) (c : BitVec 2) (s : State) (m : MotorIx) :
    (s.estopWhere p c).rampOf m = s.rampOf m := by simp [State.rampOf]

/-! ### The transport fault (R316) -/

@[simp] theorem transportFault_regs (s : State) : s.transportFault.regs = s.regs := by
  simp [State.transportFault]
@[simp] theorem transportFault_sticky (s : State) : s.transportFault.sticky = s.sticky ||| flagMask .transport := by
  simp [State.transportFault]
@[simp] theorem transportFault_norspCnt (s : State) : s.transportFault.norspCnt = s.norspCnt := by
  simp [State.transportFault]
@[simp] theorem transportFault_rxdropCnt (s : State) : s.transportFault.rxdropCnt = s.rxdropCnt := by
  simp [State.transportFault]
@[simp] theorem transportFault_motor (s : State) : s.transportFault.motor = s.motor := by
  simp [State.transportFault]
@[simp] theorem transportFault_setpoint (s : State) : s.transportFault.setpoint = s.setpoint := by
  simp [State.transportFault]
@[simp] theorem transportFault_rampcur (s : State) : s.transportFault.rampcur = s.rampcur := by
  simp [State.transportFault]
@[simp] theorem transportFault_rxbuf (s : State) : s.transportFault.rxbuf = s.rxbuf := by
  simp [State.transportFault]
@[simp] theorem transportFault_lastInputTime (s : State) : s.transportFault.lastInputTime = s.lastInputTime := by
  simp [State.transportFault]
@[simp] theorem transportFault_inputValid (s : State) : s.transportFault.inputValid = s.inputValid := by
  simp [State.transportFault]
@[simp] theorem transportFault_inputLost (s : State) : s.transportFault.inputLost = s.inputLost := by
  simp [State.transportFault]
@[simp] theorem transportFault_reopenReq (s : State) : s.transportFault.reopenReq = true := by
  simp [State.transportFault]
@[simp] theorem transportFault_halted (s : State) : s.transportFault.halted = s.halted := by
  simp [State.transportFault]
@[simp] theorem transportFault_lastTx (s : State) : s.transportFault.lastTx = s.lastTx := by
  simp [State.transportFault]
@[simp] theorem transportFault_lastRx (s : State) : s.transportFault.lastRx = s.lastRx := by
  simp [State.transportFault]
@[simp] theorem transportFault_inputs (s : State) : s.transportFault.inputs = s.inputs := by
  simp [State.transportFault]
@[simp] theorem transportFault_sends (s : State) : s.transportFault.sends = s.sends := by
  simp [State.transportFault]
@[simp] theorem transportFault_sendCount (s : State) : s.transportFault.sendCount = s.sendCount := by
  simp [State.transportFault]
@[simp] theorem transportFault_arrivals (s : State) : s.transportFault.arrivals = s.arrivals := by
  simp [State.transportFault]
@[simp] theorem transportFault_txLog (s : State) : s.transportFault.txLog = s.txLog := by
  simp [State.transportFault]
@[simp] theorem transportFault_reply (s : State) : s.transportFault.reply = { s.reply with ioErr := true } := by
  simp [State.transportFault]

@[simp] theorem transportFault_rampOf (s : State) (m : MotorIx) : s.transportFault.rampOf m = s.rampOf m := by
  simp [State.rampOf]

theorem transportFault_stateOf (s : State) (g : GroupIx) :
    s.transportFault.stateOf g = if reactsToFault (s.stateOf g) then .emergencyStop else s.stateOf g :=
  estopWhere_stateOf reactsToFault 3 _ g

theorem transportFault_pendingOf (s : State) (g : GroupIx) :
    s.transportFault.pendingOf g = if reactsToFault (s.stateOf g) then false else s.pendingOf g :=
  estopWhere_pendingOf reactsToFault 3 _ g

theorem transportFault_causeOf (s : State) (g : GroupIx) :
    s.transportFault.causeOf g = if reactsToFault (s.stateOf g) then 3 else s.causeOf g :=
  estopWhere_causeOf reactsToFault 3 _ g

theorem transportFault_estopCnt (s : State) :
    s.transportFault.estopCnt
      = s.estopCnt + BitVec.ofNat 32 (allGroups.filter (fun g => reactsToFault (s.stateOf g))).length :=
  estopWhere_estopCnt reactsToFault 3 _

end Sys2Proof.Machine
end

