-- ==== Sys2Proof/Laws/Deframer.lean ====
section
/-! SUPPORT. What the deframer's operations do, said once: feeding (R210, R211), a scan (R213, R214, R216, R220), the
frames it takes (R116, R120), and an Await (R222). -/

namespace Sys2Proof.Machine

/-! ### Feeding -/

/-- A feed changes the buffer, the drop counter and the overflow flag, nothing else. -/
theorem appendByte_frame (b : Byte) (s : State) :
    s.appendByte b = { s with
      rxbuf := (s.appendByte b).rxbuf, rxdropCnt := (s.appendByte b).rxdropCnt, sticky := (s.appendByte b).sticky } := by
  unfold State.appendByte; split <;> rfl

theorem appendAll_frame (bs : Bytes) (s : State) :
    s.appendAll bs = { s with
      rxbuf := (s.appendAll bs).rxbuf, rxdropCnt := (s.appendAll bs).rxdropCnt, sticky := (s.appendAll bs).sticky } := by
  refine foldl_keeps (P := fun t => t = { s with rxbuf := t.rxbuf, rxdropCnt := t.rxdropCnt, sticky := t.sticky })
    (fun s b => s.appendByte b) bs s ?_ rfl
  intro t b _ ht
  rw [appendByte_frame, ht]

@[simp] theorem appendAll_nil (s : State) : s.appendAll [] = s := rfl

@[simp] theorem appendAll_cons (b : Byte) (bs : Bytes) (s : State) :
    s.appendAll (b :: bs) = (s.appendByte b).appendAll bs := rfl

theorem appendByte_length_le (b : Byte) (s : State) (h : s.rxbuf.length ≤ 256) :
    (s.appendByte b).rxbuf.length ≤ 256 := by
  unfold State.appendByte
  split
  · simp_all [Config.rxbufCap]
  · rename_i hne; simp [Config.rxbufCap] at *; omega

theorem appendAll_length_le (bs : Bytes) (s : State) (h : s.rxbuf.length ≤ 256) :
    (s.appendAll bs).rxbuf.length ≤ 256 :=
  foldl_keeps (P := fun t => t.rxbuf.length ≤ 256) _ bs s (fun t b _ ht => appendByte_length_le b t ht) h

/-- What a feed leaves when the buffer respects its bound: the newest 256 bytes, the older ones counted as drops
and flagged (R211). -/
theorem appendAll_spec (bs : Bytes) (s : State) (h : s.rxbuf.length ≤ 256) :
    (s.appendAll bs).rxbuf = (s.rxbuf ++ bs).drop (s.rxbuf.length + bs.length - 256)
    ∧ (s.appendAll bs).rxdropCnt = s.rxdropCnt + BitVec.ofNat 32 (s.rxbuf.length + bs.length - 256)
    ∧ (s.appendAll bs).sticky = if s.rxbuf.length + bs.length ≤ 256 then s.sticky else s.sticky ||| flagMask .rxOvf := by
  induction bs generalizing s with
  | nil => simp [show s.rxbuf.length - 256 = 0 by omega, h]
  | cons b bs ih =>
    obtain ⟨h1, h2, h3⟩ := ih (s.appendByte b) (appendByte_length_le b s h)
    rw [appendAll_cons, h1, h2, h3]
    by_cases e : s.rxbuf.length = 256
    · have hne : s.rxbuf ≠ [] := by intro hn; simp [hn] at e
      obtain ⟨a, l, hl⟩ := List.exists_cons_of_ne_nil hne
      have hlen : l.length = 255 := by simp [hl] at e; exact e
      simp only [State.appendByte, Config.rxbufCap, if_true, hl, List.tail_cons, List.length_append, List.length_cons,
        List.length_nil, hlen]
      refine ⟨?_, ?_, ?_⟩
      · rw [show 255 + (0 + 1) + bs.length - 256 = bs.length by omega,
          show 256 + (bs.length + 1) - 256 = bs.length + 1 by omega]
        simp
      · rw [show 255 + (0 + 1) + bs.length - 256 = bs.length by omega,
          show 256 + (bs.length + 1) - 256 = bs.length + 1 by omega, BitVec.ofNat_add, BitVec.add_assoc,
          BitVec.add_comm (BitVec.ofNat 32 bs.length)]
        rfl
      · rw [if_neg (by omega : ¬ 256 + (bs.length + 1) ≤ 256)]
        split
        · rfl
        · rw [BitVec.or_assoc, BitVec.or_self]
    · simp only [State.appendByte, Config.rxbufCap, e, if_false, List.length_append, List.length_cons, List.length_nil,
        List.append_assoc, List.cons_append, List.nil_append]
      rw [show s.rxbuf.length + (0 + 1) + bs.length = s.rxbuf.length + (bs.length + 1) by omega]
      exact ⟨rfl, rfl, rfl⟩

/-! ### Scanning -/

/-- All a scan can do: it drops a prefix at each byte of which the scanner says drop, and then either has nothing to
take or takes one frame off the head of what is left. -/
theorem scan_cases (look : Bytes → Look) (b : Bytes) :
    ∃ pre tail, b = pre ++ tail
      ∧ (∀ i, i < pre.length → look (b.drop i) = .drop)
      ∧ (scan look b).drops = pre.length
      ∧ (((tail = [] ∨ look tail = .wait) ∧ (scan look b).frame = none ∧ (scan look b).rest = tail)
        ∨ ∃ n, tail ≠ [] ∧ look tail = .take n ∧ (scan look b).frame = some (tail.take n)
            ∧ (scan look b).rest = tail.drop n) := by
  induction b with
  | nil => exact ⟨[], [], rfl, by simp, rfl, .inl ⟨.inl rfl, rfl, rfl⟩⟩
  | cons a l ih =>
    cases h : look (a :: l) with
    | wait => exact ⟨[], a :: l, rfl, by simp, by simp [scan, h], .inl ⟨.inr h, by simp [scan, h], by simp [scan, h]⟩⟩
    | take n =>
      exact ⟨[], a :: l, rfl, by simp, by simp [scan, h], .inr ⟨n, by simp, h, by simp [scan, h], by simp [scan, h]⟩⟩
    | drop =>
      obtain ⟨pre, tail, hb, hd, hn, hr⟩ := ih
      refine ⟨a :: pre, tail, by simp [← hb], ?_, by simp [scan, h, hn], ?_⟩
      · intro i hi
        cases i with
        | zero => exact h
        | succ i => exact hd i (by simpa using hi)
      · simpa [scan, h] using hr

/-- A scan passes over bytes at each of which the scanner says drop. -/
theorem scan_drops (look : Bytes → Look) (pre b : Bytes)
    (h : ∀ i, i < pre.length → look ((pre ++ b).drop i) = .drop) :
    scan look (pre ++ b) = ⟨(scan look b).drops + pre.length, (scan look b).frame, (scan look b).rest⟩ := by
  induction pre with
  | nil => simp
  | cons a l ih =>
    have h0 : look (a :: (l ++ b)) = .drop := h 0 (by simp)
    have := ih (fun i hi => h (i + 1) (by simpa using hi))
    simp [scan, h0, this]; omega

/-- A scan takes the frame at the head of the buffer (R213, R214). -/
theorem scan_take (look : Bytes → Look) (b : Bytes) (n : Nat) (hb : b ≠ []) (h : look b = .take n) :
    scan look b = ⟨0, some (b.take n), b.drop n⟩ := by
  cases b with
  | nil => exact absurd rfl hb
  | cons a l => simp [scan, h]

theorem getD_take (b : Bytes) (n i : Nat) (h : i < n) : (b.take n).getD i 0 = b.getD i 0 := by
  simp [List.getD, h]

theorem reqLen_le (sq code : Byte) (n : Nat) (h : reqLen sq code = some n) : n ≤ 8 := by
  unfold reqLen at h
  repeat' split at h
  all_goals simp at h <;> omega

theorem rspLen_le (s : State) (code : Byte) (n : Nat) (h : s.rspLen code = some n) : n ≤ 14 := by
  unfold State.rspLen at h
  split at h
  · simp at h
  · rename_i k _
    split at h
    · simp at h
    · rename_i hk
      have hk' : k.toNat ≠ 15 := fun e => hk (BitVec.eq_of_toNat_eq (by simpa using e))
      have := k.isLt
      simp at h; omega

theorem rsLen_le (s : State) (a c : Byte) (n : Nat) (h : s.rsLen a c = some n) : n ≤ 14 := by
  unfold State.rsLen at h
  split at h
  · have := reqLen_le _ _ _ h; omega
  · split at h
    · exact rspLen_le _ _ _ h
    · simp at h

/-- The bounds of the length field of a plausible header (R112, R113). -/
theorem plausibleCan_bounds (hi : BitVec 4) (b0 b1 : Byte) (h : plausibleCan hi b0 b1 = true) :
    1 ≤ (b1.extractLsb' 0 4).toNat ∧ (b1.extractLsb' 0 4).toNat ≤ 9 := by
  simp [plausibleCan] at h; exact ⟨h.1.2, h.2⟩

/-- The validity check of the configured format, unfolded once. -/
theorem validFrame_eq (s : State) (f : Bytes) :
    s.validFrame f = (match s.announced f with
      | none => false
      | some t => f.length == t && (match s.proto with | .can => validCan f | .rs485 => rsChkOk (t - 4) f)) := rfl

/-- The answer that takes a frame: the frame is as long as its header announces, it is all there, and it is valid
(R116, R120, R216). -/
theorem look_take (s : State) (b : Bytes) (n : Nat) (h : s.look b = .take n) :
    4 ≤ n ∧ n ≤ 18 ∧ n ≤ b.length ∧ s.announced b = some n ∧ s.validFrame (b.take n) = true := by
  unfold State.look at h
  split at h
  · rename_i hp
    unfold lookCan at h
    simp only at h
    split at h; · simp at h
    split at h; · simp at h
    split at h; · simp at h
    rename_i h0 h1 h2
    split at h; · simp at h
    split at h
    · rename_i h3 h4
      simp only [Bool.not_eq_true', Bool.not_eq_false] at h2
      obtain ⟨hl, hu⟩ := plausibleCan_bounds _ _ _ h2
      have ht : ctrlN (b.getD 1 0) + 6 = n := Look.take.inj h
      have hn : (b.getD 1 0 |>.extractLsb' 0 4).toNat + 5 = n := by unfold ctrlN at ht; omega
      refine ⟨by omega, by omega, by omega, ?_, ?_⟩
      · unfold State.announced State.announcedAs
        rw [hp]; simp only
        rw [if_pos ⟨by omega, h2⟩, hn]
      · rw [validFrame_eq]; unfold State.announced State.announcedAs
        rw [hp]; simp only
        rw [getD_take _ _ _ (by omega), getD_take _ _ _ (by omega), List.length_take,
          if_pos ⟨by omega, h2⟩, hn]
        rw [ht] at h4
        simp [h4]; omega
    · simp at h
  · rename_i hp
    unfold State.lookRs at h
    split at h; · simp at h
    split at h; · simp at h
    split at h; · simp at h
    rename_i k hk
    split at h; · simp at h
    split at h
    · rename_i h0 h1 h3 h4
      have hkn : k + 4 = n := by simpa using h
      have := rsLen_le _ _ _ _ hk
      refine ⟨by omega, by omega, by omega, ?_, ?_⟩
      · unfold State.announced State.announcedAs
        rw [hp]; simp only
        rw [if_pos (by omega), hk]; simp [hkn]
      · rw [validFrame_eq]; unfold State.announced State.announcedAs
        rw [hp]; simp only
        rw [getD_take _ _ _ (by omega), getD_take _ _ _ (by omega), List.length_take,
          if_pos (by omega), hk]
        subst hkn
        simp [h4]; omega
    · simp at h

/-- Where the scanner drops although a plausible header begins there, the announced window is complete and invalid;
this is the condition of R219. -/
theorem look_of_harmless (s : State) (b : Bytes) (hlen : 3 ≤ b.length)
    (h : ∀ t, s.announced b = some t → t ≤ b.length ∧ s.validFrame (b.take t) = false) : s.look b = .drop := by
  unfold State.look
  split
  · rename_i hp
    unfold lookCan; simp only
    split; · rfl
    split; · omega
    split; · rfl
    rename_i h0 h1 h2
    simp only [Bool.not_eq_true', Bool.not_eq_false] at h2
    obtain ⟨hl, hu⟩ := plausibleCan_bounds _ _ _ h2
    have ha : s.announced b = some (ctrlN (b.getD 1 0) + 6) := by
      unfold State.announced State.announcedAs
      rw [hp]; simp only
      rw [if_pos ⟨by omega, h2⟩]; unfold ctrlN; congr 1; omega
    obtain ⟨h3, h4⟩ := h _ ha
    rw [if_neg (by omega)]
    split
    · rename_i h5
      rw [validFrame_eq] at h4
      have : s.announced (b.take (ctrlN (b.getD 1 0) + 6)) = some (ctrlN (b.getD 1 0) + 6) := by
        unfold State.announced State.announcedAs at ha ⊢
        rw [hp] at ha ⊢; simp only at ha ⊢
        rw [getD_take _ _ _ (by omega), getD_take _ _ _ (by omega), List.length_take, if_pos ⟨by omega, h2⟩]
        rw [if_pos ⟨by omega, h2⟩] at ha; exact ha
      rw [this, hp] at h4
      simp only [h5, List.length_take, Nat.min_eq_left h3, beq_self_eq_true, Bool.and_true, Bool.true_eq_false] at h4
    · rfl
  · rename_i hp
    unfold State.lookRs
    split; · rfl
    split; · omega
    split
    · rfl
    · rename_i k hk
      have ha : s.announced b = some (k + 4) := by
        unfold State.announced State.announcedAs
        rw [hp]; simp only
        rw [if_pos (by omega), hk]; rfl
      obtain ⟨h3, h4⟩ := h _ ha
      rw [if_neg (by omega)]
      split
      · rename_i h5
        rw [validFrame_eq] at h4
        have : s.announced (b.take (k + 4)) = some (k + 4) := by
          unfold State.announced State.announcedAs at ha ⊢
          rw [hp] at ha ⊢; simp only at ha ⊢
          rw [getD_take _ _ _ (by omega), getD_take _ _ _ (by omega), List.length_take, if_pos (by omega)]
          rw [if_pos (by omega)] at ha; exact ha
        rw [this, hp] at h4
        simp [h5] at h4; omega
      · rfl

/-- A valid frame at the head of the buffer is taken (R213, R214). -/
theorem look_of_valid (s : State) (f rest : Bytes) (h : s.validFrame f = true) : s.look (f ++ rest) = .take f.length := by
  have hget : ∀ i, i < f.length → (f ++ rest).getD i 0 = f.getD i 0 := by
    intro i hi; simp [List.getD, List.getElem?_append_left hi]
  rw [validFrame_eq] at h
  split at h
  · simp at h
  · rename_i t ht
    simp only [Bool.and_eq_true, beq_iff_eq] at h
    obtain ⟨hlen, hv⟩ := h
    unfold State.announced State.announcedAs at ht
    unfold State.look
    cases hp : s.proto with
    | can =>
      rw [hp] at ht hv; simp only at ht hv ⊢
      split at ht
      · rename_i h1
        obtain ⟨hl, hu⟩ := plausibleCan_bounds _ _ _ h1.2
        have hT : ctrlN (f.getD 1 0) + 6 = f.length := by
          rw [hlen, ← Option.some.inj ht]; unfold ctrlN; omega
        have h0 : f.getD 0 0 = 0xAA := by
          have := h1.2; unfold plausibleCan at this; simp only [Bool.and_eq_true, beq_iff_eq] at this; exact this.1.1.1
        unfold lookCan
        rw [hget 0 (by omega), hget 1 (by omega)]
        simp only [h0, ne_eq, not_true_eq_false, if_false, hT, List.take_left', hv, if_true, List.length_append]
        rw [if_neg (by omega)]
        have h2 := h1.2
        rw [h0] at h2
        rw [h2]; simp
      · simp at ht
    | rs485 =>
      rw [hp] at ht hv; simp only at ht hv ⊢
      split at ht
      · rename_i h1
        obtain ⟨n, hn, hnt⟩ := Option.map_eq_some_iff.mp ht
        have hT : n + 4 = f.length := by omega
        unfold State.lookRs
        rw [hget 0 (by omega), hget 2 (by omega), hn]
        have hs : ¬ (f.getD 0 0 ≠ 0xFA ∧ f.getD 0 0 ≠ 0xFB) := by
          rintro ⟨ha, hb⟩; unfold State.rsLen at hn; rw [if_neg ha, if_neg hb] at hn; simp at hn
        have hv' : rsChkOk n f = true := by rw [show n = t - 4 by omega]; exact hv
        rw [if_neg hs]
        simp only [hT, List.take_left', hv', if_true, List.length_append]
        rw [if_neg (by omega), if_neg (by omega)]
      · simp at ht

/-- All NextFrame can do (R213..R216): a prefix of the buffer is dropped and counted, and then it either returns
None and keeps the rest, or returns one valid frame off the head of the rest. -/
theorem nextFrame_cases (s : State) :
    ∃ pre tail, s.rxbuf = pre ++ tail
      ∧ ((s.nextFrame = (none, s.keepBuffer tail pre.length) ∧ (tail = [] ∨ s.look tail = .wait))
        ∨ ∃ f rest, tail = f ++ rest ∧ s.validFrame f = true ∧ 4 ≤ f.length ∧ f.length ≤ 18
            ∧ s.nextFrame = (some f, s.keepBuffer rest pre.length)) := by
  obtain ⟨pre, tail, hb, _, hn, hr⟩ := scan_cases s.look s.rxbuf
  refine ⟨pre, tail, hb, ?_⟩
  rcases hr with ⟨hw, hf, hrest⟩ | ⟨n, _, hl, hf, hrest⟩
  · exact .inl ⟨by simp [State.nextFrame, hf, hrest, hn], hw⟩
  · obtain ⟨h1, h2, h3, _, h5⟩ := look_take s tail n hl
    refine .inr ⟨tail.take n, tail.drop n, (List.take_append_drop n tail).symm, h5, ?_, ?_, ?_⟩
    · simp; omega
    · simp; omega
    · simp [State.nextFrame, hf, hrest, hn]

/-- Where bytes must be waited for, the scanner waits (R213, R214, R217). -/
theorem look_of_mustWait (s : State) (b : Bytes) (h : s.mustWait b) : s.look b = .wait := by
  unfold State.look
  rcases h with ⟨hp, hh, hl⟩ | ⟨hp, hh, hl⟩ | ⟨t, ht, hl⟩
  · rw [hp]; simp only
    cases b with
    | nil => simp at hh
    | cons a l =>
      simp at hh; subst hh; unfold lookCan; simp only
      rw [if_neg (by simp), if_pos hl]
  · rw [hp]; simp only
    cases b with
    | nil => simp at hh
    | cons a l =>
      simp only [List.head?_cons, Option.some.injEq] at hh
      unfold State.lookRs
      rw [if_neg (by rcases hh with rfl | rfl <;> simp), if_pos hl]
  · unfold State.announced State.announcedAs at ht
    cases hp : s.proto <;> rw [hp] at ht <;> simp only at ht ⊢
    · split at ht
      · rename_i h2
        obtain ⟨hl1, hl2⟩ := plausibleCan_bounds _ _ _ h2.2
        have h0 : b.getD 0 0 = 0xAA := by
          have := h2.2; simp only [plausibleCan, Bool.and_eq_true, beq_iff_eq] at this; exact this.1.1.1
        unfold lookCan; simp only
        rw [if_neg (not_not.mpr h0), if_neg (by omega), if_neg (by rw [h2.2]; simp)]
        have ht' := Option.some.inj ht
        rw [if_pos (by unfold ctrlN; omega)]
      · simp at ht
    · split at ht
      · rename_i h3
        obtain ⟨k, hk, rfl⟩ := Option.map_eq_some_iff.mp ht
        unfold State.lookRs
        rw [if_neg, if_neg (by omega), hk]
        · simp only; rw [if_pos hl]
        · rintro ⟨h1, h2⟩
          rw [State.rsLen, if_neg h1, if_neg h2] at hk
          exact absurd hk (by simp)
      · simp at ht

/-- NextFrame on a buffer that begins with a valid frame (R213, R214). -/
theorem nextFrame_of_valid (s : State) (f rest : Bytes) (hb : s.rxbuf = f ++ rest) (h : s.validFrame f = true) :
    s.nextFrame = (some f, { s with rxbuf := rest }) := by
  have hl := look_of_valid s f rest h
  have hne : f ++ rest ≠ [] := by
    obtain ⟨h4, h18, _⟩ := look_take s _ _ hl
    intro e; simp at e; simp [e.1] at h4
  simp only [State.nextFrame, hb, scan_take s.look _ _ hne hl, State.keepBuffer]
  simp

/-- NextFrame on a buffer that must be waited for keeps it (R213, R214, R217). -/
theorem nextFrame_of_waits (s : State) (h : s.rxbuf = [] ∨ s.mustWait s.rxbuf) : s.nextFrame = (none, s) := by
  have hs : scan s.look s.rxbuf = ⟨0, none, s.rxbuf⟩ := by
    cases hb : s.rxbuf with
    | nil => rfl
    | cons a l =>
      have hw : s.mustWait s.rxbuf := by simpa [hb] using h
      have := look_of_mustWait s _ hw
      rw [hb] at this
      simp [scan, this]
  simp [State.nextFrame, hs, State.keepBuffer]

/-! ### Matching a response (R223) -/

/-- R223's Match is the one the machine tests. -/
theorem matchesRsp_iff (v : Proto) (addr : Nat) (code : Byte) (f : Bytes) :
    matchesRsp v addr code f = true ↔ matchByRule v addr code f := by
  cases v
  · have h : 1 ≤ frameN .can f ↔ 1 + 6 ≤ f.length := by simp only [frameN]; omega
    simp [matchesRsp, matchByRule, canId, and_assoc, h]
  · simp [matchesRsp, matchByRule, and_assoc]

/-- R223's Data is the one the machine returns. -/
theorem rspData_eq (v : Proto) (f : Bytes) : rspData v f = dataByRule v f := by
  cases v <;> simp [rspData, dataByRule, frameN, Nat.sub_sub]

/-! ### Await -/

/-- A returned frame leaves a shorter buffer (R220). -/
theorem nextFrame_shorter (s s1 : State) (f : Bytes) (h : s.nextFrame = (some f, s1)) :
    s1.rxbuf.length < s.rxbuf.length := by
  obtain ⟨pre, tail, hb, ⟨hn, _⟩ | ⟨g, rest, ht, _, h4, _, hn⟩⟩ := nextFrame_cases s
  · rw [hn] at h; simp at h
  · rw [hn] at h
    obtain ⟨_, rfl⟩ := Prod.mk.inj h
    simp [hb, ht]; omega

/-- The loop of R222 does not depend on its bound once that exceeds the buffer: the bound is never met (log 16). -/
theorem awaitLoop_bound (addr : Nat) (code : Byte) (j k : Nat) (s : State)
    (hj : s.rxbuf.length < j) (hk : s.rxbuf.length < k) : awaitLoop addr code j s = awaitLoop addr code k s := by
  induction j generalizing k s with
  | zero => omega
  | succ j ih =>
    cases k with
    | zero => omega
    | succ k =>
      unfold awaitLoop
      split
      · rfl
      · rename_i f s1 hf
        have := nextFrame_shorter s s1 f hf
        split
        · rfl
        · exact ih k s1 (by omega) (by omega)

/-- One turn of the loop of R222, with its bound out of the way. -/
theorem awaitLoop_turn (addr : Nat) (code : Byte) (k : Nat) (s : State) (hk : s.rxbuf.length < k) :
    awaitLoop addr code k s =
      match s.nextFrame with
      | (none, s1) => (none, s1.noResponse)
      | (some f, s1) =>
        if matchesRsp s.proto addr code f then (some (rspData s.proto f), s1.setLastRx f)
        else awaitLoop addr code k s1 := by
  cases k with
  | zero => omega
  | succ k =>
    rw [awaitLoop]
    cases h : s.nextFrame with
    | mk o s1 =>
      cases o with
      | none => rfl
      | some f =>
        have := nextFrame_shorter s s1 f h
        simp only
        split
        · rfl
        · exact awaitLoop_bound addr code k (k + 1) s1 (by omega) (by omega)

end Sys2Proof.Machine
end

