-- ==== Sys2Proof/Laws/Link.lean ====
section
/-! SUPPORT. What traffic on the link can do: the spec lemmas of `Send` and `Await`, and one relation, `LinkEffect`,
that every part of a sequence which only sends and awaits satisfies. -/

namespace Sys2Proof.Machine

/-! ### The configuration is constant in a sequence -/

theorem KeepsConfig_refl (s : State) : s.KeepsConfig s := ⟨rfl, rfl, rfl, rfl, rfl, rfl, rfl⟩

theorem KeepsConfig_trans {a b c : State} (h : a.KeepsConfig b) (k : b.KeepsConfig c) : a.KeepsConfig c :=
  ⟨k.regs.trans h.regs, k.motor.trans h.motor, k.setpoint.trans h.setpoint, k.lastInputTime.trans h.lastInputTime,
    k.inputValid.trans h.inputValid, k.inputLost.trans h.inputLost, k.inputs.trans h.inputs⟩

section
variable {s t : State} (h : s.KeepsConfig t)
include h

theorem keeps_proto : t.proto = s.proto := by simp [State.proto, h.regs]
theorem keeps_ctrlHi : t.ctrlHi = s.ctrlHi := by simp [State.ctrlHi, h.regs]
theorem keeps_verifyEn : t.verifyEn = s.verifyEn := by simp [State.verifyEn, h.regs]
theorem keeps_verifyDis : t.verifyDis = s.verifyDis := by simp [State.verifyDis, h.regs]
theorem keeps_rspExpected : t.rspExpected = s.rspExpected := by simp [State.rspExpected, h.regs]
theorem keeps_enableAttempts : t.enableAttempts = s.enableAttempts := by simp [State.enableAttempts, h.regs]
theorem keeps_disableAttempts : t.disableAttempts = s.disableAttempts := by simp [State.disableAttempts, h.regs]
theorem keeps_zeroRepeat : t.zeroRepeat = s.zeroRepeat := by simp [State.zeroRepeat, h.regs]
theorem keeps_velCap : t.velCap = s.velCap := by simp [State.velCap, h.regs]
theorem keeps_velAccel : t.velAccel = s.velAccel := by simp [State.velAccel, h.regs]
theorem keeps_rampStep : t.rampStep = s.rampStep := by simp [State.rampStep, h.regs]
theorem keeps_estopStep : t.estopStep = s.estopStep := by simp [State.estopStep, h.regs]
theorem keeps_sqCode : t.sqCode = s.sqCode := by simp [State.sqCode, h.regs]
theorem keeps_enOkVal : t.enOkVal = s.enOkVal := by simp [State.enOkVal, h.regs]
theorem keeps_disOkVal : t.disOkVal = s.disOkVal := by simp [State.disOkVal, h.regs]
theorem keeps_entryOf (m : MotorIx) : t.entryOf m = s.entryOf m := by simp [State.entryOf, h.motor]
theorem keeps_setpointOf (m : MotorIx) : t.setpointOf m = s.setpointOf m := by simp [State.setpointOf, h.setpoint]
theorem keeps_addrOf (m : MotorIx) : t.addrOf m = s.addrOf m := by simp [State.addrOf, keeps_entryOf h]
theorem keeps_isMember (g : GroupIx) (m : MotorIx) : t.isMember g m = s.isMember g m := by
  simp [State.isMember, keeps_entryOf h]
theorem keeps_members (g : GroupIx) : t.members g = s.members g := by
  simp only [State.members]; congr 1; funext m; exact keeps_isMember h g m
theorem keeps_target (m : MotorIx) : t.target m = s.target m := by
  simp [State.target, keeps_setpointOf h, keeps_velCap h]
theorem keeps_velocityCmd (v : Half) : t.velocityCmd v = s.velocityCmd v := by
  simp [State.velocityCmd, keeps_velAccel h]
theorem keeps_payload (c : Cmd) : t.payload c = s.payload c := by
  simp [State.payload, keeps_velCap h, keeps_sqCode h]
theorem keeps_frameFor (m : MotorIx) (c : Cmd) : t.frameFor m c = s.frameFor m c := by
  simp [State.frameFor, keeps_proto h, keeps_ctrlHi h, keeps_addrOf h, keeps_payload h]
theorem keeps_handshake : t.handshake = s.handshake := by
  simp [State.handshake, State.hsWc, State.hsHc, State.hsOrder, State.wcMa, State.hcPct, h.regs]
theorem keeps_stale (now : Time) : t.stale now = s.stale now := by
  simp [State.stale, h.regs, h.inputValid, h.inputLost, h.lastInputTime]
theorem keeps_rsLen (a b : Byte) : t.rsLen a b = s.rsLen a b := by
  simp [State.rsLen, State.rspLen, State.sqCode, h.regs]
theorem keeps_look (b : Bytes) : t.look b = s.look b := by
  simp [State.look, State.lookRs, keeps_proto h, keeps_ctrlHi h, keeps_rsLen h]

end

/-! ### Send -/

theorem transmit_ok (f : Bytes) (s : State) (h : sendOk s.nextSend = true) : s.transmit f = (true, s.recordSend f) := by
  simp [State.transmit, h]

theorem transmit_err (f : Bytes) (s : State) (h : sendOk s.nextSend = false) :
    s.transmit f = (false, (s.recordSend f).transportFault) := by
  simp [State.transmit, h]

/-- `Send` answers whether the transport accepted the frame, and is a transport fault where it did not. -/
theorem transmit_cases (f : Bytes) (s : State) :
    (sendOk s.nextSend = true ∧ s.transmit f = (true, s.recordSend f))
    ∨ (sendOk s.nextSend = false ∧ s.transmit f = (false, (s.recordSend f).transportFault)) := by
  cases h : sendOk s.nextSend
  · exact .inr ⟨rfl, transmit_err f s h⟩
  · exact .inl ⟨rfl, transmit_ok f s h⟩

/-! ### Await -/

/-- The components `Await` may write. -/
theorem awaitLoop_frame (addr : Nat) (code : Byte) (k : Nat) (s : State) :
    (awaitLoop addr code k s).2 = { s with
      rxbuf := (awaitLoop addr code k s).2.rxbuf
      rxdropCnt := (awaitLoop addr code k s).2.rxdropCnt
      norspCnt := (awaitLoop addr code k s).2.norspCnt
      sticky := (awaitLoop addr code k s).2.sticky
      lastRx := (awaitLoop addr code k s).2.lastRx } := by
  induction k generalizing s with
  | zero => rfl
  | succ k ih =>
    obtain ⟨pre, tail, _, ⟨hn, _⟩ | ⟨f, rest, _, _, _, _, hn⟩⟩ := nextFrame_cases s
    · unfold awaitLoop; rw [hn]; rfl
    · unfold awaitLoop; rw [hn]; simp only
      split
      · rfl
      · rw [ih]; rfl

/-- The components `Await` may write: the buffer and its counter, the missing responses, the sticky bits, LAST_RX, and
the draws. -/
theorem await_frame (addr : Nat) (code : Byte) (s : State) :
    (s.await addr code).2 = { s with
      rxbuf := (s.await addr code).2.rxbuf
      rxdropCnt := (s.await addr code).2.rxdropCnt
      norspCnt := (s.await addr code).2.norspCnt
      sticky := (s.await addr code).2.sticky
      lastRx := (s.await addr code).2.lastRx
      arrivals := s.arrivals.tail } := by
  unfold State.await
  simp only
  rw [awaitLoop_frame, appendAll_frame]
  rfl

/-- What the loop of R222 keeps: set bits stay set, the buffer does not grow, LAST_RX keeps its bound. -/
theorem awaitLoop_bounds (addr : Nat) (code : Byte) (k : Nat) (s : State) :
    (∀ j, s.sticky.getLsbD j = true → (awaitLoop addr code k s).2.sticky.getLsbD j = true)
    ∧ (awaitLoop addr code k s).2.rxbuf.length ≤ s.rxbuf.length
    ∧ (s.lastRx.length ≤ 18 → (awaitLoop addr code k s).2.lastRx.length ≤ 18) := by
  induction k generalizing s with
  | zero => exact ⟨fun j h => by simp [awaitLoop, State.noResponse, h], Nat.le_refl _, id⟩
  | succ k ih =>
    obtain ⟨pre, tail, hb, ⟨hn, _⟩ | ⟨f, rest, ht, _, _, h18, hn⟩⟩ := nextFrame_cases s
    · unfold awaitLoop; rw [hn]; simp only
      exact ⟨fun j h => by simp [State.noResponse, h], by simp [hb], by simp⟩
    · unfold awaitLoop; rw [hn]; simp only
      split
      · exact ⟨fun j h => by simpa using h, by simp [hb, ht]; omega, fun _ => by simpa using h18⟩
      · obtain ⟨h1, h2, h3⟩ := ih (s.keepBuffer rest pre.length)
        refine ⟨fun j h => h1 j (by simpa using h), ?_, fun h => h3 (by simpa using h)⟩
        have : (s.keepBuffer rest pre.length).rxbuf = rest := rfl
        rw [this] at h2
        rw [hb, ht]; simp only [List.length_append]; omega

theorem appendByte_sticky (b : Byte) (s : State) (j : Nat) (h : s.sticky.getLsbD j = true) :
    (s.appendByte b).sticky.getLsbD j = true := by
  unfold State.appendByte; split <;> simp [h]

theorem appendAll_sticky (bs : Bytes) (s : State) (j : Nat) (h : s.sticky.getLsbD j = true) :
    (s.appendAll bs).sticky.getLsbD j = true :=
  foldl_keeps (P := fun t => t.sticky.getLsbD j = true) _ bs s (fun t b _ ht => appendByte_sticky b t j ht) h

/-- What `Await` keeps: set bits stay set, the buffer and LAST_RX keep their bounds (R91, R121). -/
theorem await_bounds (addr : Nat) (code : Byte) (s : State) :
    (∀ j, s.sticky.getLsbD j = true → (s.await addr code).2.sticky.getLsbD j = true)
    ∧ (s.rxbuf.length ≤ 256 → (s.await addr code).2.rxbuf.length ≤ 256)
    ∧ (s.lastRx.length ≤ 18 → (s.await addr code).2.lastRx.length ≤ 18) := by
  obtain ⟨h1, h2, h3⟩ := awaitLoop_bounds addr code
    ((s.popArrival.appendAll s.nextArrival).rxbuf.length + 1) (s.popArrival.appendAll s.nextArrival)
  refine ⟨fun j h => h1 j (appendAll_sticky _ _ j h), fun h => ?_, fun h => h3 ?_⟩
  · exact Nat.le_trans h2 (appendAll_length_le _ _ h)
  · rw [appendAll_frame]; exact h

/-- `Await` on an empty buffer with no draw left: NoResponse (R222, R364). -/
theorem await_nothing (addr : Nat) (code : Byte) (s : State) (hb : s.rxbuf = []) (ha : s.arrivals = []) :
    s.await addr code = (none, s.noResponse) := by
  obtain ⟨⟩ := s
  simp only at hb ha; subst hb; subst ha
  simp [State.await, State.nextArrival, State.popArrival, awaitLoop, State.nextFrame, scan, State.keepBuffer,
    State.noResponse]

/-- The loop of R222 discards the valid frames that do not match. -/
theorem awaitLoop_skips (addr : Nat) (code : Byte) (skipped : List Bytes) (k : Nat) (s : State) (rest : Bytes)
    (hb : s.rxbuf = skipped.flatten ++ rest) (hk : s.rxbuf.length < k)
    (hs : ∀ f ∈ skipped, s.validFrame f = true ∧ ¬ matchByRule s.proto addr code f) :
    awaitLoop addr code k s = awaitLoop addr code k { s with rxbuf := rest } := by
  induction skipped generalizing s with
  | nil => simp at hb; subst hb; rfl
  | cons f fs ih =>
    obtain ⟨hv, hm⟩ := hs f (by simp)
    have hn := nextFrame_of_valid s f (fs.flatten ++ rest) (by simpa using hb) hv
    have hlt := nextFrame_shorter s _ f hn
    simp only at hlt
    rw [awaitLoop_turn addr code k s hk, hn]
    have hm' : ¬ matchesRsp s.proto addr code f = true := fun e => hm ((matchesRsp_iff _ _ _ _).mp e)
    simp only [if_neg hm']
    rw [ih { s with rxbuf := fs.flatten ++ rest } rfl (by simp only; omega) (fun g hg => hs g (by simp [hg]))]

/-- The loop of R222 at the head of a matching frame. -/
theorem awaitLoop_match (addr : Nat) (code : Byte) (k : Nat) (s : State) (rsp rest : Bytes) (hb : s.rxbuf = rsp ++ rest)
    (hk : s.rxbuf.length < k) (hv : s.validFrame rsp = true) (hm : matchByRule s.proto addr code rsp) :
    awaitLoop addr code k s = (some (dataByRule s.proto rsp), { s with rxbuf := rest, lastRx := rsp }) := by
  rw [awaitLoop_turn addr code k s hk, nextFrame_of_valid s rsp rest hb hv]
  exact (if_pos ((matchesRsp_iff _ _ _ _).mpr hm)).trans (by rw [rspData_eq]; rfl)

/-- The loop of R222 when no frame can be taken. -/
theorem awaitLoop_waits (addr : Nat) (code : Byte) (k : Nat) (s : State) (hk : s.rxbuf.length < k)
    (h : s.rxbuf = [] ∨ s.mustWait s.rxbuf) : awaitLoop addr code k s = (none, s.noResponse) := by
  rw [awaitLoop_turn addr code k s hk, nextFrame_of_waits s h]

/-- `Await` reads the buffered bytes and the next draw, when they fit the buffer (R222). -/
theorem await_fits (addr : Nat) (code : Byte) (s : State) (h : (s.rxbuf ++ s.arrivals.headD []).length ≤ 256) :
    s.await addr code = awaitLoop addr code ((s.rxbuf ++ s.arrivals.headD []).length + 1)
      { s with rxbuf := s.rxbuf ++ s.arrivals.headD [], arrivals := s.arrivals.tail } := by
  have hl : s.rxbuf.length + (s.arrivals.headD []).length ≤ 256 := by simpa using h
  have hap : s.popArrival.appendAll s.nextArrival
      = { s with rxbuf := s.rxbuf ++ s.arrivals.headD [], arrivals := s.arrivals.tail } := by
    obtain ⟨p1, p2, p3⟩ := appendAll_spec s.nextArrival s.popArrival
      (by have : s.popArrival.rxbuf = s.rxbuf := rfl
          rw [this]; omega)
    have e1 : s.popArrival.rxbuf = s.rxbuf := rfl
    have e2 : s.nextArrival = s.arrivals.headD [] := rfl
    rw [e1, e2] at p1 p2 p3
    rw [if_pos hl] at p3
    rw [show s.rxbuf.length + (s.arrivals.headD []).length - 256 = 0 by omega] at p1 p2
    rw [appendAll_frame, e2, p1, p2, p3]
    simp [State.popArrival]
  unfold State.await
  simp only [hap]

/-- An answered `Await`: the frames before the answer are discarded, LAST_RX is the answer, and the bytes after it stay
buffered (R222, R223). -/
theorem await_answered {s : State} {addr : Nat} {code : Byte} {skipped : List Bytes} {rsp rest : Bytes}
    (h : s.Answered addr code skipped rsp rest) :
    s.await addr code = (some (dataByRule s.proto rsp),
      { s with rxbuf := rest, arrivals := s.arrivals.tail, lastRx := rsp }) := by
  have hlen := congrArg List.length h.stream
  simp only [List.length_append] at hlen
  rw [await_fits addr code s h.fits,
    awaitLoop_skips addr code skipped _ { s with rxbuf := s.rxbuf ++ s.arrivals.headD [], arrivals := s.arrivals.tail }
      (rsp ++ rest) (by simpa using h.stream) (by simp only; omega) h.skips,
    awaitLoop_match addr code _ { s with rxbuf := rsp ++ rest, arrivals := s.arrivals.tail } rsp rest rfl
      (by simp only [List.length_append]; omega) h.valid h.answers]
  rfl

/-- An `Await` that is not answered: every frame is discarded and NoResponse is counted and flagged (R222, R364). -/
theorem await_unanswered {s : State} {addr : Nat} {code : Byte} {skipped : List Bytes} {rest : Bytes}
    (h : s.Unanswered addr code skipped rest) :
    s.await addr code = (none, ({ s with rxbuf := rest, arrivals := s.arrivals.tail } : State).noResponse) := by
  have hlen := congrArg List.length h.stream
  simp only [List.length_append] at hlen
  rw [await_fits addr code s h.fits,
    awaitLoop_skips addr code skipped _ { s with rxbuf := s.rxbuf ++ s.arrivals.headD [], arrivals := s.arrivals.tail }
      rest h.stream (by simp only; omega) h.skips,
    awaitLoop_waits addr code _ { s with rxbuf := rest, arrivals := s.arrivals.tail }
      (by simp only [List.length_append]; omega) h.waits]

/-- `Await` on an empty buffer when exactly a matching frame arrives (R222, R223). -/
theorem await_response (addr : Nat) (code : Byte) (s : State) (f : Bytes) (draws : List Bytes) (hb : s.rxbuf = [])
    (ha : s.arrivals = f :: draws) (hv : s.validFrame f = true) (hm : matchesRsp s.proto addr code f = true) :
    s.await addr code = (some (rspData s.proto f), ({ s with arrivals := draws } : State).setLastRx f) := by
  have h18 := (look_take s (f ++ []) f.length (look_of_valid s f [] hv)).2.1
  have h : s.Answered addr code [] f [] :=
    ⟨by simp [hb, ha], by simp [hb, ha]; omega, by simp, hv, (matchesRsp_iff _ _ _ _).mp hm⟩
  rw [await_answered h, rspData_eq, ha, ← hb]
  rfl

/-! ### The relation of link traffic -/

/-- What link traffic does to one group: nothing, or the reaction to a transport fault (R316). -/
structure LinkGroup (s t : State) (g : GroupIx) : Prop where
  cases : (t.stateOf g = s.stateOf g ∧ t.causeOf g = s.causeOf g ∧ t.pendingOf g = s.pendingOf g)
    ∨ (reactsToFault (s.stateOf g) = true ∧ t.stateOf g = .emergencyStop ∧ t.causeOf g = 3 ∧ t.pendingOf g = false)

/-- What link traffic can do when every frame it sends is the frame of a command `A` allows. -/
structure LinkEffect (A : MotorIx → Cmd → Prop) (s t : State) : Prop where
  keeps : s.KeepsConfig t
  ramps : t.rampcur = s.rampcur
  halted : t.halted = s.halted
  groups : ∀ g, LinkGroup s t g
  sticky : ∀ j, s.sticky.getLsbD j = true → t.sticky.getLsbD j = true
  log : ∃ sent : List Sent, t.txLog = s.txLog ++ sent
    ∧ (∀ x ∈ sent, ∃ m c, A m c ∧ x.frame = s.frameFor m c)
    ∧ (t.reply.ioErr = true ↔ s.reply.ioErr = true ∨ ∃ x ∈ sent, x.outcome ≠ .ok)
    ∧ ((∀ x ∈ sent, x.outcome = .ok) → t.mstate = s.mstate ∧ t.ecause = s.ecause ∧ t.pending = s.pending
        ∧ t.estopCnt = s.estopCnt ∧ t.reopenReq = s.reopenReq)
    ∧ ((∃ x ∈ sent, x.outcome ≠ .ok) → t.sticky.getLsbD 5 = true ∧ t.reopenReq = true
        ∧ ∀ g, reactsToFault (s.stateOf g) = true → t.stateOf g = .emergencyStop)
  reply : t.reply.verifyFailed = s.reply.verifyFailed ∧ t.reply.status = s.reply.status ∧ t.reply.result = s.reply.result
  reopen : s.reopenReq = true → t.reopenReq = true
  rxbuf : s.rxbuf.length ≤ 256 → t.rxbuf.length ≤ 256
  lastRx : s.lastRx.length ≤ 18 → t.lastRx.length ≤ 18
  lastTx : s.lastTx.length ≤ 18 → t.lastTx.length ≤ 18
  idle : (∀ g, reactsToFault (s.stateOf g) = false) → t.estopCnt = s.estopCnt

theorem LinkGroup_refl (s : State) (g : GroupIx) : LinkGroup s s g := ⟨.inl ⟨rfl, rfl, rfl⟩⟩

theorem LinkGroup_trans {a b c : State} {g : GroupIx} (h : LinkGroup a b g) (k : LinkGroup b c g) :
    LinkGroup a c g := by
  rcases h.cases with ⟨h1, h2, h3⟩ | ⟨h1, h2, h3, h4⟩
  · rcases k.cases with ⟨k1, k2, k3⟩ | ⟨k1, k2, k3, k4⟩
    · exact ⟨.inl ⟨k1.trans h1, k2.trans h2, k3.trans h3⟩⟩
    · exact ⟨.inr ⟨h1 ▸ k1, k2, k3, k4⟩⟩
  · rcases k.cases with ⟨k1, k2, k3⟩ | ⟨k1, k2, k3, k4⟩
    · exact ⟨.inr ⟨h1, k1.trans h2, k2.trans h3, k3.trans h4⟩⟩
    · exact ⟨.inr ⟨h1, k2, k3, k4⟩⟩

theorem LinkEffect_refl (A : MotorIx → Cmd → Prop) (s : State) : LinkEffect A s s where
  keeps := KeepsConfig_refl s
  ramps := rfl
  halted := rfl
  groups := LinkGroup_refl s
  sticky := fun _ h => h
  log := ⟨[], by simp, by simp, by simp, by simp, by simp⟩
  reply := ⟨rfl, rfl, rfl⟩
  reopen := id
  rxbuf := id
  lastRx := id
  lastTx := id
  idle := fun _ => rfl

/-- The groups after link traffic that kept a group from reacting. -/
theorem LinkGroup_notReacts {s t : State} {g : GroupIx} (h : LinkGroup s t g) (hr : reactsToFault (s.stateOf g) = false) :
    t.stateOf g = s.stateOf g ∧ t.causeOf g = s.causeOf g ∧ t.pendingOf g = s.pendingOf g := by
  rcases h.cases with k | ⟨k, _⟩
  · exact k
  · simp [hr] at k

theorem LinkEffect_trans {A : MotorIx → Cmd → Prop} {a b c : State} (h : LinkEffect A a b) (k : LinkEffect A b c) :
    LinkEffect A a c where
  keeps := KeepsConfig_trans h.keeps k.keeps
  ramps := k.ramps.trans h.ramps
  halted := k.halted.trans h.halted
  groups := fun g => LinkGroup_trans (h.groups g) (k.groups g)
  sticky := fun j hj => k.sticky j (h.sticky j hj)
  log := by
    obtain ⟨l1, p1, q1, r1, u1, v1⟩ := h.log
    obtain ⟨l2, p2, q2, r2, u2, v2⟩ := k.log
    refine ⟨l1 ++ l2, by rw [p2, p1, List.append_assoc], ?_, ?_, ?_, ?_⟩
    · intro x hx
      rcases List.mem_append.mp hx with hx | hx
      · exact q1 x hx
      · obtain ⟨m, d, hA, hf⟩ := q2 x hx
        exact ⟨m, d, hA, hf.trans (keeps_frameFor h.keeps m d)⟩
    · rw [r2, r1]
      constructor
      · rintro ((h1 | ⟨x, hx, h1⟩) | ⟨x, hx, h1⟩)
        · exact .inl h1
        · exact .inr ⟨x, List.mem_append.mpr (.inl hx), h1⟩
        · exact .inr ⟨x, List.mem_append.mpr (.inr hx), h1⟩
      · rintro (h1 | ⟨x, hx, h1⟩)
        · exact .inl (.inl h1)
        · rcases List.mem_append.mp hx with hx | hx
          · exact .inl (.inr ⟨x, hx, h1⟩)
          · exact .inr ⟨x, hx, h1⟩
    · intro hx
      obtain ⟨a1, a2, a3, a4, a5⟩ := u1 (fun x h => hx x (List.mem_append.mpr (.inl h)))
      obtain ⟨b1, b2, b3, b4, b5⟩ := u2 (fun x h => hx x (List.mem_append.mpr (.inr h)))
      exact ⟨b1.trans a1, b2.trans a2, b3.trans a3, b4.trans a4, b5.trans a5⟩
    · rintro ⟨x, hx, h1⟩
      have key : (∃ x ∈ l1, x.outcome ≠ .ok) ∨ ((∀ x ∈ l1, x.outcome = .ok) ∧ ∃ x ∈ l2, x.outcome ≠ .ok) := by
        by_cases e : ∃ x ∈ l1, x.outcome ≠ .ok
        · exact .inl e
        · refine .inr ⟨fun y hy => by_contra fun h => e ⟨y, hy, h⟩, ?_⟩
          rcases List.mem_append.mp hx with hx | hx
          · exact absurd ⟨x, hx, h1⟩ e
          · exact ⟨x, hx, h1⟩
      rcases key with e | ⟨e0, e⟩
      · obtain ⟨a1, a2, a3⟩ := v1 e
        refine ⟨k.sticky 5 a1, k.reopen a2, fun g hg => ?_⟩
        have := LinkGroup_notReacts (k.groups g) (by simp [a3 g hg, reactsToFault])
        rw [this.1, a3 g hg]
      · obtain ⟨a1, a2, a3⟩ := v2 e
        refine ⟨a1, a2, fun g hg => a3 g ?_⟩
        have : b.stateOf g = a.stateOf g := by simp [State.stateOf, (u1 e0).1]
        rw [this]; exact hg
  reply := ⟨k.reply.1.trans h.reply.1, k.reply.2.1.trans h.reply.2.1, k.reply.2.2.trans h.reply.2.2⟩
  reopen := fun e => k.reopen (h.reopen e)
  rxbuf := fun e => k.rxbuf (h.rxbuf e)
  lastRx := fun e => k.lastRx (h.lastRx e)
  lastTx := fun e => k.lastTx (h.lastTx e)
  idle := fun e => by
    rw [k.idle, h.idle e]
    intro g
    rw [(LinkGroup_notReacts (h.groups g) (e g)).1]; exact e g

theorem LinkEffect_mono {A B : MotorIx → Cmd → Prop} (hAB : ∀ m c, A m c → B m c) {s t : State}
    (h : LinkEffect A s t) : LinkEffect B s t where
  keeps := h.keeps
  ramps := h.ramps
  halted := h.halted
  groups := h.groups
  sticky := h.sticky
  log := by
    obtain ⟨l, p, q, r⟩ := h.log
    refine ⟨l, p, fun x hx => ?_, r⟩
    obtain ⟨m, c, ha, hf⟩ := q x hx
    exact ⟨m, c, hAB m c ha, hf⟩
  reply := h.reply
  reopen := h.reopen
  rxbuf := h.rxbuf
  lastRx := h.lastRx
  lastTx := h.lastTx
  idle := h.idle

theorem sendOk_eq_true (o : SendOutcome) : sendOk o = true ↔ o = .ok := by cases o <;> simp [sendOk]

/-- A payload has at most nine bytes (R122). -/
theorem payload_length (cap : BitVec 12) (sq : Byte) (c : Cmd) : (c.payload cap sq).length ≤ 9 := by
  cases c <;> simp [Cmd.payload, velocityPayload, enablePayload, workingCurrentPayload, holdingCurrentPayload,
    pidGainsPayload, gainBytes, statusQueryPayload, writeLE]

/-- A frame of a sequence has at most 18 bytes (R121). -/
theorem frameFor_length (s : State) (m : MotorIx) (c : Cmd) : (s.frameFor m c).length ≤ 18 := by
  have := payload_length s.velCap s.sqCode c
  unfold State.frameFor frameOf State.payload
  split <;> simp [frameCan, frameRs] <;> omega

/-- One command on the link (R14, R316). -/
theorem command_effect {A : MotorIx → Cmd → Prop} (s : State) (m : MotorIx) (c : Cmd) (h : A m c) :
    LinkEffect A s (s.command m c).2 := by
  unfold State.command
  rcases transmit_cases (s.frameFor m c) s with ⟨ho, e⟩ | ⟨ho, e⟩
  · rw [e]
    have ho' : s.nextSend = .ok := (sendOk_eq_true _).mp ho
    exact {
      keeps := ⟨rfl, rfl, rfl, rfl, rfl, rfl, rfl⟩
      ramps := rfl
      halted := rfl
      groups := fun g => ⟨.inl ⟨rfl, rfl, rfl⟩⟩
      sticky := fun _ h => h
      log := ⟨[⟨s.frameFor m c, s.nextSend⟩], rfl, by simpa using ⟨m, c, h, rfl⟩, by simp [ho'],
        fun _ => ⟨rfl, rfl, rfl, rfl, rfl⟩, by simp [ho']⟩
      reply := ⟨rfl, rfl, rfl⟩
      reopen := id
      rxbuf := id
      lastRx := id
      lastTx := fun _ => frameFor_length s m c
      idle := fun _ => rfl }
  · rw [e]
    have ho' : s.nextSend ≠ .ok := fun h => by simp [h, sendOk] at ho
    exact {
      keeps := ⟨by simp, by simp, by simp, by simp, by simp, by simp, by simp⟩
      ramps := by simp
      halted := by simp
      groups := fun g => by
        constructor
        rw [transportFault_stateOf, transportFault_causeOf, transportFault_pendingOf]
        by_cases hr : reactsToFault (s.stateOf g) = true
        · right; simp [hr]
        · left; simp [hr]
      sticky := fun j h => by simp [h]
      log := ⟨[⟨s.frameFor m c, s.nextSend⟩], by simp, by simpa using ⟨m, c, h, rfl⟩, by simp [ho'],
        by simp [ho'], fun _ => ⟨by simp [flagMask], by simp, fun g hg => by
          rw [transportFault_stateOf]; simp [hg]⟩⟩
      reply := by simp
      reopen := by simp
      rxbuf := by simp
      lastRx := by simp
      lastTx := fun _ => by simpa using frameFor_length s m c
      idle := fun hi => by rw [transportFault_estopCnt]; simp [hi] }

/-- One `Await` (R222). -/
theorem await_effect {A : MotorIx → Cmd → Prop} (s : State) (addr : Nat) (code : Byte) :
    LinkEffect A s (s.await addr code).2 := by
  obtain ⟨h1, h2, h3⟩ := await_bounds addr code s
  have hf := await_frame addr code s
  exact {
    keeps := by rw [hf]; exact ⟨rfl, rfl, rfl, rfl, rfl, rfl, rfl⟩
    ramps := by rw [hf]
    halted := by rw [hf]
    groups := fun g => by rw [hf]; exact ⟨.inl ⟨rfl, rfl, rfl⟩⟩
    sticky := h1
    log := ⟨[], by rw [hf]; simp, by simp, by rw [hf]; simp, by rw [hf]; simp, by simp⟩
    reply := by rw [hf]; exact ⟨rfl, rfl, rfl⟩
    reopen := by rw [hf]; exact id
    rxbuf := h2
    lastRx := h3
    lastTx := by rw [hf]; exact id
    idle := by rw [hf]; exact fun _ => rfl }

/-! ### The parts of the sequences that are only link traffic -/

/-- A fold of steps that are link traffic is link traffic. -/
theorem foldl_effect {α : Type} {A : MotorIx → Cmd → Prop} {s0 : State} (f : State → α → State) (l : List α) (s : State)
    (h0 : LinkEffect A s0 s) (h : ∀ t a, a ∈ l → LinkEffect A s0 t → LinkEffect A t (f t a)) :
    LinkEffect A s0 (l.foldl f s) :=
  foldl_keeps (P := LinkEffect A s0) f l s (fun t a ha ht => LinkEffect_trans ht (h t a ha ht)) h0

section
variable {A : MotorIx → Cmd → Prop} {s0 : State}

/-- The rounds of Velocity(0) (R275). -/
theorem zeroRounds_effect (ms : List MotorIx) (hA : ∀ m ∈ ms, A m (s0.velocityCmd 0)) (n : Nat) (s : State)
    (h0 : LinkEffect A s0 s) : LinkEffect A s0 (zeroRounds ms n s) := by
  induction n generalizing s with
  | zero => exact h0
  | succ n ih =>
    refine ih _ (foldl_effect _ ms s h0 fun t m hm ht => command_effect t m _ ?_)
    rw [keeps_velocityCmd ht.keeps]; exact hA m hm

/-- The attempts to disable one member (R275). -/
theorem tryDisable_effect (m : MotorIx) (hE : A m (.enable 0)) (hQ : A m .statusQuery) (n : Nat) (s : State)
    (h0 : LinkEffect A s0 s) : LinkEffect A s0 (tryDisable m n s).2 := by
  induction n generalizing s with
  | zero => exact h0
  | succ n ih =>
    have h2 := LinkEffect_trans (LinkEffect_trans h0 (command_effect s m _ hE))
      (command_effect (s.command m (.enable 0)).2 m _ hQ)
    have h3 := LinkEffect_trans h2 (await_effect (((s.command m (.enable 0)).2).command m .statusQuery).2
      ((((s.command m (.enable 0)).2).command m .statusQuery).2.addrOf m)
      (((s.command m (.enable 0)).2).command m .statusQuery).2.sqCode)
    unfold tryDisable
    simp only
    split
    · exact h3
    · exact ih _ h3

theorem disableMember_effect (m : MotorIx) (hE : A m (.enable 0)) (hQ : A m .statusQuery) (s : State)
    (h0 : LinkEffect A s0 s) : LinkEffect A s0 (s.disableMember m).2 := by
  unfold State.disableMember
  split
  · exact tryDisable_effect m hE hQ _ s h0
  · exact LinkEffect_trans h0 (command_effect s m _ hE)

/-- Disabling the members in order (R275). -/
theorem disableMembers_effect (ms : List MotorIx) (hE : ∀ m ∈ ms, A m (.enable 0)) (hQ : ∀ m ∈ ms, A m .statusQuery)
    (s : State) (h0 : LinkEffect A s0 s) : LinkEffect A s0 (disableMembers ms s).2 := by
  induction ms generalizing s with
  | nil => exact h0
  | cons m ms ih =>
    unfold disableMembers
    exact ih (fun k hk => hE k (List.mem_cons_of_mem _ hk)) (fun k hk => hQ k (List.mem_cons_of_mem _ hk)) _
      (disableMember_effect m (hE m List.mem_cons_self) (hQ m List.mem_cons_self) s h0)

/-- The handshake commands of one member (R270). -/
theorem sendUntilErr_effect (m : MotorIx) (cs : List Cmd) (hA : ∀ c ∈ cs, A m c) (s : State)
    (h0 : LinkEffect A s0 s) : LinkEffect A s0 (sendUntilErr m cs s).2 := by
  induction cs generalizing s with
  | nil => exact h0
  | cons c cs ih =>
    have h1 := LinkEffect_trans h0 (command_effect s m c (hA c List.mem_cons_self))
    unfold sendUntilErr
    split
    · rename_i s1 e; rw [e] at h1
      exact ih (fun d hd => hA d (List.mem_cons_of_mem _ hd)) s1 h1
    · rename_i s1 e; rw [e] at h1; exact h1

/-- The attempts to enable one member (R270). -/
theorem tryEnable_effect (m : MotorIx) (hE : A m (.enable 1)) (hQ : A m .statusQuery) (n : Nat) (s : State)
    (h0 : LinkEffect A s0 s) : LinkEffect A s0 (tryEnable m n s).2 := by
  induction n generalizing s with
  | zero => exact h0
  | succ n ih =>
    have h1 := LinkEffect_trans h0 (command_effect s m (.enable 1) hE)
    unfold tryEnable
    split
    · rename_i s1 e; rw [e] at h1; exact h1
    · rename_i s1 e; rw [e] at h1
      split
      · exact h1
      · have h2 := LinkEffect_trans h1 (command_effect s1 m .statusQuery hQ)
        split
        · rename_i s2 e2; rw [e2] at h2; exact h2
        · rename_i s2 e2; rw [e2] at h2
          have h3 := LinkEffect_trans h2 (await_effect s2 (s2.addrOf m) s2.sqCode)
          simp only
          split
          · exact h3
          · exact ih _ h3

/-- SendVelocity (R282, R283). -/
theorem sendVelocity_effect (m : MotorIx) (s : State) (hA : A m (s.velocityCmd (s.rampOf m)))
    (h0 : LinkEffect A s0 s) : LinkEffect A s0 (s.sendVelocity m) := by
  have h1 := LinkEffect_trans h0 (command_effect s m _ hA)
  unfold State.sendVelocity
  split
  · rename_i s1 e; rw [e] at h1; exact h1
  · rename_i s1 e; rw [e] at h1
    split
    · exact LinkEffect_trans h1 (await_effect s1 _ _)
    · exact h1

end

end Sys2Proof.Machine
end

