-- ==== Sys2Proof/Laws/Sequences.lean ====
section
/-! SUPPORT. What the sequences of the safety state machine can do: one relation for every sequence of one group
(`SeqEffect`), the outcome of each sequence for its own group, and the five steps of TICK. -/

namespace Sys2Proof.Machine

/-! ### Membership (R55) -/

theorem mem_members (s : State) (g : GroupIx) (m : MotorIx) : m ∈ s.members g ↔ s.isMember g m = true := by
  simp [State.members]

theorem nodup_members (s : State) (g : GroupIx) : (s.members g).Nodup := nodup_allMotors.filter _

/-- A motor is a member of at most one group. -/
theorem isMember_unique (s : State) (g h : GroupIx) (m : MotorIx) (hg : s.isMember g m = true)
    (hh : s.isMember h m = true) : g = h := by
  simp only [State.isMember, Bool.and_eq_true, beq_iff_eq] at hg hh
  exact Fin.ext (hg.2.symm.trans hh.2)

/-! ### The relation of a sequence -/

/-- The commands the sequences send, but for the velocities of a driven group (R285). -/
def seqCmd (s : State) (c : Cmd) : Prop :=
  c ∈ s.handshake ∨ c = .enable 0 ∨ c = .enable 1 ∨ c = .statusQuery ∨ c = s.velocityCmd 0

theorem seqCmd_keeps {s t : State} (h : s.KeepsConfig t) (c : Cmd) : seqCmd t c ↔ seqCmd s c := by
  simp [seqCmd, keeps_handshake h, keeps_velocityCmd h]

/-- What a sequence of group `g` can do when every frame it sends is the frame of a command `A` allows: to the other
groups only what link traffic does, to the ramp outputs of non-members nothing. -/
structure SeqEffect (g : GroupIx) (A : MotorIx → Cmd → Prop) (s t : State) : Prop where
  keeps : s.KeepsConfig t
  halted : t.halted = s.halted
  others : ∀ h, h ≠ g → LinkGroup s t h
  ramps : ∀ m, s.isMember g m = false → t.rampOf m = s.rampOf m
  sticky : ∀ j, s.sticky.getLsbD j = true → t.sticky.getLsbD j = true
  log : ∃ sent : List Sent, t.txLog = s.txLog ++ sent
    ∧ (∀ x ∈ sent, ∃ m c, A m c ∧ x.frame = s.frameFor m c)
    ∧ (t.reply.ioErr = true ↔ s.reply.ioErr = true ∨ ∃ x ∈ sent, x.outcome ≠ .ok)
    ∧ ((∃ x ∈ sent, x.outcome ≠ .ok) → t.sticky.getLsbD 5 = true ∧ t.reopenReq = true)
  verify : t.reply.verifyFailed = true → s.reply.verifyFailed = true ∨ t.sticky.getLsbD 6 = true
  reply : t.reply.status = s.reply.status ∧ t.reply.result = s.reply.result
  reopen : s.reopenReq = true → t.reopenReq = true
  rxbuf : s.rxbuf.length ≤ 256 → t.rxbuf.length ≤ 256
  lastRx : s.lastRx.length ≤ 18 → t.lastRx.length ≤ 18
  lastTx : s.lastTx.length ≤ 18 → t.lastTx.length ≤ 18

theorem rampOf_eq_of_rampcur {s t : State} (h : t.rampcur = s.rampcur) (m : MotorIx) : t.rampOf m = s.rampOf m := by
  simp [State.rampOf, h]

/-- Link traffic is a sequence of any group. -/
theorem LinkEffect_seq {g : GroupIx} {A : MotorIx → Cmd → Prop} {s t : State} (h : LinkEffect A s t) :
    SeqEffect g A s t where
  keeps := h.keeps
  halted := h.halted
  others := fun k _ => h.groups k
  ramps := fun m _ => rampOf_eq_of_rampcur h.ramps m
  sticky := h.sticky
  log := by
    obtain ⟨l, p, q, r, _, v⟩ := h.log
    exact ⟨l, p, q, r, fun e => ⟨(v e).1, (v e).2.1⟩⟩
  verify := fun e => .inl (h.reply.1 ▸ e)
  reply := h.reply.2
  reopen := h.reopen
  rxbuf := h.rxbuf
  lastRx := h.lastRx
  lastTx := h.lastTx

theorem SeqEffect_refl (g : GroupIx) (A : MotorIx → Cmd → Prop) (s : State) : SeqEffect g A s s :=
  LinkEffect_seq (LinkEffect_refl A s)

theorem SeqEffect_trans {g : GroupIx} {A : MotorIx → Cmd → Prop} {a b c : State} (h : SeqEffect g A a b)
    (k : SeqEffect g A b c) : SeqEffect g A a c where
  keeps := KeepsConfig_trans h.keeps k.keeps
  halted := k.halted.trans h.halted
  others := fun x hx => LinkGroup_trans (h.others x hx) (k.others x hx)
  ramps := fun m hm => (k.ramps m (by rw [keeps_isMember h.keeps]; exact hm)).trans (h.ramps m hm)
  sticky := fun j hj => k.sticky j (h.sticky j hj)
  log := by
    obtain ⟨l1, p1, q1, r1, v1⟩ := h.log
    obtain ⟨l2, p2, q2, r2, v2⟩ := k.log
    refine ⟨l1 ++ l2, by rw [p2, p1, List.append_assoc], ?_, ?_, ?_⟩
    · intro x hx
      rcases List.mem_append.mp hx with hx | hx
      · exact q1 x hx
      · obtain ⟨m, d, hA, hf⟩ := q2 x hx
        exact ⟨m, d, hA, hf.trans (keeps_frameFor h.keeps m d)⟩
    · rw [r2, r1]
      simp only [List.mem_append]
      constructor
      · rintro ((h1 | ⟨x, hx, h1⟩) | ⟨x, hx, h1⟩)
        · exact .inl h1
        · exact .inr ⟨x, .inl hx, h1⟩
        · exact .inr ⟨x, .inr hx, h1⟩
      · rintro (h1 | ⟨x, hx | hx, h1⟩)
        · exact .inl (.inl h1)
        · exact .inl (.inr ⟨x, hx, h1⟩)
        · exact .inr ⟨x, hx, h1⟩
    · rintro ⟨x, hx, h1⟩
      rcases List.mem_append.mp hx with hx | hx
      · obtain ⟨a1, a2⟩ := v1 ⟨x, hx, h1⟩
        exact ⟨k.sticky 5 a1, k.reopen a2⟩
      · exact v2 ⟨x, hx, h1⟩
  verify := fun e => by
    rcases k.verify e with e | e
    · rcases h.verify e with e | e
      · exact .inl e
      · exact .inr (k.sticky 6 e)
    · exact .inr e
  reply := ⟨k.reply.1.trans h.reply.1, k.reply.2.trans h.reply.2⟩
  reopen := fun e => k.reopen (h.reopen e)
  rxbuf := fun e => k.rxbuf (h.rxbuf e)
  lastRx := fun e => k.lastRx (h.lastRx e)
  lastTx := fun e => k.lastTx (h.lastTx e)

theorem SeqEffect_mono {g : GroupIx} {A B : MotorIx → Cmd → Prop} (hAB : ∀ m c, A m c → B m c) {s t : State}
    (h : SeqEffect g A s t) : SeqEffect g B s t where
  keeps := h.keeps
  halted := h.halted
  others := h.others
  ramps := h.ramps
  sticky := h.sticky
  log := by
    obtain ⟨l, p, q, r⟩ := h.log
    refine ⟨l, p, fun x hx => ?_, r⟩
    obtain ⟨m, c, ha, hf⟩ := q x hx
    exact ⟨m, c, hAB m c ha, hf⟩
  verify := h.verify
  reply := h.reply
  reopen := h.reopen
  rxbuf := h.rxbuf
  lastRx := h.lastRx
  lastTx := h.lastTx

section
variable {g : GroupIx} {A : MotorIx → Cmd → Prop}

theorem setState_effect (s : State) (x : MState) : SeqEffect g A s (s.setState g x) where
  keeps := ⟨rfl, rfl, rfl, rfl, rfl, rfl, rfl⟩
  halted := rfl
  others := fun h hh => ⟨.inl ⟨by simp [hh], rfl, rfl⟩⟩
  ramps := fun _ _ => rfl
  sticky := fun _ h => h
  log := ⟨[], by simp, by simp, by simp, by simp⟩
  verify := .inl
  reply := ⟨rfl, rfl⟩
  reopen := id
  rxbuf := id
  lastRx := id
  lastTx := id

theorem setPending_effect (s : State) (b : Bool) : SeqEffect g A s (s.setPending g b) where
  keeps := ⟨rfl, rfl, rfl, rfl, rfl, rfl, rfl⟩
  halted := rfl
  others := fun h hh => ⟨.inl ⟨rfl, rfl, by simp [hh]⟩⟩
  ramps := fun _ _ => rfl
  sticky := fun _ h => h
  log := ⟨[], by simp, by simp, by simp, by simp⟩
  verify := .inl
  reply := ⟨rfl, rfl⟩
  reopen := id
  rxbuf := id
  lastRx := id
  lastTx := id

theorem setRamp_effect (s : State) (m : MotorIx) (v : Half) (hm : s.isMember g m = true) :
    SeqEffect g A s (s.setRamp m v) where
  keeps := ⟨rfl, rfl, rfl, rfl, rfl, rfl, rfl⟩
  halted := rfl
  others := fun h _ => ⟨.inl ⟨rfl, rfl, rfl⟩⟩
  ramps := fun k hk => by
    have : k ≠ m := fun e => by rw [e, hm] at hk; simp at hk
    simp [this]
  sticky := fun _ h => h
  log := ⟨[], by simp, by simp, by simp, by simp⟩
  verify := .inl
  reply := ⟨rfl, rfl⟩
  reopen := id
  rxbuf := id
  lastRx := id
  lastTx := id

theorem verifyFailure_effect (s : State) : SeqEffect g A s s.verifyFailure where
  keeps := ⟨rfl, rfl, rfl, rfl, rfl, rfl, rfl⟩
  halted := rfl
  others := fun h _ => ⟨.inl ⟨rfl, rfl, rfl⟩⟩
  ramps := fun _ _ => rfl
  sticky := fun j h => by simp [State.verifyFailure, h]
  log := ⟨[], by simp [State.verifyFailure], by simp, by simp [State.verifyFailure], by simp⟩
  verify := fun _ => .inr (by simp [State.verifyFailure, flagMask])
  reply := ⟨rfl, rfl⟩
  reopen := id
  rxbuf := id
  lastRx := id
  lastTx := id

/-- A fold of steps of one group's sequence. -/
theorem foldl_seq {α : Type} {s0 : State} (f : State → α → State) (l : List α) (s : State)
    (h0 : SeqEffect g A s0 s) (h : ∀ t a, a ∈ l → SeqEffect g A s0 t → SeqEffect g A t (f t a)) :
    SeqEffect g A s0 (l.foldl f s) :=
  foldl_keeps (P := SeqEffect g A s0) f l s (fun t a ha ht => SeqEffect_trans ht (h t a ha ht)) h0

end

/-! ### Ramp outputs under the folds -/

/-- A fold that writes each motor's ramp output once, from values that do not depend on the writes. -/
theorem foldl_setRamp (v : MotorIx → Half) (ms : List MotorIx) (s : State) :
    (∀ m, (ms.foldl (fun s m => s.setRamp m (v m)) s).rampOf m = if m ∈ ms then v m else s.rampOf m)
    ∧ ms.foldl (fun s m => s.setRamp m (v m)) s
        = { s with rampcur := (ms.foldl (fun s m => s.setRamp m (v m)) s).rampcur } := by
  induction ms generalizing s with
  | nil => simp
  | cons k ms ih =>
    obtain ⟨h1, h2⟩ := ih (s.setRamp k (v k))
    refine ⟨fun m => ?_, ?_⟩
    · rw [List.foldl_cons, h1]
      by_cases e : m ∈ ms
      · simp [e]
      · by_cases e2 : m = k
        · subst e2; simp [e]
        · simp [e, e2]
    · rw [List.foldl_cons, h2]; rfl

/-- A fold over distinct motors that writes each motor's ramp output from its own old value and the configuration. -/
theorem foldl_rampOwn (w : State → MotorIx → Half)
    (hw : ∀ s m k v, m ≠ k → w (s.setRamp k v) m = w s m) (ms : List MotorIx) (hn : ms.Nodup) (s : State) :
    (∀ m, (ms.foldl (fun s m => s.setRamp m (w s m)) s).rampOf m = if m ∈ ms then w s m else s.rampOf m)
    ∧ ms.foldl (fun s m => s.setRamp m (w s m)) s
        = { s with rampcur := (ms.foldl (fun s m => s.setRamp m (w s m)) s).rampcur } := by
  induction ms generalizing s with
  | nil => simp
  | cons k ms ih =>
    have hk : k ∉ ms := (List.nodup_cons.mp hn).1
    obtain ⟨h1, h2⟩ := ih (List.nodup_cons.mp hn).2 (s.setRamp k (w s k))
    refine ⟨fun m => ?_, ?_⟩
    · rw [List.foldl_cons, h1]
      by_cases e : m ∈ ms
      · have : m ≠ k := fun h => hk (h ▸ e)
        simp [e, hw s m k _ this]
      · by_cases e2 : m = k
        · subst e2; simp [e]
        · simp [e, e2]
    · rw [List.foldl_cons, h2]; rfl

theorem zeroRamps_spec (ms : List MotorIx) (s : State) :
    (∀ m, (s.zeroRamps ms).rampOf m = if m ∈ ms then 0 else s.rampOf m)
    ∧ s.zeroRamps ms = { s with rampcur := (s.zeroRamps ms).rampcur } :=
  foldl_setRamp (fun _ => 0) ms s

/-- The ramp steps of an Enabled group (R242, R281). -/
theorem rampMotors_spec (ms : List MotorIx) (hn : ms.Nodup) (s : State) :
    (∀ m, (ms.foldl (fun s m => s.rampMotor m) s).rampOf m = if m ∈ ms then s.rampedOf m else s.rampOf m)
    ∧ ms.foldl (fun s m => s.rampMotor m) s
        = { s with rampcur := (ms.foldl (fun s m => s.rampMotor m) s).rampcur } :=
  foldl_rampOwn (fun s m => s.rampedOf m)
    (fun s m k v h => by
      have h1 : (s.setRamp k v).rampOf m = s.rampOf m := by simp [h]
      have h2 : (s.setRamp k v).target m = s.target m := rfl
      have h3 : (s.setRamp k v).rampStep = s.rampStep := rfl
      simp only [State.rampedOf, h1, h2, h3]) ms hn s

/-- The deceleration steps of a group in EmergencyStop (R243). -/
theorem decelMotors_spec (ms : List MotorIx) (hn : ms.Nodup) (s : State) :
    (∀ m, (ms.foldl (fun s m => s.decelMotor m) s).rampOf m = if m ∈ ms then s.deceledOf m else s.rampOf m)
    ∧ ms.foldl (fun s m => s.decelMotor m) s
        = { s with rampcur := (ms.foldl (fun s m => s.decelMotor m) s).rampcur } := by
  have e : (fun (s : State) m => s.decelMotor m) = fun s m => s.setRamp m (s.deceledOf m) := by
    funext s m
    unfold State.decelMotor State.deceledOf rampEStop
    congr 2
    by_cases h : s.estopStep = 0
    · simp [h]
    · have : s.estopStep.toNat ≠ 0 := fun e => h (BitVec.eq_of_toNat_eq (by simpa using e))
      rw [if_neg this, if_neg h]
  rw [e]
  exact foldl_rampOwn (fun s m => s.deceledOf m)
    (fun s m k v h => by
      have h1 : (s.setRamp k v).rampOf m = s.rampOf m := by simp [h]
      have h3 : (s.setRamp k v).estopStep = s.estopStep := rfl
      simp only [State.deceledOf, h1, h3]) ms hn s

/-! ### The stop sequence (R275) and the ways to Disabled -/

section
variable {g : GroupIx} {A : MotorIx → Cmd → Prop} {s0 : State}

/-- The state between the last frame of the stop sequence and the ramp reset. -/
def stopTraffic (g : GroupIx) (s : State) : State :=
  (disableMembers (s.members g) (zeroRounds (s.members g) s.zeroRepeat s)).2

/-- The frames of the stop sequence are link traffic. -/
theorem stopTraffic_effect (hA : ∀ m c, s0.isMember g m = true → seqCmd s0 c → A m c) (s : State)
    (h0 : LinkEffect A s0 s) : LinkEffect A s0 (stopTraffic g s) := by
  have hm : ∀ m ∈ s.members g, s0.isMember g m = true := fun m hm => by
    rw [keeps_members h0.keeps] at hm; exact (mem_members s0 g m).mp hm
  refine disableMembers_effect _ (fun m h => hA m _ (hm m h) (.inr (.inl rfl)))
    (fun m h => hA m _ (hm m h) (.inr (.inr (.inr (.inl rfl))))) _ ?_
  exact zeroRounds_effect _ (fun m h => hA m _ (hm m h) (.inr (.inr (.inr (.inr rfl))))) _ s h0

theorem stopSequence_eq (g : GroupIx) (s : State) :
    s.stopSequence g = (stopTraffic g s).zeroRamps (s.members g)
    ∨ s.stopSequence g = ((stopTraffic g s).zeroRamps (s.members g)).verifyFailure := by
  unfold State.stopSequence stopTraffic
  simp only
  split
  · exact .inl rfl
  · exact .inr rfl

/-- Everything StopSequence(g) does (R275, R276): to its own group only what link traffic does, the ramp outputs of the
members 0. -/
theorem stopSequence_spec (hA : ∀ m c, s0.isMember g m = true → seqCmd s0 c → A m c) (s : State)
    (h0 : LinkEffect A s0 s) :
    SeqEffect g A s0 (s.stopSequence g) ∧ LinkGroup s0 (s.stopSequence g) g
    ∧ (∀ m, s0.isMember g m = true → (s.stopSequence g).rampOf m = 0)
    ∧ (s.stopSequence g).mstate = (stopTraffic g s).mstate ∧ (s.stopSequence g).estopCnt = (stopTraffic g s).estopCnt
    ∧ (s.stopSequence g).txLog = (stopTraffic g s).txLog := by
  have h1 := stopTraffic_effect hA s h0
  have hms : s.members g = s0.members g := keeps_members h0.keeps g
  obtain ⟨hz, hf⟩ := zeroRamps_spec (s.members g) (stopTraffic g s)
  have h2 : SeqEffect g A s0 ((stopTraffic g s).zeroRamps (s.members g)) := by
    refine foldl_seq _ _ _ (LinkEffect_seq h1) fun t m hm ht => setRamp_effect t m 0 ?_
    rw [keeps_isMember ht.keeps]; rw [hms] at hm; exact (mem_members s0 g m).mp hm
  have h3 : LinkGroup s0 ((stopTraffic g s).zeroRamps (s.members g)) g := by
    rw [hf]; exact ⟨(h1.groups g).cases⟩
  have h4 : ∀ m, s0.isMember g m = true → ((stopTraffic g s).zeroRamps (s.members g)).rampOf m = 0 := by
    intro m hm
    rw [hz m, if_pos]; rw [hms]; exact (mem_members s0 g m).mpr hm
  have h5 : ((stopTraffic g s).zeroRamps (s.members g)).mstate = (stopTraffic g s).mstate
      ∧ ((stopTraffic g s).zeroRamps (s.members g)).estopCnt = (stopTraffic g s).estopCnt
      ∧ ((stopTraffic g s).zeroRamps (s.members g)).txLog = (stopTraffic g s).txLog := by
    rw [hf]; exact ⟨rfl, rfl, rfl⟩
  rcases stopSequence_eq g s with e | e
  · rw [e]; exact ⟨h2, h3, h4, h5⟩
  · rw [e]
    exact ⟨SeqEffect_trans h2 (verifyFailure_effect _), ⟨h3.cases⟩, h4, h5⟩

end

/-- The exit to Disabled (R279, R372), from a state of the group that a transport fault leaves alone. -/
theorem stopToDisabled_spec {g : GroupIx} {A : MotorIx → Cmd → Prop} (s : State)
    (hA : ∀ m c, s.isMember g m = true → seqCmd s c → A m c) (hr : reactsToFault (s.stateOf g) = false) :
    SeqEffect g A s (s.stopToDisabled g) ∧ (s.stopToDisabled g).stateOf g = .disabled
    ∧ (s.stopToDisabled g).causeOf g = s.causeOf g ∧ (s.stopToDisabled g).pendingOf g = s.pendingOf g
    ∧ (∀ m, s.isMember g m = true → (s.stopToDisabled g).rampOf m = 0)
    ∧ ((∀ h, reactsToFault (s.stateOf h) = false) → (s.stopToDisabled g).estopCnt = s.estopCnt) := by
  obtain ⟨h1, h2, h3, _, h5, _⟩ := stopSequence_spec hA s (LinkEffect_refl A s)
  obtain ⟨_, k2, k3⟩ := LinkGroup_notReacts h2 hr
  refine ⟨SeqEffect_trans h1 (setState_effect _ _), ?_, ?_, ?_, h3, fun hi => ?_⟩
  · simp [State.stopToDisabled]
  · simpa [State.stopToDisabled] using k2
  · simpa [State.stopToDisabled] using k3
  · have := (stopTraffic_effect hA s (LinkEffect_refl A s)).idle hi
    simp [State.stopToDisabled, h5, this]

/-- Disabling(g) (R274). -/
theorem disabling_spec {g : GroupIx} {A : MotorIx → Cmd → Prop} (s : State)
    (hA : ∀ m c, s.isMember g m = true → seqCmd s c → A m c) :
    SeqEffect g A s (s.disabling g) ∧ (s.disabling g).stateOf g = .disabled
    ∧ (s.disabling g).causeOf g = s.causeOf g ∧ (s.disabling g).pendingOf g = s.pendingOf g
    ∧ (∀ m, s.isMember g m = true → (s.disabling g).rampOf m = 0) := by
  have hr : reactsToFault ((s.setState g .disabling).stateOf g) = false := by simp [reactsToFault]
  obtain ⟨h1, h2, h3, h4, h5, _⟩ := stopToDisabled_spec (A := A) (s.setState g .disabling) hA hr
  exact ⟨SeqEffect_trans (setState_effect s .disabling) h1, h2, h3, h4, h5⟩

/-! ### The emergency stop's handler (R279) -/

theorem estopStepGroup_atRest {g : GroupIx} (s : State) (h : ∀ m, s.isMember g m = true → s.rampOf m = 0) :
    s.estopStepGroup g = s.stopToDisabled g := by
  unfold State.estopStepGroup
  simp only
  rw [if_pos]
  simp only [List.all_eq_true, beq_iff_eq]
  exact fun m hm => h m ((mem_members s g m).mp hm)

/-- A deceleration step (R243, R279): the ramp outputs of the members one step nearer to 0, a velocity to each, and the
group still in EmergencyStop with its cause and request untouched. -/
theorem estopStepGroup_decel {g : GroupIx} {A : MotorIx → Cmd → Prop} (s : State)
    (hV : ∀ m v, s.isMember g m = true → A m (s.velocityCmd v)) (hst : s.stateOf g = .emergencyStop)
    (hm : ∃ m, s.isMember g m = true ∧ s.rampOf m ≠ 0) :
    SeqEffect g A s (s.estopStepGroup g) ∧ (s.estopStepGroup g).stateOf g = .emergencyStop
    ∧ (s.estopStepGroup g).causeOf g = s.causeOf g ∧ (s.estopStepGroup g).pendingOf g = s.pendingOf g
    ∧ (∀ m, s.isMember g m = true → (s.estopStepGroup g).rampOf m = s.deceledOf m)
    ∧ ((∀ h, reactsToFault (s.stateOf h) = false) → (s.estopStepGroup g).estopCnt = s.estopCnt) := by
  have hall : ((s.members g).all fun m => s.rampOf m == 0) = false := by
    obtain ⟨m, h1, h2⟩ := hm
    rw [List.all_eq_false]
    exact ⟨m, (mem_members s g m).mpr h1, by simpa using h2⟩
  obtain ⟨hd, hf⟩ := decelMotors_spec (s.members g) (nodup_members s g) s
  have h1 : SeqEffect g A s ((s.members g).foldl (fun s m => s.decelMotor m) s) := by
    refine foldl_seq _ _ _ (SeqEffect_refl g A s) fun t m hm ht => setRamp_effect t m _ ?_
    rw [keeps_isMember ht.keeps]; exact (mem_members s g m).mp hm
  have e : s.estopStepGroup g = (s.members g).foldl (fun s m => (s.command m (s.velocityCmd (s.rampOf m))).2)
      ((s.members g).foldl (fun s m => s.decelMotor m) s) := by
    unfold State.estopStepGroup; simp only [hall]; rfl
  rw [e]
  generalize (s.members g).foldl (fun s m => s.decelMotor m) s = s1 at hd hf h1
  have hst1 : s1.stateOf g = .emergencyStop := by rw [hf]; exact hst
  have h2 : LinkEffect A s1 ((s.members g).foldl (fun s m => (s.command m (s.velocityCmd (s.rampOf m))).2) s1) := by
    refine foldl_effect _ _ _ (LinkEffect_refl A s1) fun t m hm ht => command_effect t m _ ?_
    rw [keeps_velocityCmd ht.keeps, keeps_velocityCmd h1.keeps]
    exact hV m _ ((mem_members s g m).mp hm)
  obtain ⟨k1, k2, k3⟩ := LinkGroup_notReacts (h2.groups g) (by rw [hst1]; rfl)
  refine ⟨SeqEffect_trans h1 (LinkEffect_seq h2), k1.trans hst1, ?_, ?_, fun m hm => ?_, fun hi => ?_⟩
  · rw [k2, hf]; rfl
  · rw [k3, hf]; rfl
  · rw [rampOf_eq_of_rampcur h2.ramps, hd, if_pos ((mem_members s g m).mpr hm)]
  · rw [h2.idle (by rw [hf]; exact hi), hf]

/-! ### What was sent -/

/-- Between two states of a run, a frame of command `c` was sent to motor `m`. -/
def sentTo (s t : State) (m : MotorIx) (c : Cmd) : Prop :=
  ∃ sent : List Sent, t.txLog = s.txLog ++ sent ∧ ∃ x ∈ sent, x.frame = s.frameFor m c

theorem sentTo_after {s a t : State} {m : MotorIx} {c : Cmd} (hk : s.KeepsConfig a)
    (hl : ∃ sent : List Sent, a.txLog = s.txLog ++ sent) (h : sentTo a t m c) : sentTo s t m c := by
  obtain ⟨l1, p1⟩ := hl
  obtain ⟨l2, p2, x, hx, hf⟩ := h
  exact ⟨l1 ++ l2, by rw [p2, p1, List.append_assoc], x, List.mem_append.mpr (.inr hx),
    hf.trans (keeps_frameFor hk m c)⟩

theorem sentTo_before {s a t : State} {m : MotorIx} {c : Cmd} (h : sentTo s a m c)
    (hl : ∃ sent : List Sent, t.txLog = a.txLog ++ sent) : sentTo s t m c := by
  obtain ⟨l2, p2⟩ := hl
  obtain ⟨l1, p1, x, hx, hf⟩ := h
  exact ⟨l1 ++ l2, by rw [p2, p1, List.append_assoc], x, List.mem_append.mpr (.inl hx), hf⟩

theorem LinkEffect_extends {A : MotorIx → Cmd → Prop} {s t : State} (h : LinkEffect A s t) :
    ∃ sent : List Sent, t.txLog = s.txLog ++ sent := let ⟨l, p, _⟩ := h.log; ⟨l, p⟩

theorem SeqEffect_extends {g : GroupIx} {A : MotorIx → Cmd → Prop} {s t : State} (h : SeqEffect g A s t) :
    ∃ sent : List Sent, t.txLog = s.txLog ++ sent := let ⟨l, p, _⟩ := h.log; ⟨l, p⟩

theorem transmit_txLog (f : Bytes) (s : State) : (s.transmit f).2.txLog = s.txLog ++ [⟨f, s.nextSend⟩] := by
  rcases transmit_cases f s with ⟨_, e⟩ | ⟨_, e⟩ <;> rw [e] <;> simp

theorem command_sent (s : State) (m : MotorIx) (c : Cmd) : sentTo s (s.command m c).2 m c :=
  ⟨_, transmit_txLog _ s, _, List.mem_singleton_self _, rfl⟩

/-- The relation that allows every command, for facts that do not depend on what is sent. -/
def anyCmd (_ : MotorIx) (_ : Cmd) : Prop := True

/-- A command to every motor of a list reaches each of them. -/
theorem foldl_command_sent (c : Cmd) (ms : List MotorIx) (s : State) (m : MotorIx) (hm : m ∈ ms) :
    sentTo s (ms.foldl (fun s m => (s.command m c).2) s) m c := by
  induction ms generalizing s with
  | nil => simp at hm
  | cons k ms ih =>
    have h1 : LinkEffect anyCmd s (s.command k c).2 := command_effect s k c trivial
    have h2 : LinkEffect anyCmd (s.command k c).2 (ms.foldl (fun s m => (s.command m c).2) (s.command k c).2) :=
      foldl_effect _ _ _ (LinkEffect_refl _ _) fun t m _ _ => command_effect t m c trivial
    rcases List.mem_cons.mp hm with rfl | hm
    · exact sentTo_before (command_sent s m c) (LinkEffect_extends h2)
    · exact sentTo_after h1.keeps (LinkEffect_extends h1) (ih (s.command k c).2 hm)

/-- The stop sequence sends an Enable(false) to every member, verified or not (R275, R290). -/
theorem tryDisable_sent (m : MotorIx) (n : Nat) (hn : 0 < n) (s : State) :
    sentTo s (tryDisable m n s).2 m (.enable 0) := by
  cases n with
  | zero => omega
  | succ n =>
    have h1 : LinkEffect anyCmd (s.command m (.enable 0)).2 ((s.command m (.enable 0)).2.command m .statusQuery).2 :=
      command_effect _ _ _ trivial
    have h3 := LinkEffect_trans h1 (await_effect (((s.command m (.enable 0)).2).command m .statusQuery).2
      ((((s.command m (.enable 0)).2).command m .statusQuery).2.addrOf m)
      (((s.command m (.enable 0)).2).command m .statusQuery).2.sqCode)
    refine sentTo_before (command_sent s m (.enable 0)) (LinkEffect_extends (A := anyCmd) ?_)
    unfold tryDisable
    simp only
    split
    · exact h3
    · exact LinkEffect_trans h3 (tryDisable_effect m trivial trivial n _ (LinkEffect_refl _ _))

theorem disableMember_sent (m : MotorIx) (s : State) (h : 0 < s.disableAttempts) :
    sentTo s (s.disableMember m).2 m (.enable 0) := by
  unfold State.disableMember
  split
  · exact tryDisable_sent m _ h s
  · exact command_sent s m _

theorem disableMembers_sent (ms : List MotorIx) (s : State) (h : 0 < s.disableAttempts) (m : MotorIx) (hm : m ∈ ms) :
    sentTo s (disableMembers ms s).2 m (.enable 0) := by
  induction ms generalizing s with
  | nil => simp at hm
  | cons k ms ih =>
    have h1 : LinkEffect anyCmd s (s.disableMember k).2 := disableMember_effect k trivial trivial s (LinkEffect_refl _ _)
    have h2 : LinkEffect anyCmd (s.disableMember k).2 (disableMembers ms (s.disableMember k).2).2 :=
      disableMembers_effect ms (fun _ _ => trivial) (fun _ _ => trivial) _ (LinkEffect_refl _ _)
    unfold disableMembers
    rcases List.mem_cons.mp hm with rfl | hm
    · exact sentTo_before (disableMember_sent m s h) (LinkEffect_extends h2)
    · exact sentTo_after h1.keeps (LinkEffect_extends h1)
        (ih _ (by rw [keeps_disableAttempts h1.keeps]; exact h) hm)

theorem stopSequence_sent {g : GroupIx} (s : State) (h : 0 < s.disableAttempts) (m : MotorIx)
    (hm : s.isMember g m = true) : sentTo s (s.stopSequence g) m (.enable 0) := by
  have h1 : LinkEffect anyCmd s (zeroRounds (s.members g) s.zeroRepeat s) :=
    zeroRounds_effect _ (fun _ _ => trivial) _ s (LinkEffect_refl _ _)
  have h2 := sentTo_after h1.keeps (LinkEffect_extends h1) (disableMembers_sent (s.members g)
    (zeroRounds (s.members g) s.zeroRepeat s) (by rw [keeps_disableAttempts h1.keeps]; exact h) m
    ((mem_members s g m).mpr hm))
  obtain ⟨_, _, _, _, _, h3⟩ := stopSequence_spec (g := g) (A := anyCmd) (fun _ _ _ _ => trivial) s (LinkEffect_refl _ _)
  obtain ⟨l, p, q⟩ := h2
  exact ⟨l, by rw [h3]; exact p, q⟩

theorem stopToDisabled_sent {g : GroupIx} (s : State) (h : 0 < s.disableAttempts) (m : MotorIx)
    (hm : s.isMember g m = true) : sentTo s (s.stopToDisabled g) m (.enable 0) :=
  stopSequence_sent s h m hm

theorem disabling_sent {g : GroupIx} (s : State) (h : 0 < s.disableAttempts) (m : MotorIx)
    (hm : s.isMember g m = true) : sentTo s (s.disabling g) m (.enable 0) :=
  stopSequence_sent (s.setState g .disabling) h m hm

/-! ### Enabling (R270..R273) -/

/-- Link traffic in which every frame was accepted leaves the groups alone. -/
def quiet (s t : State) : Prop :=
  t.mstate = s.mstate ∧ t.ecause = s.ecause ∧ t.pending = s.pending ∧ t.estopCnt = s.estopCnt

theorem quiet_trans {a b c : State} (h : quiet a b) (k : quiet b c) : quiet a c :=
  ⟨k.1.trans h.1, k.2.1.trans h.2.1, k.2.2.1.trans h.2.2.1, k.2.2.2.trans h.2.2.2⟩

theorem quiet_stateOf {s t : State} (h : quiet s t) (g : GroupIx) :
    t.stateOf g = s.stateOf g ∧ t.causeOf g = s.causeOf g ∧ t.pendingOf g = s.pendingOf g := by
  simp [State.stateOf, State.causeOf, State.pendingOf, h.1, h.2.1, h.2.2.1]

/-- A reaction of an Enabling group to a transport fault. -/
def faulted (t : State) (g : GroupIx) : Prop :=
  t.stateOf g = .emergencyStop ∧ t.causeOf g = 3 ∧ t.pendingOf g = false

theorem command_outcome (s : State) (m : MotorIx) (c : Cmd) :
    ((s.command m c).1 = true ∧ quiet s (s.command m c).2)
    ∨ ((s.command m c).1 = false ∧ ∀ g, reactsToFault (s.stateOf g) = true → faulted (s.command m c).2 g) := by
  unfold State.command
  rcases transmit_cases (s.frameFor m c) s with ⟨_, e⟩ | ⟨_, e⟩
  · left; rw [e]; exact ⟨rfl, rfl, rfl, rfl, rfl⟩
  · right; rw [e]; refine ⟨rfl, fun g hg => ⟨?_, ?_, ?_⟩⟩
    · rw [transportFault_stateOf]; simp [hg]
    · rw [transportFault_causeOf]; simp [hg]
    · rw [transportFault_pendingOf]; simp [hg]

theorem await_quiet (s : State) (addr : Nat) (code : Byte) : quiet s (s.await addr code).2 := by
  rw [await_frame]; exact ⟨rfl, rfl, rfl, rfl⟩

/-- How the handshake of one member ends (R270). -/
theorem sendUntilErr_outcome (g : GroupIx) (m : MotorIx) (cs : List Cmd) (s : State)
    (hg : reactsToFault (s.stateOf g) = true) :
    ((sendUntilErr m cs s).1 = true ∧ quiet s (sendUntilErr m cs s).2)
    ∨ ((sendUntilErr m cs s).1 = false ∧ faulted (sendUntilErr m cs s).2 g) := by
  induction cs generalizing s with
  | nil => left; exact ⟨rfl, rfl, rfl, rfl, rfl⟩
  | cons c cs ih =>
    unfold sendUntilErr
    rcases command_outcome s m c with ⟨h1, h2⟩ | ⟨h1, h2⟩
    · split
      · rename_i s1 e; rw [e] at h2
        rcases ih s1 (by rw [(quiet_stateOf h2 g).1]; exact hg) with ⟨k1, k2⟩ | k
        · exact .inl ⟨k1, quiet_trans h2 k2⟩
        · exact .inr k
      · rename_i s1 e; rw [e] at h1; simp at h1
    · split
      · rename_i s1 e; rw [e] at h1; simp at h1
      · rename_i s1 e; rw [e] at h2; exact .inr ⟨rfl, h2 g hg⟩

/-- How the attempts to enable one member end (R270). -/
theorem tryEnable_outcome (g : GroupIx) (m : MotorIx) (n : Nat) (s : State)
    (hg : reactsToFault (s.stateOf g) = true) :
    ((tryEnable m n s).1 ≠ .ioErr ∧ quiet s (tryEnable m n s).2)
    ∨ ((tryEnable m n s).1 = .ioErr ∧ faulted (tryEnable m n s).2 g) := by
  induction n generalizing s with
  | zero => left; exact ⟨by simp [tryEnable], rfl, rfl, rfl, rfl⟩
  | succ n ih =>
    unfold tryEnable
    rcases command_outcome s m (.enable 1) with ⟨h1, h2⟩ | ⟨h1, h2⟩
    · split
      · rename_i s1 e; rw [e] at h1; simp at h1
      · rename_i s1 e; rw [e] at h2
        have hg1 : reactsToFault (s1.stateOf g) = true := by rw [(quiet_stateOf h2 g).1]; exact hg
        split
        · exact .inl ⟨by simp, h2⟩
        · rcases command_outcome s1 m .statusQuery with ⟨j1, j2⟩ | ⟨j1, j2⟩
          · split
            · rename_i s2 e2; rw [e2] at j1; simp at j1
            · rename_i s2 e2; rw [e2] at j2
              have h3 := quiet_trans (quiet_trans h2 j2) (await_quiet s2 (s2.addrOf m) s2.sqCode)
              simp only
              split
              · exact .inl ⟨by simp, h3⟩
              · rcases ih _ (by rw [(quiet_stateOf h3 g).1]; exact hg) with ⟨k1, k2⟩ | k
                · exact .inl ⟨k1, quiet_trans h3 k2⟩
                · exact .inr k
          · split
            · rename_i s2 e2; rw [e2] at j2; exact .inr ⟨rfl, j2 g hg1⟩
            · rename_i s2 e2; rw [e2] at j1; simp at j1
    · split
      · rename_i s1 e; rw [e] at h2; exact .inr ⟨rfl, h2 g hg⟩
      · rename_i s1 e; rw [e] at h1; simp at h1

/-- How Enabling(g) ends, seen from the group (R270, R273). -/
inductive EnableEnd (g : GroupIx) (s t : State) : Prop
  /-- every member verified -/
  | enabled (state : t.stateOf g = .enabled) (cause : t.causeOf g = s.causeOf g) (pending : t.pendingOf g = s.pendingOf g)
  /-- a Send returned IoErr -/
  | fault (h : faulted t g)
  /-- attempts exhausted: Enable(false) went to every member -/
  | failed (state : t.stateOf g = .disabled) (cause : t.causeOf g = s.causeOf g ∨ t.causeOf g = 3)
      (pending : t.pendingOf g = true → s.pendingOf g = true)
      (sent : ∀ m, s.isMember g m = true → sentTo s t m (.enable 0))

section
variable {g : GroupIx} {A : MotorIx → Cmd → Prop} {s0 : State}

theorem enableFailed_spec (hA : ∀ m c, s0.isMember g m = true → seqCmd s0 c → A m c) (s : State)
    (h0 : LinkEffect A s0 s) :
    SeqEffect g A s0 (s.enableFailed g) ∧ (s.enableFailed g).rampcur = s0.rampcur
    ∧ (s.enableFailed g).stateOf g = .disabled
    ∧ ((s.enableFailed g).causeOf g = s.causeOf g ∨ (s.enableFailed g).causeOf g = 3)
    ∧ ((s.enableFailed g).pendingOf g = true → s.pendingOf g = true)
    ∧ ∀ m, s0.isMember g m = true → sentTo s0 (s.enableFailed g) m (.enable 0) := by
  have hms : s.members g = s0.members g := keeps_members h0.keeps g
  have h1 : LinkEffect A s ((s.members g).foldl (fun s m => (s.command m (.enable 0)).2) s) := by
    refine foldl_effect _ _ _ (LinkEffect_refl A s) fun t m hm _ => command_effect t m _ ?_
    exact hA m _ ((mem_members s0 g m).mp (hms ▸ hm)) (.inr (.inl rfl))
  have h2 : ∀ m, s0.isMember g m = true
      → sentTo s ((s.members g).foldl (fun s m => (s.command m (.enable 0)).2) s) m (.enable 0) :=
    fun m hm => foldl_command_sent _ _ s m (hms ▸ (mem_members s0 g m).mpr hm)
  unfold State.enableFailed
  generalize (s.members g).foldl (fun s m => (s.command m (.enable 0)).2) s = t at h1 h2
  refine ⟨SeqEffect_trans (SeqEffect_trans (LinkEffect_seq (LinkEffect_trans h0 h1)) (setState_effect t .disabled))
      (verifyFailure_effect _), ?_, by simp [State.verifyFailure], ?_, ?_, fun m hm => ?_⟩
  · exact (h1.ramps.trans h0.ramps)
  · rcases (h1.groups g).cases with ⟨_, k, _⟩ | ⟨_, _, k, _⟩
    · exact .inl k
    · exact .inr k
  · rcases (h1.groups g).cases with ⟨_, _, k⟩ | ⟨_, _, _, k⟩
    · intro h; rw [← k]; exact h
    · intro h; have h' : t.pendingOf g = true := h; rw [k] at h'; simp at h'
  · exact sentTo_after h0.keeps (LinkEffect_extends h0) (h2 m hm)

/-- The member loop of Enabling(g) (R270). -/
theorem enableMembers_spec (hA : ∀ m c, s0.isMember g m = true → seqCmd s0 c → A m c) (ms : List MotorIx)
    (hms : ∀ m ∈ ms, s0.isMember g m = true) (s : State) (h0 : LinkEffect A s0 s) (hg : s.stateOf g = .enabling)
    (hc : s.causeOf g = s0.causeOf g) (hp : s.pendingOf g = s0.pendingOf g) :
    SeqEffect g A s0 (enableMembers g ms s) ∧ (enableMembers g ms s).rampcur = s0.rampcur
    ∧ EnableEnd g s0 (enableMembers g ms s) := by
  induction ms generalizing s with
  | nil =>
    exact ⟨SeqEffect_trans (LinkEffect_seq h0) (setState_effect s .enabled), h0.ramps,
      .enabled (by simp [enableMembers]) hc hp⟩
  | cons m ms ih =>
    have hm := hms m List.mem_cons_self
    have hr : reactsToFault (s.stateOf g) = true := by rw [hg]; rfl
    have h1 := sendUntilErr_effect m s.handshake (fun c hc => hA m c hm (.inl (by rw [← keeps_handshake h0.keeps]; exact hc))) s h0
    unfold enableMembers
    rcases sendUntilErr_outcome g m s.handshake s hr with ⟨e1, q1⟩ | ⟨e1, q1⟩
    · split
      · rename_i s1 e; rw [e] at e1; simp at e1
      · rename_i s1 e; rw [e] at q1 h1
        simp only at q1 h1
        obtain ⟨a1, a2, a3⟩ := quiet_stateOf q1 g
        have hr1 : reactsToFault (s1.stateOf g) = true := by rw [a1]; exact hr
        have h2 := tryEnable_effect m (hA m _ hm (.inr (.inr (.inl rfl)))) (hA m _ hm (.inr (.inr (.inr (.inl rfl)))))
          s1.enableAttempts s1 h1
        rcases tryEnable_outcome g m s1.enableAttempts s1 hr1 with ⟨e2, q2⟩ | ⟨e2, q2⟩
        · obtain ⟨b1, b2, b3⟩ := quiet_stateOf q2 g
          split
          · rename_i s2 e3; rw [e3] at e2; simp at e2
          · rename_i s2 e3; rw [e3] at b1 b2 b3 h2
            obtain ⟨c1, c2, c3, c4, c5, c6⟩ := enableFailed_spec hA s2 h2
            refine ⟨c1, c2, .failed c3 ?_ ?_ c6⟩
            · rcases c4 with c4 | c4
              · left; rw [c4, b2, a2, hc]
              · exact .inr c4
            · intro h; have := c5 h; rw [← hp, ← a3, ← b3]; exact this
          · rename_i s2 e3; rw [e3] at b1 b2 b3 h2
            exact ih (fun k hk => hms k (List.mem_cons_of_mem _ hk)) s2 h2 (by rw [b1, a1, hg]) (by rw [b2, a2, hc])
              (by rw [b3, a3, hp])
        · split
          · rename_i s2 e3; rw [e3] at q2 h2; exact ⟨LinkEffect_seq h2, h2.ramps, .fault q2⟩
          · rename_i s2 e3; rw [e3] at e2; simp at e2
          · rename_i s2 e3; rw [e3] at e2; simp at e2
    · split
      · rename_i s1 e; rw [e] at q1 h1; exact ⟨LinkEffect_seq h1, h1.ramps, .fault q1⟩
      · rename_i s1 e; rw [e] at e1; simp at e1

end

/-- Enabling(g) (R270): the ramp outputs stay, and it ends in one of three ways. -/
theorem enabling_spec {g : GroupIx} {A : MotorIx → Cmd → Prop} (s : State)
    (hA : ∀ m c, s.isMember g m = true → seqCmd s c → A m c) :
    SeqEffect g A s (s.enabling g) ∧ (s.enabling g).rampcur = s.rampcur ∧ EnableEnd g s (s.enabling g) := by
  have h := enableMembers_spec (g := g) (A := A) (s0 := s.setState g .enabling) hA (s.members g)
    (fun m hm => (mem_members s g m).mp hm) (s.setState g .enabling) (LinkEffect_refl _ _) (by simp) rfl rfl
  refine ⟨SeqEffect_trans (setState_effect s .enabling) h.1, h.2.1, ?_⟩
  rcases h.2.2 with ⟨a, b, c⟩ | a | ⟨a, b, c, d⟩
  · exact .enabled a b c
  · exact .fault a
  · exact .failed a b c d

/-! ### The transition of a TICK (R263 step 3) -/

/-- What the transition of group `g` does to its own group. -/
inductive TransitionEnd (g : GroupIx) (now : Time) (s t : State) : Prop
  /-- nothing to do -/
  | none (h : t = s) (why : s.stateOf g ≠ .emergencyStop ∧ (boundary (s.stateOf g) = true → s.pendingOf g = false))
  /-- a stale request is discarded (R264) -/
  | discarded (state : s.stateOf g = .disabled) (pending : s.pendingOf g = true) (stale : s.stale now = true)
      (h : t = s.setPending g false)
  /-- a fresh request runs Enabling (R270) -/
  | enabling (state : s.stateOf g = .disabled) (pending : s.pendingOf g = true) (stale : s.stale now = false)
      (ramps : t.rampcur = s.rampcur) (cleared : t.pendingOf g = false) (done : EnableEnd g (s.setPending g false) t)
  /-- a request stops an Enabled group (R274) -/
  | disabling (state : s.stateOf g = .enabled) (pending : s.pendingOf g = true) (after : t.stateOf g = .disabled)
      (cleared : t.pendingOf g = false) (cause : t.causeOf g = s.causeOf g)
      (ramps : ∀ m, s.isMember g m = true → t.rampOf m = 0)
  /-- a group in EmergencyStop at rest is stopped (R279) -/
  | stopped (state : s.stateOf g = .emergencyStop) (rest : ∀ m, s.isMember g m = true → s.rampOf m = 0)
      (after : t.stateOf g = .disabled) (pending : t.pendingOf g = s.pendingOf g) (cause : t.causeOf g = s.causeOf g)
      (ramps : ∀ m, s.isMember g m = true → t.rampOf m = 0)
  /-- a group in EmergencyStop decelerates (R279) -/
  | decelerated (state : s.stateOf g = .emergencyStop) (moving : ∃ m, s.isMember g m = true ∧ s.rampOf m ≠ 0)
      (after : t.stateOf g = .emergencyStop) (pending : t.pendingOf g = s.pendingOf g) (cause : t.causeOf g = s.causeOf g)
      (ramps : ∀ m, s.isMember g m = true → t.rampOf m = s.deceledOf m)

/-- Everything the transition of one group can do (R263). -/
theorem transition_spec {g : GroupIx} {A : MotorIx → Cmd → Prop} (now : Time) (s : State)
    (hA : ∀ m c, s.isMember g m = true → seqCmd s c → A m c)
    (hV : s.stateOf g = .emergencyStop → ∀ m v, s.isMember g m = true → A m (s.velocityCmd v)) :
    SeqEffect g A s (s.transition now g) ∧ TransitionEnd g now s (s.transition now g) := by
  unfold State.transition
  cases hst : s.stateOf g with
  | disabled =>
    simp only
    by_cases hp : s.pendingOf g = true
    · rw [if_pos hp]
      unfold State.requestEnable
      have hk : (s.setPending g false).stale now = s.stale now := rfl
      by_cases hs : s.stale now = true
      · rw [if_pos (hk.trans hs)]
        exact ⟨setPending_effect s false, .discarded hst hp hs rfl⟩
      · rw [if_neg (hk ▸ hs)]
        obtain ⟨h1, h2, h3⟩ := enabling_spec (g := g) (A := A) (s.setPending g false) hA
        refine ⟨SeqEffect_trans (setPending_effect s false) h1, .enabling hst hp (by simpa using hs) h2 ?_ h3⟩
        have h0 : (s.setPending g false).pendingOf g = false := by simp
        rcases h3 with ⟨_, _, c⟩ | a | ⟨_, _, c, _⟩
        · rw [c, h0]
        · exact a.2.2
        · by_contra h
          have := c (by simpa using h)
          rw [h0] at this; simp at this
    · rw [if_neg hp]
      exact ⟨SeqEffect_refl g A s, .none rfl ⟨by simp [hst], fun _ => by simpa using hp⟩⟩
  | enabling => exact ⟨SeqEffect_refl g A s, .none rfl ⟨by simp [hst], by simp [hst, boundary]⟩⟩
  | enabled =>
    simp only
    by_cases hp : s.pendingOf g = true
    · rw [if_pos hp]
      obtain ⟨h1, h2, h3, h4, h5⟩ := disabling_spec (g := g) (A := A) (s.setPending g false) hA
      exact ⟨SeqEffect_trans (setPending_effect s false) h1,
        .disabling hst hp h2 (by rw [h4]; simp) h3 h5⟩
    · rw [if_neg hp]
      exact ⟨SeqEffect_refl g A s, .none rfl ⟨by simp [hst], fun _ => by simpa using hp⟩⟩
  | disabling => exact ⟨SeqEffect_refl g A s, .none rfl ⟨by simp [hst], by simp [hst, boundary]⟩⟩
  | emergencyStop =>
    simp only
    by_cases hr : ∀ m, s.isMember g m = true → s.rampOf m = 0
    · rw [estopStepGroup_atRest s hr]
      obtain ⟨h1, h2, h3, h4, h5, _⟩ := stopToDisabled_spec s hA (by rw [hst]; rfl)
      exact ⟨h1, .stopped hst hr h2 h4 h3 h5⟩
    · have hm : ∃ m, s.isMember g m = true ∧ s.rampOf m ≠ 0 := by
        by_contra h
        exact hr fun m hm => by_contra fun e => h ⟨m, hm, e⟩
      obtain ⟨h1, h2, h3, h4, h5, _⟩ := estopStepGroup_decel s (hV hst) hst hm
      exact ⟨h1, .decelerated hst hm h2 h4 h3 h5⟩

end Sys2Proof.Machine
end

