-- ==== Sys2Proof/Laws/Tick.lean ====
section
/-! SUPPORT. The five steps of TICK and the loop of SHUTDOWN: what a whole operation does (`RunEffect`), and what one
group sees of it (`tick_view`, `shutdown_view`). -/

namespace Sys2Proof.Machine

/-! ### What a whole operation does -/

/-- The parts of `SeqEffect` that do not speak of one group. -/
structure RunEffect (A : MotorIx → Cmd → Prop) (s t : State) : Prop where
  keeps : s.KeepsConfig t
  sticky : ∀ j, s.sticky.getLsbD j = true → t.sticky.getLsbD j = true
  log : ∃ sent : List Sent, t.txLog = s.txLog ++ sent
    ∧ (∀ x ∈ sent, ∃ m c, A m c ∧ x.frame = s.frameFor m c)
    ∧ (t.reply.ioErr = true ↔ s.reply.ioErr = true ∨ ∃ x ∈ sent, x.outcome ≠ .ok)
    ∧ ((∃ x ∈ sent, x.outcome ≠ .ok) → t.sticky.getLsbD 5 = true ∧ t.reopenReq = true)
  verify : t.reply.verifyFailed = true → s.reply.verifyFailed = true ∨ t.sticky.getLsbD 6 = true
  reply : t.reply.status = s.reply.status ∧ t.reply.result = s.reply.result
  reopen : s.reopenReq = true → t.reopenReq = true
  rxbuf : s.rxbuf.length ≤ 256 → t.rxbuf.length ≤ 256
  lastRx : s.lastRx.length ≤ 18 → t.lastRx.length ≤ 18
  lastTx : s.lastTx.length ≤ 18 → t.lastTx.length ≤ 18
  stray : ∀ m, (∀ g, s.isMember g m = false) → t.rampOf m = s.rampOf m

theorem SeqEffect_run {g : GroupIx} {A : MotorIx → Cmd → Prop} {s t : State} (h : SeqEffect g A s t) :
    RunEffect A s t := ⟨h.keeps, h.sticky, h.log, h.verify, h.reply, h.reopen, h.rxbuf, h.lastRx, h.lastTx,
    fun m hm => h.ramps m (hm g)⟩

theorem RunEffect_refl (A : MotorIx → Cmd → Prop) (s : State) : RunEffect A s s := SeqEffect_run (SeqEffect_refl 0 A s)

/-- A run without frames, from equal components. -/
theorem RunEffect_silent {A : MotorIx → Cmd → Prop} {s t : State} (hk : s.KeepsConfig t) (h1 : t.sticky = s.sticky)
    (h2 : t.txLog = s.txLog) (h3 : t.reply = s.reply) (h4 : t.reopenReq = s.reopenReq) (h5 : t.rxbuf = s.rxbuf)
    (h6 : t.lastRx = s.lastRx) (h7 : t.lastTx = s.lastTx)
    (h8 : ∀ m, (∀ g, s.isMember g m = false) → t.rampOf m = s.rampOf m) : RunEffect A s t where
  keeps := hk
  sticky := fun j h => by rw [h1]; exact h
  log := ⟨[], by simp [h2], by simp, by simp [h3], by simp⟩
  verify := fun h => .inl (h3 ▸ h)
  reply := by simp [h3]
  reopen := fun h => by rw [h4]; exact h
  rxbuf := fun h => by rw [h5]; exact h
  lastRx := fun h => by rw [h6]; exact h
  lastTx := fun h => by rw [h7]; exact h
  stray := h8

theorem RunEffect_trans {A : MotorIx → Cmd → Prop} {a b c : State} (h : RunEffect A a b) (k : RunEffect A b c) :
    RunEffect A a c where
  keeps := KeepsConfig_trans h.keeps k.keeps
  sticky := fun j hj => k.sticky j (h.sticky j hj)
  log := by
    obtain ⟨l1, p1, q1, r1, v1⟩ := h.log
    obtain ⟨l2, p2, q2, r2, v2⟩ := k.log
    refine ⟨l1 ++ l2, by rw [p2, p1, List.append_assoc], ?_, ?_, ?_⟩
    · intro x hx
      rcases List.mem_append.mp hx with hx | hx
      · exact q1 x hx
      · obtain ⟨m, d, hA, hf⟩ := q2 x hx
        exact ⟨m, d, hA, hf.trans (keeps_frameFor h.keeps m d)⟩
    · rw [r2, r1]
      simp only [List.mem_append]
      constructor
      · rintro ((h1 | ⟨x, hx, h1⟩) | ⟨x, hx, h1⟩)
        · exact .inl h1
        · exact .inr ⟨x, .inl hx, h1⟩
        · exact .inr ⟨x, .inr hx, h1⟩
      · rintro (h1 | ⟨x, hx | hx, h1⟩)
        · exact .inl (.inl h1)
        · exact .inl (.inr ⟨x, hx, h1⟩)
        · exact .inr ⟨x, hx, h1⟩
    · rintro ⟨x, hx, h1⟩
      rcases List.mem_append.mp hx with hx | hx
      · obtain ⟨a1, a2⟩ := v1 ⟨x, hx, h1⟩
        exact ⟨k.sticky 5 a1, k.reopen a2⟩
      · exact v2 ⟨x, hx, h1⟩
  verify := fun e => by
    rcases k.verify e with e | e
    · rcases h.verify e with e | e
      · exact .inl e
      · exact .inr (k.sticky 6 e)
    · exact .inr e
  reply := ⟨k.reply.1.trans h.reply.1, k.reply.2.trans h.reply.2⟩
  reopen := fun e => k.reopen (h.reopen e)
  rxbuf := fun e => k.rxbuf (h.rxbuf e)
  lastRx := fun e => k.lastRx (h.lastRx e)
  lastTx := fun e => k.lastTx (h.lastTx e)
  stray := fun m hm => (k.stray m (fun g => by rw [keeps_isMember h.keeps]; exact hm g)).trans (h.stray m hm)

theorem foldl_run {α : Type} {A : MotorIx → Cmd → Prop} (f : State → α → State) (l : List α) (s : State)
    (h : ∀ t a, a ∈ l → RunEffect A t (f t a)) : RunEffect A s (l.foldl f s) :=
  foldl_rel (R := RunEffect A) (RunEffect_refl A) (fun _ _ _ => RunEffect_trans) f l s h

/-! ### The steps other than the transitions -/

/-- Step 2 (R313, R314): the Enabled groups enter the emergency stop when the input is stale. -/
theorem watchdogCheck_group (now : Time) (s : State) (g : GroupIx) :
    ((s.watchdogCheck now).stateOf g
        = if s.stale now = true ∧ s.stateOf g = .enabled then .emergencyStop else s.stateOf g)
    ∧ ((s.watchdogCheck now).causeOf g
        = if s.stale now = true ∧ s.stateOf g = .enabled then (if s.inputLost = true then 2 else 1) else s.causeOf g)
    ∧ ((s.watchdogCheck now).pendingOf g
        = if s.stale now = true ∧ s.stateOf g = .enabled then false else s.pendingOf g)
    ∧ (s.watchdogCheck now).rampcur = s.rampcur ∧ s.KeepsConfig (s.watchdogCheck now)
    ∧ (s.watchdogCheck now).halted = s.halted ∧ (s.watchdogCheck now).txLog = s.txLog := by
  by_cases h : s.stale now = true
  · unfold State.watchdogCheck
    simp only [h, if_true, true_and]
    rw [estopWhere_stateOf, estopWhere_causeOf, estopWhere_pendingOf]
    refine ⟨by simp, ?_, by simp, by simp, ?_, by simp, by simp⟩
    · by_cases e : s.stateOf g = .enabled <;> simp [e]
    · exact ⟨by simp, by simp, by simp, by simp, by simp, by simp, by simp⟩
  · have e : s.watchdogCheck now = s := by unfold State.watchdogCheck; rw [if_neg h]
    rw [e]
    refine ⟨?_, ?_, ?_, rfl, KeepsConfig_refl s, rfl, rfl⟩ <;> rw [if_neg (fun x => h x.1)]

theorem watchdogCheck_run {A : MotorIx → Cmd → Prop} (now : Time) (s : State) : RunEffect A s (s.watchdogCheck now) := by
  obtain ⟨_, _, _, _, hk, _, ht⟩ := watchdogCheck_group now s 0
  refine RunEffect_silent hk ?_ ht ?_ ?_ ?_ ?_ ?_ ?_
  case refine_7 => intro m _; unfold State.watchdogCheck; split <;> simp
  all_goals (unfold State.watchdogCheck; split <;> simp)

/-- Step 4 for one group (R242, R281). -/
theorem rampGroup_spec (g : GroupIx) (s : State) :
    (∀ m, (s.rampGroup g).rampOf m
      = if s.stateOf g = .enabled ∧ s.isMember g m = true then s.rampedOf m else s.rampOf m)
    ∧ s.rampGroup g = { s with rampcur := (s.rampGroup g).rampcur } := by
  unfold State.rampGroup
  by_cases h : s.stateOf g = .enabled
  · obtain ⟨h1, h2⟩ := rampMotors_spec (s.members g) (nodup_members s g) s
    simp only [h, if_true, true_and]
    exact ⟨fun m => by rw [h1]; simp [mem_members], h2⟩
  · simp [h]

/-- Step 4 (R281): every member of an Enabled group makes one ramp step, and nothing else changes. -/
theorem rampStep_spec (s : State) :
    (∀ g m, s.isMember g m = true → (forGroups State.rampGroup s).rampOf m
      = if s.stateOf g = .enabled then s.rampedOf m else s.rampOf m)
    ∧ (∀ m, (∀ g, s.isMember g m = false) → (forGroups State.rampGroup s).rampOf m = s.rampOf m)
    ∧ forGroups State.rampGroup s = { s with rampcur := (forGroups State.rampGroup s).rampcur } := by
  have key : ∀ l : List GroupIx, l.Nodup →
      (∀ g m, s.isMember g m = true → (l.foldl (fun s g => s.rampGroup g) s).rampOf m
        = if g ∈ l ∧ s.stateOf g = .enabled then s.rampedOf m else s.rampOf m)
      ∧ (∀ m, (∀ g, s.isMember g m = false) → (l.foldl (fun s g => s.rampGroup g) s).rampOf m = s.rampOf m)
      ∧ l.foldl (fun s g => s.rampGroup g) s
          = { s with rampcur := (l.foldl (fun s g => s.rampGroup g) s).rampcur } := by
    intro l
    induction l using List.reverseRecOn with
    | nil => intro _; simp
    | append_singleton l k ih =>
      intro hn
      have hn' := List.nodup_append.mp hn
      obtain ⟨h1, h2, h3⟩ := ih hn'.1
      have hk : k ∉ l := fun h => (hn'.2.2 k h k (List.mem_singleton_self k)) rfl
      rw [List.foldl_append]
      simp only [List.foldl_cons, List.foldl_nil]
      generalize l.foldl (fun s g => s.rampGroup g) s = t at h1 h2 h3
      obtain ⟨k1, k2⟩ := rampGroup_spec k t
      have hst : t.stateOf k = s.stateOf k := by rw [h3]; rfl
      have hmem : ∀ g m, t.isMember g m = s.isMember g m := fun g m => by rw [h3]; rfl
      refine ⟨fun g m hm => ?_, fun m hm => ?_, ?_⟩
      · rw [k1, hst, hmem]
        by_cases e : g = k
        · subst e
          by_cases e2 : s.stateOf g = .enabled
          · rw [if_pos ⟨e2, hm⟩, if_pos ⟨by simp, e2⟩]
            have : t.rampOf m = s.rampOf m := by rw [h1 g m hm]; simp [hk]
            unfold State.rampedOf
            rw [this]; rw [h3]; rfl
          · simp [e2, h1 g m hm]
        · have hm' : s.isMember k m = false := by
            by_contra h
            exact e (isMember_unique s g k m hm (by simpa using h))
          simp [hm', h1 g m hm, e]
      · rw [k1, hmem, hm k]; simpa using h2 m hm
      · rw [k2, h3]
  have h := key allGroups nodup_allGroups
  refine ⟨fun g m hm => ?_, h.2.1, h.2.2⟩
  exact (h.1 g m hm).trans (by simp)

theorem rampStep_run {A : MotorIx → Cmd → Prop} (s : State) : RunEffect A s (forGroups State.rampGroup s) := by
  obtain ⟨_, hs, hr⟩ := rampStep_spec s
  generalize forGroups State.rampGroup s = t at hs hr
  have h (f : State → Prop) (hf : f { s with rampcur := t.rampcur }) : f t := by rw [hr]; exact hf
  exact RunEffect_silent (h (s.KeepsConfig ·) ⟨rfl, rfl, rfl, rfl, rfl, rfl, rfl⟩) (h (·.sticky = s.sticky) rfl)
    (h (·.txLog = s.txLog) rfl) (h (·.reply = s.reply) rfl) (h (·.reopenReq = s.reopenReq) rfl)
    (h (·.rxbuf = s.rxbuf) rfl) (h (·.lastRx = s.lastRx) rfl) (h (·.lastTx = s.lastTx) rfl) hs

/-- Step 5 (R282): nothing but link traffic, velocities to members of groups that are Enabled at the sending. -/
theorem driveStep_effect {A : MotorIx → Cmd → Prop} (s : State)
    (hA : ∀ g m v, s.isMember g m = true → s.stateOf g = .enabled → A m (s.velocityCmd v)) :
    LinkEffect A s (forGroups State.driveGroup s) := by
  refine foldl_effect _ _ _ (LinkEffect_refl A s) fun t g _ ht => ?_
  unfold State.driveGroup
  refine foldl_effect _ _ _ (LinkEffect_refl A t) fun u m hm hu => ?_
  split
  · rename_i hst
    have hsu := LinkEffect_trans ht hu
    refine sendVelocity_effect m u ?_ (LinkEffect_refl A u)
    rw [keeps_velocityCmd hsu.keeps]
    refine hA g m _ ?_ ?_
    · rw [← keeps_isMember ht.keeps]; exact (mem_members t g m).mp hm
    · rcases (hsu.groups g).cases with ⟨h, _, _⟩ | ⟨_, h, _⟩
      · rw [← h]; exact hst
      · rw [hst] at h; simp at h
  · exact LinkEffect_refl A u

/-! ### One group's view of the loop over the groups -/

/-- What the sequences of the other groups do to group `g` (R260, R316). -/
structure Outside (g : GroupIx) (s t : State) : Prop where
  keeps : s.KeepsConfig t
  group : LinkGroup s t g
  ramps : ∀ m, s.isMember g m = true → t.rampOf m = s.rampOf m
  grew : ∃ sent : List Sent, t.txLog = s.txLog ++ sent

theorem Outside_refl (g : GroupIx) (s : State) : Outside g s s :=
  ⟨KeepsConfig_refl s, LinkGroup_refl s g, fun _ _ => rfl, [], by simp⟩

theorem Outside_trans {g : GroupIx} {a b c : State} (h : Outside g a b) (k : Outside g b c) : Outside g a c := by
  refine ⟨KeepsConfig_trans h.keeps k.keeps, LinkGroup_trans h.group k.group,
    fun m hm => (k.ramps m (by rw [keeps_isMember h.keeps]; exact hm)).trans (h.ramps m hm), ?_⟩
  obtain ⟨l, p⟩ := h.grew
  obtain ⟨l2, p2⟩ := k.grew
  exact ⟨l ++ l2, by rw [p2, p, List.append_assoc]⟩

theorem SeqEffect_outside {g h : GroupIx} {A : MotorIx → Cmd → Prop} {s t : State} (hgh : g ≠ h)
    (e : SeqEffect h A s t) : Outside g s t where
  keeps := e.keeps
  group := e.others g hgh
  ramps := fun m hm => e.ramps m (by
    by_contra x
    exact hgh (isMember_unique s g h m hm (by simpa using x)))
  grew := SeqEffect_extends e

theorem LinkEffect_outside {g : GroupIx} {A : MotorIx → Cmd → Prop} {s t : State} (e : LinkEffect A s t) :
    Outside g s t :=
  ⟨e.keeps, e.groups g, fun m _ => rampOf_eq_of_rampcur e.ramps m, LinkEffect_extends e⟩

/-- The loop over the groups, seen from one of them: the turns of the groups before it, its own, those after it. -/
theorem forGroups_view (f : GroupIx → State → State) (g : GroupIx) (s : State)
    (hf : ∀ h t, h ≠ g → Outside g t (f h t)) :
    ∃ s1, Outside g s s1 ∧ Outside g (f g s1) (forGroups f s) := by
  have hs : ∃ pre post, allGroups = pre ++ g :: post ∧ g ∉ pre ∧ g ∉ post := by
    obtain ⟨pre, post, h⟩ := List.append_of_mem (mem_allGroups g)
    have hn := nodup_allGroups
    rw [h] at hn
    have h1 := List.nodup_append.mp hn
    exact ⟨pre, post, h, fun hm => h1.2.2 g hm g List.mem_cons_self rfl, (List.nodup_cons.mp h1.2.1).1⟩
  obtain ⟨pre, post, h, hpre, hpost⟩ := hs
  refine ⟨pre.foldl (fun s g => f g s) s, ?_, ?_⟩
  · exact foldl_rel (R := Outside g) (Outside_refl g) (fun _ _ _ => Outside_trans) _ pre s
      (fun t k hk => hf k t (fun e => hpre (e ▸ hk)))
  · unfold forGroups
    rw [h, List.foldl_append, List.foldl_cons]
    exact foldl_rel (R := Outside g) (Outside_refl g) (fun _ _ _ => Outside_trans) _ post _
      (fun t k hk => hf k t (fun e => hpost (e ▸ hk)))

theorem transition_outside (now : Time) (g h : GroupIx) (s : State) (hgh : h ≠ g) :
    Outside g s (s.transition now h) :=
  SeqEffect_outside (A := anyCmd) hgh.symm
    (transition_spec now s (fun _ _ _ _ => trivial) (fun _ _ _ _ => trivial)).1

/-- A TICK seen from group `g`: the watchdog, the transitions of the groups before it, its own transition, those after
it, its ramp step, and the velocity commands (R263). -/
theorem tick_view (now : Time) (g : GroupIx) (s : State) :
    ∃ s1 s2 s3 s4, Outside g (s.watchdogCheck now) s1
      ∧ SeqEffect g anyCmd s1 s2 ∧ TransitionEnd g now s1 s2
      ∧ Outside g s2 s3
      ∧ s4 = { s3 with rampcur := s4.rampcur }
      ∧ (∀ m, s3.isMember g m = true → s4.rampOf m = if s3.stateOf g = .enabled then s3.rampedOf m else s3.rampOf m)
      ∧ Outside g s4 (s.tickSteps now) ∧ (s.tickSteps now).rampcur = s4.rampcur
      ∧ s2 = s1.transition now g := by
  obtain ⟨s1, h1, h2⟩ := forGroups_view (fun g s => s.transition now g) g (s.watchdogCheck now)
    (fun _ t hh => transition_outside now g _ t hh)
  have ht := transition_spec (g := g) (A := anyCmd) now s1 (fun _ _ _ _ => trivial) (fun _ _ _ _ => trivial)
  have hr := rampStep_spec (forGroups (State.transition now) (s.watchdogCheck now))
  have hd := driveStep_effect (A := anyCmd)
    (forGroups State.rampGroup (forGroups (State.transition now) (s.watchdogCheck now)))
    (fun _ _ _ _ _ => trivial)
  exact ⟨s1, s1.transition now g, forGroups (State.transition now) (s.watchdogCheck now), _, h1, ht.1, ht.2, h2,
    hr.2.2, fun m hm => hr.1 g m hm, LinkEffect_outside hd, hd.ramps, rfl⟩

/-- A whole TICK (R263). -/
theorem tickSteps_run {A : MotorIx → Cmd → Prop} (now : Time) (s : State)
    (hA' : ∀ m c, A m c) : RunEffect A s (s.tickSteps now) := by
  have h1 : RunEffect A s (s.watchdogCheck now) := watchdogCheck_run now s
  have h2 : RunEffect A (s.watchdogCheck now) (forGroups (State.transition now) (s.watchdogCheck now)) :=
    foldl_run _ _ _ fun t g _ =>
      SeqEffect_run (transition_spec (g := g) now t (fun m c _ _ => hA' m c) (fun _ m v _ => hA' m _)).1
  have h3 : RunEffect A (forGroups (State.transition now) (s.watchdogCheck now))
      (forGroups State.rampGroup (forGroups (State.transition now) (s.watchdogCheck now))) := rampStep_run _
  have h4 : RunEffect A _ (s.tickSteps now) :=
    SeqEffect_run (LinkEffect_seq (g := 0) (driveStep_effect (A := A)
      (forGroups State.rampGroup (forGroups (State.transition now) (s.watchdogCheck now))) (fun _ _ _ _ _ => hA' _ _)))
  exact RunEffect_trans (RunEffect_trans (RunEffect_trans h1 h2) h3) h4

/-! ### SHUTDOWN (R345) -/

/-- One group's turn of SHUTDOWN. -/
theorem shutdownGroup_spec {g : GroupIx} {A : MotorIx → Cmd → Prop} (s : State)
    (hA : ∀ m c, s.isMember g m = true → seqCmd s c → A m c) :
    SeqEffect g A s (s.shutdownGroup g) ∧ (s.shutdownGroup g).pendingOf g = false
    ∧ (s.shutdownGroup g).causeOf g = s.causeOf g
    ∧ (boundary (s.stateOf g) = true → (s.shutdownGroup g).stateOf g = .disabled)
    ∧ (driven (s.stateOf g) = true → ∀ m, s.isMember g m = true → (s.shutdownGroup g).rampOf m = 0)
    ∧ (driven (s.stateOf g) = false → (s.shutdownGroup g) = s.setPending g false)
    ∧ (driven (s.stateOf g) = true → 0 < s.disableAttempts →
        ∀ m, s.isMember g m = true → sentTo s (s.shutdownGroup g) m (.enable 0)) := by
  unfold State.shutdownGroup
  cases hst : s.stateOf g with
  | enabled =>
    obtain ⟨h1, h2, h3, _, h5⟩ := disabling_spec (g := g) (A := A) s hA
    refine ⟨SeqEffect_trans h1 (setPending_effect _ _), by simp, h3, fun _ => h2, fun _ => h5, by simp [driven],
      fun _ hd m hm => disabling_sent s hd m hm⟩
  | emergencyStop =>
    obtain ⟨h1, h2, h3, _, h5, _⟩ := stopToDisabled_spec (g := g) (A := A) s hA (by rw [hst]; rfl)
    refine ⟨SeqEffect_trans h1 (setPending_effect _ _), by simp, h3, fun _ => h2, fun _ => h5, by simp [driven],
      fun _ hd m hm => stopToDisabled_sent s hd m hm⟩
  | disabled => exact ⟨setPending_effect _ _, by simp, rfl, fun _ => hst, by simp [driven], fun _ => rfl, by simp [driven]⟩
  | enabling => exact ⟨setPending_effect _ _, by simp, rfl, by simp [boundary], by simp [driven], fun _ => rfl, by simp [driven]⟩
  | disabling => exact ⟨setPending_effect _ _, by simp, rfl, by simp [boundary], by simp [driven], fun _ => rfl, by simp [driven]⟩

theorem shutdown_view (g : GroupIx) (s : State) :
    ∃ s1, Outside g s s1 ∧ Outside g (s1.shutdownGroup g) (forGroups State.shutdownGroup s) :=
  forGroups_view State.shutdownGroup g s fun _ t hh =>
    SeqEffect_outside (A := anyCmd) hh.symm (shutdownGroup_spec t (fun _ _ _ _ => trivial)).1

theorem shutdown_run {A : MotorIx → Cmd → Prop} (s : State) (hA : ∀ m c, A m c) :
    RunEffect A s (forGroups State.shutdownGroup s) :=
  foldl_run _ _ _ fun t _ _ => SeqEffect_run (shutdownGroup_spec t (fun m c _ _ => hA m c)).1

/-- No sequence clears or sets `halted`. -/
theorem tickSteps_halted (now : Time) (s : State) : (s.tickSteps now).halted = s.halted := by
  have h2 : (forGroups (State.transition now) (s.watchdogCheck now)).halted = (s.watchdogCheck now).halted :=
    foldl_keeps (P := fun t => t.halted = (s.watchdogCheck now).halted) _ _ _
      (fun t g _ ht => ((transition_spec (g := g) (A := anyCmd) now t (fun _ _ _ _ => trivial)
        (fun _ _ _ _ => trivial)).1.halted).trans ht) rfl
  have h3 := (rampStep_spec (forGroups (State.transition now) (s.watchdogCheck now))).2.2
  have h4 := (driveStep_effect (A := anyCmd)
    (forGroups State.rampGroup (forGroups (State.transition now) (s.watchdogCheck now))) (fun _ _ _ _ _ => trivial)).halted
  unfold State.tickSteps
  rw [h4, h3]
  exact h2.trans (watchdogCheck_group now s 0).2.2.2.2.2.1

/-! ### A group under one TICK -/

/-- TICK when not halted. -/
theorem exec_tick (s : State) (now : Time) (h : s.halted = false) :
    exec (.tick now) s = .next ((s.begin.tickSteps now).answerEvents) := by
  simp [exec, execTick, hostOp, h]

/-- A group is at rest exactly when its largest ramp magnitude is 0. -/
theorem maxRamp_zero (s : State) (g : GroupIx) : s.maxRamp g = 0 ↔ ∀ m, s.isMember g m = true → s.rampOf m = 0 := by
  unfold State.maxRamp
  have : ∀ l : List MotorIx, (l.map (fun m => (s.rampOf m).toInt.natAbs)).foldr max 0 = 0 ↔ ∀ m ∈ l, s.rampOf m = 0 := by
    intro l; induction l with
    | nil => simp
    | cons a l ih =>
      simp only [List.map_cons, List.foldr_cons, List.mem_cons, forall_eq_or_imp, ← ih]
      have e : (s.rampOf a).toInt.natAbs = 0 ↔ s.rampOf a = 0 := by
        rw [Int.natAbs_eq_zero]
        constructor
        · intro h; exact BitVec.eq_of_toInt_eq (by simpa using h)
        · intro h; simp [h]
      rw [← e]; omega
  rw [this]
  simp [mem_members]

/-- TICK keeps the configuration. -/
theorem keepsTick (s : State) (now : Time) : s.KeepsConfig ((s.begin.tickSteps now).answerEvents) := by
  have h := (tickSteps_run (A := anyCmd) now s.begin (fun _ _ => trivial)).keeps
  exact ⟨h.regs, h.motor, h.setpoint, h.lastInputTime, h.inputValid, h.inputLost, h.inputs⟩

/-- A group in EmergencyStop under a TICK (R279, R280). -/
theorem tick_estop (s : State) (g : GroupIx) (now : Time) (hst : s.stateOf g = .emergencyStop) :
    (s.tickSteps now).stateOf g = (if s.maxRamp g = 0 then .disabled else .emergencyStop)
    ∧ (s.tickSteps now).pendingOf g = s.pendingOf g ∧ (s.tickSteps now).causeOf g = s.causeOf g
    ∧ (∀ m, s.isMember g m = true → (s.tickSteps now).rampOf m = if s.maxRamp g = 0 then 0 else s.deceledOf m) := by
  obtain ⟨s1, s2, s3, s4, h1, h2, h3, h4, h5, h6, h7, h8, h9⟩ := tick_view now g s
  obtain ⟨w1, w2, w3, w4, w5, _, _⟩ := watchdogCheck_group now s g
  rw [hst] at w1 w2 w3
  simp at w1 w2 w3
  obtain ⟨a1, a2, a3⟩ := LinkGroup_notReacts h1.group (by rw [w1]; rfl)
  have hk := KeepsConfig_trans w5 h1.keeps
  have hramp : ∀ m, s.isMember g m = true → s1.rampOf m = s.rampOf m := fun m hm => by
    rw [h1.ramps m (by rw [keeps_isMember w5]; exact hm)]; simp [State.rampOf, w4]
  have hmax : s.maxRamp g = 0 ↔ ∀ m, s1.isMember g m = true → s1.rampOf m = 0 := by
    rw [maxRamp_zero]
    constructor
    · intro h m hm; rw [keeps_isMember hk] at hm; rw [hramp m hm]; exact h m hm
    · intro h m hm; rw [← hramp m hm]; exact h m (by rw [keeps_isMember hk]; exact hm)
  have hk4 : s.KeepsConfig s3 := KeepsConfig_trans hk (KeepsConfig_trans h2.keeps h4.keeps)
  have key : ∀ x, (x = MState.emergencyStop ∨ x = MState.disabled) → s2.stateOf g = x → 
     s3.stateOf g = x ∧ s4.stateOf g = x ∧ (s.tickSteps now).stateOf g = x ∧
      (s.tickSteps now).pendingOf g = s2.pendingOf g ∧ (s.tickSteps now).causeOf g = s2.causeOf g ∧
      ∀ m, s.isMember g m = true → (s.tickSteps now).rampOf m = s2.rampOf m := by
    intro x hx h
    have hx' : reactsToFault x = false := by rcases hx with rfl | rfl <;> rfl
    obtain ⟨b1, b2, b3⟩ := LinkGroup_notReacts h4.group (by rw [h]; exact hx')
    have e4 : s4.stateOf g = s3.stateOf g ∧ s4.causeOf g = s3.causeOf g ∧ s4.pendingOf g = s3.pendingOf g := by rw [h5]; exact ⟨rfl, rfl, rfl⟩
    obtain ⟨c1, c2, c3⟩ := LinkGroup_notReacts h7.group (by rw [e4.1, b1, h]; exact hx')
    refine ⟨b1.trans h, by rw [e4.1, b1, h], by rw [c1, e4.1, b1, h], by rw [c3, e4.2.2, b3], by rw [c2, e4.2.1, b2], fun m hm => ?_⟩
    rw [rampOf_eq_of_rampcur h8, h6 m (by rw [keeps_isMember hk4]; exact hm), b1, h, if_neg (by rcases hx with rfl | rfl <;> simp)]
    exact h4.ramps m (by rw [keeps_isMember h2.keeps, keeps_isMember hk]; exact hm)
  rcases h3 with ⟨_, w⟩ | ⟨st⟩ | ⟨st⟩ | ⟨st⟩ | ⟨st, rest, af, pe, ca, ra⟩ | ⟨st, mv, af, pe, ca, ra⟩
  · rw [a1, w1] at w; simp at w
  · rw [a1, w1] at st; simp at st
  · rw [a1, w1] at st; simp at st
  · rw [a1, w1] at st; simp at st
  · obtain ⟨_, _, k3, k4, k5, k6⟩ := key _ (.inr rfl) af
    have hz := hmax.mpr rest
    simp only [hz, if_true]
    refine ⟨k3, by rw [k4, pe, a3, w3], by rw [k5, ca, a2, w2], fun m hm => ?_⟩
    rw [k6 m hm, ra m (by rw [keeps_isMember hk]; exact hm)]
  · obtain ⟨_, _, k3, k4, k5, k6⟩ := key _ (.inl rfl) af
    have hz : s.maxRamp g ≠ 0 := fun h => by
      obtain ⟨m, hm, h0⟩ := mv; exact h0 (hmax.mp h m hm)
    simp only [hz, if_false]
    refine ⟨k3, by rw [k4, pe, a3, w3], by rw [k5, ca, a2, w2], fun m hm => ?_⟩
    rw [k6 m hm, ra m (by rw [keeps_isMember hk]; exact hm)]
    simp only [State.deceledOf, hramp m hm, keeps_estopStep hk]

/-- A Disabled group without a request under a TICK (R263). -/
theorem tick_disabled (s : State) (g : GroupIx) (now : Time) (hst : s.stateOf g = .disabled) (hp : s.pendingOf g = false) :
    (s.tickSteps now).stateOf g = .disabled ∧ (s.tickSteps now).pendingOf g = false ∧ (s.tickSteps now).causeOf g = s.causeOf g := by
  obtain ⟨s1, s2, s3, s4, h1, h2, h3, h4, h5, h6, h7, h8, h9⟩ := tick_view now g s
  obtain ⟨w1, w2, w3, w4, w5, _, _⟩ := watchdogCheck_group now s g
  rw [hst] at w1 w2 w3
  simp at w1 w2 w3
  obtain ⟨a1, a2, a3⟩ := LinkGroup_notReacts h1.group (by rw [w1]; rfl)
  rcases h3 with ⟨h, w⟩ | ⟨st, pe⟩ | ⟨st, pe⟩ | ⟨st, pe⟩ | ⟨st, rest, af, pe, ca, ra⟩ | ⟨st, mv, af, pe, ca, ra⟩
  · rw [h] at h4
    obtain ⟨b1, b2, b3⟩ := LinkGroup_notReacts h4.group (by rw [a1, w1]; rfl)
    have e4 : s4.stateOf g = s3.stateOf g ∧ s4.causeOf g = s3.causeOf g ∧ s4.pendingOf g = s3.pendingOf g := by rw [h5]; exact ⟨rfl, rfl, rfl⟩
    obtain ⟨c1, c2, c3⟩ := LinkGroup_notReacts h7.group (by rw [e4.1, b1, a1, w1]; rfl)
    exact ⟨by rw [c1, e4.1, b1, a1, w1], by rw [c3, e4.2.2, b3, a3, w3, hp], by rw [c2, e4.2.1, b2, a2, w2]⟩
  · rw [a3, w3, hp] at pe; simp at pe
  · rw [a3, w3, hp] at pe; simp at pe
  · rw [a1, w1] at st; simp at st
  · rw [a1, w1] at st; simp at st
  · rw [a1, w1] at st; simp at st

/-- The magnitude after one deceleration step (R243). -/
theorem decel_mag (s : State) (m : MotorIx) :
    (s.deceledOf m).toInt.natAbs = if s.estopStep = 0 then 0 else (s.rampOf m).toInt.natAbs - s.estopStep.toNat := by
  unfold State.deceledOf
  split
  · simp
  · have hl := BitVec.toInt_lt (x := s.rampOf m)
    have hg := BitVec.le_toInt (s.rampOf m)
    norm_num at hl hg
    unfold ramp
    rw [BitVec.toInt_ofInt]
    split
    · simp; omega
    · split
      · rw [Int.bmod_eq_of_le (by omega) (by omega)]; omega
      · rw [Int.bmod_eq_of_le (by omega) (by omega)]; omega

/-- The largest ramp magnitude of a group after one deceleration step (R243, R245). -/
theorem maxRamp_decel (s t : State) (g : GroupIx) (hm : t.members g = s.members g)
   (h : ∀ m, s.isMember g m = true → t.rampOf m = s.deceledOf m) :
   t.maxRamp g = if s.estopStep = 0 then 0 else s.maxRamp g - s.estopStep.toNat := by
  unfold State.maxRamp
  rw [hm]
  have : ∀ l : List MotorIx, (∀ m ∈ l, s.isMember g m = true) → 
     (l.map (fun m => (t.rampOf m).toInt.natAbs)).foldr max 0 = if s.estopStep = 0 then 0 else (l.map (fun m => (s.rampOf m).toInt.natAbs)).foldr max 0 - s.estopStep.toNat := by
    intro l hl; induction l with
    | nil => simp
    | cons a l ih =>
      simp only [List.map_cons, List.foldr_cons]
      rw [ih (fun m hm => hl m (List.mem_cons_of_mem _ hm)), h a (hl a List.mem_cons_self), decel_mag]
      split
      · simp
      · omega
  exact this _ (fun m hm => (mem_members s g m).mp hm)

/-- A TICK whose watchdog fires on an Enabled group (R313, R278). -/
theorem tick_watchdog (s : State) (g : GroupIx) (now : Time) (hst : s.stateOf g = .enabled) (hs : s.stale now = true) :
    (s.tickSteps now).stateOf g = (if s.maxRamp g = 0 then .disabled else .emergencyStop)
    ∧ (s.tickSteps now).pendingOf g = false ∧ (s.tickSteps now).causeOf g = (if s.inputLost = true then 2 else 1)
    ∧ (∀ m, s.isMember g m = true → (s.tickSteps now).rampOf m = if s.maxRamp g = 0 then 0 else s.deceledOf m) := by
  obtain ⟨w1, w2, w3, w4, w5, _, _⟩ := watchdogCheck_group now s g
  simp only [hst, hs, and_self, if_true] at w1 w2 w3
  have e : s.tickSteps now = (s.watchdogCheck now).tickSteps now := by
    unfold State.tickSteps
    congr 3
    conv_rhs => rw [State.watchdogCheck]
    rw [keeps_stale w5, hs]
    simp only [if_true]
    -- nothing enabled
    have hne : ∀ g, (s.watchdogCheck now).stateOf g ≠ .enabled := by
      intro g
      have := (watchdogCheck_group now s g).1
      rw [this, hs]; split <;> simp_all
    have : ∀ c, (s.watchdogCheck now).estopWhere (· == .enabled) c = s.watchdogCheck now := by
      intro c
      refine foldl_keeps (P := fun t => t = s.watchdogCheck now) _ _ _ ?_ rfl
      rintro t g - rfl
      simp [hne g]
    rw [this]
  obtain ⟨t1, t2, t3, t4⟩ := tick_estop (s.watchdogCheck now) g now w1
  have hmx : (s.watchdogCheck now).maxRamp g = s.maxRamp g := by
    unfold State.maxRamp; rw [keeps_members w5]; simp only [State.rampOf, w4]
  rw [e]
  refine ⟨by rw [t1, hmx], by rw [t2, w3], by rw [t3, w2], fun m hm => ?_⟩
  rw [t4 m (by rw [keeps_isMember w5]; exact hm), hmx]
  simp only [State.deceledOf, State.rampOf, w4, keeps_estopStep w5]

/-- The transition's Enable(false) frames, where it takes a group to Disabled (R290). -/
theorem transition_sent {g : GroupIx} (now : Time) (s : State) (hd : 0 < s.disableAttempts)
    (hst : (s.stateOf g = .enabled ∧ s.pendingOf g = true) ∨ (s.stateOf g = .emergencyStop ∧ (s.transition now g).stateOf g = .disabled))
    (m : MotorIx) (hm : s.isMember g m = true) : sentTo s (s.transition now g) m (.enable 0) := by
  rcases hst with ⟨hst, hp⟩ | ⟨hst, ha⟩
  · have : s.transition now g = (s.setPending g false).disabling g := by
      unfold State.transition; simp [hst, hp]
    rw [this]
    exact disabling_sent (s.setPending g false) hd m hm
  · have e : s.transition now g = s.estopStepGroup g := by unfold State.transition; simp [hst]
    by_cases hr : ∀ m, s.isMember g m = true → s.rampOf m = 0
    · rw [e, estopStepGroup_atRest s hr]; exact stopToDisabled_sent s hd m hm
    · have hx : ∃ m, s.isMember g m = true ∧ s.rampOf m ≠ 0 := by
        by_contra h
        exact hr fun m hm => by_contra fun e => h ⟨m, hm, e⟩
      obtain ⟨_, h2, _⟩ := estopStepGroup_decel (A := anyCmd) s (fun _ _ _ => trivial) hst hx
      rw [e, h2] at ha; simp at ha

/-- How a TICK ends for a group, from a boundary state (R260). -/
structure TickEnd (g : GroupIx) (now : Time) (s t : State) : Prop where
  boundary : boundary (t.stateOf g) = true
  request : t.pendingOf g = true → s.stateOf g = .emergencyStop ∧ s.pendingOf g = true
  fromDisabled : s.stateOf g = .disabled → t.stateOf g ≠ .disabled → s.pendingOf g = true ∧ s.stale now = false ∧ (t.stateOf g = .enabled ∨ t.causeOf g = 3)
  fromDisabledSent : s.stateOf g = .disabled → t.stateOf g = .disabled → s.pendingOf g = true → s.stale now = false →
    ∀ m, s.isMember g m = true → sentTo s t m (.enable 0)
  fromDrivenSent : driven (s.stateOf g) = true → t.stateOf g = .disabled → 0 < s.disableAttempts → ∀ m, s.isMember g m = true → sentTo s t m (.enable 0)
  fromEnabled : s.stateOf g = .enabled → t.stateOf g = .emergencyStop → t.causeOf g ≠ 0
  fromEStop : s.stateOf g = .emergencyStop → t.stateOf g ≠ .enabled ∧ t.causeOf g = s.causeOf g
  ramps : driven (t.stateOf g) = false → ∀ m, s.isMember g m = true → t.rampOf m = if driven (s.stateOf g) = true then 0 else s.rampOf m
  live : t.stateOf g = .enabled → s.stale now = false

/-- What was sent after the other groups' turns was sent in the whole. -/
theorem Outside_sent {g : GroupIx} {s a : State} {t : State} {m : MotorIx} {c : Cmd} (h : Outside g s a) (k : sentTo a t m c) : sentTo s t m c :=
  sentTo_after h.keeps h.grew k

/-- Everything a TICK can do to a group that begins it in a boundary state. -/
theorem tick_end (g : GroupIx) (now : Time) (s : State) (hb : boundary (s.stateOf g) = true) : TickEnd g now s (s.tickSteps now) := by
  obtain ⟨s1, s2, s3, s4, h1, h2, h3, h4, h5, h6, h7, h8, h9⟩ := tick_view now g s
  obtain ⟨w1, w2, w3, w4, w5, _, w7⟩ := watchdogCheck_group now s g
  have hk1 := KeepsConfig_trans w5 h1.keeps
  have hk2 := KeepsConfig_trans hk1 h2.keeps
  have hk3 := KeepsConfig_trans hk2 h4.keeps
  have g1 : ∃ sent : List Sent, s1.txLog = s.txLog ++ sent := by obtain ⟨l, p⟩ := h1.grew; exact ⟨l, by rw [p, w7]⟩
  have ramp1 : ∀ m, s.isMember g m = true → s1.rampOf m = s.rampOf m := fun m hm => by
    rw [h1.ramps m (by rw [keeps_isMember w5]; exact hm)]; simp [State.rampOf, w4]
  have g5 : ∃ sent : List Sent, (s.tickSteps now).txLog = s2.txLog ++ sent := by
    obtain ⟨l, p⟩ := h4.grew
    obtain ⟨l2, p2⟩ := h7.grew
    have : s4.txLog = s3.txLog := by rw [h5]
    exact ⟨l ++ l2, by rw [p2, this, p, List.append_assoc]⟩
  have e4 : s4.stateOf g = s3.stateOf g ∧ s4.causeOf g = s3.causeOf g ∧ s4.pendingOf g = s3.pendingOf g := by rw [h5]; exact ⟨rfl, rfl, rfl⟩
  -- from s2 to the end
  have calm : reactsToFault (s2.stateOf g) = false →
      (s.tickSteps now).stateOf g = s2.stateOf g ∧ (s.tickSteps now).pendingOf g = s2.pendingOf g
      ∧ (s.tickSteps now).causeOf g = s2.causeOf g
      ∧ ∀ m, s.isMember g m = true → (s.tickSteps now).rampOf m = s2.rampOf m := by
    intro h
    obtain ⟨b1, b2, b3⟩ := LinkGroup_notReacts h4.group h
    obtain ⟨c1, c2, c3⟩ := LinkGroup_notReacts h7.group (by rw [e4.1, b1]; exact h)
    refine ⟨by rw [c1, e4.1, b1], by rw [c3, e4.2.2, b3], by rw [c2, e4.2.1, b2], fun m hm => ?_⟩
    rw [rampOf_eq_of_rampcur h8, h6 m (by rw [keeps_isMember hk3]; exact hm), b1, if_neg]
    · exact h4.ramps m (by rw [keeps_isMember hk2]; exact hm)
    · intro e; rw [e] at h; simp [reactsToFault] at h
  have live : s2.stateOf g = .enabled → 
      ((s.tickSteps now).stateOf g = .enabled ∧ (s.tickSteps now).pendingOf g = s2.pendingOf g ∧ (s.tickSteps now).causeOf g = s2.causeOf g)
      ∨ faulted (s.tickSteps now) g := by
    intro h
    rcases h4.group.cases with ⟨b1, b2, b3⟩ | ⟨_, b1, b2, b3⟩
    · rcases h7.group.cases with ⟨c1, c2, c3⟩ | ⟨_, c1, c2, c3⟩
      · left; exact ⟨by rw [c1, e4.1, b1, h], by rw [c3, e4.2.2, b3], by rw [c2, e4.2.1, b2]⟩
      · right; exact ⟨c1, c2, c3⟩
    · obtain ⟨c1, c2, c3⟩ := LinkGroup_notReacts h7.group (by rw [e4.1, b1]; rfl)
      right; exact ⟨by rw [c1, e4.1, b1], by rw [c2, e4.2.1, b2], by rw [c3, e4.2.2, b3]⟩
  have mem1 : ∀ m, s.isMember g m = true → s1.isMember g m = true := fun m hm => by rw [keeps_isMember hk1]; exact hm
  have sent2 : ∀ m, sentTo s1 s2 m (.enable 0) → sentTo s (s.tickSteps now) m (.enable 0) :=
    fun m h => sentTo_before (sentTo_after hk1 g1 h) g5
  have hda : s1.disableAttempts = s.disableAttempts := keeps_disableAttempts hk1
  cases hst : s.stateOf g with
  | enabling => simp [hst, Sys2Proof.Machine.boundary] at hb
  | disabling => simp [hst, Sys2Proof.Machine.boundary] at hb
  | emergencyStop =>
    obtain ⟨t1, t2, t3, t4⟩ := tick_estop s g now hst
    refine ⟨?_, ?_, by simp [hst], by simp [hst], ?_, by simp [hst], ?_, ?_, ?_⟩
    · rw [t1]; split <;> rfl
    · rw [t2]; exact fun h => ⟨hst, h⟩
    · intro _ hd h0 m hm
      refine sent2 m ?_
      rw [h9]
      rw [hst] at w1; simp at w1
      obtain ⟨a1, _, _⟩ := LinkGroup_notReacts h1.group (by rw [w1]; rfl)
      refine transition_sent now s1 (by rw [hda]; exact h0) (.inr ⟨a1.trans w1, ?_⟩) m (mem1 m hm)
      rw [← h9]
      by_contra hne
      have hs2 : s2.stateOf g = .emergencyStop := by
        rcases h3 with ⟨x, w⟩ | ⟨st⟩ | ⟨st⟩ | ⟨st⟩ | ⟨st, rest, af⟩ | ⟨st, mv, af⟩
        · rw [x, a1, w1]
        · rw [a1, w1] at st; simp at st
        · rw [a1, w1] at st; simp at st
        · rw [a1, w1] at st; simp at st
        · exact absurd af hne
        · exact af
      rw [(calm (by rw [hs2]; rfl)).1, hs2] at hd; simp at hd
    · intro _; rw [t1, t3]; exact ⟨by split <;> simp, rfl⟩
    · intro hd m hm
      rw [t4 m hm]
      have : s.maxRamp g = 0 := by by_contra h; rw [t1, if_neg h] at hd; simp [driven] at hd
      simp [this, driven, hst]
    · intro h; rw [t1] at h; split at h <;> simp at h
  | disabled =>
    rw [hst] at w1 w2 w3; simp at w1 w2 w3
    obtain ⟨a1, a2, a3⟩ := LinkGroup_notReacts h1.group (by rw [w1]; rfl)
    have hs1 : s1.stateOf g = .disabled := a1.trans w1
    have hp1 : s1.pendingOf g = s.pendingOf g := a3.trans w3
    have hstale : s1.stale now = s.stale now := keeps_stale hk1 now
    rcases h3 with ⟨x, w⟩ | ⟨st, pe, sl, x⟩ | ⟨st, pe, sl, ra, cl, dn⟩ | ⟨st⟩ | ⟨st⟩ | ⟨st⟩
    · have hp0 : s.pendingOf g = false := by rw [← hp1]; exact w.2 (by rw [hs1]; rfl)
      have hs2 : s2.stateOf g = .disabled := by rw [x, hs1]
      obtain ⟨c1, c2, c3, c4⟩ := calm (by rw [hs2]; rfl)
      refine ⟨by rw [c1, hs2]; rfl, ?_, by simp [c1, hs2], by simp [hp0], by simp [hst, driven], by simp [hst], by simp [hst], ?_, by simp [c1, hs2]⟩
      · rw [c2, x, hp1, hp0]; simp
      · intro _ m hm; rw [c4 m hm, x, ramp1 m hm]; simp [hst, driven]
    · have hs2 : s2.stateOf g = .disabled := by rw [x]; exact hs1
      obtain ⟨c1, c2, c3, c4⟩ := calm (by rw [hs2]; rfl)
      rw [hstale] at sl
      refine ⟨by rw [c1, hs2]; rfl, ?_, by simp [c1, hs2], by simp [sl], by simp [hst, driven], by simp [hst], by simp [hst], ?_, by simp [c1, hs2]⟩
      · rw [c2, x]; simp
      · intro _ m hm; rw [c4 m hm, x]; simp [hst, driven, ramp1 m hm]
    · rw [hstale] at sl
      rw [hp1] at pe
      have hramp2 : ∀ m, s.isMember g m = true → s2.rampOf m = s.rampOf m := fun m hm => by
        rw [rampOf_eq_of_rampcur ra]; exact ramp1 m hm
      have req : (s.tickSteps now).pendingOf g = false := by
        by_cases hr : reactsToFault (s2.stateOf g) = true
        · have he : s2.stateOf g = .enabled := by
            rcases dn with ⟨d⟩ | d | ⟨d⟩
            · exact d
            · rw [d.1] at hr; simp [reactsToFault] at hr
            · rw [d] at hr; simp [reactsToFault] at hr
          rcases live he with ⟨_, l2, _⟩ | l
          · rw [l2, cl]
          · exact l.2.2
        · rw [(calm (by simpa using hr)).2.1, cl]
      rcases dn with ⟨d1, d2, d3⟩ | d | ⟨d1, d2, d3, d4⟩
      · rcases live d1 with ⟨l1, l2, l3⟩ | l
        · exact ⟨by rw [l1]; rfl, by simp [req], fun _ _ => ⟨pe, sl, .inl l1⟩, by simp [l1], by simp [hst, driven], by simp [hst], by simp [hst], by simp [l1, driven], fun _ => sl⟩
        · exact ⟨by rw [l.1]; rfl, by simp [req], fun _ _ => ⟨pe, sl, .inr l.2.1⟩, by simp [l.1], by simp [hst, driven], by simp [hst], by simp [hst], by simp [l.1, driven], by simp [l.1]⟩
      · obtain ⟨c1, c2, c3, c4⟩ := calm (by rw [d.1]; rfl)
        exact ⟨by rw [c1, d.1]; rfl, by simp [req], fun _ _ => ⟨pe, sl, .inr (by rw [c3, d.2.1])⟩, by simp [c1, d.1], by simp [hst, driven], by simp [hst], by simp [hst], by simp [c1, d.1, driven], by simp [c1, d.1]⟩
      · obtain ⟨c1, c2, c3, c4⟩ := calm (by rw [d1]; rfl)
        refine ⟨by rw [c1, d1]; rfl, by simp [req], by simp [c1, d1], ?_, by simp [hst, driven], by simp [hst], by simp [hst], ?_, by simp [c1, d1]⟩
        · intro _ _ _ _ m hm; exact sent2 m (d4 m (mem1 m hm))
        · intro _ m hm; rw [c4 m hm, hramp2 m hm]; simp [hst, driven]
    · rw [hs1] at st; simp at st
    · rw [hs1] at st; simp at st
    · rw [hs1] at st; simp at st
  | enabled =>
    by_cases hs : s.stale now = true
    · obtain ⟨t1, t2, t3, t4⟩ := tick_watchdog s g now hst hs
      refine ⟨?_, by simp [t2], by simp [hst], by simp [hst], ?_, ?_, by simp [hst], ?_, ?_⟩
      · rw [t1]; split <;> rfl
      · intro _ hd h0 m hm
        rw [hst, hs] at w1; simp at w1
        obtain ⟨a1, _, _⟩ := LinkGroup_notReacts h1.group (by rw [w1]; rfl)
        refine sent2 m ?_
        rw [h9]
        refine transition_sent now s1 (by rw [hda]; exact h0) (.inr ⟨a1.trans w1, ?_⟩) m (mem1 m hm)
        rw [← h9]
        by_contra hne
        have hs2 : s2.stateOf g = .emergencyStop := by
          rcases h3 with ⟨x, w⟩ | ⟨st⟩ | ⟨st⟩ | ⟨st⟩ | ⟨st, rest, af⟩ | ⟨st, mv, af⟩
          · rw [x, a1, w1]
          · rw [a1, w1] at st; simp at st
          · rw [a1, w1] at st; simp at st
          · rw [a1, w1] at st; simp at st
          · exact absurd af hne
          · exact af
        rw [(calm (by rw [hs2]; rfl)).1, hs2] at hd; simp at hd
      · intro _ _; rw [t3]; split <;> decide
      · intro hd m hm
        rw [t4 m hm]
        have : s.maxRamp g = 0 := by by_contra h; rw [t1, if_neg h] at hd; simp [driven] at hd
        simp [this, driven, hst]
      · intro h; rw [t1] at h; split at h <;> simp at h
    · have hs' : s.stale now = false := by simpa using hs
      simp only [hs, hst] at w1 w2 w3
      -- at its own turn: still enabled, or faulted
      have turn : (s1.stateOf g = .enabled ∧ s1.pendingOf g = s.pendingOf g) ∨ faulted s1 g := by
        rcases h1.group.cases with ⟨b1, b2, b3⟩ | ⟨_, b1, b2, b3⟩
        · left; exact ⟨b1.trans (by simpa [hs'] using w1), b3.trans (by simpa [hs'] using w3)⟩
        · right; exact ⟨b1, b2, b3⟩
      rcases turn with ⟨hs1, hp1⟩ | hf
      · rcases h3 with ⟨x, w⟩ | ⟨st⟩ | ⟨st⟩ | ⟨st, pe, af, cl, ca, ra⟩ | ⟨st⟩ | ⟨st⟩
        · have hp0 : s.pendingOf g = false := by rw [← hp1]; exact w.2 (by rw [hs1]; rfl)
          have hs2 : s2.stateOf g = .enabled := by rw [x, hs1]
          rcases live hs2 with ⟨l1, l2, l3⟩ | l
          · exact ⟨by rw [l1]; rfl, by rw [l2, x, hp1, hp0]; simp, by simp [hst], by simp [hst], by simp [l1], by simp [l1], by simp [hst], by simp [l1, driven], fun _ => hs'⟩
          · exact ⟨by rw [l.1]; rfl, by simp [l.2.2], by simp [hst], by simp [hst], by simp [l.1], fun _ _ => by rw [l.2.1]; decide, by simp [hst], by simp [l.1, driven], by simp [l.1]⟩
        · rw [hs1] at st; simp at st
        · rw [hs1] at st; simp at st
        · obtain ⟨c1, c2, c3, c4⟩ := calm (by rw [af]; rfl)
          refine ⟨by rw [c1, af]; rfl, by simp [c2, cl], by simp [hst], by simp [hst], ?_, by simp [c1, af], by simp [hst], ?_, by simp [c1, af]⟩
          · intro _ _ h0 m hm
            refine sent2 m ?_
            rw [h9]
            exact transition_sent now s1 (by rw [hda]; exact h0) (.inl ⟨hs1, pe⟩) m (mem1 m hm)
          · intro _ m hm; rw [c4 m hm, ra m (mem1 m hm)]; simp [hst, driven]
        · rw [hs1] at st; simp at st
        · rw [hs1] at st; simp at st
      · rcases h3 with ⟨x, w⟩ | ⟨st⟩ | ⟨st⟩ | ⟨st⟩ | ⟨st, rest, af, pe, ca, ra⟩ | ⟨st, mv, af, pe, ca, ra⟩
        · exact absurd hf.1 w.1
        · rw [hf.1] at st; simp at st
        · rw [hf.1] at st; simp at st
        · rw [hf.1] at st; simp at st
        · obtain ⟨c1, c2, c3, c4⟩ := calm (by rw [af]; rfl)
          refine ⟨by rw [c1, af]; rfl, by simp [c2, pe, hf.2.2], by simp [hst], by simp [hst], ?_, by simp [c1, af], by simp [hst], ?_, by simp [c1, af]⟩
          · intro _ _ h0 m hm
            refine sent2 m ?_
            rw [h9] at af ⊢
            exact transition_sent now s1 (by rw [hda]; exact h0) (.inr ⟨hf.1, af⟩) m (mem1 m hm)
          · intro _ m hm; rw [c4 m hm, ra m (mem1 m hm)]; simp [hst, driven]
        · obtain ⟨c1, c2, c3, c4⟩ := calm (by rw [af]; rfl)
          exact ⟨by rw [c1, af]; rfl, by simp [c2, pe, hf.2.2], by simp [hst], by simp [hst], by simp [c1, af], fun _ _ => by rw [c3, ca, hf.2.1]; decide, by simp [hst], by simp [c1, af, driven], by simp [c1, af]⟩

end Sys2Proof.Machine
end

