-- ==== Sys2Proof/Laws/Replies.lean ====
section
/-! SUPPORT. What replies leave, and the spec lemmas of the register writes, of ENABLE_TOGGLE, SHUTDOWN and TRANSACT,
which say once what each operation can do to the state. -/

namespace Sys2Proof.Machine

/-! ### Replies (R360, R363) -/

/-- `raise` sets the sticky bit of R360 and answers; nothing else changes. -/
theorem raise_eq (st : Status) (s : State) :
    s.raise st = { s with
      sticky := s.sticky ||| stickyBit st, reply := { s.reply with status := st, result := .none } } := by
  cases st <;> simp [State.raise, State.flagStatus, statusFlag, stickyBit, State.answer, State.setFlag, flagMask]

/-- A refused operation leaves the state of R363. -/
theorem begin_raise (st : Status) (s : State) : s.begin.raise st = s.failedWith st := by
  rw [raise_eq]; rfl

/-- An operation that only answers. -/
theorem begin_answer (st : Status) (r : Result) (s : State) : s.begin.answer st r = s.returned st r := rfl

theorem hostOp_running (body : State → State) (s : State) (h : s.halted = false) :
    hostOp body s = .next (body s.begin) := by simp [hostOp, h]

theorem hostOp_halted (body : State → State) (s : State) (h : s.halted = true) :
    hostOp body s = .next (s.returned .halted .none) := by simp [hostOp, h, begin_answer]

/-! ### Register writes (R332) -/

/-- A register write changes a configuration register, the sticky bits, or one motor entry while every group is
Disabled. -/
theorem writeReg_cases (r : Reg) (v : Word) (s t : State) (h : writeReg r v s = some t) :
    (∃ rs, t = s.setRegs rs) ∨ (r = .status ∧ t = s.clearFlags (v.extractLsb' 0 8))
    ∨ (∃ m w, motorWriteOk m v s = true ∧ t = s.setMotor m w) := by
  cases r <;> simp only [writeReg, reduceCtorEq] at h
  case cfg => split at h <;> simp at h; exact .inl ⟨_, h.symm⟩
  case sq => split at h <;> simp at h; exact .inl ⟨_, h.symm⟩
  case status => exact .inr (.inl ⟨rfl, (Option.some.inj h).symm⟩)
  case motor m => split at h <;> simp at h; rename_i hk; exact .inr (.inr ⟨m, _, hk, h.symm⟩)
  all_goals exact .inl ⟨_, (Option.some.inj h).symm⟩

/-- The register an index names is STATUS only for 0x10 (R33). -/
theorem regOf_status (idx : Byte) (h : regOf idx = some .status) : idx = 0x10 := by
  revert h; revert idx; decide

/-! ### ENABLE_TOGGLE (R262) -/

/-- The latches of a list of groups. -/
theorem foldl_latch (l : List GroupIx) (s : State) :
    (∀ g, (l.foldl (fun s g => s.latch g) s).pendingOf g
      = if g ∈ l ∧ s.stateOf g ≠ .emergencyStop then true else s.pendingOf g)
    ∧ l.foldl (fun s g => s.latch g) s = { s with pending := (l.foldl (fun s g => s.latch g) s).pending } := by
  induction l generalizing s with
  | nil => simp
  | cons k l ih =>
    obtain ⟨h1, h2⟩ := ih (s.latch k)
    have hst : ∀ g, (s.latch k).stateOf g = s.stateOf g := fun g => by unfold State.latch; split <;> rfl
    have hp : ∀ g, (s.latch k).pendingOf g
        = if g = k ∧ s.stateOf g ≠ .emergencyStop then true else s.pendingOf g := by
      intro g; unfold State.latch
      by_cases e : g = k
      · subst e; split <;> rename_i q <;> simp [q]
      · split <;> simp [e]
    refine ⟨fun g => ?_, ?_⟩
    · rw [List.foldl_cons, h1, hst, hp]
      by_cases e : s.stateOf g = .emergencyStop <;> by_cases e2 : g ∈ l <;> by_cases e3 : g = k <;>
        first | (subst e3; simp [e, e2]) | simp [e, e2, e3]
    · rw [List.foldl_cons, h2]; unfold State.latch; split <;> rfl

theorem mem_maskedGroups (mask : Byte) (g : GroupIx) : g ∈ maskedGroups mask ↔ mask.getLsbD g.val = true := by
  simp [maskedGroups]

/-! ### SHUTDOWN (R345) -/

/-- Everything SHUTDOWN can do to a group that begins it in a boundary state. -/
theorem shutdown_end (g : GroupIx) (s : State) (hb : boundary (s.stateOf g) = true) :
    let t := forGroups State.shutdownGroup s
    t.stateOf g = .disabled ∧ t.pendingOf g = false ∧ (t.causeOf g = s.causeOf g ∨ s.stateOf g ≠ .emergencyStop)
    ∧ (∀ m, s.isMember g m = true → t.rampOf m = if driven (s.stateOf g) = true then 0 else s.rampOf m)
    ∧ (driven (s.stateOf g) = true → 0 < s.disableAttempts →
        ∀ m, s.isMember g m = true → sentTo s t m (.enable 0)) := by
  obtain ⟨s1, h1, h2⟩ := shutdown_view g s
  obtain ⟨k0, k1, k2, k3, k4, k5, k6⟩ := shutdownGroup_spec (g := g) (A := anyCmd) s1 (fun _ _ _ _ => trivial)
  have hb1 : boundary (s1.stateOf g) = true := by
    rcases h1.group.cases with ⟨a, _⟩ | ⟨_, a, _⟩
    · rw [a]; exact hb
    · rw [a]; rfl
  have hd1 : driven (s1.stateOf g) = driven (s.stateOf g) := by
    rcases h1.group.cases with ⟨a, _⟩ | ⟨r, a, _⟩
    · rw [a]
    · rw [a]; cases hst : s.stateOf g <;> simp_all [driven, boundary, reactsToFault]
  have hs2 := k3 hb1
  obtain ⟨c1, c2, c3⟩ := LinkGroup_notReacts h2.group (by rw [hs2]; rfl)
  refine ⟨c1.trans hs2, c3.trans k1, ?_, fun m hm => ?_, fun hd h0 m hm => ?_⟩
  · by_cases e : s.stateOf g = .emergencyStop
    · left; rw [c2, k2]; exact (LinkGroup_notReacts h1.group (by rw [e]; rfl)).2.1
    · exact .inr e
  · have hm1 : s1.isMember g m = true := by rw [keeps_isMember h1.keeps]; exact hm
    rw [h2.ramps m (by rw [keeps_isMember k0.keeps]; exact hm1)]
    by_cases hd : driven (s.stateOf g) = true
    · rw [if_pos hd]; exact k4 (hd1.trans hd) m hm1
    · rw [if_neg hd, k5 (by rw [hd1]; simpa using hd)]; exact h1.ramps m hm
  · exact sentTo_before (Outside_sent h1 (k6 (hd1.trans hd) (by rw [keeps_disableAttempts h1.keeps]; exact h0) m
      (by rw [keeps_isMember h1.keeps]; exact hm))) h2.grew

theorem shutdown_halted (s : State) : (forGroups State.shutdownGroup s).halted = s.halted :=
  foldl_keeps (P := fun t => t.halted = s.halted) _ _ _
      (fun t g _ ht => ((shutdownGroup_spec (g := g) (A := anyCmd) t (fun _ _ _ _ => trivial)).1.halted).trans ht) rfl

/-- SHUTDOWN when not halted. -/
theorem exec_shutdown (s : State) (h : s.halted = false) :
    exec .shutdown s = .next (((forGroups State.shutdownGroup s.begin).setHalted).answerEvents) := by
  simp [exec, execShutdown, hostOp, h]

/-- A TICK is refused while halted, or answers what its steps leave (R263, R335). -/
theorem tick_cases (now : Time) (s t : State) (he : exec (.tick now) s = .next t) :
    (s.halted = true ∧ t = s.returned .halted .none)
    ∨ (s.halted = false ∧ ∃ u, s.begin.tickSteps now = u ∧ t = u.answerEvents) := by
  cases hh : s.halted
  · right; rw [exec_tick s now hh] at he; injection he with he; exact ⟨rfl, _, rfl, he.symm⟩
  · left
    simp only [exec, execTick] at he
    rw [hostOp_halted _ s hh] at he; injection he with he; exact ⟨rfl, he.symm⟩

/-- SHUTDOWN is refused while halted, or answers what its stop sequences leave (R345, R335). -/
theorem shutdown_cases (s t : State) (he : exec .shutdown s = .next t) :
    (s.halted = true ∧ t = s.returned .halted .none)
    ∨ (s.halted = false ∧ ∃ u, forGroups State.shutdownGroup s.begin = u ∧ t = u.setHalted.answerEvents) := by
  cases hh : s.halted
  · right; rw [exec_shutdown s hh] at he; injection he with he; exact ⟨rfl, _, rfl, he.symm⟩
  · left
    simp only [exec, execShutdown] at he
    rw [hostOp_halted _ s hh] at he; injection he with he; exact ⟨rfl, he.symm⟩

theorem boundary_cases {x : MState} (h : boundary x = true) : x = .disabled ∨ x = .enabled ∨ x = .emergencyStop := by
  cases x <;> simp_all [boundary]

/-! ### TRANSACT (R336) -/

/-- The frame TRANSACT sends is the frame of its command to its motor, at most 18 bytes long (R121, R160). -/
theorem transactFrame_spec (m : Byte) (c : Cmd) (aw : Byte) (s : State) (k : MotorIx) (f : Bytes)
    (h : transactFrame m c aw s = some (k, f)) :
    f = s.frameFor k c ∧ entryValid (s.entryOf k) = true ∧ ownedByFsm c = false
    ∧ cmdOk c = true ∧ addrOk s.proto (s.addrOf k) = true ∧ payloadFits s.proto (s.payload c) = true := by
  unfold transactFrame at h
  split at h
  · simp at h
  · rename_i kk hk
    split at h
    · rename_i hc
      split at h
      · rename_i f' hf'
        unfold encodeFrame at hf'
        split at hf'
        · rename_i ho
          simp only [Option.some.injEq, Prod.mk.injEq] at h
          obtain ⟨rfl, rfl⟩ := h
          simp only [Bool.and_eq_true, Bool.not_eq_true'] at hc ho
          exact ⟨(Except.ok.inj hf').symm, hc.1.1, hc.1.2, ho.1.1, ho.1.2, ho.2⟩
        · simp at hf'
      · simp at h
    · simp at h

/-- TRANSACT is refused, or is link traffic with an answer. -/
theorem transact_effect (s t : State) (m : Byte) (c : Cmd) (aw : Byte) (h : s.halted = false)
    (he : exec (.transact m c aw) s = .next t) :
    t = s.failedWith .invalidArgument
    ∨ ∃ u k, transactFrame m c aw s.begin = some (k, s.begin.frameFor k c)
        ∧ LinkEffect (fun m' c' => m' = k ∧ c' = c) s.begin u ∧ ∃ st r, t = u.answer st r := by
  simp only [exec, execTransact, hostOp, h, Bool.false_eq_true, if_false, Host.Outcome.next.injEq] at he
  split at he
  · rw [begin_raise] at he; exact .inl he.symm
  · right
    rename_i k f hf
    obtain ⟨rfl, _⟩ := transactFrame_spec _ _ _ _ _ _ hf
    have hl := command_effect (A := fun m' c' => m' = k ∧ c' = c) s.begin k c ⟨rfl, rfl⟩
    unfold State.command at hl
    split at he
    · rename_i s1 e; rw [e] at hl; exact ⟨s1, k, hf, hl, _, _, he.symm⟩
    · rename_i s1 e; rw [e] at hl
      split at he
      · exact ⟨s1, k, hf, hl, _, _, he.symm⟩
      · have h2 := LinkEffect_trans hl (await_effect s1 (s1.addrOf k) ((s1.payload c).headD 0))
        split at he
        · rename_i s2 e2; rw [e2] at h2; exact ⟨s2, k, hf, h2, _, _, he.symm⟩
        · rename_i d s2 e2; rw [e2] at h2; exact ⟨s2, k, hf, h2, _, _, he.symm⟩

/-! ### Every other operation (R260, R262, R316) -/

/-- The fields of the safety state machine that only five operations write. -/
structure SameGroups (s t : State) : Prop where
  mstate : t.mstate = s.mstate
  ecause : t.ecause = s.ecause
  pending : t.pending = s.pending
  rampcur : t.rampcur = s.rampcur
  halted : t.halted = s.halted
  estopCnt : t.estopCnt = s.estopCnt

theorem sameGroups_failed (st : Status) (s : State) : SameGroups s (s.begin.raise st) := by
  rw [begin_raise]; exact ⟨rfl, rfl, rfl, rfl, rfl, rfl⟩

theorem sameGroups_returned (st : Status) (r : Result) (s : State) : SameGroups s (s.begin.answer st r) :=
  ⟨rfl, rfl, rfl, rfl, rfl, rfl⟩

theorem sameGroups_hostOp (body : State → State) (s t : State) (h : hostOp body s = .next t)
    (hb : SameGroups s (body s.begin)) : SameGroups s t := by
  simp only [hostOp, Host.Outcome.next.injEq] at h
  subst h
  split
  · exact sameGroups_returned _ _ s
  · exact hb

theorem sameGroups_openOp (body : State → State) (s t : State) (h : openOp body s = .next t)
    (hb : SameGroups s (body s.begin)) : SameGroups s t := by
  simp only [openOp, Host.Outcome.next.injEq] at h
  subst h; exact hb

theorem sameGroups_payload (c : Cmd) (s t : State) (h : openOp (buildPayload c) s = .next t) : SameGroups s t := by
  refine sameGroups_openOp _ s t h ?_
  unfold buildPayload
  split
  · exact sameGroups_returned _ _ s
  · exact sameGroups_failed _ s

theorem sameGroups_cfgWrite (idx : Byte) (v : Word) (s t : State) (h : execCfgWrite idx v s = .next t) :
    SameGroups s t := by
  refine sameGroups_hostOp _ s t h ?_
  split
  · exact sameGroups_failed _ s
  · split
    · exact sameGroups_failed _ s
    · rename_i r _ _ u hu
      rcases writeReg_cases r v _ u hu with ⟨rs, rfl⟩ | ⟨_, rfl⟩ | ⟨m, w, _, rfl⟩ <;>
        exact ⟨rfl, rfl, rfl, rfl, rfl, rfl⟩

theorem sameGroups_rxNext (s t : State) (h : execRxNext s = .next t) : SameGroups s t := by
  refine sameGroups_hostOp _ s t h ?_
  split
  · rename_i u e
    obtain rfl : (s.begin.nextFrame).2 = u := by rw [e]
    exact ⟨rfl, rfl, rfl, rfl, rfl, rfl⟩
  · rename_i f u e
    obtain rfl : (s.begin.nextFrame).2 = u := by rw [e]
    exact ⟨rfl, rfl, rfl, rfl, rfl, rfl⟩

/-- What an operation other than TICK and SHUTDOWN can do to a group: nothing, a latched request, or the reaction to a
transport fault. The ramp outputs stay, and where no group can react nothing is entered. -/
def GroupAfter (i : Instr) (s t : State) (g : GroupIx) : Prop :=
    ((t.stateOf g = s.stateOf g ∧ t.causeOf g = s.causeOf g
        ∧ (t.pendingOf g = s.pendingOf g
          ∨ ∃ mask, i = .enableToggle mask ∧ mask.getLsbD g.val = true ∧ s.stateOf g ≠ .emergencyStop))
      ∨ (reactsToFault (s.stateOf g) = true ∧ faulted t g ∧ s.halted = false
          ∧ (i = .ioError ∨ ∃ m c aw, i = .transact m c aw)))
    ∧ t.rampcur = s.rampcur ∧ t.halted = s.halted
    ∧ ((∀ g, reactsToFault (s.stateOf g) = false) → t.estopCnt = s.estopCnt)

theorem groupAfter_same (i : Instr) (s t : State) (g : GroupIx) (h : SameGroups s t) : GroupAfter i s t g := by
  obtain ⟨a, b, c, d, e, f⟩ := h
  refine ⟨.inl ⟨?_, ?_, .inl ?_⟩, d, e, fun _ => f⟩
  · simp [State.stateOf, a]
  · simp [State.causeOf, b]
  · simp [State.pendingOf, c]

theorem groupAfter_enableToggle (mask : Byte) (s t : State) (g : GroupIx)
    (he : execEnableToggle mask s = .next t) : GroupAfter (.enableToggle mask) s t g := by
  simp only [execEnableToggle, hostOp, Host.Outcome.next.injEq] at he
  split at he
  · subst he; exact groupAfter_same _ _ _ _ (sameGroups_returned _ _ s)
  · split at he
    · obtain ⟨l1, l2⟩ := foldl_latch (maskedGroups mask) s.begin
      rw [l2] at he
      subst he
      refine ⟨.inl ⟨rfl, rfl, ?_⟩, rfl, rfl, fun _ => rfl⟩
      have := l1 g
      by_cases e : g ∈ maskedGroups mask ∧ s.begin.stateOf g ≠ .emergencyStop
      · exact .inr ⟨mask, rfl, (mem_maskedGroups mask g).mp e.1, e.2⟩
      · left; exact this.trans (if_neg e)
    · subst he; exact groupAfter_same _ _ _ _ (sameGroups_failed _ s)

theorem groupAfter_ioError (s t : State) (g : GroupIx) (he : execIoError s = .next t) :
    GroupAfter .ioError s t g := by
  simp only [execIoError, hostOp, Host.Outcome.next.injEq] at he
  split at he
  · subst he; exact groupAfter_same _ _ _ _ (sameGroups_returned _ _ s)
  · rename_i hh
    generalize hu : s.begin.transportFault = u at he
    have a : u.stateOf g = _ := hu ▸ transportFault_stateOf s.begin g
    have b : u.causeOf g = _ := hu ▸ transportFault_causeOf s.begin g
    have c : u.pendingOf g = _ := hu ▸ transportFault_pendingOf s.begin g
    have d : u.rampcur = s.begin.rampcur := hu ▸ transportFault_rampcur s.begin
    have e : u.halted = s.begin.halted := hu ▸ transportFault_halted s.begin
    have f : u.estopCnt = _ := hu ▸ transportFault_estopCnt s.begin
    subst he
    refine ⟨?_, d, e, fun hi => ?_⟩
    · by_cases hre : reactsToFault (s.begin.stateOf g) = true
      · rw [if_pos hre] at a b c
        exact .inr ⟨hre, ⟨a, b, c⟩, by simpa using hh, .inl rfl⟩
      · rw [if_neg hre] at a b c
        exact .inl ⟨a, b, .inl c⟩
    · have hn : (allGroups.filter (fun g => reactsToFault (s.begin.stateOf g))) = [] := by
        simp only [List.filter_eq_nil_iff]; intro g _; simpa using hi g
      rw [hn] at f
      exact f.trans (by simp [State.begin])

theorem groupAfter_transact (m : Byte) (c : Cmd) (aw : Byte) (s t : State) (g : GroupIx)
    (he : execTransact m c aw s = .next t) : GroupAfter (.transact m c aw) s t g := by
  by_cases hh : s.halted = true
  · unfold execTransact at he
    rw [hostOp_halted _ _ hh, Host.Outcome.next.injEq] at he
    subst he; exact groupAfter_same _ _ _ _ (sameGroups_returned _ _ s)
  · have hr : s.halted = false := by simpa using hh
    rcases transact_effect s t m c aw hr he with rfl | ⟨u, k, _, hl, st, r, rfl⟩
    · exact groupAfter_same _ _ _ _ ⟨rfl, rfl, rfl, rfl, rfl, rfl⟩
    · refine ⟨?_, hl.ramps, hl.halted, hl.idle⟩
      rcases (hl.groups g).cases with ⟨a, b, c⟩ | ⟨a, b⟩
      · exact .inl ⟨a, b, .inl c⟩
      · exact .inr ⟨a, b, hr, .inr ⟨_, _, _, rfl⟩⟩

/-- Every operation but the five that act on groups leaves them as they were. -/
theorem exec_sameGroups (i : Instr) (s t : State) (he : exec i s = .next t) (h1 : ∀ now, i ≠ .tick now)
    (h2 : i ≠ .shutdown) (h3 : ∀ mask, i ≠ .enableToggle mask) (h4 : i ≠ .ioError)
    (h5 : ∀ m c aw, i ≠ .transact m c aw) : SameGroups s t := by
  cases i <;> simp only [exec] at he
  case velocity => exact sameGroups_payload _ _ _ he
  case enable => exact sameGroups_payload _ _ _ he
  case workingCurrent => exact sameGroups_payload _ _ _ he
  case holdingCurrentPercent => exact sameGroups_payload _ _ _ he
  case pidGains0 => exact sameGroups_payload _ _ _ he
  case pidGains1 => exact sameGroups_payload _ _ _ he
  case statusQuery => exact sameGroups_payload _ _ _ he
  case cfgWrite => exact sameGroups_cfgWrite _ _ _ _ he
  case rxNext => exact sameGroups_rxNext _ _ he
  case regRead =>
    refine sameGroups_openOp _ s t he ?_
    split
    · exact sameGroups_failed _ s
    · exact sameGroups_returned _ _ s
  case readLast =>
    refine sameGroups_openOp _ s t he ?_
    split
    · exact sameGroups_returned _ _ s
    · split
      · exact sameGroups_returned _ _ s
      · exact sameGroups_failed _ s
  case encodeOp =>
    refine sameGroups_hostOp _ s t he ?_
    split
    · exact sameGroups_failed _ s
    · split
      · exact sameGroups_failed _ s
      · exact sameGroups_returned _ _ s
  case decodeOp =>
    refine sameGroups_hostOp _ s t he ?_
    split
    · exact sameGroups_failed _ s
    · split
      · exact sameGroups_failed _ s
      · exact sameGroups_returned _ _ s
  case rxFeed data =>
    refine sameGroups_hostOp _ s t he ?_
    rw [appendAll_frame]; exact ⟨rfl, rfl, rfl, rfl, rfl, rfl⟩
  case rampEval => exact sameGroups_hostOp _ s t he (sameGroups_returned _ _ s)
  case inputSample =>
    refine sameGroups_hostOp _ s t he ?_
    split
    · exact sameGroups_failed _ s
    · exact ⟨rfl, rfl, rfl, rfl, rfl, rfl⟩
  case inputLost => exact sameGroups_hostOp _ s t he ⟨rfl, rfl, rfl, rfl, rfl, rfl⟩
  case transportReopened => exact sameGroups_hostOp _ s t he ⟨rfl, rfl, rfl, rfl, rfl, rfl⟩
  case enableToggle mask => exact absurd rfl (h3 mask)
  case ioError => exact absurd rfl h4
  case transact m c aw => exact absurd rfl (h5 m c aw)
  case tick now => exact absurd rfl (h1 now)
  case shutdown => exact absurd rfl h2

/-- Every operation but TICK and SHUTDOWN, seen by one group. -/
theorem exec_group (i : Instr) (s t : State) (g : GroupIx) (he : exec i s = .next t) (h1 : ∀ now, i ≠ .tick now)
    (h2 : i ≠ .shutdown) : GroupAfter i s t g := by
  by_cases e1 : ∃ mask, i = .enableToggle mask
  · obtain ⟨mask, rfl⟩ := e1; exact groupAfter_enableToggle mask s t g he
  by_cases e2 : i = .ioError
  · subst e2; exact groupAfter_ioError s t g he
  by_cases e3 : ∃ m c aw, i = .transact m c aw
  · obtain ⟨m, c, aw, rfl⟩ := e3; exact groupAfter_transact m c aw s t g he
  · exact groupAfter_same _ _ _ _ (exec_sameGroups i s t he h1 h2 (fun m h => e1 ⟨m, h⟩) e2
      (fun m c aw h => e3 ⟨m, c, aw, h⟩))

end Sys2Proof.Machine
end

