-- ==== Sys2Proof/Tests/Slice0.lean ====
section
/-! SUPPORT. The model's own tests: the ill-formed terms each check refuses, one word for each constructor written out
byte by byte from the spec's tables, at most two small steps for each operation with the values of
95_test_vectors.md (section numbers in the docstrings), and a witness for the hypotheses of each statement. -/

namespace Sys2Proof.Tests

open Sys2Proof Sys2Proof.Machine

/-! ### Helpers -/

/-- The state an instruction leaves. -/
def out (i : Instr) (s : State) : State :=
  match exec i s with
  | .next t => t
  | .fault _ => s
  | .refused _ => s

/-- Every instruction completes. -/
theorem exec_out (i : Instr) (s : State) : exec i s = .next (out i s) := by
  cases i <;> rfl

/-- Status and result of an operation. -/
def replied (i : Instr) (s : State) : Status × Result := ((out i s).reply.status, (out i s).reply.result)

/-- Frames sent and the state of group 0 after an operation. -/
def sentAnd (i : Instr) (s : State) : List Bytes × MState := ((out i s).framesSent, (out i s).stateOf 0)

/-- The setup of 95_test_vectors.md sections 3 and 6: reset, Q = 0x3A, motor 0 at address 1 in group 0, WD_TIMEOUT
1000000, a sample at time 0, and a transport that accepts the next 40 frames. -/
def base : State :=
  { State.reset with
    regs := { Regs.reset with sq := 0x3A, wdTimeout := 1000000 }
    motor := #v[0x80000001, 0, 0, 0, 0, 0, 0, 0]
    inputValid := true
    sends := List.replicate 40 .ok }

/-- `base` with another CFG. -/
def base.withCfg (v : Word) : State := { base with regs := { base.regs with cfg := v } }

/-- `base` in the RS485 format. -/
def rs485 : State := base.withCfg 0x18C1

/-- `base` with RSPLEN = 0x01FFFFFF in the RS485 format. -/
def rs485Answers : State := { rs485 with regs := { rs485.regs with rsplen := 0x01FFFFFF } }

/-- A request pending for group 0. -/
def requested : State := { base with pending := #v[true, false, false, false] }

/-- Group 0 Enabled. -/
def driving : State := { base with mstate := #v[.enabled, .disabled, .disabled, .disabled] }

/-- Group 0 in EmergencyStop with cause 1. -/
def stopping : State :=
  { base with mstate := #v[.emergencyStop, .disabled, .disabled, .disabled], ecause := #v[1, 0, 0, 0] }

/-- Halted after SHUTDOWN. -/
def haltedState : State := { base with halted := true }

/-- Frames of 95_test_vectors.md sections 2 and 3. -/
def velocityFrame : Bytes := [0xAA, 0xC5, 0x01, 0x00, 0xF6, 0x00, 0x64, 0x02, 0x5D, 0x55]
def enableFrame : Bytes := [0xAA, 0xC3, 0x01, 0x00, 0xF3, 0x01, 0xF5, 0x55]
def disableFrame : Bytes := [0xAA, 0xC3, 0x01, 0x00, 0xF3, 0x00, 0xF4, 0x55]
def zeroFrame : Bytes := [0xAA, 0xC5, 0x01, 0x00, 0xF6, 0x00, 0x00, 0x00, 0xF7, 0x55]
def queryFrame : Bytes := [0xAA, 0xC2, 0x01, 0x00, 0x3A, 0x3B, 0x55]
def answerFrame : Bytes := [0xAA, 0xC3, 0x01, 0x00, 0x3A, 0x01, 0x3C, 0x55]
/-- The same answer from the motor at address 2. -/
def strangerFrame : Bytes := [0xAA, 0xC3, 0x02, 0x00, 0x3A, 0x01, 0x3D, 0x55]

/-! ### Ill-formed terms -/

theorem test_ill_velocity_rpm : Instr.wellFormed 3000 (.velocity 3001 0) = false := by decide
theorem test_ill_velocity_rpm_negative : Instr.wellFormed 3000 (.velocity (-3001) 0) = false := by decide
theorem test_ill_velocity_accel : Instr.wellFormed 3000 (.velocity 0 256) = false := by decide
theorem test_ill_enable : Instr.wellFormed 3000 (.enable 2) = false := by decide
theorem test_ill_workingCurrent : Instr.wellFormed 3000 (.workingCurrent 3001) = false := by decide
theorem test_ill_holdingCurrent_range : Instr.wellFormed 3000 (.holdingCurrentPercent 100) = false := by decide
theorem test_ill_holdingCurrent_step : Instr.wellFormed 3000 (.holdingCurrentPercent 45) = false := by decide
theorem test_ill_pidGains0 : Instr.wellFormed 3000 (.pidGains0 0 1025 0 0) = false := by decide
theorem test_ill_pidGains1 : Instr.wellFormed 3000 (.pidGains1 0 0 0 (-1)) = false := by decide
theorem test_ill_selector : Cmd.legal 3000 (.pidGains 2 0 0 0 0) = false := by decide
theorem test_ill_decodeOp : Instr.wellFormed 3000 (.decodeOp 0 (List.replicate 256 0)) = false := by
  decide +kernel
theorem test_ill_rxFeed : Instr.wellFormed 3000 (.rxFeed (List.replicate 256 0)) = false := by
  decide +kernel
theorem test_ill_inputSample : Instr.wellFormed 3000 (.inputSample 0 (List.replicate 256 0)) = false := by
  decide +kernel

/-! ### One word for each constructor (R122..R128, R133, R134), and what is refused -/

theorem test_word_velocity : decodePayload 3000 0x3A [0xF6, 0x8B, 0xB8, 0xFF] = .ok (.velocity (-3000) 255) := by
  decide
theorem test_word_enable : decodePayload 3000 0x3A [0xF3, 0x01] = .ok (.enable 1) := by decide
theorem test_word_workingCurrent : decodePayload 3000 0x3A [0x83, 0x40, 0x06] = .ok (.workingCurrent 1600) := by decide
theorem test_word_holdingCurrentPercent : decodePayload 3000 0x3A [0x9B, 0x08] = .ok (.holdingCurrentPercent 90) := by
  decide
theorem test_word_pidGains0 : decodePayload 3000 0x3A [0x96, 0x00, 0x04, 0x00, 0x00, 0x03, 0x02, 0x01, 0x00]
    = .ok (.pidGains0 1024 0 515 1) := by decide
theorem test_word_pidGains1 : decodePayload 3000 0x3A [0x97, 0x01, 0x00, 0x02, 0x00, 0x03, 0x00, 0x04, 0x00]
    = .ok (.pidGains1 1 2 3 4) := by decide
theorem test_word_statusQuery : decodePayload 3000 0x3A [0x3A] = .ok .statusQuery := by decide
theorem test_word_cfgWrite : decodeWord [0x01, 0x20, 0x01, 0x00, 0x00, 0x80] = .ok (.cfgWrite 0x20 0x80000001) := by
  decide
theorem test_word_regRead : decodeWord [0x02, 0x3F] = .ok (.regRead 0x3F) := by decide
theorem test_word_readLast : decodeWord [0x03, 0x01] = .ok (.readLast 1) := by decide
theorem test_word_encodeOp :
    decodeWord [0x10, 0x01, 0x01, 0x02, 0x04, 0x01, 0x00, 0x00, 0x00, 0x00, 0xFF, 0xFF, 0xFF, 0xFF, 0x00, 0x00, 0x00,
      0x00, 0x04, 0x00, 0x00, 0x80] = .ok (.encodeOp 1 0x0201 (.pidGains 1 0 (-1) 0 0x80000004)) := by decide
theorem test_word_decodeOp : decodeWord [0x11, 0x00, 0x02, 0xAA, 0xC1] = .ok (.decodeOp 0 [0xAA, 0xC1]) := by decide
theorem test_word_rxFeed : decodeWord [0x20, 0x00] = .ok (.rxFeed []) := by decide
theorem test_word_rxNext : decodeWord [0x21] = .ok .rxNext := by decide
theorem test_word_rampEval : decodeWord [0x30, 0x00, 0x80, 0xFF, 0x7F, 0xFF, 0xFF]
    = .ok (.rampEval (-32768) 32767 65535) := by decide
theorem test_word_inputSample : decodeWord [0x40, 0x00, 0x00, 0x00, 0x00, 0x00, 0x00, 0x00, 0x00, 0x01, 0x64, 0x00]
    = .ok (.inputSample 0 [100]) := by decide
theorem test_word_inputLost : decodeWord [0x41] = .ok .inputLost := by decide
theorem test_word_enableToggle : decodeWord [0x42, 0x03] = .ok (.enableToggle 3) := by decide
theorem test_word_ioError : decodeWord [0x43] = .ok .ioError := by decide
theorem test_word_transportReopened : decodeWord [0x44] = .ok .transportReopened := by decide
theorem test_word_tick : decodeWord [0x45, 0x00, 0x00, 0x00, 0x00, 0x00, 0x00, 0x00, 0x80]
    = .ok (.tick 0x8000000000000000) := by decide
theorem test_word_shutdown : decodeWord [0x46] = .ok .shutdown := by decide
theorem test_word_transact : decodeWord [0x47, 0x07, 0x02, 0x40, 0x06, 0x00, 0x00, 0x01]
    = .ok (.transact 7 (.workingCurrent 1600) 1) := by decide
theorem test_word_transact_enable : decodeWord [0x47, 0x00, 0x01, 0x02, 0x00] = .ok (.transact 0 (.enable 2) 0) := by
  decide
theorem test_word_transact_holding : decodeWord [0x47, 0x00, 0x03, 0x32, 0x00, 0x00, 0x00, 0x00]
    = .ok (.transact 0 (.holdingCurrentPercent 50) 0) := by decide

theorem test_refused_opcode : decodeWord [0x05] = .error .reservedOpcode := by decide
theorem test_refused_tag : (decodeWord [0x10, 0x00, 0x01, 0x00, 0x06]).toOption = none := by decide
theorem test_refused_missing : (decodeWord [0x42]).toOption = none := by decide
theorem test_refused_trailing : decodeWord [0x42, 0x01, 0x00] = .error .badLength := by decide
theorem test_refused_payload_reserved_bits :
    decodePayload 3000 0x3A [0xF6, 0x10, 0x00, 0x00] = .error .illegalPayload := by decide
theorem test_refused_payload_negative_zero :
    decodePayload 3000 0x3A [0xF6, 0x80, 0x00, 0x00] = .error .illegalPayload := by decide
theorem test_refused_payload_cap : decodePayload 3000 0x3A [0xF6, 0x0B, 0xB9, 0x00] = .error .illegalPayload := by
  decide

/-! ### Steps of the wire payload rows (section 2) -/

theorem test_velocity_scenario_a : replied (.velocity 100 2) base = (.ok, .bytes [0xF6, 0x00, 0x64, 0x02]) := by decide
theorem test_velocity_clamps : replied (.velocity (-5000) (-5)) base = (.ok, .bytes [0xF6, 0x8B, 0xB8, 0x00]) := by
  decide
theorem test_enable_true : replied (.enable 1) base = (.ok, .bytes [0xF3, 0x01]) := by decide
theorem test_enable_invalid : replied (.enable 2) base = (.invalidArgument, .none) := by decide
theorem test_workingCurrent : replied (.workingCurrent 1600) base = (.ok, .bytes [0x83, 0x40, 0x06]) := by decide
theorem test_workingCurrent_clamps : replied (.workingCurrent 4000) base = (.ok, .bytes [0x83, 0xB8, 0x0B]) := by decide
theorem test_holdingCurrent_rounds : replied (.holdingCurrentPercent 45) base = (.ok, .bytes [0x9B, 0x03]) := by decide
theorem test_holdingCurrent_clamps : replied (.holdingCurrentPercent 95) base = (.ok, .bytes [0x9B, 0x08]) := by decide
theorem test_pidGains0 : replied (.pidGains0 1024 0 2000 1) rs485
    = (.ok, .bytes [0x96, 0x00, 0x04, 0x00, 0x00, 0x00, 0x04, 0x01, 0x00]) := by decide
theorem test_pidGains0_can : replied (.pidGains0 0 0 0 0) base = (.invalidArgument, .none) := by decide
theorem test_pidGains1 : replied (.pidGains1 0 0 0 0) rs485 = (.ok, .bytes [0x97, 0, 0, 0, 0, 0, 0, 0, 0]) := by decide
theorem test_statusQuery : replied .statusQuery base = (.ok, .bytes [0x3A]) := by decide

/-! ### Steps of the register and codec operations (sections 2, 3, 8) -/

theorem test_cfgWrite_clamps : (out (.cfgWrite 0x03 0xFFFFFFFF) base).regs.cur = 0x005A0BB8 := by decide
theorem test_cfgWrite_duplicate : replied (.cfgWrite 0x21 0x80000001) base = (.invalidArgument, .none) := by decide
theorem test_regRead_reset : replied (.regRead 0x06) base = (.ok, .word 0x00004E20) := by decide
theorem test_regRead_unassigned : replied (.regRead 0x0A) base = (.invalidArgument, .none) := by decide
theorem test_readLast_invalid : replied (.readLast 2) base = (.invalidArgument, .none) := by decide
theorem test_readLast_sent : replied (.readLast 0) (out (.tick 0) requested) = (.ok, .bytes zeroFrame) := by decide
theorem test_encodeOp_id_hi : replied (.encodeOp 0 0x101 (.enable 1)) base
    = (.ok, .bytes [0xAA, 0xC3, 0x01, 0x01, 0xF3, 0x01, 0xF5, 0x55]) := by decide
theorem test_encodeOp_rs485 : replied (.encodeOp 1 1 (.pidGains 0 1024 0 2000 1)) base
    = (.ok, .bytes [0xFA, 0x01, 0x96, 0x00, 0x04, 0x00, 0x00, 0x00, 0x04, 0x01, 0x00, 0x9A]) := by decide
theorem test_decodeOp_response : replied (.decodeOp 0 answerFrame) base
    = (.ok, .decoded ⟨none, 0xAA, 1, 0x3A, [0x01]⟩) := by decide
theorem test_decodeOp_unknown : replied (.decodeOp 1 [0xFB, 0x01, 0x3A, 0x01, 0x37]) base
    = (.unknownCommand, .none) := by decide

/-! ### Steps of the deframer and the ramp (sections 4, 5) -/

/-- Section 4.5. -/
theorem test_rxFeed_overflow :
    let t := out (.rxFeed (List.replicate 255 0)) { base with rxbuf := List.replicate 200 0 }
    t.rxbuf.length = 256 ∧ t.rxdropCnt = 199 ∧ t.sticky = 0x80 := by decide +kernel

/-- Section 4.1, the first call. -/
theorem test_rxNext_resynchronises :
    let t := out .rxNext { base with rxbuf := [0x13, 0xAA, 0x00] ++ velocityFrame ++ [0xAA, 0xC2, 0x07, 0x00] }
    t.reply.result = .bytes velocityFrame ∧ t.rxdropCnt = 3 ∧ t.rxbuf = [0xAA, 0xC2, 0x07, 0x00] := by decide

/-- Section 4.2, the waiting hazard. -/
theorem test_rxNext_waits :
    let t := out .rxNext { base with rxbuf := [0xAA, 0xC9] ++ enableFrame }
    t.reply.result = .bytes [] ∧ t.rxdropCnt = 0 ∧ t.rxbuf.length = 10 := by decide

theorem test_rampEval_far : replied (.rampEval (-32768) 32767 65535) base = (.ok, .half 32767) := by decide
theorem test_rampEval_down : replied (.rampEval 50 (-20) 30) base = (.ok, .half 20) := by decide

/-! ### Steps of the inputs (sections 6, 7) -/

theorem test_inputSample : (out (.inputSample 5 [100]) driving).setpoint = #v[100, 0, 0, 0, 0, 0, 0, 0] := by decide
theorem test_inputSample_too_many : replied (.inputSample 0 (List.replicate 9 0)) base = (.invalidArgument, .none) := by
  decide
theorem test_inputLost : (out .inputLost base).stale 10 = true := by decide
theorem test_enableToggle : (out (.enableToggle 1) base).pending = #v[true, false, false, false] := by decide
theorem test_enableToggle_empty : replied (.enableToggle 2) base = (.invalidArgument, .none) := by decide
theorem test_ioError :
    let t := out .ioError driving
    t.stateOf 0 = .emergencyStop ∧ t.causeOf 0 = 3 ∧ t.estopCnt = 1 ∧ t.sticky = 0x20 ∧ t.reopenReq = true
      ∧ t.reply.status = .transportError := by decide
theorem test_transportReopened :
    let t := out .transportReopened { base with rxbuf := [0x01], reopenReq := true }
    t.rxbuf = [] ∧ t.reopenReq = false ∧ t.rxdropCnt = 0 := by decide

/-! ### Steps of the sequences (sections 6, 8) -/

/-- Section 6, the first row. -/
theorem test_tick_enables : sentAnd (.tick 0) requested
    = ([[0xAA, 0xC4, 0x01, 0x00, 0x83, 0x00, 0x00, 0x84, 0x55], [0xAA, 0xC3, 0x01, 0x00, 0x9B, 0x00, 0x9C, 0x55],
        enableFrame, zeroFrame], .enabled) := by decide

/-- Section 6, the row with VEL_ACCEL = 2 and RAMPCUR = 40. -/
theorem test_tick_disables :
    sentAnd (.tick 0) { driving with
        pending := #v[true, false, false, false]
        rampcur := #v[40, 0, 0, 0, 0, 0, 0, 0]
        regs := { driving.regs with vel := 0x00020BB8 } }
      = ([[0xAA, 0xC5, 0x01, 0x00, 0xF6, 0x00, 0x00, 0x02, 0xF9, 0x55],
          [0xAA, 0xC5, 0x01, 0x00, 0xF6, 0x00, 0x00, 0x02, 0xF9, 0x55], disableFrame], .disabled) := by decide

theorem test_shutdown_quiet :
    let t := out .shutdown base
    t.framesSent = [] ∧ t.halted = true ∧ t.reply.status = .ok := by decide
theorem test_shutdown_stops : sentAnd .shutdown driving = ([zeroFrame, zeroFrame, disableFrame], .disabled) := by decide
theorem test_transact_answered :
    let t := out (.transact 0 .statusQuery 1) { base with arrivals := [answerFrame] }
    t.framesSent = [queryFrame] ∧ t.reply.status = .ok ∧ t.reply.result = .bytes [0x01] ∧ t.lastRx = answerFrame := by
  decide
theorem test_transact_owned : replied (.transact 0 (.enable 0) 0) base = (.invalidArgument, .none) := by decide

/-! ### Witnesses: the hypotheses of each statement hold together -/

/-- The boundary of the cap, of the counts and of the selectors. -/
theorem witness_EveryInstructionRoundTrips :
    (0x3A : Byte) ∉ Config.fixedCodes
      ∧ ((Instr.velocity (-3000) 255).wellFormed 3000 = true ∧ (Instr.velocity (-3000) 255).isWire = true)
      ∧ ((Instr.pidGains1 1024 0 1024 0).wellFormed 3000 = true ∧ (Instr.pidGains1 1024 0 1024 0).isWire = true)
      ∧ ((Instr.rxFeed (List.replicate 255 0xAA)).wellFormed 3000 = true
          ∧ (Instr.rxFeed (List.replicate 255 0xAA)).isWire = false)
      ∧ ((Instr.inputSample 0 (List.replicate 255 0)).wellFormed 3000 = true) := by
  decide +kernel

theorem witness_PayloadReadsExactlyTheImages :
    (0x3A : Byte) ∉ Config.fixedCodes
      ∧ parseCommand 3000 0x3A [0x9B, 0x08] = some (.holdingCurrentPercent 90)
      ∧ (Cmd.velocity (-3000) 255).legal 3000 = true
      ∧ (Cmd.velocity (-3000) 255).payload 3000 0x3A = [0xF6, 0x8B, 0xB8, 0xFF] := by decide

theorem witness_HostWordsReadExactly : decodeWord [0x11, 0x00, 0x00] = .ok (.decodeOp 0 []) := by decide

/-- No host operation has a reserved opcode, and none is ENABLE_TOGGLE without its mask; running and halted. -/
theorem witness_BadHostWordRaisesInvalidArgument :
    ({ base with inputs := [.word [0x48]] } : State).inputs = .word [0x48] :: [] ∧ base.halted = false
      ∧ haltedState.halted = true
      ∧ (∀ i : Instr, i.isWire = false → i.wellFormed 0 = true → encode 0 0 i ≠ [0x48])
      ∧ (∀ i : Instr, i.isWire = false → i.wellFormed 0 = true → encode 0 0 i ≠ [0x42]) := by
  refine ⟨rfl, rfl, rfl, fun i hw _ => ?_, fun i hw _ => ?_⟩ <;>
    cases i <;> simp_all [encode, Opcode.byte, Instr.isWire, Instr.toCmd]

theorem witness_EncodeFollowsTheRules :
    base.halted = false ∧ 1 < (2 : Byte).toNat
      ∧ (payloadByRule base.velCap.toNat base.sqCode.toNat (.velocity 100 2)).bind
          (frameByRule .can base.ctrlHi.toNat 0x7FF)
          = some [0xAA, 0xC5, 0xFF, 0x07, 0xF6, 0x00, 0x64, 0x02, 0x5B, 0x55]
      ∧ (payloadByRule base.velCap.toNat base.sqCode.toNat .statusQuery).bind
          (frameByRule .can base.ctrlHi.toNat 0x800) = none
      ∧ (payloadByRule base.velCap.toNat base.sqCode.toNat (.enable 1)).bind
          (frameByRule .rs485 base.ctrlHi.toNat 0xFF) = some [0xFA, 0xFF, 0xF3, 0x01, 0xED]
      ∧ (payloadByRule base.velCap.toNat base.sqCode.toNat (.pidGains 2 1 1 1 1)).bind
          (frameByRule .rs485 base.ctrlHi.toNat 1) = none := by decide

theorem witness_WirePayloadRowsBuildTheirPayload : rs485.proto = .rs485 ∧ base.proto = .can := by decide

/-- Every clause of the hypotheses, at the largest addresses. -/
theorem witness_DecodeInvertsEncode :
    base.halted = false ∧ base.sqCode ∉ Config.fixedCodes
      ∧ (1 ≤ (0x7FF : Half).toNat ∧ (0x7FF : Half).toNat ≤ 0x7FF ∧ (0xFF : Half).toNat ≤ 0xFF)
      ∧ (∀ e, Cmd.enable 1 = .enable e → e = 0 ∨ e = 1)
      ∧ (∀ sel kp ki kd kv, Cmd.pidGains 1 5000 0 0 0 = .pidGains sel kp ki kd kv →
          Proto.rs485 = .rs485 ∧ (sel = 0 ∨ sel = 1)) := by
  refine ⟨rfl, by decide, by decide, fun e h => .inr (by cases h; rfl), fun sel _ _ _ _ h => ⟨rfl, .inr (by cases h; rfl)⟩⟩

/-- The CAN base frame of section 3.2, and a valid frame of an unknown code. -/
theorem witness_SingleByteCorruption_can :
    base.halted = false ∧ base.validAs .can velocityFrame = true ∧ velocityFrame.length = 10
      ∧ (plausibleCan base.ctrlHi 0xAA 0xC6 = true ∧ velocityFrame.length < ((0xC6 : Byte).extractLsb' 0 4).toNat + 5)
      ∧ (plausibleCan base.ctrlHi 0xAA 0xC4 = true ∧ ((0xC4 : Byte).extractLsb' 0 4).toNat + 5 ≤ velocityFrame.length)
      ∧ plausibleCan base.ctrlHi 0xAA 0xD5 = false
      ∧ (0x08 : Byte).extractLsb' 3 5 ≠ 0 ∧ (0x01 : Byte).extractLsb' 3 5 = 0
      ∧ exec (.decodeOp 0 velocityFrame) base
          = .next (base.returned .ok (.decoded ⟨some (.velocity 100 2), 0xAA, 1, 0xF6, [0x00, 0x64, 0x02]⟩))
      ∧ base.validAs .can [0xAA, 0xC2, 0x01, 0x00, 0x77, 0x78, 0x55] = true
      ∧ exec (.decodeOp 0 [0xAA, 0xC2, 0x01, 0x00, 0x77, 0x78, 0x55]) base
          = .next (base.failedWith .unknownCommand) := by
  refine ⟨rfl, by decide, rfl, by decide, by decide, by decide, by decide, by decide, ?_, by decide, ?_⟩ <;>
    rw [exec_out] <;> exact congrArg _ (by decide)

/-- The RS485 base frame of section 3.2: a code without a length, a longer and a shorter one. -/
theorem witness_SingleByteCorruption_rs485 :
    rs485.halted = false ∧ rs485.validAs .rs485 [0xFA, 0x01, 0xF6, 0x00, 0x64, 0x02, 0x57] = true
      ∧ rs485.rsLen 0xFB 0xF6 = none ∧ rs485.rsLen 0xFA 0x77 = none
      ∧ (rs485.rsLen 0xFA 0x96 = some 8 ∧ 7 < 8 + 4) ∧ (rs485.rsLen 0xFA 0xF3 = some 1 ∧ 1 + 4 ≤ 7) := by decide

theorem witness_DecodeReturnsTheFrameOrAnError :
    base.halted = false ∧ 1 < (2 : Byte).toNat
      ∧ base.validAs .can [] = false
      ∧ (0xAB : Byte) ∉ startMarkers .can ∧ (0xAA : Byte) ∉ startMarkers .rs485
      ∧ ((0xAA : Byte) ∈ startMarkers .can ∧ 1 < headerLength .can)
      ∧ ((0xFB : Byte) ∈ startMarkers .rs485 ∧ 2 < headerLength .rs485)
      ∧ base.announcedAs .can [0xAA, 0xCA] = none ∧ base.announcedAs .rs485 [0xFB, 0x01, 0x3A] = none
      ∧ (base.announcedAs .can (enableFrame.take 7) = some 8 ∧ base.validAs .can (enableFrame.take 7) = false)
      ∧ (base.announcedAs .can (enableFrame ++ [0]) = some 8 ∧ base.validAs .can (enableFrame ++ [0]) = false)
      ∧ (base.validAs .can [0xAA, 0xC1, 0x01, 0x00, 0x01, 0x55] = true
          ∧ payloadIn .can [0xAA, 0xC1, 0x01, 0x00, 0x01, 0x55] = [])
      ∧ (base.validAs .can answerFrame = true ∧ payloadIn .can answerFrame = [0x3A, 0x01]
          ∧ base.knownCode 0x3A = true ∧ base.knownCode 0x77 = false)
      ∧ (rs485Answers.validAs .rs485 [0xFB, 0x01, 0x3A, 0x01, 0x37] = true
          ∧ payloadIn .rs485 [0xFB, 0x01, 0x3A, 0x01, 0x37] = [0x3A, 0x01])
      ∧ (base.validAs .rs485 [0xFA, 0x01, 0xF3, 0x02, 0xF0] = true
          ∧ parseCommand base.velCap base.sqCode [0xF3, 0x02] = none)
      ∧ (base.validAs .rs485 [0xFA, 0x01, 0xF3, 0x01, 0xEF] = true
          ∧ parseCommand base.velCap base.sqCode [0xF3, 0x01] ≠ none) := by decide

/-- An empty and a full buffer. -/
theorem witness_RxFeedKeepsTheNewest :
    base.halted = false ∧ base.rxbuf.length ≤ 256
      ∧ ({ base with rxbuf := List.replicate 256 0 } : State).rxbuf.length ≤ 256 := by
  decide +kernel

theorem witness_RxNextEmitsTheFirstFrame : base.halted = false := rfl

/-- A noise of which every announced window can be checked is harmless. -/
theorem harmless_of_all {s : State} {noise after : Bytes}
    (h : ∀ i, i < noise.length → (s.announced ((noise ++ after).drop i)).all (fun t =>
      decide (t ≤ ((noise ++ after).drop i).length) && !(s.validFrame (((noise ++ after).drop i).take t))) = true) :
    s.harmless noise after := by
  intro i hi t ht
  have := h i hi
  rw [ht] at this
  simpa using this

/-- Section 4.1. -/
theorem witness_Resynchronisation :
    base.halted = false ∧ base.rxbuf = []
      ∧ ([0x13, 0xAA, 0x00] ++ velocityFrame ++ [0xAA, 0xC2, 0x07, 0x00] ++ enableFrame ++ [0x00, 0x00]).length ≤ 256
      ∧ base.validFrame velocityFrame = true ∧ base.validFrame enableFrame = true
      ∧ base.harmless [0x13, 0xAA, 0x00] (velocityFrame ++ [0xAA, 0xC2, 0x07, 0x00] ++ enableFrame ++ [0x00, 0x00])
      ∧ base.harmless [0xAA, 0xC2, 0x07, 0x00] (enableFrame ++ [0x00, 0x00]) :=
  ⟨rfl, rfl, by decide, by decide, by decide, harmless_of_all (by decide), harmless_of_all (by decide)⟩

/-- A difference equal to the step, one above it in either direction, and the widest difference. -/
theorem witness_RampEvalMovesTowardsTheTarget :
    base.halted = false
      ∧ ((30 : Half).toInt - (0 : Half).toInt).natAbs ≤ (30 : Half).toNat
      ∧ (30 : Half).toNat < ((31 : Half).toInt - (0 : Half).toInt).natAbs ∧ (0 : Half).toInt < (31 : Half).toInt
      ∧ (30 : Half).toNat < ((-31 : Half).toInt - (0 : Half).toInt).natAbs ∧ (-31 : Half).toInt < (0 : Half).toInt
      ∧ ((32767 : Half).toInt - (-32768 : Half).toInt).natAbs ≤ (65535 : Half).toNat := by decide

theorem witness_RampConverges : 0 < 30 ∧ (100 : Int) ≠ 0 := by decide

theorem witness_RegReadReturnsStoredRegisters :
    (0x0A ≤ (0x0F : Byte).toNat ∧ (0x0F : Byte).toNat < 0x10) ∧ (0x17 ≤ (0x1F : Byte).toNat ∧ (0x1F : Byte).toNat < 0x20)
      ∧ (0x28 ≤ (0x2F : Byte).toNat ∧ (0x2F : Byte).toNat < 0x30) ∧ 0x40 ≤ (0xFF : Byte).toNat := by decide

theorem witness_RegReadComputesTheViews : base.rxbuf.length ≤ 256 := by decide

theorem witness_CfgWriteStoresLegalValues :
    base.halted = false ∧ (0x18C0 : Word).getLsbD 0 = base.regs.cfg.getLsbD 0 := by decide

/-- Each clause accepted and refused: PROTO, SQ, MOTOR (address 0, above 0xFF, a duplicate, 0x7FF). -/
theorem witness_CfgWriteChecksProtoSqAndMotor :
    base.halted = false ∧ (0x18C1 : Word).getLsbD 0 ≠ base.regs.cfg.getLsbD 0
      ∧ ((∀ g : GroupIx, base.stateOf g = .disabled)
          ∧ ∀ m : MotorIx, (base.entryOf m).getLsbD 31 = true → ((base.entryOf m).extractLsb' 0 11).toNat ≤ 0xFF)
      ∧ driving.stateOf 0 ≠ .disabled
      ∧ (0xF6 : Word).extractLsb' 0 8 ∈ [(0xF6 : Byte), 0xF3, 0x83, 0x9B, 0x96, 0x97]
      ∧ (0x3A : Word).extractLsb' 0 8 ∉ [(0xF6 : Byte), 0xF3, 0x83, 0x9B, 0x96, 0x97]
      ∧ ((0x800007FF : Word).getLsbD 31 = true ∧ ((0x800007FF : Word).extractLsb' 0 11).toNat = 0x7FF
          ∧ base.proto ≠ .rs485
          ∧ ∀ k : MotorIx, k ≠ 1 → (base.entryOf k).getLsbD 31 = true → ((base.entryOf k).extractLsb' 0 11).toNat ≠ 0x7FF)
      ∧ ((0x80000000 : Word).extractLsb' 0 11).toNat = 0
      ∧ ((base.entryOf 0).getLsbD 31 = true ∧ ((base.entryOf 0).extractLsb' 0 11).toNat = 1)
      ∧ (0x11 ≤ (0x16 : Byte).toNat ∧ (0x16 : Byte).toNat < 0x20) ∧ 0x28 ≤ (0x30 : Byte).toNat := by decide

theorem witness_StatusWriteClearsWrittenBits : base.halted = false := rfl

theorem witness_ReadLastReturnsTheLastFrames : 1 < (2 : Byte).toNat := by decide

/-- A refused CFG_WRITE of another register, with a sticky bit set. -/
theorem witness_StickyBitsStaySet :
    let s := { base with sticky := 0x80 }
    exec (.cfgWrite 0x11 0xFF) s = .next (out (.cfgWrite 0x11 0xFF) s)
      ∧ (∀ v, Instr.cfgWrite 0x11 0xFF ≠ .cfgWrite 0x10 v) ∧ s.sticky.getLsbD 7 = true := by
  refine ⟨exec_out _ _, fun v h => ?_, by decide⟩
  injection h with h1 h2
  exact absurd h1 (by decide)

/-- Eight and nine values. -/
theorem witness_InputSampleReplacesTheSetpoints :
    base.halted = false ∧ (List.replicate 8 (1 : Half)).length ≤ 8 ∧ 8 < (List.replicate 9 (1 : Half)).length := by decide

theorem witness_LinkReportsSetTheirFlags : base.halted = false := rfl

theorem witness_IoErrorStopsTheEnabledGroups :
    driving.halted = false ∧ driving.stateOf 0 = .enabled ∧ driving.stateOf 1 = .disabled := by decide

/-- An accepted mask, a bit beyond the groups, an empty group, and a group in EmergencyStop. -/
theorem witness_EnableToggleLatchesRequests :
    base.halted = false
      ∧ ((1 : Byte).toNat < 16 ∧ ∀ g : GroupIx, (1 : Byte).getLsbD g.val = true → ∃ m : MotorIx, base.isMember g m = true)
      ∧ ¬ (0x10 : Byte).toNat < 16
      ∧ ((2 : Byte).getLsbD (1 : GroupIx).val = true ∧ ∀ m : MotorIx, base.isMember 1 m = false)
      ∧ stopping.stateOf 0 = .emergencyStop := by decide

/-- The boundary of the timeout, a time that went backwards, and a lost input (section 7). -/
theorem test_stale_boundaries :
    base.stale 1000000 = false ∧ base.stale 1000001 = true
      ∧ ({ base with lastInputTime := 500 } : State).stale 499 = true
      ∧ ({ base with inputLost := true } : State).stale 10 = true := by decide

theorem witness_QuietTickChangesNothing :
    base.halted = false ∧ ∀ g : GroupIx, base.stateOf g = .disabled ∧ base.pendingOf g = false := by decide

theorem witness_StaleRequestIsDiscarded :
    requested.halted = false ∧ requested.stale 1000001 = true ∧ (∀ g : GroupIx, requested.stateOf g = .disabled)
      ∧ requested.pendingOf 0 = true := by decide

/-- The hypotheses shared by the statements about an enabling TICK of group 0. -/
theorem requested_ready :
    requested.halted = false ∧ requested.stale 1000000 = false ∧ requested.stateOf 0 = .disabled
      ∧ requested.pendingOf 0 = true ∧ requested.othersIdle 0 := by
  refine ⟨rfl, by decide, rfl, rfl, ?_⟩
  unfold State.othersIdle; decide

theorem witness_EnablingTickDrivesTheGroup :
    (requested.halted = false ∧ requested.stale 1000000 = false ∧ requested.stateOf 0 = .disabled
      ∧ requested.pendingOf 0 = true ∧ requested.othersIdle 0)
      ∧ requested.verifyEn = false ∧ requested.rspExpected = false ∧ 1 ≤ requested.enableAttempts
      ∧ requested.sends = List.replicate (requested.enableFrames 0
          ++ (requested.members 0).map (fun m => requested.frameFor m (requested.velocityCmd (requested.rampedOf m)))).length
            .ok ++ List.replicate 36 .ok := ⟨requested_ready, by decide, by decide, by decide, by decide⟩

/-- VERIFY_EN = 1, an answer of another motor in the buffer, then the motor's own with EN_OK_VAL and a first byte of
the next frame. -/
def verified : State :=
  { requested with
    regs := { requested.regs with cfg := 0x19C0 }
    rxbuf := strangerFrame
    arrivals := [answerFrame ++ [0xAA]] }

/-- The Await of a state that holds one frame that does not match before the answer. -/
theorem answered_after_stranger (s : State) (addr : Nat) (code : Byte) (rest : Bytes) (haddr : addr = 1)
    (hr : s.rxbuf = strangerFrame) (ha : s.arrivals.headD [] = answerFrame ++ rest) (hl : rest.length ≤ 100)
    (hp : s.proto = .can) (hc : code = 0x3A) (h1 : s.validFrame strangerFrame = true) (h2 : s.validFrame answerFrame = true) :
    s.Answered addr code [strangerFrame] answerFrame rest := by
  subst hc; subst haddr
  refine ⟨by rw [hr, ha]; simp, ?_, ?_, h2, ?_⟩
  · rw [hr, ha]; simp [strangerFrame, answerFrame]; omega
  · intro f hf
    obtain rfl : f = strangerFrame := by simpa using hf
    exact ⟨h1, by rw [hp]; simp [matchByRule, strangerFrame]⟩
  · rw [hp]; simp [matchByRule, answerFrame]

theorem witness_EnablingVerifiedByAResponse :
    (verified.halted = false ∧ verified.stale 1000000 = false ∧ verified.stateOf 0 = .disabled
      ∧ verified.pendingOf 0 = true ∧ verified.othersIdle 0)
      ∧ verified.Answered (verified.addrOf 0) verified.sqCode [strangerFrame] answerFrame [0xAA]
      ∧ verified.members 0 = [0] ∧ verified.verifyEn = true ∧ verified.rspExpected = false ∧ 1 ≤ verified.enableAttempts
      ∧ (dataByRule verified.proto answerFrame).head? = some verified.enOkVal
      ∧ verified.sends = List.replicate ((verified.handshake
          ++ [Cmd.enable 1, Cmd.statusQuery, verified.velocityCmd (verified.rampedOf 0)]).map (verified.frameFor 0)).length
            .ok ++ List.replicate 35 .ok := by
  refine ⟨requested_ready, answered_after_stranger _ _ _ _ (by decide) rfl rfl (by decide) (by decide) (by decide) (by decide)
    (by decide), ?_⟩
  decide

/-- VERIFY_EN = 1 and a motor that never answers (scenario C). -/
def unanswered : State := { verified with rxbuf := [], arrivals := [] }

theorem witness_EnablingExhaustedFailsSafe :
    (unanswered.halted = false ∧ unanswered.stale 1000000 = false ∧ unanswered.stateOf 0 = .disabled
      ∧ unanswered.pendingOf 0 = true ∧ unanswered.othersIdle 0)
      ∧ unanswered.members 0 = [0] ∧ unanswered.verifyEn = true ∧ 1 ≤ unanswered.enableAttempts
      ∧ unanswered.rxbuf = [] ∧ unanswered.arrivals = []
      ∧ unanswered.sends = List.replicate ((unanswered.handshake
          ++ (List.replicate unanswered.enableAttempts [Cmd.enable 1, Cmd.statusQuery]).flatten
          ++ [Cmd.enable 0]).map (unanswered.frameFor 0)).length .ok ++ List.replicate 29 .ok := by
  refine ⟨requested_ready, ?_⟩; decide

/-- An IoErr at the last frame of Enabling. -/
def cutOff : State := { requested with sends := [.ok, .ok, .ioErr 3] }

/-- With VERIFY_EN = 0 at the last frame; with VERIFY_EN = 1 at the first StatusQuery and at the second Enable(true). -/
theorem witness_EnablingStopsAtAnIoErr :
    (cutOff.halted = false ∧ cutOff.stale 1000000 = false ∧ cutOff.stateOf 0 = .disabled
      ∧ cutOff.pendingOf 0 = true ∧ cutOff.othersIdle 0)
      ∧ 1 ≤ cutOff.enableAttempts
      ∧ cutOff.verifyEn = false ∧ 2 < (cutOff.enableFrames 0).length
      ∧ cutOff.sends = List.replicate 2 .ok ++ .ioErr 3 :: []
      ∧ (unanswered.verifyEn = true ∧ unanswered.members 0 = [0] ∧ unanswered.rxbuf = [] ∧ unanswered.arrivals = []
        ∧ 4 < ((unanswered.handshake ++ (List.replicate unanswered.enableAttempts
            [Cmd.enable 1, Cmd.statusQuery]).flatten).map (unanswered.frameFor 0)).length
        ∧ (3 - unanswered.handshake.length) / 2 = 0 ∧ (4 - unanswered.handshake.length) / 2 = 1) :=
  ⟨requested_ready, by decide, by decide, by decide, by decide, by decide⟩

/-- What a TICK leaves of an enabling cut off at its second Enable(true): one missing response counted. -/
theorem test_tick_cut_off_verified :
    let t := out (.tick 0) { unanswered with sends := [.ok, .ok, .ok, .ok, .ioErr 1] }
    t.stateOf 0 = .emergencyStop ∧ t.norspCnt = 1 ∧ t.sticky = 0x30 := by decide +kernel

/-- The hypotheses shared by the statements about a driving TICK of group 0. -/
theorem driving_ready :
    driving.halted = false ∧ driving.stale 1000000 = false ∧ driving.stateOf 0 = .enabled
      ∧ driving.pendingOf 0 = false ∧ driving.othersIdle 0 := by
  refine ⟨rfl, by decide, rfl, rfl, ?_⟩
  unfold State.othersIdle; decide

/-- Both values of RSP_EXPECTED. -/
theorem witness_DrivingTickRampsAndSends :
    (driving.halted = false ∧ driving.stale 1000000 = false ∧ driving.stateOf 0 = .enabled
      ∧ driving.pendingOf 0 = false ∧ driving.othersIdle 0)
      ∧ driving.sends = List.replicate ((driving.members 0).map (fun m =>
          driving.frameFor m (driving.velocityCmd (driving.rampedOf m)))).length .ok ++ List.replicate 39 .ok
      ∧ driving.rspExpected = false
      ∧ ({ driving with regs := { driving.regs with cfg := 0x1CC0 } } : State).rspExpected = true
      ∧ driving.rxbuf = [] ∧ driving.arrivals = [] := by
  refine ⟨driving_ready, ?_⟩; decide

theorem witness_DrivingStopsAtAnIoErr :
    (driving.halted = false ∧ driving.stale 1000000 = false ∧ driving.stateOf 0 = .enabled
      ∧ driving.pendingOf 0 = false ∧ driving.othersIdle 0)
      ∧ driving.members 0 = 0 :: []
      ∧ ({ driving with sends := [.ioErr 0] } : State).sends = .ioErr 0 :: [] :=
  ⟨driving_ready, by decide, rfl⟩

/-- A ramp output of -1. -/
theorem witness_EStopTickDecelerates :
    let s := { stopping with rampcur := #v[-1, 0, 0, 0, 0, 0, 0, 0] }
    s.halted = false ∧ s.stateOf 0 = .emergencyStop ∧ s.othersIdle 0 ∧ (∃ m : MotorIx, s.isMember 0 m = true ∧ s.rampOf m ≠ 0)
      ∧ s.sends = List.replicate ((s.members 0).map (fun m => s.frameFor m (s.velocityCmd (s.deceledOf m)))).length .ok
          ++ List.replicate 39 .ok := by
  refine ⟨rfl, rfl, ?_, ⟨0, by decide, by decide⟩, by decide⟩
  unfold State.othersIdle; decide

/-- A group that stops, with VERIFY_DIS = 1. -/
def verifyingStop (x : MState) (attempts : Word) : State :=
  { base with
    mstate := #v[x, .disabled, .disabled, .disabled]
    pending := #v[x == .enabled, false, false, false]
    regs := { base.regs with cfg := 0x1AC0, seq := 0x204 ||| (attempts <<< 4) } }

/-- `verifyingStop` with an answer whose first data byte is 1, which another motor's answer comes before. -/
def answeredStop (x : MState) (attempts : Word) (disOk : Byte) : State :=
  { verifyingStop x attempts with
    regs := { (verifyingStop x attempts).regs with verify := disOk.setWidth 32 <<< 8 }
    rxbuf := strangerFrame
    arrivals := [answerFrame] }

/-- The hypotheses of the two statements about a stop sequence, but for how it goes. -/
theorem stopping_ready :
    (stopping.halted = false ∧ stopping.stateOf 0 = .emergencyStop ∧ stopping.othersIdle 0
      ∧ ∀ m : MotorIx, stopping.isMember 0 m = true → stopping.rampOf m = 0)
    ∧ ((verifyingStop .enabled 4).halted = false ∧ (verifyingStop .enabled 4).stale 1000000 = false
      ∧ (verifyingStop .enabled 4).stateOf 0 = .enabled ∧ (verifyingStop .enabled 4).pendingOf 0 = true
      ∧ (verifyingStop .enabled 4).othersIdle 0) := by
  unfold State.othersIdle; decide

/-- Every way a stop sequence goes, for a group at rest in EmergencyStop and for an Enabled one. -/
theorem stopsTo_witnesses (x : MState) (h : x = .enabled ∨ x = .emergencyStop) :
    (∃ t, State.StopsTo (base.setState 0 x) 0 t) ∧ (∃ t, State.StopsTo (verifyingStop x 4) 0 t)
      ∧ (∃ t, State.StopsTo (answeredStop x 4 1) 0 t) ∧ (∃ t, State.StopsTo (answeredStop x 1 0) 0 t) := by
  have ha : ∀ k d, (k = 4 ∧ d = 1 ∨ k = 1 ∧ d = 0) →
      (answeredStop x k d).Answered ((answeredStop x k d).addrOf 0) (answeredStop x k d).sqCode
        [strangerFrame] answerFrame [] := by
    rintro k d (⟨rfl, rfl⟩ | ⟨rfl, rfl⟩) <;>
      refine answered_after_stranger _ _ _ [] ?_ rfl rfl (by decide) ?_ ?_ ?_ ?_ <;> rcases h with rfl | rfl <;> decide
  refine ⟨⟨_, .unverified (List.replicate 37 .ok) ?_ ?_⟩,
    ⟨_, .exhausted (List.replicate 30 .ok) ?_ ?_ ?_ ?_ ?_ ?_⟩,
    ⟨_, .verified 0 [strangerFrame] answerFrame [] (List.replicate 36 .ok) ?_ ?_ ?_ (ha 4 1 (by simp)) ?_ ?_⟩,
    ⟨_, .refuted 0 [strangerFrame] answerFrame [] (List.replicate 36 .ok) ?_ ?_ ?_ (ha 1 0 (by simp)) ?_ ?_⟩⟩ <;>
    rcases h with rfl | rfl <;> decide

theorem witness_EStopTickAtRestDisables :
    ∃ t, stopping.halted = false ∧ stopping.stateOf 0 = .emergencyStop ∧ stopping.othersIdle 0
      ∧ (∀ m : MotorIx, stopping.isMember 0 m = true → stopping.rampOf m = 0) ∧ stopping.StopsTo 0 t := by
  obtain ⟨⟨h1, h2, h3, h4⟩, _⟩ := stopping_ready
  exact ⟨_, h1, h2, h3, h4, .unverified (List.replicate 37 .ok) (by decide) (by decide)⟩

theorem witness_DisablingTickStopsTheGroup :
    ∃ t, (verifyingStop .enabled 4).halted = false ∧ (verifyingStop .enabled 4).stale 1000000 = false
      ∧ (verifyingStop .enabled 4).stateOf 0 = .enabled ∧ (verifyingStop .enabled 4).pendingOf 0 = true
      ∧ (verifyingStop .enabled 4).othersIdle 0 ∧ (verifyingStop .enabled 4).StopsTo 0 t := by
  obtain ⟨_, h1, h2, h3, h4, h5⟩ := stopping_ready
  obtain ⟨_, ⟨t, ht⟩, _⟩ := stopsTo_witnesses .enabled (.inl rfl)
  exact ⟨t, h1, h2, h3, h4, h5, ht⟩

/-- R277: the motor never answers; the group is Disabled and VerificationFailed is reported. -/
theorem test_tick_disabling_unverified :
    let t := out (.tick 0) (verifyingStop .enabled 1)
    t.framesSent = [zeroFrame, zeroFrame, disableFrame, queryFrame] ∧ t.stateOf 0 = .disabled
      ∧ t.reply.status = .verificationFailed ∧ t.sticky = 0x50 := by decide +kernel

theorem witness_WatchdogStopsEveryEnabledGroup :
    driving.halted = false ∧ driving.stale 1000001 = true ∧ (∀ g : GroupIx, boundary (driving.stateOf g) = true)
      ∧ driving.stateOf 0 = .enabled ∧ driving.stateOf 1 ≠ .enabled := by decide

/-- The bounded-stop vector of section 6: four TICKs. -/
theorem witness_BoundedStopAfterAWatchdogTimeout :
    let s := { driving with
      rampcur := #v[100, 0, 0, 0, 0, 0, 0, 0], regs := { driving.regs with ramp := 0x00280000 }, inputLost := true }
    s.halted = false ∧ s.stateOf 0 = .enabled ∧ s.stale 0 = true ∧ s.stopTicks 0 = 4 := by decide

/-- Both values of VERIFY_DIS. -/
theorem witness_ShutdownStopsEveryGroup :
    driving.halted = false ∧ driving.verifyDis = false ∧ (∀ g : GroupIx, boundary (driving.stateOf g) = true)
      ∧ (driving.isMember 0 0 = true ∧ driven (driving.stateOf 0) = true)
      ∧ (∀ g : GroupIx, driving.isMember g 1 = true → driven (driving.stateOf g) = false)
      ∧ (verifyingStop .enabled 4).verifyDis = true ∧ (verifyingStop .enabled 4).rxbuf = []
      ∧ (verifyingStop .enabled 4).arrivals = []
      ∧ (∀ g : GroupIx, boundary ((verifyingStop .enabled 4).stateOf g) = true)
      ∧ driven ((verifyingStop .enabled 4).stateOf 0) = true ∧ (verifyingStop .enabled 4).members 0 = [0]
      ∧ 0 < (verifyingStop .enabled 4).disableAttempts := by decide

/-- Every clause: an unassigned motor, a bad await operand, an owned command, an entry that is not valid, a refused
command, and an accepted one without an answer and with an answer after a frame that does not match. -/
theorem witness_TransactSendsOneFrame :
    base.halted = false ∧ 8 ≤ (8 : Byte).toNat ∧ 1 < (2 : Byte).toNat ∧ (base.entryOf 7).getLsbD 31 = false
      ∧ base.commandFrame 0 (.pidGains 0 0 0 0 0) = none
      ∧ (0 : Byte).toNat = (0 : MotorIx).val ∧ (base.entryOf 0).getLsbD 31 = true
      ∧ (∀ rpm accel, Cmd.statusQuery ≠ .velocity rpm accel) ∧ (∀ e, Cmd.statusQuery ≠ .enable e)
      ∧ base.commandFrame 0 .statusQuery = some (queryFrame.map BitVec.toNat)
      ∧ base.sends = .ok :: List.replicate 39 .ok
      ∧ base.Unanswered (base.addrOf 0) ((payloadIn base.proto queryFrame).headD 0) [] []
      ∧ ({ base with arrivals := [strangerFrame ++ [0xAA]] } : State).Unanswered
          (base.addrOf 0) ((payloadIn base.proto queryFrame).headD 0) [strangerFrame] [0xAA]
      ∧ ({ base with rxbuf := strangerFrame, arrivals := [answerFrame] } : State).Answered
          (base.addrOf 0) ((payloadIn base.proto queryFrame).headD 0) [strangerFrame] answerFrame [] := by
  refine ⟨rfl, by decide, by decide, by decide, by decide, by decide, by decide, by simp, by simp, by decide, rfl,
    ⟨rfl, by decide, by simp, .inl rfl⟩, ⟨rfl, by decide, fun f hf => ?_, .inr (.inl ⟨by decide, rfl, by decide⟩)⟩,
    answered_after_stranger _ _ _ _ (by decide) rfl rfl (by decide) (by decide) (by decide) (by decide) (by decide)⟩
  obtain rfl : f = strangerFrame := by simpa using hf
  refine ⟨by decide, fun h => ?_⟩
  have h1 : (2 : Nat) = 1 := h.1
  omega

/-- R223: a request never matches in the RS485 format, a response does, with its data. -/
theorem test_match_rs485 :
    matchesRsp .rs485 1 0x3A [0xFA, 0x01, 0x3A, 0x35] = false
      ∧ matchesRsp .rs485 1 0x3A [0xFB, 0x01, 0x3A, 0x01, 0x37] = true
      ∧ rspData .rs485 [0xFB, 0x01, 0x3A, 0x01, 0x37] = [0x01] := by decide

theorem witness_TransactIoErrIsATransportFault :
    let s := { driving with sends := [.ioErr 7] }
    s.halted = false ∧ (0 : Byte).toNat = (0 : MotorIx).val ∧ (1 : Byte).toNat ≤ 1 ∧ (s.entryOf 0).getLsbD 31 = true
      ∧ (∀ rpm accel, Cmd.statusQuery ≠ .velocity rpm accel) ∧ (∀ e, Cmd.statusQuery ≠ .enable e)
      ∧ s.commandFrame 0 .statusQuery = some (queryFrame.map BitVec.toNat)
      ∧ s.sends = .ioErr 7 :: [] := by
  refine ⟨rfl, by decide, by decide, by decide, by simp, by simp, by decide, rfl⟩

/-- The configuration of the test states is legal. -/
theorem base_legal : base.regs.Legal := by
  constructor <;> decide

/-- A driven state has the invariant, and its next step answers a next state. -/
theorem witness_StepKeepsTheInvariant :
    let s := { driving with inputs := [.word [0x45, 0, 0, 0, 0, 0, 0, 0, 0]] }
    s.Inv ∧ step s = .next (out (.tick 0) { s with inputs := [] }) := by
  refine ⟨?_, ?_⟩
  · constructor
    case regs => exact base_legal
    case table => constructor <;> decide
    all_goals decide
  · exact (exec_out (.tick 0) driving)

theorem witness_StepRunsTheDecodedInstruction :
    decodeWord [0x46] = .ok .shutdown
      ∧ ({ base with inputs := [.word [0x46]] } : State).inputs = .word [0x46] :: []
      ∧ decodePayload base.velCap base.sqCode [0x3A] = .ok .statusQuery
      ∧ ({ base with inputs := [.payload [0x3A]] } : State).inputs = .payload [0x3A] :: [] := by decide

theorem witness_ResetInputResetsTheBlock :
    ({ driving with inputs := [.reset] } : State).inputs = .reset :: [] ∧ driving.inputs = [] := by decide

theorem witness_HaltedDoesNothing :
    haltedState.halted = true ∧ (Instr.tick 0).isWire = false ∧ (∀ idx, Instr.tick 0 ≠ .regRead idx)
      ∧ (∀ which, Instr.tick 0 ≠ .readLast which)
      ∧ exec (.tick 0) haltedState = .next (out (.tick 0) haltedState)
      ∧ (({ haltedState with inputs := [.reset] } : State).halted = true
        ∧ ({ haltedState with inputs := [.reset] } : State).inputs = .reset :: []) :=
  ⟨rfl, rfl, by simp, by simp, exec_out _ _, rfl, rfl⟩

/-- An operation that returns each fault status. -/
theorem witness_FaultStatusChangesNothing :
    (out (.readLast 2) base).reply.status = .invalidArgument
      ∧ (out (.decodeOp 0 [0xAB, 0xC1]) base).reply.status = .checksumMismatch
      ∧ (out (.decodeOp 0 []) base).reply.status = .truncated
      ∧ (out (.decodeOp 1 [0xFA, 0x01, 0x77]) base).reply.status = .unknownCommand
      ∧ (out .shutdown haltedState).reply.status = .halted
      ∧ exec (.readLast 2) base = .next (out (.readLast 2) base) := by
  refine ⟨by decide, by decide, by decide, by decide, by decide, exec_out _ _⟩

theorem witness_OnlyThreeOperationsSend :
    exec .ioError driving = .next (out .ioError driving) ∧ (∀ now, Instr.ioError ≠ .tick now) ∧ Instr.ioError ≠ .shutdown
      ∧ (∀ m c aw, Instr.ioError ≠ .transact m c aw) := ⟨exec_out _ _, by simp, by simp, by simp⟩

/-- RAMP_EVAL is none of the writers of any component. -/
theorem witness_ComponentsHaveTheirWriters :
    exec (.rampEval 0 1 1) driving = .next (out (.rampEval 0 1 1) driving)
      ∧ (∀ idx v, Instr.rampEval 0 1 1 ≠ .cfgWrite idx v) ∧ (∀ now l, Instr.rampEval 0 1 1 ≠ .inputSample now l)
      ∧ (∀ now, Instr.rampEval 0 1 1 ≠ .tick now) ∧ Instr.rampEval 0 1 1 ≠ .shutdown
      ∧ (∀ m c aw, Instr.rampEval 0 1 1 ≠ .transact m c aw) :=
  ⟨exec_out _ _, by simp, by simp, by simp, by simp, by simp⟩

/-- Every transition of the table happens, with the cause of its event. -/
theorem witness_TransitionsAreTheTable :
    boundary (requested.stateOf 0) = true ∧ exec (.tick 0) requested = .next (out (.tick 0) requested)
      ∧ (out (.tick 0) requested).stateOf 0 = .enabled
      ∧ (out (.tick 0) cutOff).stateOf 0 = .emergencyStop
      ∧ (out .shutdown driving).stateOf 0 = .disabled
      ∧ (out .ioError driving).stateOf 0 = .emergencyStop
      ∧ (out (.tick 0) stopping).stateOf 0 = .disabled
      ∧ ((out (.tick 1000001) driving).stateOf 0 = .disabled ∧ (out (.tick 1000001) driving).causeOf 0 = 1)
      ∧ ((out (.tick 0) { driving with sends := [.ioErr 0] }).stateOf 0 = .emergencyStop
          ∧ (out (.tick 0) { driving with sends := [.ioErr 0] }).causeOf 0 = 3) := by
  refine ⟨rfl, exec_out _ _, by decide, by decide +kernel, by decide, by decide, by decide, by decide +kernel,
    by decide +kernel⟩

theorem witness_RequestsComeFromToggles :
    exec (.enableToggle 1) base = .next (out (.enableToggle 1) base) ∧ (out (.enableToggle 1) base).pendingOf 0 = true
      ∧ base.pendingOf 0 = false := ⟨exec_out _ _, by decide, by decide⟩

theorem witness_EmergencyStopIsNotReentered :
    exec .ioError stopping = .next (out .ioError stopping) ∧ stopping.stateOf 0 = .emergencyStop
      ∧ stopping.pendingOf 0 = false
      ∧ (∀ h : GroupIx, stopping.stateOf h = .emergencyStop ∨ stopping.stateOf h = .disabled ∧ stopping.pendingOf h = false) :=
  ⟨exec_out _ _, by decide, by decide, by decide⟩

/-- A group that was Enabled, one in EmergencyStop, and one whose Enabling failed. -/
theorem witness_NeverDisabledWithoutEnableFalse :
    driving.halted = false ∧ driving.regs.Legal
      ∧ (exec .shutdown driving = .next (out .shutdown driving) ∧ (out .shutdown driving).stateOf 0 = .disabled
          ∧ driving.stateOf 0 = .enabled)
      ∧ (exec (.tick 0) stopping = .next (out (.tick 0) stopping) ∧ (out (.tick 0) stopping).stateOf 0 = .disabled
          ∧ stopping.stateOf 0 = .emergencyStop)
      ∧ (exec (.tick 0) unanswered = .next (out (.tick 0) unanswered) ∧ (out (.tick 0) unanswered).stateOf 0 = .disabled
          ∧ unanswered.stateOf 0 = .disabled ∧ unanswered.pendingOf 0 = true ∧ unanswered.stale 0 = false) := by
  refine ⟨rfl, base_legal, ⟨exec_out _ _, by decide, by decide⟩, ⟨exec_out _ _, by decide, by decide⟩,
    exec_out _ _, by decide, by decide⟩

/-- A TICK that ends with each of the three statuses. -/
theorem witness_SequencesReportTheirEvents :
    driving.halted = false ∧ exec (.tick 0) driving = .next (out (.tick 0) driving)
      ∧ (out (.tick 0) driving).reply.status = .ok
      ∧ (out (.tick 0) cutOff).reply.status = .transportError
      ∧ (out (.tick 0) unanswered).reply.status = .verificationFailed := by
  refine ⟨rfl, exec_out _ _, by decide, by decide +kernel, by decide +kernel⟩

theorem witness_TickSendsOnlyItsCommands :
    (driving.halted = false ∧ driving.TableLegal ∧ (driving.entryOf 0).getLsbD 31 = true)
      ∧ exec (.tick 0) driving = .next (out (.tick 0) driving) ∧ (out (.tick 0) driving).framesSent = [zeroFrame] :=
  ⟨⟨rfl, by constructor <;> decide, by decide⟩, exec_out _ _, by decide⟩

theorem witness_FramesAreBounded :
    driving.regs.Legal ∧ exec (.tick 0) driving = .next (out (.tick 0) driving)
      ∧ exec .shutdown driving = .next (out .shutdown driving)
      ∧ exec (.transact 0 .statusQuery 0) base = .next (out (.transact 0 .statusQuery 0) base) :=
  ⟨base_legal, exec_out _ _, exec_out _ _, exec_out _ _⟩

end Sys2Proof.Tests
end

section
/-! PROOFS. The frame codec's statements: what ENCODE and DECODE do as operations, the payload and frame rules in
numbers (O6), parsing and unframing what was built (O8), and what one changed byte does to a frame (O9). -/

namespace Sys2Proof.Machine

/-! ### The operations (R135, R160, R170) -/

theorem variantOf_eq {variant : Byte} {v : Proto} (h : variant = 0 ∧ v = .can ∨ variant = 1 ∧ v = .rs485) :
    variantOf variant = some v := by
  obtain ⟨rfl, rfl⟩ | ⟨rfl, rfl⟩ := h <;> rfl

theorem variantOf_none {variant : Byte} (h : 1 < variant.toNat) : variantOf variant = none := by
  have h0 : variant ≠ 0 := by rintro rfl; simp at h
  have h1 : variant ≠ 1 := by rintro rfl; simp at h
  rw [variantOf, if_neg h0, if_neg h1]

theorem exec_encodeOp (variant : Byte) (addr : Half) (c : Cmd) (s : State) :
    exec (.encodeOp variant addr c) s = execEncode variant addr c s := by rfl

theorem exec_decodeOp (variant : Byte) (f : Bytes) (s : State) :
    exec (.decodeOp variant f) s = execDecode variant f s := by rfl

section
variable {s : State} {variant : Byte} {v : Proto} {addr : Half} {c : Cmd} {f : Bytes} {e : Status} {d : Decoded}

theorem encodeOp_badVariant (hr : s.halted = false) (hv : variantOf variant = none) :
    exec (.encodeOp variant addr c) s = .next (s.failedWith .invalidArgument) := by
  rw [exec_encodeOp, execEncode, hostOp_running _ _ hr]
  simp only [hv, begin_raise]

theorem encodeOp_ok (hr : s.halted = false) (hv : variantOf variant = some v)
    (h : encodeFrame v addr.toNat c s = .ok f) :
    exec (.encodeOp variant addr c) s = .next (s.returned .ok (.bytes f)) := by
  have hb : encodeFrame v addr.toNat c s.begin = .ok f := h
  rw [exec_encodeOp, execEncode, hostOp_running _ _ hr]
  simp only [hv, hb, begin_answer]

theorem encodeOp_error (hr : s.halted = false) (hv : variantOf variant = some v)
    (h : encodeFrame v addr.toNat c s = .error e) :
    exec (.encodeOp variant addr c) s = .next (s.failedWith e) := by
  have hb : encodeFrame v addr.toNat c s.begin = .error e := h
  rw [exec_encodeOp, execEncode, hostOp_running _ _ hr]
  simp only [hv, hb, begin_raise]

theorem decodeOp_ok (hr : s.halted = false) (hv : variantOf variant = some v) (h : decodeFrame v f s = .ok d) :
    exec (.decodeOp variant f) s = .next (s.returned .ok (.decoded d)) := by
  have hb : decodeFrame v f s.begin = .ok d := h
  rw [exec_decodeOp, execDecode, hostOp_running _ _ hr]
  simp only [hv, hb, begin_answer]

theorem decodeOp_error (hr : s.halted = false) (hv : variantOf variant = some v)
    (h : decodeFrame v f s = .error e) : exec (.decodeOp variant f) s = .next (s.failedWith e) := by
  have hb : decodeFrame v f s.begin = .error e := h
  rw [exec_decodeOp, execDecode, hostOp_running _ _ hr]
  simp only [hv, hb, begin_raise]

/-- A record is answered only where `decodeFrame` gives it. -/
theorem decodeFrame_of_decodeOp_ok (hr : s.halted = false) (hv : variantOf variant = some v)
    (h : exec (.decodeOp variant f) s = .next (s.returned .ok (.decoded d))) : decodeFrame v f s = .ok d := by
  cases hd : decodeFrame v f s with
  | ok d' => rw [decodeOp_ok hr hv hd] at h; simpa [State.returned] using h
  | error e => rw [decodeOp_error hr hv hd] at h; simp [State.returned, State.failedWith] at h

/-- A fault status is answered only where `decodeFrame` raises it. -/
theorem decodeFrame_of_decodeOp_error (hr : s.halted = false) (hv : variantOf variant = some v)
    (h : exec (.decodeOp variant f) s = .next (s.failedWith e)) : decodeFrame v f s = .error e := by
  cases hd : decodeFrame v f s with
  | ok d => rw [decodeOp_ok hr hv hd] at h; simp [State.returned, State.failedWith] at h
  | error e' =>
    rw [decodeOp_error hr hv hd] at h
    exact congrArg Except.error (congrArg (·.reply.status) (Host.Outcome.next.inj h))

end

/-! ### The encoder and the rules in numbers -/

theorem clampInt_bounds (v : Int) {lo hi : Int} (h : lo ≤ hi) :
    lo ≤ clampInt v lo hi ∧ clampInt v lo hi ≤ hi := by
  unfold clampInt; omega

theorem clampInt_of_mem {v lo hi : Int} (h1 : lo ≤ v) (h2 : v ≤ hi) : clampInt v lo hi = v := by
  unfold clampInt; omega

theorem writeLE_two (n : Nat) : writeLE 2 n = [BitVec.ofNat 8 n, BitVec.ofNat 8 (n / 256)] := rfl

/-- The byte B1 of a Velocity payload (R125): the direction bit above the upper four bits of the magnitude. -/
theorem velocityHigh_fields (neg : Prop) [Decidable neg] {k : Nat} (hk : k < 16) :
    let b : Byte := (if neg then 0x80 else 0) ||| BitVec.ofNat 8 k
    b.toNat = (if neg then 1 else 0) * 128 + k ∧ b.extractLsb' 4 3 = 0 ∧ ((b.extractLsb' 7 1 == 1) = decide neg)
      ∧ (b.extractLsb' 0 4).toNat = k := by
  by_cases h : neg <;> simp only [h, if_true, if_false] <;> revert k <;> decide

theorem cmdOk_enable {e : Byte} : cmdOk (.enable e) = true ↔ e = 0 ∨ e = 1 := by simp [cmdOk]

theorem cmdOk_pidGains {sel : Byte} {kp ki kd kv : Word} :
    cmdOk (.pidGains sel kp ki kd kv) = true ↔ sel = 0 ∨ sel = 1 := by simp [cmdOk]

/-- The two values of a u8 operand the rules name (R134, R168), as numbers and as bytes. -/
theorem toNat_eq_zero_and_one_iff (b : Byte) : (b.toNat = 0 ↔ b = 0) ∧ (b.toNat = 1 ↔ b = 1) := by
  simp only [← BitVec.toNat_inj]
  exact ⟨Iff.rfl, Iff.rfl⟩

/-- The payload of a command is what its rule gives in numbers, where the command's u8 operands are legal
(R164..R169). -/
theorem payloadByRule_eq (cap : BitVec 12) (sq : Byte) (c : Cmd) :
    payloadByRule cap.toNat sq.toNat c = if cmdOk c then some ((c.payload cap sq).map BitVec.toNat) else none := by
  cases c with
  | velocity rpm accel =>
    have hcap := cap.isLt
    have ha := clampInt_bounds accel.toInt (lo := 0) (hi := 255) (by omega)
    obtain ⟨hb1, -⟩ := velocityHigh_fields (rpm.toInt < 0 ∧ 0 < min rpm.toInt.natAbs cap.toNat)
      (k := min rpm.toInt.natAbs cap.toNat / 256) (by omega)
    have hb3 : (BitVec.ofInt 8 (clampInt accel.toInt 0 255)).toNat = (clampInt accel.toInt 0 255).toNat := by
      rw [BitVec.toNat_ofInt, Int.emod_eq_of_lt] <;> omega
    simp only [payloadByRule, cmdOk, Cmd.payload, velocityPayload, Config.accelMax, Nat.cast_ofNat, List.map, hb1, hb3]
    simp
  | enable e =>
    obtain ⟨h0, h1⟩ := toNat_eq_zero_and_one_iff e
    by_cases he : e = 0 ∨ e = 1
    · obtain rfl | rfl := he <;> rfl
    · rw [if_neg (mt cmdOk_enable.mp he)]
      obtain ⟨he0, he1⟩ := not_or.mp he
      simp only [payloadByRule, if_neg (mt h0.mp he0), if_neg (mt h1.mp he1)]
  | workingCurrent ma =>
    have hm := clampInt_bounds ma.toInt (lo := 0) (hi := 3000) (by omega)
    have hhigh : (clampInt ma.toInt 0 3000).toNat / 256 % 256 = (clampInt ma.toInt 0 3000).toNat / 256 := by omega
    simp [payloadByRule, cmdOk, Cmd.payload, workingCurrentPayload, writeLE_two, Config.wcMax, hhigh]
  | holdingCurrentPercent pct =>
    have hp := clampInt_bounds pct.toInt (lo := 10) (hi := 90) (by omega)
    have hindex : (10 * (clampInt pct.toInt 10 90 / 10) / 10 - 1).toNat
        = (10 * ((clampInt pct.toInt 10 90).toNat / 10) / 10 - 1) % 2 ^ 8 := by omega
    simp only [payloadByRule, cmdOk, Cmd.payload, holdingCurrentPayload, if_true, List.map, BitVec.toNat_ofNat, hindex]
    rfl
  | pidGains sel kp ki kd kv =>
    obtain ⟨h0, h1⟩ := toNat_eq_zero_and_one_iff sel
    simp only [payloadByRule, h0, h1]
    by_cases hs : sel = 0 ∨ sel = 1
    · rw [if_pos hs, if_pos (cmdOk_pidGains.mpr hs)]
      obtain rfl | rfl := hs <;>
        simp [Cmd.payload, pidGainsPayload, gainBytes, writeLE_two, Config.gainMax]
    · rw [if_neg hs, if_neg (mt cmdOk_pidGains.mp hs)]
  | statusQuery => rfl

/-- The sum of the byte values is the sum of the frame rules in numbers. -/
theorem sum8_toNat (p : Bytes) : (sum8 p).toNat = (p.map BitVec.toNat).sum % 256 := by
  simp [sum8, sumNat]

/-- The CTRL byte holds CAN_CTRL_HI above the length N + 1 (R112). -/
theorem ctrlByte_fields (hi : BitVec 4) {n : Nat} (hn : n ≤ 8) :
    (ctrlByte hi n).toNat = hi.toNat * 16 + (n + 1) ∧ (ctrlByte hi n).extractLsb' 4 4 = hi
      ∧ ((ctrlByte hi n).extractLsb' 0 4).toNat = n + 1 := by
  have hb : n < 9 := by omega
  clear hn
  revert n; revert hi; decide

theorem addrOk_can (addr : Nat) : addrOk .can addr = true ↔ 1 ≤ addr ∧ addr ≤ 0x7FF := by
  simp only [addrOk, Bool.and_eq_true, decide_eq_true_eq]
  rfl

theorem addrOk_rs485 (addr : Nat) : addrOk .rs485 addr = true ↔ 1 ≤ addr ∧ addr ≤ 0xFF := by
  simp only [addrOk, Bool.and_eq_true, decide_eq_true_eq]
  rfl

theorem payloadFits_can (p : Bytes) : payloadFits .can p = true ↔ p.length ≤ 8 := by
  simp only [payloadFits, decide_eq_true_eq]
  rfl

theorem payloadFits_rs485 (p : Bytes) : payloadFits .rs485 p = true := rfl

/-- FrameCAN and FrameRS on a payload of bytes are what R162 and R163 give in numbers, where the address and the
length are in range. -/
theorem frameByRule_eq (v : Proto) (hi : BitVec 4) (addr : Nat) (p : Bytes) :
    frameByRule v hi.toNat addr (p.map BitVec.toNat)
      = if addrOk v addr && payloadFits v p then some ((frameOf v hi addr p).map BitVec.toNat) else none := by
  cases v with
  | can =>
    simp only [frameByRule, List.length_map, Bool.and_eq_true, addrOk_can, payloadFits_can]
    by_cases h : addr < 1 ∨ 0x7FF < addr ∨ 8 < p.length
    · rw [if_pos h, if_neg (by omega)]
    · have hc := (ctrlByte_fields hi (n := p.length) (by omega)).1
      have ha : addr / 256 % 256 = addr / 256 := by omega
      rw [if_neg h, if_pos (by omega)]
      simp [frameOf, frameCan, canCrc, sumNat, hc, ha]
  | rs485 =>
    simp only [frameByRule, Bool.and_eq_true, addrOk_rs485, payloadFits_rs485, and_true]
    by_cases h : addr < 1 ∨ 0xFF < addr
    · rw [if_pos h, if_neg (by omega)]
    · have ha : addr % 256 = addr := by omega
      rw [if_neg h, if_pos (by omega)]
      simp [frameOf, frameRs, sum8_toNat, ha, Nat.add_assoc]

/-- ENCODE builds the frame of the rules and raises InvalidArgument exactly where they give none (R160..R169). -/
theorem frameByRule_payloadByRule (s : State) (v : Proto) (addr : Nat) (c : Cmd) :
    (payloadByRule s.velCap.toNat s.sqCode.toNat c).bind (frameByRule v s.ctrlHi.toNat addr)
      = (encodeFrame v addr c s).toOption.map (·.map BitVec.toNat) := by
  rw [payloadByRule_eq]
  by_cases hc : cmdOk c = true
  · simp only [hc, if_true, Option.bind_some, frameByRule_eq, encodeFrame, State.payload, Bool.true_and]
    split <;> rfl
  · simp [encodeFrame, hc, Except.toOption]

theorem encodeFrame_eq_error {s : State} {v : Proto} {addr : Nat} {c : Cmd} {e : Status}
    (h : encodeFrame v addr c s = .error e) : e = .invalidArgument := by
  unfold encodeFrame at h
  split at h <;> simp_all

/-- Settles O6: ENCODE against the rules in numbers, with a variant above 1 refused (R135). -/
theorem encodeFollowsTheRules : Obligations.EncodeFollowsTheRules := by
  intro s variant addr c hr
  refine ⟨fun hv => encodeOp_badVariant hr (variantOf_none hv), fun v hv => ?_⟩
  rw [frameByRule_payloadByRule]
  cases he : encodeFrame v addr.toNat c s with
  | ok l =>
    refine ⟨fun f hf => ⟨l, ?_, encodeOp_ok hr (variantOf_eq hv) he⟩, fun h => ?_⟩
    · simpa [Except.toOption] using hf
    · simp [Except.toOption] at h
  | error e =>
    obtain rfl := encodeFrame_eq_error he
    exact ⟨fun f hf => by simp [Except.toOption] at hf, fun _ => encodeOp_error hr (variantOf_eq hv) he⟩

/-! ### Parsing what was built (R174..R181) -/

/-- A value below 2^16 is read back from its two little-endian bytes (R93). -/
theorem wireLE16_ofNat {n : Nat} (h : n < 65536) : wireLE16 (BitVec.ofNat 8 n) (BitVec.ofNat 8 (n / 256)) = n := by
  simp only [wireLE16, BitVec.toNat_ofNat]
  omega

theorem ofNat_toNat_of_nonneg {x : Int} (h : 0 ≤ x) : BitVec.ofNat 32 x.toNat = BitVec.ofInt 32 x := by
  rw [← BitVec.ofInt_natCast, Int.toNat_of_nonneg h]

theorem parseVelocity_payload (cap : BitVec 12) (rpm accel : Word) :
    parseVelocity cap (velocityPayload cap rpm.toInt accel.toInt) = some (clampedCmd cap (.velocity rpm accel)) := by
  have hcap := cap.isLt
  have ha := clampInt_bounds accel.toInt (lo := 0) (hi := 255) (by omega)
  have hb3 : BitVec.ofNat 32 (BitVec.ofInt 8 (clampInt accel.toInt 0 255)).toNat
      = BitVec.ofInt 32 (clampInt accel.toInt 0 255) := by
    rw [BitVec.toNat_ofInt, Int.emod_eq_of_lt (by omega) (by omega), ofNat_toNat_of_nonneg ha.1]
  generalize hk : min rpm.toInt.natAbs cap.toNat = k
  have hspeed : k / 256 * 256 + k % 256 % 2 ^ 8 = k := by omega
  obtain ⟨-, hres, hdir, hhigh⟩ := velocityHigh_fields (rpm.toInt < 0 ∧ 0 < k) (k := k / 256) (by omega)
  have hmag : (if rpm.toInt < 0 ∧ 0 < k then -(k : Int) else k)
      = clampInt rpm.toInt (-(cap.toNat : Int)) cap.toNat := by
    unfold clampInt; split <;> omega
  simp only [velocityPayload, parseVelocity, clampedCmd, Config.accelMax, Nat.cast_ofNat, hk, hres, hdir, hhigh, hb3,
    BitVec.toNat_ofNat, hspeed, decide_eq_true_eq, hmag, ne_eq, not_true_eq_false, if_false]
  rw [if_neg (by omega)]

theorem parseWorkingCurrent_writeLE {n : Nat} (h : n ≤ 3000) (code : Byte) :
    parseWorkingCurrent (code :: writeLE 2 n) = some (.workingCurrent (BitVec.ofNat 32 n)) := by
  simp only [writeLE_two, parseWorkingCurrent, wireLE16_ofNat (show n < 65536 by omega)]
  exact if_pos h

theorem parsePidGains_gainBytes (sel code : Byte) (kp ki kd kv : Int) :
    parsePidGains sel (code :: (gainBytes kp ++ gainBytes ki ++ gainBytes kd ++ gainBytes kv))
      = some (.pidGains sel (BitVec.ofInt 32 (clampInt kp 0 1024)) (BitVec.ofInt 32 (clampInt ki 0 1024))
          (BitVec.ofInt 32 (clampInt kd 0 1024)) (BitVec.ofInt 32 (clampInt kv 0 1024))) := by
  have hg (x : Int) := clampInt_bounds x (lo := 0) (hi := 1024) (by omega)
  have hr (x : Int) := wireLE16_ofNat (n := (clampInt x 0 1024).toNat) (by have := hg x; omega)
  have hle (x : Int) : (clampInt x 0 1024).toNat ≤ 1024 := by have := hg x; omega
  simp [gainBytes, writeLE_two, parsePidGains, Config.gainMax, hr, hle, ofNat_toNat_of_nonneg, hg]

/-- A payload is parsed by the row of its code (R124, R173). -/
theorem parseCommand_payload {cap : BitVec 12} {sq : Byte} {c : Cmd} (hsq : sq ∉ Config.fixedCodes)
    (hc : cmdOk c = true) : parseCommand cap sq (c.payload cap sq) = some (clampedCmd cap c) := by
  cases c with
  | velocity rpm accel => exact parseVelocity_payload cap rpm accel
  | enable e =>
    obtain rfl | rfl := cmdOk_enable.mp hc
    all_goals rfl
  | workingCurrent ma =>
    have hm := clampInt_bounds ma.toInt (lo := 0) (hi := 3000) (by omega)
    show parseWorkingCurrent (0x83 :: writeLE 2 (clampInt ma.toInt 0 3000).toNat) = _
    rw [parseWorkingCurrent_writeLE (by omega), ofNat_toNat_of_nonneg hm.1]
    rfl
  | holdingCurrentPercent pct =>
    have hp := clampInt_bounds pct.toInt (lo := 10) (hi := 90) (by omega)
    show parseHoldingCurrentPercent (holdingCurrentPayload pct.toInt) = _
    simp only [holdingCurrentPayload, parseHoldingCurrentPercent, clampedCmd, BitVec.toNat_ofNat]
    rw [if_pos (by omega), ← ofNat_toNat_of_nonneg (by omega)]
    congr 3
    omega
  | pidGains sel kp ki kd kv =>
    obtain rfl | rfl := cmdOk_pidGains.mp hc
    · exact parsePidGains_gainBytes 0 0x96 _ _ _ _
    · exact parsePidGains_gainBytes 1 0x97 _ _ _ _
  | statusQuery =>
    simp only [Config.fixedCodes, List.mem_cons, List.not_mem_nil, or_false, not_or] at hsq
    simp only [Cmd.payload, statusQueryPayload, parseCommand, hsq, if_false, if_true, parseStatusQuery, clampedCmd]

/-- A legal command is its own clamped form (R181). -/
theorem clampedCmd_of_legal {cap : BitVec 12} {c : Cmd} (h : c.legal cap = true) : clampedCmd cap c = c := by
  have hid (x : Word) : BitVec.ofInt 32 x.toInt = x := BitVec.ofInt_toInt
  cases c <;> simp only [Cmd.legal, inRange, Bool.and_eq_true, decide_eq_true_eq, beq_iff_eq] at h
  case velocity rpm accel =>
    simp [clampedCmd, clampInt_of_mem, h, hid]
  case workingCurrent ma => simp [clampedCmd, clampInt_of_mem, h, hid]
  case holdingCurrentPercent pct =>
    have hten : 10 * (pct.toInt / 10) = pct.toInt := by omega
    simp [clampedCmd, clampInt_of_mem, h, hten, hid]
  case pidGains sel kp ki kd kv => simp [clampedCmd, clampInt_of_mem, h, hid]
  all_goals rfl

/-- The code of a payload is known, and a request of that code is as long as the payload (R119, R122, R173). -/
theorem payload_shape {s : State} {c : Cmd} (hsq : s.sqCode ∉ Config.fixedCodes) (hc : cmdOk c = true) :
    ∃ code data, s.payload c = code :: data ∧ s.knownCode code = true
      ∧ reqLen s.sqCode code = some data.length := by
  cases c with
  | pidGains sel kp ki kd kv =>
    refine ⟨_, _, rfl, ?_⟩
    obtain rfl | rfl := cmdOk_pidGains.mp hc
    all_goals exact ⟨rfl, rfl⟩
  | statusQuery =>
    refine ⟨_, _, rfl, by simp [State.knownCode], ?_⟩
    simp only [Config.fixedCodes, List.mem_cons, List.not_mem_nil, or_false, not_or] at hsq
    simp only [reqLen, hsq, if_false, if_true, List.length_nil]
  | _ => exact ⟨_, _, rfl, rfl, rfl⟩

/-! ### What a header announces, and what unframing answers (R113, R116, R120, R171, R172) -/

/-- UnframeCAN or UnframeRS, by the format. -/
def unframe (v : Proto) (f : Bytes) (s : State) : Except Status Unframed :=
  match v with
  | .can => unframeCan f s
  | .rs485 => unframeRs f s

section
variable {s : State} {v : Proto} {f : Bytes} {t n : Nat} {u : Unframed} {e : Status}

theorem decodeFrame_of_unframe_ok (h : unframe v f s = .ok u) : decodeFrame v f s = classify v u s := by
  cases v <;> simp only [unframe] at h <;> simp only [decodeFrame, h]

theorem decodeFrame_of_unframe_error (h : unframe v f s = .error e) : decodeFrame v f s = .error e := by
  cases v <;> simp only [unframe] at h <;> simp only [decodeFrame, h]

theorem announcedAs_can_iff : s.announcedAs .can f = some t
    ↔ 2 ≤ f.length ∧ plausibleCan s.ctrlHi (f.getD 0 0) (f.getD 1 0) = true
      ∧ ((f.getD 1 0).extractLsb' 0 4).toNat + 5 = t := by
  simp only [State.announcedAs, Option.ite_none_right_eq_some, Option.some.injEq, and_assoc]

theorem announcedAs_rs485_iff : s.announcedAs .rs485 f = some t
    ↔ 3 ≤ f.length ∧ ∃ n, s.rsLen (f.getD 0 0) (f.getD 2 0) = some n ∧ n + 4 = t := by
  simp only [State.announcedAs, Option.ite_none_right_eq_some, Option.map_eq_some_iff]

theorem validAs_can_iff : s.validAs .can f = true
    ↔ s.announcedAs .can f = some f.length ∧ validCan f = true := by
  unfold State.validAs
  cases s.announcedAs .can f with
  | none => simp
  | some t => simp only [Bool.and_eq_true, beq_iff_eq, Option.some.injEq, eq_comm (a := t)]

theorem validAs_rs485_iff : s.validAs .rs485 f = true
    ↔ s.announcedAs .rs485 f = some f.length ∧ rsChkOk (f.length - 4) f = true := by
  unfold State.validAs
  cases s.announcedAs .rs485 f with
  | none => simp
  | some t =>
    simp only [Bool.and_eq_true, beq_iff_eq, Option.some.injEq]
    constructor <;> rintro ⟨rfl, hv⟩ <;> exact ⟨rfl, hv⟩

theorem plausibleCan_marker {hi : BitVec 4} {b0 b1 : Byte} (h : plausibleCan hi b0 b1 = true) : b0 = 0xAA := by
  simp only [plausibleCan, Bool.and_eq_true, beq_iff_eq] at h
  exact h.1.1.1

theorem rsLen_marker {b0 code : Byte} (h : s.rsLen b0 code = some n) : b0 = 0xFA ∨ b0 = 0xFB := by
  by_contra hm
  obtain ⟨h1, h2⟩ := not_or.mp hm
  rw [State.rsLen, if_neg h1, if_neg h2] at h
  cases h

theorem unframe_notMarker (hf : f ≠ []) (hm : f.getD 0 0 ∉ startMarkers v) :
    unframe v f s = .error .checksumMismatch := by
  have hl : f.length ≠ 0 := by simpa using hf
  cases v with
  | can =>
    have hm : f.getD 0 0 ≠ 0xAA := by simpa only [startMarkers, List.mem_singleton] using hm
    simp only [unframe, unframeCan, if_neg hl, if_pos hm]
  | rs485 =>
    have hm : f.getD 0 0 ≠ 0xFA ∧ f.getD 0 0 ≠ 0xFB := by
      simpa only [startMarkers, List.mem_cons, List.not_mem_nil, or_false, not_or] using hm
    simp only [unframe, unframeRs, if_neg hl, if_pos hm]

/-- A header of the format with enough bytes that announces no length. -/
theorem unframe_noLength (hm : f.getD 0 0 ∈ startMarkers v) (hl : headerLength v ≤ f.length)
    (ha : s.announcedAs v f = none) :
    unframe v f s = .error (if v = .can then .checksumMismatch else .unknownCommand) := by
  cases v with
  | can =>
    have hm : f.getD 0 0 = 0xAA := by simpa only [startMarkers, List.mem_singleton] using hm
    simp only [headerLength] at hl
    have hp : (!plausibleCan s.ctrlHi (f.getD 0 0) (f.getD 1 0)) = true := by
      simpa [State.announcedAs, hl] using ha
    simp only [unframe, unframeCan, if_neg (show f.length ≠ 0 by omega), if_neg (not_not.mpr hm),
      if_neg (show ¬ f.length < 2 by omega), if_pos hp, if_true]
  | rs485 =>
    have hm : ¬ (f.getD 0 0 ≠ 0xFA ∧ f.getD 0 0 ≠ 0xFB) := by
      simpa only [startMarkers, List.mem_cons, List.not_mem_nil, or_false, ← not_or, not_not] using hm
    simp only [headerLength] at hl
    have hn : s.rsLen (f.getD 0 0) (f.getD 2 0) = none := by
      simpa only [State.announcedAs, if_pos hl, Option.map_eq_none_iff] using ha
    simp only [unframe, unframeRs, if_neg (show f.length ≠ 0 by omega), if_neg hm,
      if_neg (show ¬ f.length < 3 by omega), hn, reduceCtorEq, if_false]

theorem unframeCan_of_announced (ha : s.announcedAs .can f = some t) :
    unframe .can f s =
      if f.length < t then .error .truncated
      else if s.validAs .can f then .ok ⟨f.getD 0 0, addressIn .can f, payloadIn .can f⟩
      else .error .checksumMismatch := by
  obtain ⟨h2, hp, hlen⟩ := announcedAs_can_iff.mp ha
  obtain ⟨h1, -⟩ := plausibleCan_bounds _ _ _ hp
  have hN : ctrlN (f.getD 1 0) + 6 = t := by unfold ctrlN; omega
  have hm := plausibleCan_marker hp
  simp only [unframe, unframeCan, if_neg (show f.length ≠ 0 by omega), if_neg (not_not.mpr hm),
    if_neg (show ¬ f.length < 2 by omega), hp, Bool.not_true, Bool.false_eq_true, if_false, hN]
  by_cases hlt : f.length < t
  · rw [if_pos hlt, if_pos hlt]
  rw [if_neg hlt, if_neg hlt]
  by_cases hgt : t < f.length
  · have hv : ¬ s.validAs .can f = true := fun hv => by
      have := ha.symm.trans (validAs_can_iff.mp hv).1
      simp at this; omega
    rw [if_pos hgt, if_neg hv]
  · obtain rfl : t = f.length := by omega
    have hv : s.validAs .can f = validCan f := Bool.eq_iff_iff.mpr (by rw [validAs_can_iff]; simp [ha])
    have hpay : canPayload (ctrlN (f.getD 1 0)) f = payloadIn .can f := by
      rw [show ctrlN (f.getD 1 0) = f.length - 6 by omega]
      rfl
    rw [if_neg hgt, hv, validCan]
    cases canIdHiOk f
    · simp
    cases canCrcOk (ctrlN (f.getD 1 0)) f
    · simp
    by_cases hend : f.getD (5 + ctrlN (f.getD 1 0)) 0 = 0x55
    · rw [hpay, hend, hm]
      rfl
    · rw [beq_false_of_ne hend, if_pos hend]
      rfl

theorem unframeRs_of_announced (ha : s.announcedAs .rs485 f = some t) :
    unframe .rs485 f s =
      if f.length < t then .error .truncated
      else if s.validAs .rs485 f then .ok ⟨f.getD 0 0, addressIn .rs485 f, payloadIn .rs485 f⟩
      else .error .checksumMismatch := by
  obtain ⟨h3, n, hn, rfl⟩ := announcedAs_rs485_iff.mp ha
  have hm : ¬ (f.getD 0 0 ≠ 0xFA ∧ f.getD 0 0 ≠ 0xFB) := by
    simpa only [← not_or, not_not] using rsLen_marker hn
  simp only [unframe, unframeRs, if_neg (show f.length ≠ 0 by omega), if_neg hm,
    if_neg (show ¬ f.length < 3 by omega), hn]
  by_cases hlt : f.length < n + 4
  · rw [if_pos hlt, if_pos hlt]
  rw [if_neg hlt, if_neg hlt]
  by_cases hgt : n + 4 < f.length
  · have hv : ¬ s.validAs .rs485 f = true := fun hv => by
      have := ha.symm.trans (validAs_rs485_iff.mp hv).1
      simp at this; omega
    rw [if_pos hgt, if_neg hv]
  · have hlen : f.length = n + 4 := by omega
    have hv : s.validAs .rs485 f = rsChkOk n f :=
      Bool.eq_iff_iff.mpr (by rw [validAs_rs485_iff, ha, hlen]; simp)
    rw [if_neg hgt, hv]
    cases h5 : rsChkOk n f <;> simp [addressIn, payloadIn, hlen]

/-- After a header that announces a length, the length decides, then the checks of the frame (R171, R172). -/
theorem unframe_of_announced (ha : s.announcedAs v f = some t) :
    unframe v f s =
      if f.length < t then .error .truncated
      else if s.validAs v f then .ok ⟨f.getD 0 0, addressIn v f, payloadIn v f⟩
      else .error .checksumMismatch := by
  cases v with
  | can => exact unframeCan_of_announced ha
  | rs485 => exact unframeRs_of_announced ha

theorem announcedAs_of_validAs (h : s.validAs v f = true) : s.announcedAs v f = some f.length := by
  cases v with
  | can => exact (validAs_can_iff.mp h).1
  | rs485 => exact (validAs_rs485_iff.mp h).1

/-- DECODE of a valid frame classifies what the frame carries. -/
theorem decodeFrame_of_valid (h : s.validAs v f = true) :
    decodeFrame v f s = classify v ⟨f.getD 0 0, addressIn v f, payloadIn v f⟩ s :=
  decodeFrame_of_unframe_ok (by rw [unframe_of_announced (announcedAs_of_validAs h), if_neg (lt_irrefl _), if_pos h])

theorem decodeFrame_of_short (ha : s.announcedAs v f = some t) (hl : f.length < t) :
    decodeFrame v f s = .error .truncated :=
  decodeFrame_of_unframe_error (by rw [unframe_of_announced ha, if_pos hl])

theorem decodeFrame_of_invalid (ha : s.announcedAs v f = some t) (hl : t ≤ f.length) (hv : ¬ s.validAs v f = true) :
    decodeFrame v f s = .error .checksumMismatch :=
  decodeFrame_of_unframe_error (by rw [unframe_of_announced ha, if_neg (by omega), if_neg hv])

theorem decodeFrame_of_notMarker (hf : f ≠ []) (hm : f.getD 0 0 ∉ startMarkers v) :
    decodeFrame v f s = .error .checksumMismatch :=
  decodeFrame_of_unframe_error (unframe_notMarker hf hm)

theorem decodeFrame_of_noLength (hm : f.getD 0 0 ∈ startMarkers v) (hl : headerLength v ≤ f.length)
    (ha : s.announcedAs v f = none) :
    decodeFrame v f s = .error (if v = .can then .checksumMismatch else .unknownCommand) :=
  decodeFrame_of_unframe_error (unframe_noLength hm hl ha)

end

/-! ### Checksums (R115, R118) -/

theorem sum8_cons (x : Byte) (l : Bytes) : sum8 (x :: l) = x + sum8 l := by
  simp [sum8, sumNat, BitVec.ofNat_add]

/-- The upper identifier bits are multiples of 256: the CRC sees the low byte of the identifier only (R115). -/
theorem canCrc_canId (f p : Bytes) : canCrc (canId f) p = f.getD 2 0 + sum8 p := by
  apply BitVec.eq_of_toNat_eq
  simp only [canCrc, canId, sum8, BitVec.toNat_add, BitVec.toNat_ofNat]
  omega

/-- An ID_HI byte below 8 has its reserved bits 0 and is the upper part of the identifier (R114). -/
theorem idHi_fields {k : Nat} (hk : k < 8) :
    (BitVec.ofNat 8 k).extractLsb' 3 5 = 0 ∧ ((BitVec.ofNat 8 k).extractLsb' 0 3).toNat = k := by
  revert k; decide

theorem validCan_iff (f : Bytes) : validCan f = true
    ↔ (f.getD 3 0).extractLsb' 3 5 = 0
      ∧ f.getD (4 + ctrlN (f.getD 1 0)) 0 = f.getD 2 0 + sum8 (canPayload (ctrlN (f.getD 1 0)) f)
      ∧ f.getD (5 + ctrlN (f.getD 1 0)) 0 = 0x55 := by
  simp only [validCan, canIdHiOk, canCrcOk, canCrc_canId, Bool.and_eq_true, beq_iff_eq, and_assoc]

/-! ### Frames that were built are valid (R111, R117, R162, R163) -/

theorem ctrlN_ctrlByte (hi : BitVec 4) {n : Nat} (hn : n ≤ 8) : ctrlN (ctrlByte hi n) = n := by
  rw [ctrlN, (ctrlByte_fields hi hn).2.2, Nat.add_sub_cancel]

section
variable {s : State} {addr : Nat} {p : Bytes}

theorem frameCan_length (hi : BitVec 4) : (frameCan hi addr p).length = p.length + 6 := by
  simp [frameCan]

theorem frameCan_getD_payload (hi : BitVec 4) (k : Nat) :
    (frameCan hi addr p).getD (4 + p.length + k) 0 = [canCrc addr p, 0x55].getD k 0 := by
  rw [frameCan, show 4 + p.length + k = ([0xAA, ctrlByte hi p.length, BitVec.ofNat 8 (addr % 256),
    BitVec.ofNat 8 (addr / 256)] ++ p).length + k by simp; omega]
  simp only [List.getD_eq_getElem?_getD, List.getElem?_append_right (Nat.le_add_right _ _), Nat.add_sub_cancel_left]

theorem payload_frameCan (hi : BitVec 4) : ((frameCan hi addr p).drop 4).take p.length = p := by
  simp [frameCan]

theorem canId_frameCan (hi : BitVec 4) (h : addr ≤ 0x7FF) : canId (frameCan hi addr p) = addr := by
  show (BitVec.ofNat 8 (addr % 256)).toNat + 256 * ((BitVec.ofNat 8 (addr / 256)).extractLsb' 0 3).toNat = addr
  rw [(idHi_fields (k := addr / 256) (by omega)).2, BitVec.toNat_ofNat]
  omega

theorem validAs_frameCan (h1 : addr ≤ 0x7FF) (h2 : p.length ≤ 8) :
    s.validAs .can (frameCan s.ctrlHi addr p) = true := by
  obtain ⟨-, hhi, hL⟩ := ctrlByte_fields s.ctrlHi h2
  have hb1 : (frameCan s.ctrlHi addr p).getD 1 0 = ctrlByte s.ctrlHi p.length := rfl
  have hp : plausibleCan s.ctrlHi 0xAA (ctrlByte s.ctrlHi p.length) = true := by
    simp only [plausibleCan, hhi, hL, BEq.rfl, Bool.true_and, Bool.and_eq_true, decide_eq_true_eq]
    omega
  refine validAs_can_iff.mpr ⟨announcedAs_can_iff.mpr ⟨?_, hp, ?_⟩, ?_⟩
  · rw [frameCan_length]; omega
  · rw [frameCan_length, hb1, hL]
  · simp only [validCan, canIdHiOk, canCrcOk, hb1, ctrlN_ctrlByte s.ctrlHi h2, canPayload, payload_frameCan,
      canId_frameCan s.ctrlHi h1, Bool.and_eq_true, beq_iff_eq]
    refine ⟨⟨(idHi_fields (k := addr / 256) (by omega)).1, frameCan_getD_payload s.ctrlHi 0⟩, ?_⟩
    rw [show 5 + p.length = 4 + p.length + 1 by omega]
    exact frameCan_getD_payload s.ctrlHi 1

theorem validAs_frameRs {code : Byte} {data : Bytes} (h : reqLen s.sqCode code = some data.length) :
    s.validAs .rs485 (frameRs addr (code :: data)) = true := by
  have hlen : (frameRs addr (code :: data)).length = data.length + 4 := by simp [frameRs]
  refine validAs_rs485_iff.mpr ⟨announcedAs_rs485_iff.mpr ⟨by omega, data.length, ?_, hlen.symm⟩, ?_⟩
  · exact h
  · rw [hlen]
    simp [rsChkOk, frameRs]

end

/-- What a built frame carries: the request marker, the address and the payload. -/
theorem decodeFrame_frameOf {s : State} {v : Proto} {addr : Nat} {code : Byte} {data : Bytes}
    (ha : addrOk v addr = true) (hp : payloadFits v (code :: data) = true)
    (hr : reqLen s.sqCode code = some data.length) :
    decodeFrame v (frameOf v s.ctrlHi addr (code :: data)) s
      = classify v ⟨requestMarker v, addr, code :: data⟩ s := by
  cases v with
  | can =>
    rw [addrOk_can] at ha
    rw [payloadFits_can] at hp
    rw [frameOf, decodeFrame_of_valid (validAs_frameCan ha.2 hp)]
    congr
    · exact canId_frameCan s.ctrlHi ha.2
    · rw [payloadIn, frameCan_length, Nat.add_sub_cancel, payload_frameCan]
  | rs485 =>
    rw [addrOk_rs485] at ha
    rw [frameOf, decodeFrame_of_valid (validAs_frameRs hr)]
    congr 1
    simp [frameRs, addressIn, payloadIn, requestMarker]
    omega

/-- A request of a known code that is the payload of a command is classified as that command (R173). -/
theorem classify_request {s : State} {v : Proto} {addr : Nat} {code : Byte} {data : Bytes} {c : Cmd}
    (hk : s.knownCode code = true) (hc : parseCommand s.velCap s.sqCode (code :: data) = some c) :
    classify v ⟨requestMarker v, addr, code :: data⟩ s
      = .ok ⟨some c, requestMarker v, BitVec.ofNat 16 addr, code, data⟩ := by
  have hm : ¬ (v = .rs485 ∧ requestMarker v = 0xFB) := by cases v <;> decide
  simp only [classify, hk, Bool.not_true, Bool.false_eq_true, if_false, hm, hc]

theorem payloadFits_payload {s : State} {v : Proto} {c : Cmd}
    (h : ∀ sel kp ki kd kv, c = .pidGains sel kp ki kd kv → v = .rs485) : payloadFits v (s.payload c) = true := by
  cases v with
  | rs485 => rfl
  | can =>
    rw [payloadFits_can]
    cases c with
    | pidGains sel kp ki kd kv => cases h _ _ _ _ _ rfl
    | _ => exact show _ ≤ 8 from Nat.le_of_ble_eq_true rfl

/-- DECODE inverts ENCODE at the level of the two functions (R181). -/
theorem decodeFrame_encodeFrame {s : State} {v : Proto} {addr : Half} {c : Cmd}
    (hsq : s.sqCode ∉ Config.fixedCodes) (ha : addrOk v addr.toNat = true) (hc : cmdOk c = true)
    (hp : payloadFits v (s.payload c) = true) :
    ∃ f, encodeFrame v addr.toNat c s = .ok f ∧ decodeFrame v f s
      = .ok ⟨some (clampedCmd s.velCap c), requestMarker v, addr, (s.payload c).headD 0, (s.payload c).tail⟩ := by
  refine ⟨_, by rw [encodeFrame, ha, hc, hp]; rfl, ?_⟩
  obtain ⟨code, data, hcd, hk, hr⟩ := payload_shape (s := s) hsq hc
  have hparse : parseCommand s.velCap s.sqCode (s.payload c) = some (clampedCmd s.velCap c) :=
    parseCommand_payload hsq hc
  rw [hcd] at hp hparse ⊢
  rw [decodeFrame_frameOf ha hp hr, classify_request hk hparse, BitVec.ofNat_toNat, BitVec.setWidth_eq]
  rfl

/-- Settles O8: the frame is built, unframed and parsed, and a legal command is not clamped (R181). -/
theorem decodeInvertsEncode : Obligations.DecodeInvertsEncode := by
  intro s variant v addr c hr hsq hv hlo hhi hen hpid
  have ha : addrOk v addr.toNat = true := by
    obtain ⟨-, rfl⟩ | ⟨-, rfl⟩ := hv
    · exact (addrOk_can _).mpr ⟨hlo, hhi⟩
    · exact (addrOk_rs485 _).mpr ⟨hlo, hhi⟩
  have hc : cmdOk c = true := by
    cases c with
    | enable e => exact cmdOk_enable.mpr (hen e rfl)
    | pidGains sel kp ki kd kv => exact cmdOk_pidGains.mpr (hpid sel kp ki kd kv rfl).2
    | _ => rfl
  obtain ⟨f, he, hd⟩ := decodeFrame_encodeFrame hsq ha hc
    (payloadFits_payload fun sel kp ki kd kv e => (hpid sel kp ki kd kv e).1)
  exact ⟨f, encodeOp_ok hr (variantOf_eq hv) he, decodeOp_ok hr (variantOf_eq hv) hd, clampedCmd_of_legal⟩

/-! ### One changed byte (R182) -/

theorem getD_set_self {f : Bytes} {i : Nat} (b : Byte) (h : i < f.length) : (f.set i b).getD i 0 = b := by
  simp [h]

theorem getD_set_ne {f : Bytes} {i j : Nat} (b : Byte) (h : i ≠ j) : (f.set i b).getD j 0 = f.getD j 0 := by
  simp [List.getElem?_set_ne h]

/-- A changed byte changes the sum of the bytes modulo 256. -/
theorem sum8_set_ne {l : Bytes} {i : Nat} {b : Byte} (hi : i < l.length) (hb : b ≠ l.getD i 0) :
    sum8 (l.set i b) ≠ sum8 l := by
  induction l generalizing i with
  | nil => simp at hi
  | cons x l ih =>
    cases i with
    | zero => simpa [sum8_cons] using hb
    | succ i => simpa [sum8_cons] using ih (by simpa using hi) (by simpa using hb)

/-- A CTRL byte is determined by its two fields (R112). -/
theorem ctrl_eq_of_fields {b c : Byte} (hhi : b.extractLsb' 4 4 = c.extractLsb' 4 4)
    (hlo : (b.extractLsb' 0 4).toNat = (c.extractLsb' 0 4).toNat) : b = c := by
  have hhi := congrArg BitVec.toNat hhi
  apply BitVec.eq_of_toNat_eq
  simp [BitVec.extractLsb'_toNat, Nat.shiftRight_eq_div_pow] at hhi hlo
  omega

theorem plausibleCan_ctrlHi {hi : BitVec 4} {b0 b1 : Byte} (h : plausibleCan hi b0 b1 = true) :
    b1.extractLsb' 4 4 = hi := by
  simp only [plausibleCan, Bool.and_eq_true, beq_iff_eq] at h
  exact h.1.1.2

section
variable {s : State} {f : Bytes} {i : Nat} {b : Byte} {t : Nat}

theorem announcedAs_can_set (h0 : i ≠ 0) (h1 : i ≠ 1) : s.announcedAs .can (f.set i b) = s.announcedAs .can f := by
  simp only [State.announcedAs, List.length_set, getD_set_ne b h0, getD_set_ne b h1]

theorem announcedAs_rs485_set (h0 : i ≠ 0) (h2 : i ≠ 2) :
    s.announcedAs .rs485 (f.set i b) = s.announcedAs .rs485 f := by
  simp only [State.announcedAs, List.length_set, getD_set_ne b h0, getD_set_ne b h2]

/-- A change behind the payload or before it leaves the payload. -/
theorem canPayload_set_outside {n : Nat} (h : i < 4 ∨ 4 + n ≤ i) : canPayload n (f.set i b) = canPayload n f := by
  obtain h | h := h
  · simp [canPayload, List.drop_set_of_lt h]
  · simp only [canPayload, List.drop_set, if_neg (show ¬ i < 4 by omega)]
    exact List.take_set_of_le (by omega)

theorem canPayload_set_inside {n : Nat} (h : 4 ≤ i) :
    canPayload n (f.set i b) = (canPayload n f).set (i - 4) b := by
  simp only [canPayload, List.drop_set, if_neg (show ¬ i < 4 by omega), List.take_set]

/-- The identifier's low byte, the payload and the CRC are covered by the CRC, and the last byte is checked (R182). -/
theorem validCan_set (hv : validCan f = true) (hlen : f.length = ctrlN (f.getD 1 0) + 6) (hi : i = 2 ∨ 4 ≤ i)
    (hil : i < f.length) (hb : b ≠ f.getD i 0) : ¬ validCan (f.set i b) = true := by
  rw [validCan_iff] at hv ⊢
  rw [getD_set_ne b (show i ≠ 1 by omega)]
  generalize hn : ctrlN (f.getD 1 0) = n at hv hlen ⊢
  obtain ⟨-, hcrc, hend⟩ := hv
  rintro ⟨-, hcrc', hend'⟩
  obtain rfl | hi | rfl | rfl : i = 2 ∨ (4 ≤ i ∧ i < 4 + n) ∨ i = 4 + n ∨ i = 5 + n := by omega
  · rw [getD_set_ne b (by omega), getD_set_self b hil, canPayload_set_outside (by omega), hcrc] at hcrc'
    exact hb (by simpa using hcrc'.symm)
  · rw [getD_set_ne b (by omega), getD_set_ne b (by omega), canPayload_set_inside hi.1, hcrc] at hcrc'
    refine sum8_set_ne (l := canPayload n f) (i := i - 4) (b := b) ?_ ?_ (by simpa using hcrc'.symm)
    · simp [canPayload]; omega
    · have hget : (canPayload n f).getD (i - 4) 0 = f.getD i 0 := by
        rw [canPayload, getD_take _ _ _ (by omega)]
        simp [show 4 + (i - 4) = i by omega]
      rwa [hget]
  · rw [getD_set_self b hil, getD_set_ne b (by omega), canPayload_set_outside (by omega)] at hcrc'
    exact hb (hcrc'.trans hcrc.symm)
  · rw [getD_set_self b hil] at hend'
    exact hb (hend'.trans hend.symm)

theorem rsChkOk_set {n : Nat} (hv : rsChkOk n f = true) (hlen : f.length = n + 4) (hil : i < f.length)
    (hb : b ≠ f.getD i 0) : ¬ rsChkOk n (f.set i b) = true := by
  simp only [rsChkOk, beq_iff_eq] at hv ⊢
  intro hv'
  obtain hi | rfl : i < n + 3 ∨ i = n + 3 := by omega
  · rw [getD_set_ne b (by omega), List.take_set, hv] at hv'
    refine sum8_set_ne ?_ ?_ hv'.symm
    · simp; omega
    · rwa [getD_take _ _ _ hi]
  · rw [getD_set_self b hil, List.take_set_of_le (le_refl _)] at hv'
    exact hb (hv'.trans hv.symm)

/-- A valid CAN frame, taken apart: its header, its length and its checks (R113, R116). -/
theorem validAs_can_spec (h : s.validAs .can f = true) :
    f.getD 0 0 = 0xAA ∧ plausibleCan s.ctrlHi 0xAA (f.getD 1 0) = true
      ∧ ((f.getD 1 0).extractLsb' 0 4).toNat + 5 = f.length ∧ f.length = ctrlN (f.getD 1 0) + 6
      ∧ validCan f = true := by
  obtain ⟨ha, hv⟩ := validAs_can_iff.mp h
  obtain ⟨-, hp, hlen⟩ := announcedAs_can_iff.mp ha
  obtain ⟨h1, -⟩ := plausibleCan_bounds _ _ _ hp
  have hm := plausibleCan_marker hp
  exact ⟨hm, hm ▸ hp, hlen, by unfold ctrlN; omega, hv⟩

theorem validAs_rs485_spec (h : s.validAs .rs485 f = true) :
    (f.getD 0 0 = 0xFA ∨ f.getD 0 0 = 0xFB) ∧ 4 ≤ f.length ∧ rsChkOk (f.length - 4) f = true := by
  obtain ⟨ha, hv⟩ := validAs_rs485_iff.mp h
  obtain ⟨-, n, hn, hlen⟩ := announcedAs_rs485_iff.mp ha
  exact ⟨rsLen_marker hn, by omega, hv⟩

/-! #### CAN, index by index -/

theorem decodeFrame_can_set_marker (hil : 0 < f.length) (hb : b ≠ 0xAA) :
    decodeFrame .can (f.set 0 b) s = .error .checksumMismatch := by
  refine decodeFrame_of_notMarker (by simpa using List.ne_nil_of_length_pos hil) ?_
  rw [getD_set_self b hil]
  simpa only [startMarkers, List.mem_singleton] using hb

/-- A changed CTRL byte announces another length, or nothing (R112, R113). -/
theorem decodeFrame_can_set_ctrl (h : s.validAs .can f = true) (hb : b ≠ f.getD 1 0) :
    decodeFrame .can (f.set 1 b) s
      = .error (if plausibleCan s.ctrlHi 0xAA b = true ∧ f.length < (b.extractLsb' 0 4).toNat + 5 then .truncated
          else .checksumMismatch) := by
  obtain ⟨hm, hp, hL, hN, -⟩ := validAs_can_spec h
  have hm' : (f.set 1 b).getD 0 0 = 0xAA := (getD_set_ne b (by omega)).trans hm
  have hb' : (f.set 1 b).getD 1 0 = b := getD_set_self b (by omega)
  have hlen : (f.set 1 b).length = f.length := List.length_set
  by_cases hpb : plausibleCan s.ctrlHi 0xAA b = true
  · have ha : s.announcedAs .can (f.set 1 b) = some ((b.extractLsb' 0 4).toNat + 5) :=
      announcedAs_can_iff.mpr ⟨by omega, by rw [hm', hb']; exact hpb, by rw [hb']⟩
    by_cases hlt : f.length < (b.extractLsb' 0 4).toNat + 5
    · rw [if_pos ⟨hpb, hlt⟩, decodeFrame_of_short ha (by omega)]
    · rw [if_neg fun hc => hlt hc.2, decodeFrame_of_invalid ha (by omega) fun hv => ?_]
      have hsame := ha.symm.trans (announcedAs_of_validAs hv)
      rw [Option.some.injEq, hlen] at hsame
      exact hb (ctrl_eq_of_fields ((plausibleCan_ctrlHi hpb).trans (plausibleCan_ctrlHi hp).symm) (by omega))
  · have ha : s.announcedAs .can (f.set 1 b) = none := by
      simp only [State.announcedAs, hm', hb', hpb, and_false, Bool.false_eq_true, if_false]
    rw [if_neg fun hc => hpb hc.1, decodeFrame_of_noLength (by rw [hm']; exact List.mem_singleton_self _)
      (by rw [hlen]; simp only [headerLength]; omega) ha]
    rfl

/-- Behind the CTRL byte the announced length stays, so a frame that fails a check is a ChecksumMismatch. -/
theorem decodeFrame_can_set_invalid (h : s.validAs .can f = true) (hi : 2 ≤ i)
    (hv : ¬ validCan (f.set i b) = true) : decodeFrame .can (f.set i b) s = .error .checksumMismatch := by
  have ha : s.announcedAs .can (f.set i b) = some f.length :=
    (announcedAs_can_set (by omega) (by omega)).trans (announcedAs_of_validAs h)
  exact decodeFrame_of_invalid ha (by simp) fun hg => hv (validAs_can_iff.mp hg).2

theorem decodeFrame_can_set_covered (h : s.validAs .can f = true) (hi : i = 2 ∨ 4 ≤ i) (hil : i < f.length)
    (hb : b ≠ f.getD i 0) : decodeFrame .can (f.set i b) s = .error .checksumMismatch := by
  obtain ⟨-, -, -, hlen, hv⟩ := validAs_can_spec h
  exact decodeFrame_can_set_invalid h (by omega) (validCan_set hv hlen hi hil hb)

theorem decodeFrame_can_set_idHi_reserved (h : s.validAs .can f = true) (hb : b.extractLsb' 3 5 ≠ 0) :
    decodeFrame .can (f.set 3 b) s = .error .checksumMismatch := by
  obtain ⟨-, -, -, hlen, -⟩ := validAs_can_spec h
  refine decodeFrame_can_set_invalid h (by omega) fun hv => hb ?_
  have hid := ((validCan_iff _).mp hv).1
  rwa [getD_set_self b (by omega)] at hid

/-- The classification does not read the address (R173). -/
theorem classify_addr (v : Proto) (m : Byte) (a a' : Nat) (p : Bytes) (s : State) :
    classify v ⟨m, a', p⟩ s = (classify v ⟨m, a, p⟩ s).map fun d => { d with addr := BitVec.ofNat 16 a' } := by
  cases p with
  | nil => rfl
  | cons code data =>
    simp only [classify]
    cases s.knownCode code
    · rfl
    by_cases hm : v = .rs485 ∧ m = 0xFB
    · simp only [Bool.not_true, Bool.false_eq_true, if_false, if_pos hm]
      rfl
    cases parseCommand s.velCap s.sqCode (code :: data) with
    | some c =>
      simp only [Bool.not_true, Bool.false_eq_true, if_false, if_neg hm]
      rfl
    | none =>
      simp only [Bool.not_true, Bool.false_eq_true, if_false, if_neg hm]
      cases v <;> rfl

/-- The CRC does not see ID_HI: the frame stays valid and only its identifier changes (R182). -/
theorem decodeFrame_can_set_idHi (h : s.validAs .can f = true) (hb : b.extractLsb' 3 5 = 0) :
    decodeFrame .can (f.set 3 b) s = (decodeFrame .can f s).map fun d =>
      { d with addr := BitVec.ofNat 16 ((f.getD 2 0).toNat + 256 * (b.extractLsb' 0 3).toNat) } := by
  obtain ⟨-, -, -, hlen, hv⟩ := validAs_can_spec h
  have hb3 : (f.set 3 b).getD 3 0 = b := getD_set_self b (by omega)
  have hother {j : Nat} (hj : 3 ≠ j) : (f.set 3 b).getD j 0 = f.getD j 0 := getD_set_ne b hj
  have hg : s.validAs .can (f.set 3 b) = true := by
    rw [validAs_can_iff, announcedAs_can_set (by omega) (by omega), List.length_set, validCan_iff, hb3,
      hother (by omega), hother (by omega), hother (by omega), hother (by omega), canPayload_set_outside (by omega)]
    exact ⟨announcedAs_of_validAs h, hb, ((validCan_iff f).mp hv).2⟩
  have hpay : payloadIn .can (f.set 3 b) = payloadIn .can f := by
    rw [payloadIn, List.length_set]; exact canPayload_set_outside (by omega)
  have haddr : addressIn .can (f.set 3 b) = (f.getD 2 0).toNat + 256 * (b.extractLsb' 0 3).toNat := by
    simp only [addressIn, hb3, hother (show 3 ≠ 2 by omega)]
  rw [decodeFrame_of_valid hg, decodeFrame_of_valid h, hpay, haddr, hother (by omega)]
  exact classify_addr _ _ _ _ _ _

/-! #### RS485, index by index -/

theorem not_validAs_rs485_set (h : s.validAs .rs485 f = true) (hil : i < f.length) (hb : b ≠ f.getD i 0) :
    ¬ s.validAs .rs485 (f.set i b) = true := by
  obtain ⟨-, hlen, hv⟩ := validAs_rs485_spec h
  intro hg
  obtain ⟨-, hv'⟩ := validAs_rs485_iff.mp hg
  rw [List.length_set] at hv'
  exact rsChkOk_set hv (by omega) hil hb hv'

theorem decodeFrame_rs485_set_covered (h : s.validAs .rs485 f = true) (hi : i = 1 ∨ 3 ≤ i) (hil : i < f.length)
    (hb : b ≠ f.getD i 0) : decodeFrame .rs485 (f.set i b) s = .error .checksumMismatch := by
  have ha : s.announcedAs .rs485 (f.set i b) = some f.length :=
    (announcedAs_rs485_set (by omega) (by omega)).trans (announcedAs_of_validAs h)
  exact decodeFrame_of_invalid ha (by simp) (not_validAs_rs485_set h hil hb)

theorem decodeFrame_rs485_set_marker (hil : 0 < f.length) (h1 : b ≠ 0xFA) (h2 : b ≠ 0xFB) :
    decodeFrame .rs485 (f.set 0 b) s = .error .checksumMismatch := by
  refine decodeFrame_of_notMarker (by simpa using List.ne_nil_of_length_pos hil) ?_
  rw [getD_set_self b hil]
  simpa only [startMarkers, List.mem_cons, List.not_mem_nil, or_false, not_or] using ⟨h1, h2⟩

/-- A changed marker or code for which no length is defined (R119). -/
theorem decodeFrame_rs485_set_noLength (h : s.validAs .rs485 f = true)
    (hm : (f.set i b).getD 0 0 ∈ startMarkers .rs485)
    (hn : s.rsLen ((f.set i b).getD 0 0) ((f.set i b).getD 2 0) = none) :
    decodeFrame .rs485 (f.set i b) s = .error .unknownCommand := by
  obtain ⟨-, hlen, -⟩ := validAs_rs485_spec h
  refine decodeFrame_of_noLength hm (by simp only [headerLength, List.length_set]; omega) ?_
  simp only [State.announcedAs, hn, Option.map_none, ite_self]

/-- A changed marker or code announces a length: a longer frame is cut off, and at any other length the frame fails a
check, the checksum at the length it had (R118, R120). -/
theorem decodeFrame_rs485_set_length {k : Nat} (h : s.validAs .rs485 f = true) (hil : i < f.length)
    (hb : b ≠ f.getD i 0) (hk : s.rsLen ((f.set i b).getD 0 0) ((f.set i b).getD 2 0) = some k) :
    decodeFrame .rs485 (f.set i b) s = .error (if f.length < k + 4 then .truncated else .checksumMismatch) := by
  obtain ⟨-, hlen, -⟩ := validAs_rs485_spec h
  have hlen' : (f.set i b).length = f.length := List.length_set
  have ha : s.announcedAs .rs485 (f.set i b) = some (k + 4) := announcedAs_rs485_iff.mpr ⟨by omega, k, hk, rfl⟩
  by_cases hlt : f.length < k + 4
  · rw [if_pos hlt, decodeFrame_of_short ha (by omega)]
  · rw [if_neg hlt, decodeFrame_of_invalid ha (by omega) (not_validAs_rs485_set h hil hb)]

end

/-- Settles O9: the two tables of R182, index by index. -/
theorem singleByteCorruption : Obligations.SingleByteCorruption := by
  intro s f i b hr hil hb
  refine ⟨fun h => ⟨fun hi => ?_, fun hi => ?_, fun hi => ?_⟩,
    fun h => ⟨fun hi => ?_, fun hi h1 h2 => ?_, fun hi => ?_⟩⟩
  · refine decodeOp_error hr rfl ?_
    obtain rfl | hi := hi
    · exact decodeFrame_can_set_marker hil fun e => hb (e.trans (validAs_can_spec h).1.symm)
    · exact decodeFrame_can_set_covered h hi hil hb
  · subst hi
    have hd := decodeFrame_can_set_ctrl h hb
    refine ⟨fun hp hl => ?_, fun hp hl => ?_, fun hp => ?_⟩
    · exact decodeOp_error hr rfl (by rw [hd, if_pos ⟨hp, hl⟩])
    · exact decodeOp_error hr rfl (by rw [hd, if_neg fun hc => absurd hc.2 (by omega)])
    · exact decodeOp_error hr rfl (by rw [hd, if_neg fun hc => absurd hc.1 (by rw [hp]; exact Bool.false_ne_true)])
  · subst hi
    refine ⟨fun hbits => decodeOp_error hr rfl (decodeFrame_can_set_idHi_reserved h hbits), fun hbits => ?_⟩
    have hd := decodeFrame_can_set_idHi h hbits
    refine ⟨fun d hok => decodeOp_ok hr rfl ?_, fun st herr => decodeOp_error hr rfl ?_⟩
    · rw [hd, decodeFrame_of_decodeOp_ok hr rfl hok]; rfl
    · rw [hd, decodeFrame_of_decodeOp_error hr rfl herr]; rfl
  · exact decodeOp_error hr rfl (decodeFrame_rs485_set_covered h hi hil hb)
  · subst hi
    exact decodeOp_error hr rfl (decodeFrame_rs485_set_marker hil h1 h2)
  · have hm : (f.set i b).getD 0 0 ∈ startMarkers .rs485 := by
      simp only [startMarkers, List.mem_cons, List.not_mem_nil, or_false]
      obtain ⟨rfl, hm⟩ | rfl := hi
      · rwa [getD_set_self b hil]
      · rw [getD_set_ne b (by omega)]
        exact (validAs_rs485_spec h).1
    refine ⟨fun hn => decodeOp_error hr rfl (decodeFrame_rs485_set_noLength h hm hn),
      fun k hk hl => ?_, fun k hk hl => ?_⟩
    · exact decodeOp_error hr rfl (by rw [decodeFrame_rs485_set_length h hil hb hk, if_pos hl])
    · exact decodeOp_error hr rfl (by rw [decodeFrame_rs485_set_length h hil hb hk, if_neg (by omega)])

end Sys2Proof.Machine
end

section
/-! PROOFS. The stream deframer's statements: what RX_FEED and RX_NEXT do as operations (O11, O12) and the
resynchronisation guarantee (O13). -/

namespace Sys2Proof.Machine

/-! ### RX_FEED (R210, R211) -/

theorem exec_rxFeed (data : Bytes) (s : State) : exec (.rxFeed data) s = execRxFeed data s := by rfl

theorem appendByte_begin (b : Byte) (s : State) : s.begin.appendByte b = (s.appendByte b).begin := by
  unfold State.appendByte
  rw [apply_ite State.begin]
  rfl

/-- A feed neither reads nor writes the reply. -/
theorem appendAll_begin (data : Bytes) (s : State) : s.begin.appendAll data = (s.appendAll data).begin := by
  induction data generalizing s with
  | nil => rfl
  | cons b l ih => rw [appendAll_cons, appendAll_cons, appendByte_begin, ih]

theorem rxFeed_running (data : Bytes) {s : State} (hr : s.halted = false) :
    exec (.rxFeed data) s = .next { s.appendAll data with reply := ⟨.ok, .none, false, false⟩ } := by
  rw [exec_rxFeed, execRxFeed, hostOp_running _ _ hr, appendAll_begin]
  rfl

/-- Settles O11: R211's fold over the bytes, and the frame of a feed. -/
theorem rxFeedKeepsTheNewest : Obligations.RxFeedKeepsTheNewest := by
  intro s data hr hlen
  obtain ⟨hbuf, hcnt, hsticky⟩ := appendAll_spec data s hlen
  rw [show flagMask .rxOvf = 0x80 from rfl] at hsticky
  rw [rxFeed_running data hr, appendAll_frame, hbuf, hcnt, hsticky]

/-- RX_FEED of bytes that fit the buffer drops none. -/
theorem rxFeed_of_fits {s : State} {data : Bytes} (hr : s.halted = false)
    (hfit : s.rxbuf.length + data.length ≤ 256) :
    exec (.rxFeed data) s = .next { s with rxbuf := s.rxbuf ++ data, reply := ⟨.ok, .none, false, false⟩ } := by
  rw [rxFeedKeepsTheNewest s data hr (by omega), Nat.sub_eq_zero_of_le hfit, if_pos hfit]
  simp

/-! ### What the scanner waits for and what it drops (R213, R214, R217) -/

theorem head?_of_getD_zero {b : Bytes} {x : Byte} (hx : x ≠ 0) (h : b.getD 0 0 = x) : b.head? = some x := by
  cases b with
  | nil => exact absurd h.symm hx
  | cons a l => exact congrArg some h

section
variable {s : State} {b noise f rest : Bytes} {n : Nat}

/-- The CAN scanner waits for a second byte after the marker, or for the rest of an announced frame (R213). -/
theorem mustWait_of_lookCan_wait (hp : s.proto = .can) (h : lookCan s.ctrlHi b = .wait) : s.mustWait b := by
  rw [lookCan] at h
  by_cases hm : b.getD 0 0 = 0xAA
  · rw [if_neg (not_not.mpr hm)] at h
    by_cases hl : b.length < 2
    · exact .inl ⟨hp, head?_of_getD_zero (by decide) hm, hl⟩
    · rw [if_neg hl] at h
      split at h
      · cases h
      · next hpl =>
        have hpl : plausibleCan s.ctrlHi (b.getD 0 0) (b.getD 1 0) = true := by simpa using hpl
        obtain ⟨hn, -⟩ := plausibleCan_bounds _ _ _ hpl
        have ha : s.announced b = some (ctrlN (b.getD 1 0) + 6) := by
          rw [State.announced, hp]
          exact announcedAs_can_iff.mpr ⟨by omega, hpl, by unfold ctrlN; omega⟩
        by_cases ht : b.length < ctrlN (b.getD 1 0) + 6
        · exact .inr (.inr ⟨_, ha, ht⟩)
        · simp only [if_neg ht] at h
          split at h <;> cases h
  · rw [if_pos hm] at h
    cases h

/-- The RS485 scanner waits for a third byte after a marker, or for the rest of an announced frame (R214). -/
theorem mustWait_of_lookRs_wait (hp : s.proto = .rs485) (h : s.lookRs b = .wait) : s.mustWait b := by
  rw [State.lookRs] at h
  by_cases hm : b.getD 0 0 ≠ 0xFA ∧ b.getD 0 0 ≠ 0xFB
  · rw [if_pos hm] at h
    cases h
  · rw [if_neg hm] at h
    by_cases hl : b.length < 3
    · have hm : b.getD 0 0 = 0xFA ∨ b.getD 0 0 = 0xFB := by simpa only [not_and_or, not_not] using hm
      exact .inr (.inl ⟨hp, hm.imp (head?_of_getD_zero (by decide)) (head?_of_getD_zero (by decide)), hl⟩)
    · rw [if_neg hl] at h
      split at h
      · cases h
      · next k hk =>
        have ha : s.announced b = some (k + 4) := by
          rw [State.announced, hp]
          exact announcedAs_rs485_iff.mpr ⟨by omega, k, hk, rfl⟩
        by_cases ht : b.length < k + 4
        · exact .inr (.inr ⟨_, ha, ht⟩)
        · rw [if_neg ht] at h
          split at h <;> cases h

/-- The scanner waits exactly where the statements say that bytes must be waited for (R213, R214, R217). -/
theorem look_wait_iff : s.look b = .wait ↔ s.mustWait b := by
  refine ⟨fun h => ?_, look_of_mustWait s b⟩
  unfold State.look at h
  split at h
  · next hp => exact mustWait_of_lookCan_wait hp h
  · next hp => exact mustWait_of_lookRs_wait hp h

/-- A valid frame at the head of the bytes is taken, whatever follows it (R213, R214). -/
theorem look_of_frameAt (h : s.frameAt b) : ∃ n, s.look b = .take n := by
  obtain ⟨t, -, -, hv⟩ := h
  have hl := look_of_valid s (b.take t) (b.drop t) hv
  rw [List.take_append_drop] at hl
  exact ⟨_, hl⟩

/-- A byte is dropped only where nothing must be waited for and no valid frame begins. -/
theorem not_mustWait_and_not_frameAt_of_drop (h : s.look b = .drop) : ¬ s.mustWait b ∧ ¬ s.frameAt b := by
  refine ⟨fun hw => ?_, fun hf => ?_⟩
  · rw [look_wait_iff.mpr hw] at h
    cases h
  · obtain ⟨n, hn⟩ := look_of_frameAt hf
    rw [hn] at h
    cases h

/-- All a scan of the configured format can do, in the terms of the statements (R212..R216, R220). -/
theorem scan_look_cases (s : State) (b : Bytes) :
    ∃ dropped kept, b = dropped ++ kept
      ∧ (∀ i, i < dropped.length → ¬ s.mustWait (b.drop i) ∧ ¬ s.frameAt (b.drop i))
      ∧ ((∃ f rest, kept = f ++ rest ∧ s.validFrame f = true ∧ scan s.look b = ⟨dropped.length, some f, rest⟩)
        ∨ ((kept = [] ∨ s.mustWait kept) ∧ scan s.look b = ⟨dropped.length, none, kept⟩)) := by
  obtain ⟨dropped, kept, hb, hdrop, hn, hend⟩ := scan_cases s.look b
  refine ⟨dropped, kept, hb, fun i hi => not_mustWait_and_not_frameAt_of_drop (hdrop i hi), ?_⟩
  obtain ⟨hw, hf, hr⟩ | ⟨n, -, hl, hf, hr⟩ := hend
  · exact .inr ⟨hw.imp_right look_wait_iff.mp, by rw [← hn, ← hf, ← hr]⟩
  · obtain ⟨-, -, -, -, hv⟩ := look_take s kept n hl
    exact .inl ⟨kept.take n, kept.drop n, (List.take_append_drop n kept).symm, hv, by rw [← hn, ← hf, ← hr]⟩

/-! ### Noise before a frame (R219) -/

/-- The shortest valid frame has four bytes (R118, R120). -/
theorem four_le_length_of_validFrame (h : s.validFrame f = true) : 4 ≤ f.length :=
  (look_take s (f ++ []) f.length (look_of_valid s f [] h)).1

theorem scan_of_valid (rest : Bytes) (h : s.validFrame f = true) : scan s.look (f ++ rest) = ⟨0, some f, rest⟩ := by
  have h4 := four_le_length_of_validFrame h
  have hne : f ++ rest ≠ [] := List.append_ne_nil_of_left_ne_nil (List.ne_nil_of_length_pos (by omega)) rest
  rw [scan_take s.look _ _ hne (look_of_valid s f rest h), List.take_left, List.drop_left]

/-- A scan drops harmless noise and takes the frame behind it: the frame leaves no position of the noise short of a
header, so the scanner never waits there. -/
theorem scan_of_harmless (hn : s.harmless noise (f ++ rest)) (h : s.validFrame f = true) :
    scan s.look (noise ++ (f ++ rest)) = ⟨noise.length, some f, rest⟩ := by
  have h4 := four_le_length_of_validFrame h
  have hdrop : ∀ i, i < noise.length → s.look ((noise ++ (f ++ rest)).drop i) = .drop := fun i hi =>
    look_of_harmless s _ (by simp only [List.length_drop, List.length_append]; omega) (hn i hi)
  rw [scan_drops s.look noise _ hdrop, scan_of_valid rest h, Nat.zero_add]

/-! ### RX_NEXT (R212) -/

theorem exec_rxNext (s : State) : exec .rxNext s = execRxNext s := by rfl

/-- RX_NEXT where the scan finds a frame. -/
theorem rxNext_of_found (hr : s.halted = false) (h : scan s.look s.rxbuf = ⟨n, some f, rest⟩) :
    exec .rxNext s = .next { s with
      rxbuf := rest, rxdropCnt := s.rxdropCnt + BitVec.ofNat 32 n, lastRx := f
      reply := ⟨.ok, .bytes f, false, false⟩ } := by
  have hb : s.begin.nextFrame = (some f, s.begin.keepBuffer rest n) :=
    congrArg (fun r : Scan => (r.frame, s.begin.keepBuffer r.rest r.drops)) h
  rw [exec_rxNext, execRxNext, hostOp_running _ _ hr]
  simp only [hb]
  rfl

/-- RX_NEXT where the scan finds none. -/
theorem rxNext_of_none (hr : s.halted = false) (h : scan s.look s.rxbuf = ⟨n, none, rest⟩) :
    exec .rxNext s = .next { s with
      rxbuf := rest, rxdropCnt := s.rxdropCnt + BitVec.ofNat 32 n
      reply := ⟨.ok, .bytes [], false, false⟩ } := by
  have hb : s.begin.nextFrame = (none, s.begin.keepBuffer rest n) :=
    congrArg (fun r : Scan => (r.frame, s.begin.keepBuffer r.rest r.drops)) h
  rw [exec_rxNext, execRxNext, hostOp_running _ _ hr]
  simp only [hb]
  rfl

end

/-! ### The statements -/

/-- Settles O12: the cases of a scan, each as the operation's next state. -/
theorem rxNextEmitsTheFirstFrame : Obligations.RxNextEmitsTheFirstFrame := by
  intro s hr
  obtain ⟨dropped, kept, hb, hdrop, hend⟩ := scan_look_cases s s.rxbuf
  refine ⟨dropped, kept, hb, hdrop, ?_⟩
  obtain ⟨f, rest, hk, hv, hs⟩ | ⟨hw, hs⟩ := hend
  · exact .inl ⟨f, rest, hk, hv, rxNext_of_found hr hs⟩
  · exact .inr ⟨hw, rxNext_of_none hr hs⟩

/-- Settles O13: each RX_NEXT drops one noise and takes the frame behind it. -/
theorem resynchronisation : Obligations.Resynchronisation := by
  intro s noise1 f1 noise2 f2 noise3 hr hempty hlen hv1 hv2 hn1 hn2
  simp only [List.append_assoc] at hlen hn1 ⊢
  have hfeed := rxFeed_of_fits hr (data := noise1 ++ (f1 ++ (noise2 ++ (f2 ++ noise3))))
    (by rw [hempty]; simpa only [List.length_nil, Nat.zero_add] using hlen)
  rw [hempty, List.nil_append] at hfeed
  exact ⟨_, _, _, hfeed, rxNext_of_found hr (scan_of_harmless hn1 hv1), rfl, rfl, rfl,
    rxNext_of_found hr (scan_of_harmless hn2 hv2), rfl, rfl, rfl, by
      simp only [BitVec.ofNat_add, BitVec.add_assoc]⟩

end Sys2Proof.Machine
end

section
/-! PROOFS. The velocity ramp's statements: what one application of Ramp does to its value and to the distance still to
go, how often it has to be applied (O15), and RAMP_EVAL as an operation on 16-bit operands (O14). -/

namespace Sys2Proof.Machine

/-! ### One step of the ramp (R241) -/

section

variable {c t : Int} {d : Nat}

theorem ramp_of_near (h : (t - c).natAbs ≤ d) : ramp c t d = t := if_pos h

theorem ramp_of_far_below (h : d < (t - c).natAbs) (hlt : c < t) : ramp c t d = c + d := by
  rw [ramp, if_neg h.not_ge, if_pos hlt]

theorem ramp_of_far_above (h : d < (t - c).natAbs) (hlt : t < c) : ramp c t d = c - d := by
  rw [ramp, if_neg h.not_ge, if_neg hlt.not_gt]

end

/-- The three cases of R241. Far from the target is never at it, so the cases exclude each other. -/
theorem ramp_cases (c t : Int) (d : Nat) :
    ((t - c).natAbs ≤ d ∧ ramp c t d = t) ∨
    (d < (t - c).natAbs ∧ c < t ∧ ramp c t d = c + d) ∨
    (d < (t - c).natAbs ∧ t < c ∧ ramp c t d = c - d) := by
  rcases le_or_gt (t - c).natAbs d with hnear | hfar
  · exact .inl ⟨hnear, ramp_of_near hnear⟩
  · rcases lt_trichotomy c t with hlt | rfl | hlt
    · exact .inr (.inl ⟨hfar, hlt, ramp_of_far_below hfar hlt⟩)
    · simp at hfar
    · exact .inr (.inr ⟨hfar, hlt, ramp_of_far_above hfar hlt⟩)

/-- R245: a step moves the value by at most `d`. -/
theorem natAbs_ramp_sub_le (c t : Int) (d : Nat) : (ramp c t d - c).natAbs ≤ d := by
  obtain ⟨hd, hr⟩ | ⟨-, -, hr⟩ | ⟨-, -, hr⟩ := ramp_cases c t d <;> rw [hr] <;> omega

/-- R245: no overshoot. -/
theorem ramp_between (c t : Int) (d : Nat) : min c t ≤ ramp c t d ∧ ramp c t d ≤ max c t := by
  obtain ⟨-, hr⟩ | ⟨hd, hlt, hr⟩ | ⟨hd, hlt, hr⟩ := ramp_cases c t d <;> rw [hr] <;> omega

/-- The distance to the target shrinks by exactly the step, until it is used up. -/
theorem natAbs_sub_ramp (c t : Int) (d : Nat) : (t - ramp c t d).natAbs = (t - c).natAbs - d := by
  obtain ⟨hd, hr⟩ | ⟨hd, hlt, hr⟩ | ⟨hd, hlt, hr⟩ := ramp_cases c t d <;> rw [hr] <;> omega

theorem ramp_self (c : Int) (d : Nat) : ramp c c d = c := ramp_of_near (by simp)

/-- R245: with step 0 nothing moves. -/
theorem ramp_zero_step (c t : Int) : ramp c t 0 = c :=
  Int.sub_eq_zero.mp (Int.natAbs_eq_zero.mp (Nat.le_zero.mp (natAbs_ramp_sub_le c t 0)))

/-! ### Repeated steps (R245) -/

/-- The distance to the target after `n` steps. -/
theorem natAbs_sub_ramp_iterate (c t : Int) (d n : Nat) :
    (t - (fun x => ramp x t d)^[n] c).natAbs = (t - c).natAbs - n * d := by
  induction n with
  | zero => simp
  | succ n ih => rw [Function.iterate_succ_apply', natAbs_sub_ramp, ih, Nat.succ_mul, Nat.sub_sub]

/-- `n` steps arrive exactly when together they cover the distance. -/
theorem ramp_iterate_eq_target_iff (c t : Int) (d n : Nat) :
    (fun x => ramp x t d)^[n] c = t ↔ (t - c).natAbs ≤ n * d := by
  rw [← Nat.sub_eq_zero_iff_le, ← natAbs_sub_ramp_iterate, Int.natAbs_eq_zero, Int.sub_eq_zero, eq_comm]

/-- Settles O15, by the distance to the target: a step shortens it by `d`, so it is used up after the quotient rounded
up. -/
theorem rampConverges : Obligations.RampConverges := by
  intro c t d
  obtain ⟨hmin, hmax⟩ := ramp_between c t d
  refine ⟨natAbs_ramp_sub_le c t d, hmin, hmax, fun hd n => ?_, fun _ n => ?_, ramp_self c d⟩
  · rw [ramp_iterate_eq_target_iff, ← Nat.ceilDiv_eq_add_pred_div, ceilDiv_le_iff_le_mul hd, Nat.mul_comm]
  · exact Function.iterate_fixed (ramp_zero_step c t) n

/-! ### RAMP_EVAL (R240, R246) -/

/-- R246: between two s16 values the ramp fits s16 again, whatever the step. -/
theorem toInt_ofInt_ramp (cur tgt : Half) (d : Nat) :
    (BitVec.ofInt 16 (ramp cur.toInt tgt.toInt d)).toInt = ramp cur.toInt tgt.toInt d := by
  obtain ⟨hmin, hmax⟩ := ramp_between cur.toInt tgt.toInt d
  have hcur := cur.le_toInt
  have hcur' := cur.toInt_lt
  have htgt := tgt.le_toInt
  have htgt' := tgt.toInt_lt
  rw [BitVec.toInt_ofInt, Int.bmod_eq_of_le] <;> omega

theorem exec_rampEval (cur tgt delta : Half) (s : State) :
    exec (.rampEval cur tgt delta) s = execRampEval cur tgt delta s := by rfl

/-- RAMP_EVAL when not halted: it answers, and does nothing else. -/
theorem rampEval_running (cur tgt delta : Half) {s : State} (hr : s.halted = false) :
    exec (.rampEval cur tgt delta) s =
      .next (s.returned .ok (.half (BitVec.ofInt 16 (ramp cur.toInt tgt.toInt delta.toNat)))) := by
  rw [exec_rampEval, execRampEval, hostOp_running _ _ hr, begin_answer]

/-- Settles O14: the value read back from 16 bits is the ramp's, so each clause is the ramp's own. -/
theorem rampEvalMovesTowardsTheTarget : Obligations.RampEvalMovesTowardsTheTarget := by
  intro s cur tgt delta hr
  have hv := toInt_ofInt_ramp cur tgt delta.toNat
  refine ⟨_, rampEval_running cur tgt delta hr, fun hnear => BitVec.eq_of_toInt_eq ?_, fun hfar hlt => ?_,
    fun hfar hlt => ?_, ?_⟩
  · rw [hv, ramp_of_near hnear]
  · rw [hv, ramp_of_far_below hfar hlt]
  · rw [hv, ramp_of_far_above hfar hlt]
  · rw [hv]
    exact ramp_between _ _ _

end Sys2Proof.Machine
end

section
/-! PROOFS. The safety state machine's requests and its exits to Disabled: what ENABLE_TOGGLE accepts and latches (O26),
and the Enable(false) frames that go out before a group is Disabled (O57). -/

namespace Sys2Proof.Machine

/-! ### ENABLE_TOGGLE (R262) -/

/-- The upper nibble of a mask is 0 exactly when it names no bit beyond the four groups. -/
theorem extractLsb'_four_eq_zero_iff (mask : Byte) : mask.extractLsb' 4 4 = 0 ↔ mask.toNat < 16 := by
  rw [← BitVec.toNat_inj]
  simp [BitVec.extractLsb'_toNat, Nat.shiftRight_eq_div_pow]
  omega

theorem members_isEmpty_eq_false_iff (s : State) (g : GroupIx) :
    (s.members g).isEmpty = false ↔ ∃ m, s.isMember g m = true := by
  rw [List.isEmpty_eq_false_iff_exists_mem]
  exact exists_congr (mem_members s g)

/-- The checks of ENABLE_TOGGLE in the terms of R262. -/
theorem toggleOk_iff (mask : Byte) (s : State) :
    toggleOk mask s = true ↔ mask.toNat < 16
      ∧ ∀ g : GroupIx, mask.getLsbD g.val = true → ∃ m : MotorIx, s.isMember g m = true := by
  simp only [toggleOk, Bool.and_eq_true, beq_iff_eq, extractLsb'_four_eq_zero_iff, List.all_eq_true, Bool.not_eq_true',
    mem_maskedGroups, members_isEmpty_eq_false_iff]

theorem exec_enableToggle (mask : Byte) (s : State) :
    exec (.enableToggle mask) s = execEnableToggle mask s := by rfl

section
variable {s : State} {mask : Byte}

theorem enableToggle_refused (hr : s.halted = false) (h : ¬ toggleOk mask s = true) :
    exec (.enableToggle mask) s = .next (s.failedWith .invalidArgument) := by
  have hb : ¬ toggleOk mask s.begin = true := h
  rw [exec_enableToggle, execEnableToggle, hostOp_running _ _ hr, if_neg hb, begin_raise]

theorem enableToggle_accepted (hr : s.halted = false) (h : toggleOk mask s = true) :
    exec (.enableToggle mask) s
      = .next (((maskedGroups mask).foldl (fun s g => s.latch g) s.begin).answer .ok .none) := by
  have hb : toggleOk mask s.begin = true := h
  rw [exec_enableToggle, execEnableToggle, hostOp_running _ _ hr, if_pos hb]

end

/-- Settles O26: the checks, then one latch for each named group. -/
theorem enableToggleLatchesRequests : Obligations.EnableToggleLatchesRequests := by
  intro s mask hr
  obtain ⟨hpending, hframe⟩ := foldl_latch (maskedGroups mask) s.begin
  refine ⟨fun h => enableToggle_refused hr (mt (toggleOk_iff mask s).mp h), fun h =>
    ⟨_, enableToggle_accepted hr ((toggleOk_iff mask s).mpr h), ?_, fun g => ?_⟩⟩
  · rw [hframe]
    rfl
  · rw [State.answer_pendingOf, hpending g]
    simp only [mem_maskedGroups]
    rfl

/-! ### Enable(false) before Disabled (R290) -/

/-- The frames sent to each motor of a set are found in the one stretch of the transmit stream that the run added. -/
theorem exists_sent_of_sentTo {s t : State} {c : Cmd} {P : MotorIx → Prop}
    (hlog : ∃ sent : List Sent, t.txLog = s.txLog ++ sent) (h : ∀ m, P m → sentTo s t m c) :
    ∃ sent : List Sent, t.txLog = s.txLog ++ sent ∧ ∀ m, P m → ∃ x ∈ sent, x.frame = s.frameFor m c := by
  obtain ⟨sent, hsent⟩ := hlog
  refine ⟨sent, hsent, fun m hm => ?_⟩
  obtain ⟨sent', hsent', hx⟩ := h m hm
  rwa [List.append_cancel_left (hsent.symm.trans hsent')]

theorem RunEffect_extends {A : MotorIx → Cmd → Prop} {s t : State} (h : RunEffect A s t) :
    ∃ sent : List Sent, t.txLog = s.txLog ++ sent := let ⟨sent, hsent, _⟩ := h.log; ⟨sent, hsent⟩

theorem driven_iff {x : MState} : driven x = true ↔ x = .enabled ∨ x = .emergencyStop := by
  simp [driven]

theorem boundary_of_driven {x : MState} (h : driven x = true) : boundary x = true := by
  obtain rfl | rfl := driven_iff.mp h <;> rfl

section
variable {g : GroupIx} {s : State}

/-- A TICK that ends with a driven group Disabled, or that ran Enabling for a group and ends with it Disabled, sent
Enable(false) to its members. -/
theorem tickSteps_disabled_sent {now : Time} (hd : 0 < s.disableAttempts)
    (ht : (s.tickSteps now).stateOf g = .disabled)
    (hs : driven (s.stateOf g) = true ∨ s.stateOf g = .disabled ∧ s.pendingOf g = true ∧ s.stale now = false) :
    ∃ sent : List Sent, (s.tickSteps now).txLog = s.txLog ++ sent
      ∧ ∀ m, s.isMember g m = true → ∃ x ∈ sent, x.frame = s.frameFor m (.enable 0) := by
  refine exists_sent_of_sentTo (RunEffect_extends (tickSteps_run (A := anyCmd) now s fun _ _ => trivial)) ?_
  obtain hs | ⟨hs, hp, hfresh⟩ := hs
  · exact (tick_end g now s (boundary_of_driven hs)).fromDrivenSent hs ht hd
  · exact (tick_end g now s (by rw [hs]; rfl)).fromDisabledSent hs ht hp hfresh

theorem shutdownGroups_sent (hd : 0 < s.disableAttempts) (hs : driven (s.stateOf g) = true) :
    ∃ sent : List Sent, (forGroups State.shutdownGroup s).txLog = s.txLog ++ sent
      ∧ ∀ m, s.isMember g m = true → ∃ x ∈ sent, x.frame = s.frameFor m (.enable 0) := by
  obtain ⟨-, -, -, -, hsent⟩ := shutdown_end g s (boundary_of_driven hs)
  exact exists_sent_of_sentTo (RunEffect_extends (shutdown_run (A := anyCmd) s fun _ _ => trivial)) (hsent hs hd)

/-- An operation that is neither TICK nor SHUTDOWN leaves no driven group Disabled (R260). -/
theorem not_disabled_of_driven {i : Instr} {t : State} (he : exec i s = .next t) (htick : ∀ now, i ≠ .tick now)
    (hshut : i ≠ .shutdown) (hs : driven (s.stateOf g) = true) : t.stateOf g ≠ .disabled := by
  intro ht
  obtain ⟨⟨hsame, -, -⟩ | ⟨-, hfault, -, -⟩, -⟩ := exec_group i s t g he htick hshut
  · rw [← hsame, ht] at hs
    cases hs
  · cases ht.symm.trans hfault.1

end

/-- Settles O57: TICK and SHUTDOWN send the frames in the group's own sequence, and no other operation disables a
group. -/
theorem neverDisabledWithoutEnableFalse : Obligations.NeverDisabledWithoutEnableFalse := by
  intro i s t g he hr hlegal ht hs
  have hd : 0 < s.disableAttempts := hlegal.disableAttempts
  rw [← or_assoc, ← driven_iff] at hs
  by_cases htick : ∃ now, i = .tick now
  · obtain ⟨now, rfl⟩ := htick
    rw [exec_tick s now hr, Host.Outcome.next.injEq] at he
    subst he
    refine tickSteps_disabled_sent (s := s.begin) hd ht (hs.imp_right ?_)
    rintro ⟨hs, hp, now', hi, hfresh⟩
    obtain rfl := Instr.tick.inj hi
    exact ⟨hs, hp, hfresh⟩
  have hdriven : driven (s.stateOf g) = true :=
    hs.resolve_right fun ⟨_, _, now, hi, _⟩ => htick ⟨now, hi⟩
  by_cases hshut : i = .shutdown
  · subst hshut
    rw [exec_shutdown s hr, Host.Outcome.next.injEq] at he
    subst he
    have hsent := shutdownGroups_sent (s := s.begin) hd hdriven
    generalize forGroups State.shutdownGroup s.begin = u at hsent
    exact hsent
  · exact absurd ht (not_disabled_of_driven he (fun now hi => htick ⟨now, hi⟩) hshut hdriven)

end Sys2Proof.Machine
end

section
/-! PROOFS. The bounded stop (O40): a group that the watchdog has stopped counts down its remaining TICKs, one for each
TICK, and stays Disabled from the last one on. -/

namespace Sys2Proof.Machine

/-! ### One TICK as a state -/

/-- What a TICK that is not refused leaves. -/
def State.ticked (now : Time) (s : State) : State := (s.begin.tickSteps now).answerEvents

theorem exec_tick_running {s : State} (now : Time) (hr : s.halted = false) :
    exec (.tick now) s = .next (s.ticked now) := exec_tick s now hr

theorem runTicks_cons {s : State} (now : Time) (later : List Time) (hr : s.halted = false) :
    runTicks (now :: later) s = runTicks later (s.ticked now) := by
  rw [runTicks, exec_tick_running now hr]

theorem ticked_halted (now : Time) (s : State) : (s.ticked now).halted = s.halted := tickSteps_halted now s.begin

theorem ticked_keeps (now : Time) (s : State) : s.KeepsConfig (s.ticked now) := keepsTick s now

theorem ticked_disabled {s : State} {g : GroupIx} (now : Time) (hst : s.stateOf g = .disabled)
    (hp : s.pendingOf g = false) : (s.ticked now).stateOf g = .disabled ∧ (s.ticked now).pendingOf g = false := by
  obtain ⟨hst', hp', -⟩ := tick_disabled s.begin g now hst hp
  exact ⟨hst', hp'⟩

/-! ### The number of TICKs still to go (R287) -/

section
variable {s t : State} {g : GroupIx}

theorem natAbs_toInt_le (v : Half) : v.toInt.natAbs ≤ 32768 := by
  have hlt := v.toInt_lt
  have hle := v.le_toInt
  omega

theorem maxRamp_le (s : State) (g : GroupIx) : s.maxRamp g ≤ 32768 := by
  unfold State.maxRamp
  induction s.members g with
  | nil => simp
  | cons m ms ih => exact max_le (natAbs_toInt_le _) ih

theorem stopTicks_of_atRest (h : s.maxRamp g = 0) : s.stopTicks g = 1 := if_pos h

theorem stopTicks_of_unlimited (h : s.maxRamp g ≠ 0) (hz : s.estopStep = 0) : s.stopTicks g = 2 := by
  rw [State.stopTicks, if_neg h, if_pos hz]

theorem stopTicks_of_limited (h : s.maxRamp g ≠ 0) (hz : s.estopStep ≠ 0) :
    s.stopTicks g = (s.maxRamp g + s.estopStep.toNat - 1) / s.estopStep.toNat + 1 := by
  rw [State.stopTicks, if_neg h, if_neg hz]

theorem stopTicks_pos (s : State) (g : GroupIx) : 0 < s.stopTicks g := by
  unfold State.stopTicks
  split_ifs <;> exact Nat.succ_pos _

theorem estopStep_pos (hz : s.estopStep ≠ 0) : 0 < s.estopStep.toNat :=
  Nat.pos_of_ne_zero fun h => hz (BitVec.eq_of_toNat_eq (by simpa using h))

/-- A group that has not come to rest needs a TICK more than after one deceleration step. -/
theorem stopTicks_decel (h : s.maxRamp g ≠ 0) (he : t.estopStep = s.estopStep)
    (ht : t.maxRamp g = if s.estopStep = 0 then 0 else s.maxRamp g - s.estopStep.toNat) :
    s.stopTicks g = t.stopTicks g + 1 := by
  by_cases hz : s.estopStep = 0
  · rw [if_pos hz] at ht
    rw [stopTicks_of_unlimited h hz, stopTicks_of_atRest ht]
  · have hpos := estopStep_pos hz
    rw [if_neg hz] at ht
    rw [stopTicks_of_limited h hz]
    by_cases hrest : t.maxRamp g = 0
    · have hone : (s.maxRamp g + s.estopStep.toNat - 1) / s.estopStep.toNat = 1 :=
        Nat.div_eq_of_lt_le (by omega) (by omega)
      rw [stopTicks_of_atRest hrest, hone]
    · have hsum : s.maxRamp g + s.estopStep.toNat - 1
          = t.maxRamp g + s.estopStep.toNat - 1 + s.estopStep.toNat := by omega
      rw [stopTicks_of_limited hrest (by rwa [he]), he, hsum, Nat.add_div_right _ hpos]

/-- R287: with 16-bit ramp outputs a stop takes at most 32768 + 1 TICKs. -/
theorem stopTicks_le (s : State) (g : GroupIx) : s.stopTicks g ≤ 32769 := by
  have hmax := maxRamp_le s g
  by_cases h : s.maxRamp g = 0
  · rw [stopTicks_of_atRest h]; omega
  by_cases hz : s.estopStep = 0
  · rw [stopTicks_of_unlimited h hz]; omega
  · have hpos := estopStep_pos hz
    have hdiv : (s.maxRamp g + s.estopStep.toNat - 1) / s.estopStep.toNat ≤ s.maxRamp g := by
      rw [← Nat.ceilDiv_eq_add_pred_div, ceilDiv_le_iff_le_mul hpos]
      exact Nat.le_mul_of_pos_left _ hpos
    rw [stopTicks_of_limited h hz]
    omega

end

/-! ### The countdown -/

/-- A group without a request that is Disabled after `k` more TICKs and in EmergencyStop until then. -/
structure StopsIn (g : GroupIx) (k : Nat) (s : State) : Prop where
  running : s.halted = false
  noRequest : s.pendingOf g = false
  state : s.stateOf g = if k = 0 then .disabled else .emergencyStop
  left : k ≠ 0 → s.stopTicks g = k

section
variable {s : State} {g : GroupIx}

/-- The countdown after a TICK in which the group ran the emergency stop's handler (R279). -/
theorem stopsIn_of_handled {t : State} (hr : t.halted = false) (hk : s.KeepsConfig t) (hp : t.pendingOf g = false)
    (hst : t.stateOf g = if s.maxRamp g = 0 then .disabled else .emergencyStop)
    (hramp : ∀ m, s.isMember g m = true → t.rampOf m = if s.maxRamp g = 0 then 0 else s.deceledOf m) :
    StopsIn g (s.stopTicks g - 1) t := by
  by_cases h : s.maxRamp g = 0
  · rw [if_pos h] at hst
    rw [stopTicks_of_atRest h]
    exact ⟨hr, hp, hst, fun h0 => absurd rfl h0⟩
  · simp only [if_neg h] at hst hramp
    have hdecel := stopTicks_decel h (keeps_estopStep hk) (maxRamp_decel s t g (keeps_members hk g) hramp)
    rw [hdecel, Nat.add_sub_cancel]
    exact ⟨hr, hp, by rw [if_neg (stopTicks_pos t g).ne', hst], fun _ => rfl⟩

/-- The watchdog's own TICK begins the countdown (R278, R313). -/
theorem stopsIn_of_watchdog (now : Time) (hr : s.halted = false) (hst : s.stateOf g = .enabled)
    (hstale : s.stale now = true) : StopsIn g (s.stopTicks g - 1) (s.ticked now) := by
  obtain ⟨hst', hp', -, hramp⟩ := tick_watchdog s.begin g now hst hstale
  exact stopsIn_of_handled ((ticked_halted now s).trans hr) (ticked_keeps now s) hp' hst' hramp

/-- Every TICK counts down by one, whatever its time and the world's answers (R279, R280). -/
theorem stopsIn_ticked {k : Nat} (now : Time) (h : StopsIn g k s) : StopsIn g (k - 1) (s.ticked now) := by
  have hr : (s.ticked now).halted = false := (ticked_halted now s).trans h.running
  by_cases hk : k = 0
  · subst hk
    obtain ⟨hst', hp'⟩ := ticked_disabled now h.state h.noRequest
    exact ⟨hr, hp', hst', fun h0 => absurd rfl h0⟩
  · have hst : s.stateOf g = .emergencyStop := by rw [h.state, if_neg hk]
    obtain ⟨hst', hp', -, hramp⟩ := tick_estop s.begin g now hst
    rw [← h.left hk]
    exact stopsIn_of_handled hr (ticked_keeps now s) (hp'.trans h.noRequest) hst' hramp

theorem stopsIn_runTicks {k : Nat} (later : List Time) (h : StopsIn g k s) :
    ∃ t, runTicks later s = some t ∧ StopsIn g (k - later.length) t := by
  induction later generalizing k s with
  | nil => exact ⟨s, rfl, h⟩
  | cons now later ih =>
    obtain ⟨t, hrun, ht⟩ := ih (stopsIn_ticked now h)
    refine ⟨t, (runTicks_cons now later h.running).trans hrun, ?_⟩
    rwa [List.length_cons, Nat.add_comm, ← Nat.sub_sub]

/-- An operation leaves a Disabled group without a request Disabled, and gives it a request only where it is an
ENABLE_TOGGLE that names the group (R262, R280). -/
theorem exec_disabled {i : Instr} {u : State} (he : exec i s = .next u) (hst : s.stateOf g = .disabled)
    (hp : s.pendingOf g = false) :
    u.stateOf g = .disabled
      ∧ (u.pendingOf g = false ∨ ∃ mask : Byte, i = .enableToggle mask ∧ mask.getLsbD g.val = true) := by
  by_cases htick : ∃ now, i = .tick now
  · obtain ⟨now, rfl⟩ := htick
    obtain ⟨-, rfl⟩ | ⟨-, v, rfl, rfl⟩ := tick_cases now s u he
    · exact ⟨hst, .inl hp⟩
    · obtain ⟨hst', hp'⟩ := ticked_disabled now hst hp
      exact ⟨hst', .inl hp'⟩
  by_cases hshut : i = .shutdown
  · subst hshut
    obtain ⟨-, rfl⟩ | ⟨-, v, hv, rfl⟩ := shutdown_cases s u he
    · exact ⟨hst, .inl hp⟩
    · obtain ⟨hst', hp', -⟩ := shutdown_end g s.begin (by rw [State.begin_stateOf, hst]; rfl)
      rw [hv] at hst' hp'
      exact ⟨hst', .inl hp'⟩
  obtain ⟨⟨hst', -, hp'⟩ | ⟨hreact, -⟩, -⟩ := exec_group i s u g he (fun now hi => htick ⟨now, hi⟩) hshut
  · obtain hp' | ⟨mask, hi, hmask, -⟩ := hp'
    · exact ⟨hst'.trans hst, .inl (hp'.trans hp)⟩
    · exact ⟨hst'.trans hst, .inr ⟨mask, hi, hmask⟩⟩
  · rw [hst] at hreact
    cases hreact

end

/-- Settles O40: the watchdog's TICK begins the countdown, each further TICK continues it, and its end is a Disabled
group without a request. -/
theorem boundedStopAfterAWatchdogTimeout : Obligations.BoundedStopAfterAWatchdogTimeout := by
  intro s g now later hr hst hstale
  obtain ⟨t, hrun, ht⟩ := stopsIn_runTicks later (stopsIn_of_watchdog now hr hst hstale)
  have hpos := stopTicks_pos s g
  have hend : s.stopTicks g - 1 - later.length = 0 ↔ ¬ later.length + 1 < s.stopTicks g := by omega
  have hstate := ht.state
  simp only [hend, ite_not] at hstate
  refine ⟨t, (runTicks_cons now later hr).trans hrun, hstate, ht.noRequest, stopTicks_le s g, fun hk i u he => ?_⟩
  obtain ⟨hu, hlatched⟩ := exec_disabled he (hstate.trans (if_neg hk.not_gt)) ht.noRequest
  exact ⟨hu, fun h => hlatched.resolve_left (by simp [h])⟩

end Sys2Proof.Machine
end

section
/-! PROOFS. Sequences on a transport that accepts every frame: what sending a list of frames leaves, an Enabling that no
member answers, and a TICK in which only one group acts (O32). -/

namespace Sys2Proof.Machine

/-! ### Accepted frames (R14, R96) -/

section
variable {s : State} {later : List SendOutcome}

/-- Frames sent in two runs are sent in one. -/
theorem sentOk_sentOk (s : State) (a b : List Bytes) (l later : List SendOutcome) :
    (s.sentOk a l).sentOk b later = s.sentOk (a ++ b) later := by
  cases b <;> simp [State.sentOk, Nat.add_assoc, List.getLastD_eq_getLast?]

theorem sentOk_keeps (s : State) (frames : List Bytes) (later : List SendOutcome) :
    s.KeepsConfig (s.sentOk frames later) := ⟨rfl, rfl, rfl, rfl, rfl, rfl, rfl⟩

theorem sentOk_nil (h : s.sends = later) : s.sentOk [] later = s := by
  subst h
  simp [State.sentOk]

theorem transmit_accepted (f : Bytes) (h : s.sends = .ok :: later) : s.transmit f = (true, s.sentOk [f] later) := by
  have hn : s.nextSend = .ok := by simp [State.nextSend, h]
  rw [transmit_ok f s (by rw [hn]; rfl)]
  simp [State.recordSend, State.sentOk, hn, h]

theorem command_accepted (m : MotorIx) (c : Cmd) (h : s.sends = .ok :: later) :
    s.command m c = (true, s.sentOk [s.frameFor m c] later) := transmit_accepted _ h

/-- The handshake of one member, accepted (R270, R271). -/
theorem sendUntilErr_accepted (m : MotorIx) (cs : List Cmd) (h : s.sends = List.replicate cs.length .ok ++ later) :
    sendUntilErr m cs s = (true, s.sentOk (cs.map (s.frameFor m)) later) := by
  induction cs generalizing s with
  | nil => rw [sendUntilErr, List.map_nil, sentOk_nil (by simpa using h)]
  | cons c cs ih =>
    rw [sendUntilErr, command_accepted m c h]
    simp only
    rw [ih rfl, sentOk_sentOk]
    rfl

/-! ### Attempts that are not answered (R222, R270) -/

/-- The state after `n` attempts whose response did not come: each is counted, and E_NORSP is set by the first. -/
def State.missed (n : Nat) (s : State) : State :=
  { s with
    norspCnt := s.norspCnt + BitVec.ofNat 32 n
    sticky := if n = 0 then s.sticky else s.sticky ||| 0x10 }

theorem missed_zero (s : State) : s.missed 0 = s := by simp [State.missed]

theorem noResponse_missed (s : State) (n : Nat) : s.noResponse.missed n = s.missed (n + 1) := by
  simp only [State.missed, State.noResponse, flagMask, BitVec.or_assoc, BitVec.or_self, BitVec.add_assoc, ite_self,
    Nat.add_comm n 1, BitVec.ofNat_add, Nat.add_eq_zero_iff, Nat.succ_ne_self, false_and, if_false]
  rfl

theorem missed_of_pos {n : Nat} (h : 1 ≤ n) :
    s.missed n = { s with norspCnt := s.norspCnt + BitVec.ofNat 32 n, sticky := s.sticky ||| 0x10 } := by
  rw [State.missed, if_neg (by omega)]

theorem missed_keeps (s : State) (n : Nat) : s.KeepsConfig (s.missed n) := ⟨rfl, rfl, rfl, rfl, rfl, rfl, rfl⟩

/-- Responses are verified and none will come: the buffer is empty and no arrival is left. -/
structure State.Silent (s : State) : Prop where
  verifyEn : s.verifyEn = true
  rxbuf : s.rxbuf = []
  arrivals : s.arrivals = []

theorem silent_sentOk (h : s.Silent) (frames : List Bytes) (later : List SendOutcome) :
    (s.sentOk frames later).Silent := ⟨h.verifyEn, h.rxbuf, h.arrivals⟩

theorem silent_noResponse (h : s.Silent) : s.noResponse.Silent := ⟨h.verifyEn, h.rxbuf, h.arrivals⟩

/-- One attempt that is not answered. -/
theorem tryEnable_miss (m : MotorIx) (n : Nat) (hq : s.Silent) (h : s.sends = .ok :: .ok :: later) :
    tryEnable m (n + 1) s
      = tryEnable m n (s.sentOk ([Cmd.enable 1, Cmd.statusQuery].map (s.frameFor m)) later).noResponse := by
  have hawait (frames : List Bytes) (addr : Nat) (code : Byte) :
      (s.sentOk frames later).await addr code = (none, (s.sentOk frames later).noResponse) :=
    await_nothing addr code _ hq.rxbuf hq.arrivals
  rw [tryEnable, command_accepted m _ h]
  simp only [(silent_sentOk hq _ _).verifyEn, Bool.not_true, Bool.false_eq_true, if_false]
  rw [command_accepted m _ rfl, sentOk_sentOk]
  simp only [hawait]
  rfl

/-- The attempts to enable a member that never answers: each sends its two frames and misses one response. -/
theorem tryEnable_unanswered (m : MotorIx) (n : Nat) (hq : s.Silent)
    (h : s.sends = List.replicate (List.replicate n [Cmd.enable 1, Cmd.statusQuery]).flatten.length .ok ++ later) :
    tryEnable m n s = (.exhausted, (s.sentOk
      ((List.replicate n [Cmd.enable 1, Cmd.statusQuery]).flatten.map (s.frameFor m)) later).missed n) := by
  induction n generalizing s with
  | zero => rw [tryEnable, missed_zero]; exact congrArg _ (sentOk_nil h).symm
  | succ n ih =>
    rw [List.replicate_succ, List.flatten_cons, List.length_append, List.replicate_add, List.append_assoc] at h
    have hnext : s.sends = .ok :: .ok :: (List.replicate _ .ok ++ later) := h
    rw [tryEnable_miss m n hq hnext, ih (silent_noResponse (silent_sentOk hq _ _)) rfl, List.replicate_succ,
      List.flatten_cons, List.map_append, ← sentOk_sentOk _ _ _ [], ← noResponse_missed]
    rfl

end

/-! ### A TICK in which one group acts (R263) -/

section
variable {s : State} {g h : GroupIx}

/-- A loop over the groups in which only one has something to do. -/
theorem forGroups_single {f : GroupIx → State → State} (hs : ∀ h, h ≠ g → f h s = s)
    (ht : ∀ h, h ≠ g → f h (f g s) = f g s) : forGroups f s = f g s := by
  obtain ⟨pre, post, hsplit⟩ := List.append_of_mem (mem_allGroups g)
  have hn := nodup_allGroups
  rw [hsplit, List.nodup_append, List.nodup_cons] at hn
  obtain ⟨-, ⟨hpost, -⟩, hpre⟩ := hn
  have hbefore : pre.foldl (fun s g => f g s) s = s :=
    foldl_keeps (P := fun t => t = s) _ _ s
      (fun _ h hm ht => by rw [ht, hs h (hpre h hm g List.mem_cons_self)]) rfl
  rw [forGroups, hsplit, List.foldl_append, List.foldl_cons, hbefore]
  exact foldl_keeps (P := fun t => t = f g s) _ _ _
    (fun _ h hm hu => by rw [hu, ht h fun e => hpost (e ▸ hm)]) rfl

theorem forGroups_idle {f : GroupIx → State → State} (hs : ∀ h, f h s = s) : forGroups f s = s :=
  foldl_keeps (P := fun t => t = s) _ _ s (fun _ h _ ht => by rw [ht, hs h]) rfl

theorem transition_idle (now : Time) (hst : s.stateOf g = .disabled) (hp : s.pendingOf g = false) :
    s.transition now g = s := by
  rw [State.transition, hst]
  simp only [hp, Bool.false_eq_true, if_false]

theorem rampGroup_idle (hst : s.stateOf g ≠ .enabled) : s.rampGroup g = s := if_neg hst

theorem driveGroup_idle (hst : s.stateOf g ≠ .enabled) : s.driveGroup g = s :=
  foldl_keeps (P := fun t => t = s) _ _ s (fun _ _ _ ht => by rw [ht, if_neg hst]) rfl

/-- A TICK with fresh input whose transitions leave every group out of Enabled ends with them. -/
theorem tickSteps_of_transitions {now : Time} {t : State} (hfresh : s.stale now = false)
    (ht : forGroups (State.transition now) s = t) (hst : ∀ g, t.stateOf g ≠ .enabled) : s.tickSteps now = t := by
  have hw : s.watchdogCheck now = s := by rw [State.watchdogCheck, hfresh]; rfl
  rw [State.tickSteps, hw, ht, forGroups_idle fun g => rampGroup_idle (hst g),
    forGroups_idle fun g => driveGroup_idle (hst g)]

end

/-! ### Enabling a member that never answers (R270, R273, R291) -/

section
variable {s : State} {g : GroupIx} {m : MotorIx} {later : List SendOutcome}

/-- The commands of an Enabling whose one member never answers: the handshake, ENABLE_ATTEMPTS attempts, and the
Enable(false) of a failed enabling. -/
def State.exhaustedCmds (s : State) : List Cmd :=
  s.handshake ++ (List.replicate s.enableAttempts [Cmd.enable 1, Cmd.statusQuery]).flatten ++ [Cmd.enable 0]

theorem enableFailed_accepted (hm : s.members g = [m]) (h : s.sends = .ok :: later) :
    s.enableFailed g = ((s.sentOk [s.frameFor m (.enable 0)] later).setState g .disabled).verifyFailure := by
  rw [State.enableFailed, hm, List.foldl_cons, List.foldl_nil, command_accepted m _ h]

theorem enableMembers_exhausted (hm : s.members g = [m]) (hq : s.Silent)
    (h : s.sends = List.replicate s.exhaustedCmds.length .ok ++ later) :
    enableMembers g [m] s
      = (((s.sentOk (s.exhaustedCmds.map (s.frameFor m)) later).missed s.enableAttempts).setState g
          .disabled).verifyFailure := by
  have hattempts (frames : List Bytes) (l : List SendOutcome) :=
    tryEnable_unanswered (later := l) m s.enableAttempts (silent_sentOk hq frames (_ ++ l)) rfl
  have hmem (a b : List Bytes) (l l' : List SendOutcome) (n : Nat) :=
    (keeps_members (KeepsConfig_trans (sentOk_keeps s a l)
      (KeepsConfig_trans (sentOk_keeps _ b l') (missed_keeps _ n))) g).trans hm
  simp only [State.exhaustedCmds, List.length_append, List.length_singleton, List.replicate_add, List.replicate_one,
    List.append_assoc, List.singleton_append] at h
  rw [enableMembers, sendUntilErr_accepted m _ h]
  simp only [keeps_enableAttempts (sentOk_keeps s _ _), hattempts]
  rw [enableFailed_accepted (hmem _ _ _ _ _) rfl, State.exhaustedCmds, List.map_append, List.map_append,
    ← sentOk_sentOk _ _ _ [], ← sentOk_sentOk _ _ _ []]
  rfl

/-- What an Enabling whose one member never answers leaves: the frames, the missed responses, no request, and the
verification reported as failed (R273 (a)). -/
def State.exhausted (g : GroupIx) (m : MotorIx) (later : List SendOutcome) (s : State) : State :=
  (((s.sentOk (s.exhaustedCmds.map (s.frameFor m)) later).missed s.enableAttempts).setPending g false).verifyFailure

theorem exhausted_stateOf (h : GroupIx) : (s.exhausted g m later).stateOf h = s.stateOf h := rfl

theorem exhausted_pendingOf_of_ne {h : GroupIx} (hh : h ≠ g) :
    (s.exhausted g m later).pendingOf h = s.pendingOf h :=
  (getElem_setGroup s.pending g h false).trans (if_neg hh)

section
variable {now : Time} (hst : s.stateOf g = .disabled) (hp : s.pendingOf g = true) (hfresh : s.stale now = false)
  (hm : s.members g = [m]) (hq : s.Silent) (hsends : s.sends = List.replicate s.exhaustedCmds.length .ok ++ later)
include hst hp hfresh hm hq hsends

/-- The group's transition: its request is consumed, and it leaves Disabled only to come back to it. -/
theorem transition_exhausted : s.transition now g = s.exhausted g m later := by
  have hstale : (s.setPending g false).stale now = false := hfresh
  have hmem : (s.setPending g false).members g = [m] := hm
  have hq' : ((s.setPending g false).setState g .enabling).Silent := ⟨hq.verifyEn, hq.rxbuf, hq.arrivals⟩
  have hback : (s.mstate.set g .enabling).set g .disabled = s.mstate := by
    rw [← hst, State.stateOf]
    simp
  rw [State.transition, hst]
  simp only [hp, if_true, State.requestEnable, hstale, Bool.false_eq_true, if_false, State.enabling, hmem]
  rw [enableMembers_exhausted (s := (s.setPending g false).setState g .enabling) hm hq' hsends]
  show ({ s.exhausted g m later with mstate := (s.mstate.set g .enabling).set g .disabled } : State) = _
  rw [hback]
  rfl

/-- The whole TICK, with every other group idle. -/
theorem tickSteps_exhausted (hidle : s.othersIdle g) : s.tickSteps now = s.exhausted g m later := by
  have ht := transition_exhausted hst hp hfresh hm hq hsends
  have hgroups : forGroups (State.transition now) s = s.exhausted g m later := by
    rw [← ht]
    refine forGroups_single (fun h hh => transition_idle now (hidle h hh).1 (hidle h hh).2) fun h hh => ?_
    rw [ht]
    exact transition_idle now (hidle h hh).1 ((exhausted_pendingOf_of_ne hh).trans (hidle h hh).2)
  refine tickSteps_of_transitions hfresh hgroups fun h => ?_
  rw [exhausted_stateOf]
  by_cases hh : h = g
  · rw [hh, hst]; decide
  · rw [(hidle h hh).1]; decide

end

end

/-- Settles O32: the TICK is the transition of the one group that acts, and its attempts are counted one by one. -/
theorem enablingExhaustedFailsSafe : Obligations.EnablingExhaustedFailsSafe := by
  intro s g m now later hr hfresh hst hp hidle hm hv hattempts hb ha frames hsends
  have hlen : frames.length = s.exhaustedCmds.length := List.length_map _
  rw [hlen] at hsends
  have hsticky : s.sticky ||| 0x10 ||| 0x40 = s.sticky ||| 0x50 := BitVec.or_assoc ..
  rw [exec_tick s now hr, tickSteps_exhausted (s := s.begin) hst hp hfresh hm ⟨hv, hb, ha⟩ hsends hidle,
    State.exhausted, missed_of_pos (n := s.begin.enableAttempts) hattempts, ← hsticky]
  rfl

end Sys2Proof.Machine
end

section
/-! PROOFS. The input watchdog's statements: what INPUT_SAMPLE stores (O23), what IO_ERROR leaves (O25), and when the
input is stale (O27). -/

namespace Sys2Proof.Machine

/-! ### INPUT_SAMPLE (R310) -/

theorem exec_inputSample (now : Time) (targets : List Half) (s : State) :
    exec (.inputSample now targets) s = execInputSample now targets s := by rfl

/-- An accepted sample gives a setpoint its value, or 0 where the list ends before it. -/
theorem takeSample_setpointOf (now : Time) (targets : List Half) (s : State) (m : MotorIx) :
    (s.takeSample now targets).setpointOf m = if h : m.val < targets.length then targets[m.val] else 0 := by
  rw [State.setpointOf, State.takeSample_setpoint]
  by_cases h : m.val < targets.length <;> simp [h]

section
variable {s : State} {targets : List Half} (now : Time)

theorem inputSample_refused (hr : s.halted = false) (h : 8 < targets.length) :
    exec (.inputSample now targets) s = .next (s.failedWith .invalidArgument) := by
  have hmax : Config.motorMax < targets.length := h
  rw [exec_inputSample, execInputSample, hostOp_running _ _ hr, if_pos hmax, begin_raise]

theorem inputSample_accepted (hr : s.halted = false) (h : targets.length ≤ 8) :
    exec (.inputSample now targets) s
      = .next { s.takeSample now targets with reply := ⟨.ok, .none, false, false⟩ } := by
  have hmax : ¬ Config.motorMax < targets.length := Nat.not_lt.mpr h
  rw [exec_inputSample, execInputSample, hostOp_running _ _ hr, if_neg hmax]
  rfl

end

/-- Settles O23: one sample refused or taken as a whole, the setpoints read back motor by motor. -/
theorem inputSampleReplacesTheSetpoints : Obligations.InputSampleReplacesTheSetpoints := by
  intro s now targets hr
  exact ⟨inputSample_refused now hr, fun h =>
    ⟨_, inputSample_accepted now hr h, rfl, takeSample_setpointOf now targets s⟩⟩

/-! ### IO_ERROR (R315, R316) -/

theorem exec_ioError (s : State) : exec .ioError s = execIoError s := by rfl

theorem reactsToFault_iff (x : MState) : reactsToFault x = true ↔ x = .enabled ∨ x = .enabling := by
  simp [reactsToFault]

/-- TransportFault in the terms of R316. -/
theorem transportFault_faultTaken (s : State) : s.FaultTaken s.transportFault where
  sticky := transportFault_sticky s
  reopen := transportFault_reopenReq s
  state g := by simp only [transportFault_stateOf, reactsToFault_iff]
  cause g := by simp only [transportFault_causeOf, reactsToFault_iff]
  pending g := by simp only [transportFault_pendingOf, reactsToFault_iff]
  entries := by simp only [transportFault_estopCnt, ← reactsToFault_iff, Bool.decide_eq_true, List.countP_eq_length_filter]
  ramps := transportFault_rampcur s
  buffer := ⟨transportFault_rxbuf s, transportFault_rxdropCnt s, transportFault_norspCnt s, transportFault_lastRx s⟩
  halted := transportFault_halted s

theorem transportFault_keeps (s : State) : s.KeepsConfig s.transportFault where
  regs := transportFault_regs s
  motor := transportFault_motor s
  setpoint := transportFault_setpoint s
  lastInputTime := transportFault_lastInputTime s
  inputValid := transportFault_inputValid s
  inputLost := transportFault_inputLost s
  inputs := transportFault_inputs s

section
variable {s t : State}

/-- Beginning and answering the operation touch nothing that R316 speaks of. -/
theorem faultTaken_answerEvents (h : s.begin.FaultTaken t) : s.FaultTaken t.answerEvents :=
  ⟨h.sticky, h.reopen, h.state, h.cause, h.pending, h.entries, h.ramps, h.buffer, h.halted⟩

theorem keepsConfig_answerEvents (h : s.begin.KeepsConfig t) : s.KeepsConfig t.answerEvents :=
  ⟨h.regs, h.motor, h.setpoint, h.lastInputTime, h.inputValid, h.inputLost, h.inputs⟩

theorem answerEvents_reply_of_ioErr (h : t.reply.ioErr = true) :
    t.answerEvents.reply = { t.reply with status := .transportError, result := .none } := by
  rw [State.answerEvents, if_pos h, State.answer_reply]

end

theorem ioError_running {s : State} (hr : s.halted = false) :
    exec .ioError s = .next s.begin.transportFault.answerEvents := by
  rw [exec_ioError, execIoError, hostOp_running _ _ hr]

/-- The fault of IO_ERROR is an event of the operation itself, so it answers TransportError (R368). -/
theorem ioError_reply (s : State) :
    s.begin.transportFault.answerEvents.reply = ⟨.transportError, .none, true, false⟩ := by
  have hreply : s.begin.transportFault.reply = { s.begin.reply with ioErr := true } := transportFault_reply s.begin
  rw [answerEvents_reply_of_ioErr (by rw [hreply]), hreply]
  rfl

/-- Settles O25: IO_ERROR is the transport fault of R316 and its answer, with nothing put on the link. -/
theorem ioErrorStopsTheEnabledGroups : Obligations.IoErrorStopsTheEnabledGroups := by
  intro s hr
  refine ⟨_, ioError_running hr, faultTaken_answerEvents (transportFault_faultTaken s.begin),
    keepsConfig_answerEvents (transportFault_keeps s.begin), ioError_reply s, ?_, ?_, ?_, ?_, ?_⟩ <;>
  simp [State.answerEvents]

/-! ### Staleness (R311) -/

/-- Settles O27: the four disjuncts of the model's test, as propositions. -/
theorem staleByAgeOrLoss : Obligations.StaleByAgeOrLoss := by
  intro s now
  simp only [State.stale, Bool.or_eq_true, Bool.not_eq_true', decide_eq_true_eq, or_assoc]

end Sys2Proof.Machine
end

section
/-! PROOFS. The host operations' statements: what READ_LAST returns (O21), what a halted block does and how it leaves that
state (O49), and the five operations that only answer (O51). -/

namespace Sys2Proof.Machine

/-! ### READ_LAST (R337) -/

theorem exec_readLast (which : Byte) (s : State) : exec (.readLast which) s = execReadLast which s := by rfl

theorem readLast_tx (s : State) : exec (.readLast 0) s = .next (s.returned .ok (.bytes s.lastTx)) := by rfl

theorem readLast_rx (s : State) : exec (.readLast 1) s = .next (s.returned .ok (.bytes s.lastRx)) := by rfl

theorem readLast_refused {which : Byte} (s : State) (h0 : which ≠ 0) (h1 : which ≠ 1) :
    exec (.readLast which) s = .next (s.failedWith .invalidArgument) := by
  rw [exec_readLast, execReadLast, openOp, if_neg h0, if_neg h1, begin_raise]

/-- Settles O21: one equation for each selector; the frames of the reset state are its fields. -/
theorem readLastReturnsTheLastFrames : Obligations.ReadLastReturnsTheLastFrames := by
  intro s
  refine ⟨readLast_tx s, readLast_rx s, fun which h => readLast_refused s ?_ ?_, rfl, rfl⟩
  all_goals rintro rfl; simp at h

/-! ### A halted block (R335, R391) -/

section
variable {i : Instr} {s t : State}

/-- The host operations but REG_READ and READ_LAST are the ones with a halt check. -/
theorem exec_halted (hh : s.halted = true) (hwire : i.isWire = false) (hread : ∀ idx, i ≠ .regRead idx)
    (hlast : ∀ which, i ≠ .readLast which) : exec i s = .next (s.returned .halted .none) := by
  cases i
  case velocity | enable | workingCurrent | holdingCurrentPercent | pidGains0 | pidGains1 | statusQuery =>
    cases hwire
  case regRead idx => exact absurd rfl (hread idx)
  case readLast which => exact absurd rfl (hlast which)
  all_goals
    simp only [exec]
    exact hostOp_halted _ s hh

/-- No operation clears `halted`: TICK and SHUTDOWN are refused while it is set, and the others do not write it. -/
theorem halted_of_exec (hh : s.halted = true) (he : exec i s = .next t) : t.halted = true := by
  by_cases htick : ∃ now, i = .tick now
  · obtain ⟨now, rfl⟩ := htick
    obtain ⟨-, rfl⟩ | ⟨hr, -⟩ := tick_cases now s t he
    · exact hh
    · simp [hh] at hr
  by_cases hshut : i = .shutdown
  · subst hshut
    obtain ⟨-, rfl⟩ | ⟨hr, -⟩ := shutdown_cases s t he
    · exact hh
    · simp [hh] at hr
  obtain ⟨-, -, hsame, -⟩ := exec_group i s t 0 he (fun now h => htick ⟨now, h⟩) hshut
  exact hsame.trans hh

theorem step_reset {rest : List Input} (h : s.inputs = .reset :: rest) :
    step s = .next (s.setInputs rest).afterReset := by
  simp only [step, h]

end

theorem afterReset_halted (s : State) : s.afterReset.halted = false := rfl

/-- Settles O49: the halt check of the host operations, kept by every operation and undone by the reset input. -/
theorem haltedDoesNothing : Obligations.HaltedDoesNothing := by
  intro i s hh
  exact ⟨exec_halted hh, fun _ => halted_of_exec hh, fun _ h => ⟨_, step_reset h, afterReset_halted _⟩⟩

/-! ### Operations that only answer (R339) -/

/-- An outcome that is an answer and nothing else: a result, or an error with its sticky bit. -/
def OnlyAnswers (s : State) (o : Host.Outcome State Fault Refusal) : Prop :=
  (∃ r, o = .next (s.returned .ok r)) ∨ ∃ st, st ≠ .ok ∧ o = .next (s.failedWith st)

section
variable {s : State}

theorem onlyAnswers_returned (r : Result) : OnlyAnswers s (.next (s.returned .ok r)) := .inl ⟨r, rfl⟩

theorem onlyAnswers_failedWith {st : Status} (h : st ≠ .ok) : OnlyAnswers s (.next (s.failedWith st)) :=
  .inr ⟨st, h, rfl⟩

/-- Halted has no sticky bit (R360), so the answer of a halted block is an error that sets none. -/
theorem returned_halted (s : State) : s.returned .halted .none = s.failedWith .halted := by
  simp [State.returned, State.failedWith, stickyBit]

/-- An operation with a halt check only answers if it does so while running. -/
theorem onlyAnswers_of_running {i : Instr} (hwire : i.isWire = false) (hread : ∀ idx, i ≠ .regRead idx)
    (hlast : ∀ which, i ≠ .readLast which) (h : s.halted = false → OnlyAnswers s (exec i s)) :
    OnlyAnswers s (exec i s) := by
  cases hh : s.halted with
  | false => exact h hh
  | true =>
    rw [exec_halted hh hwire hread hlast, returned_halted]
    exact onlyAnswers_failedWith (by decide)

theorem exec_regRead (idx : Byte) (s : State) : exec (.regRead idx) s = execRegRead idx s := by rfl

theorem regRead_assigned {idx : Byte} {r : Reg} (s : State) (h : regOf idx = some r) :
    exec (.regRead idx) s = .next (s.returned .ok (.word (readReg r s.begin))) := by
  rw [exec_regRead, execRegRead, openOp]
  simp only [h, begin_answer]

theorem regRead_unassigned {idx : Byte} (s : State) (h : regOf idx = none) :
    exec (.regRead idx) s = .next (s.failedWith .invalidArgument) := by
  rw [exec_regRead, execRegRead, openOp]
  simp only [h, begin_raise]

theorem regRead_onlyAnswers (idx : Byte) : OnlyAnswers s (exec (.regRead idx) s) := by
  cases h : regOf idx with
  | none => rw [regRead_unassigned s h]; exact onlyAnswers_failedWith (by decide)
  | some r => rw [regRead_assigned s h]; exact onlyAnswers_returned _

theorem readLast_onlyAnswers (which : Byte) : OnlyAnswers s (exec (.readLast which) s) := by
  by_cases h0 : which = 0
  · rw [h0, readLast_tx]; exact onlyAnswers_returned _
  by_cases h1 : which = 1
  · rw [h1, readLast_rx]; exact onlyAnswers_returned _
  rw [readLast_refused s h0 h1]; exact onlyAnswers_failedWith (by decide)

theorem rampEval_onlyAnswers (cur tgt delta : Half) : OnlyAnswers s (exec (.rampEval cur tgt delta) s) := by
  refine onlyAnswers_of_running rfl (by simp) (by simp) fun hr => ?_
  rw [rampEval_running cur tgt delta hr]; exact onlyAnswers_returned _

theorem encodeOp_onlyAnswers (variant : Byte) (addr : Half) (c : Cmd) :
    OnlyAnswers s (exec (.encodeOp variant addr c) s) := by
  refine onlyAnswers_of_running rfl (by simp) (by simp) fun hr => ?_
  cases hv : variantOf variant with
  | none => rw [encodeOp_badVariant hr hv]; exact onlyAnswers_failedWith (by decide)
  | some v =>
    cases hf : encodeFrame v addr.toNat c s with
    | ok f => rw [encodeOp_ok hr hv hf]; exact onlyAnswers_returned _
    | error e =>
      rw [encodeOp_error hr hv hf, encodeFrame_eq_error hf]; exact onlyAnswers_failedWith (by decide)

/-! #### The errors of DECODE (R171, R172, R173) -/

variable {v : Proto} {f : Bytes} {u : Unframed} {variant : Byte}

theorem unframeCan_ne_error_ok : unframeCan f s ≠ .error .ok := by
  simp only [unframeCan]
  repeat' split
  all_goals simp

theorem unframeRs_ne_error_ok : unframeRs f s ≠ .error .ok := by
  unfold unframeRs
  repeat' split
  all_goals simp

theorem unframe_ne_error_ok : unframe v f s ≠ .error .ok := by
  cases v with
  | can => exact unframeCan_ne_error_ok
  | rs485 => exact unframeRs_ne_error_ok

theorem classify_ne_error_ok : classify v u s ≠ .error .ok := by
  unfold classify
  repeat' split
  all_goals simp

/-- Every failing check of DECODE names an error. -/
theorem decodeFrame_ne_error_ok : decodeFrame v f s ≠ .error .ok := by
  cases hu : unframe v f s with
  | ok u => rw [decodeFrame_of_unframe_ok hu]; exact classify_ne_error_ok
  | error e =>
    rw [decodeFrame_of_unframe_error hu]
    rintro ⟨rfl⟩
    exact unframe_ne_error_ok hu

theorem decodeOp_badVariant (hr : s.halted = false) (hv : variantOf variant = none) :
    exec (.decodeOp variant f) s = .next (s.failedWith .invalidArgument) := by
  rw [exec_decodeOp, execDecode, hostOp_running _ _ hr]
  simp only [hv, begin_raise]

theorem decodeOp_onlyAnswers (variant : Byte) (f : Bytes) : OnlyAnswers s (exec (.decodeOp variant f) s) := by
  refine onlyAnswers_of_running rfl (by simp) (by simp) fun hr => ?_
  cases hv : variantOf variant with
  | none => rw [decodeOp_badVariant hr hv]; exact onlyAnswers_failedWith (by decide)
  | some v =>
    cases hf : decodeFrame v f s with
    | ok d => rw [decodeOp_ok hr hv hf]; exact onlyAnswers_returned _
    | error e =>
      rw [decodeOp_error hr hv hf]
      exact onlyAnswers_failedWith fun he => decodeFrame_ne_error_ok (he ▸ hf)

end

/-- Settles O51: each of the five operations only answers. -/
theorem pureOperationsChangeNothing : Obligations.PureOperationsChangeNothing := by
  intro i s hi
  obtain ⟨idx, rfl⟩ | ⟨which, rfl⟩ | ⟨cur, tgt, delta, rfl⟩ | ⟨variant, addr, c, rfl⟩ | ⟨variant, f, rfl⟩ := hi
  · exact regRead_onlyAnswers idx
  · exact readLast_onlyAnswers which
  · exact rampEval_onlyAnswers cur tgt delta
  · exact encodeOp_onlyAnswers variant addr c
  · exact decodeOp_onlyAnswers variant f

end Sys2Proof.Machine
end

section
/-! PROOFS. The encodings' statements: what each operand reader accepts (R132), host words read exactly (O1, O3, O4), and
command payloads read exactly (O2). -/

namespace Sys2Proof.Machine

/-! ### Operand readers (R132)

Each reader accepts exactly what its writer writes in front of the bytes it leaves. -/

theorem except_bind_eq_ok {ε α β : Type} {x : Except ε α} {f : α → Except ε β} {b : β} :
    x >>= f = .ok b ↔ ∃ a, x = .ok a ∧ f a = .ok b := by
  cases x <;> simp [Bind.bind, Except.bind]

theorem except_pure_eq_ok {ε α : Type} {a b : α} : (pure a : Except ε α) = .ok b ↔ a = b := by
  simp [Pure.pure, Except.pure]

theorem readLE_eq_ok {n v : Nat} {bs rest : Bytes} :
    readLE n bs = .ok (v, rest) ↔ v < 256 ^ n ∧ bs = writeLE n v ++ rest := by
  induction n generalizing v bs with
  | zero =>
    simp only [readLE, writeLE, Except.ok.injEq, Prod.mk.injEq, List.nil_append, pow_zero, Nat.lt_one_iff, eq_comm]
  | succ n ih =>
    cases bs with
    | nil => simp [readLE, writeLE]
    | cons b bs =>
      have hb := b.isLt
      have hread : readLE (n + 1) (b :: bs) = .ok (v, rest)
          ↔ ∃ w, readLE n bs = .ok (w, rest) ∧ b.toNat + 256 * w = v := by
        rw [readLE]
        cases readLE n bs with
        | error e => simp
        | ok r => obtain ⟨w, rest'⟩ := r; simp [and_comm]
      simp only [hread, ih, writeLE, List.cons_append, List.cons.injEq, pow_succ]
      constructor
      · rintro ⟨w, ⟨hw, rfl⟩, rfl⟩
        refine ⟨by omega, BitVec.eq_of_toNat_eq ?_, ?_⟩
        · rw [BitVec.toNat_ofNat]; omega
        · rw [show (b.toNat + 256 * w) / 256 = w by omega]
      · rintro ⟨hv, rfl, rfl⟩
        refine ⟨v / 256, ⟨by omega, rfl⟩, ?_⟩
        rw [BitVec.toNat_ofNat]; omega

/-- A field of `n` bytes that fills a bit vector is read back as that bit vector. -/
theorem readLE_bitVec {n w : Nat} (hw : 256 ^ n = 2 ^ w) {x : BitVec w} {bs rest : Bytes} :
    (∃ a, readLE n bs = .ok a ∧ (BitVec.ofNat w a.1, a.2) = (x, rest)) ↔ bs = writeLE n x.toNat ++ rest := by
  simp only [Prod.exists, readLE_eq_ok, Prod.mk.injEq, hw]
  constructor
  · rintro ⟨v, _, ⟨hv, rfl⟩, rfl, rfl⟩
    rw [BitVec.toNat_ofNat, Nat.mod_eq_of_lt hv]
  · rintro rfl
    exact ⟨x.toNat, rest, ⟨x.isLt, rfl⟩, by simp, rfl⟩

section
variable {bs rest : Bytes}

theorem readByte_eq_ok {b : Byte} : readByte bs = .ok (b, rest) ↔ bs = b :: rest := by
  cases bs <;> simp [readByte]

theorem readHalf_eq_ok {h : Half} : readHalf bs = .ok (h, rest) ↔ bs = writeHalf h ++ rest := by
  simp only [readHalf, except_bind_eq_ok, except_pure_eq_ok]
  exact readLE_bitVec (by norm_num)

theorem readWord_eq_ok {v : Word} : readWord bs = .ok (v, rest) ↔ bs = writeWord v ++ rest := by
  simp only [readWord, except_bind_eq_ok, except_pure_eq_ok]
  exact readLE_bitVec (by norm_num)

theorem readTime_eq_ok {t : Time} : readTime bs = .ok (t, rest) ↔ bs = writeTime t ++ rest := by
  simp only [readTime, except_bind_eq_ok, except_pure_eq_ok]
  exact readLE_bitVec (by norm_num)

theorem fitsCount_iff {α : Type} (l : List α) : fitsCount l = true ↔ l.length < 256 := by
  simp only [fitsCount, decide_eq_true_eq]; omega

theorem toNat_ofNat_count {α : Type} {l : List α} (h : fitsCount l = true) :
    (BitVec.ofNat 8 l.length).toNat = l.length := by
  rw [BitVec.toNat_ofNat, Nat.mod_eq_of_lt ((fitsCount_iff l).mp h)]

theorem readBytes_eq_ok {l : Bytes} :
    readBytes bs = .ok (l, rest) ↔ fitsCount l = true ∧ bs = writeBytes l ++ rest := by
  simp only [readBytes, except_bind_eq_ok, Prod.exists, readByte_eq_ok]
  constructor
  · rintro ⟨k, tail, rfl, h⟩
    split at h
    · cases h
    · next hk =>
      obtain ⟨rfl, rfl⟩ := Prod.mk.inj (except_pure_eq_ok.mp h)
      have hlen : (tail.take k.toNat).length = k.toNat := List.length_take_of_le (by omega)
      refine ⟨(fitsCount_iff _).mpr (by rw [hlen]; exact k.isLt), ?_⟩
      rw [writeBytes, hlen, BitVec.ofNat_toNat, BitVec.setWidth_eq, List.cons_append, List.take_append_drop]
  · rintro ⟨hl, rfl⟩
    refine ⟨_, _, rfl, ?_⟩
    rw [toNat_ofNat_count hl, if_neg (by simp), except_pure_eq_ok]
    simp

theorem readHalves_eq_ok {k : Nat} {l : List Half} :
    readHalves k bs = .ok (l, rest) ↔ l.length = k ∧ bs = l.flatMap writeHalf ++ rest := by
  induction k generalizing bs l with
  | zero =>
    simp only [readHalves, Except.ok.injEq, Prod.mk.injEq, List.length_eq_zero_iff]
    constructor
    · rintro ⟨rfl, rfl⟩; exact ⟨rfl, rfl⟩
    · rintro ⟨rfl, rfl⟩; exact ⟨rfl, rfl⟩
  | succ k ih =>
    simp only [readHalves, except_bind_eq_ok, except_pure_eq_ok, Prod.exists, readHalf_eq_ok, Prod.mk.injEq]
    constructor
    · rintro ⟨h, _, rfl, hs, _, hread, rfl, rfl⟩
      obtain ⟨rfl, rfl⟩ := ih.mp hread
      exact ⟨rfl, by simp⟩
    · rintro ⟨hl, rfl⟩
      obtain ⟨h, hs, rfl⟩ := List.exists_cons_of_length_eq_add_one hl
      exact ⟨h, hs.flatMap writeHalf ++ rest, by simp, hs, rest, ih.mpr ⟨by simpa using hl, rfl⟩, rfl, rfl⟩

/-- The CMD operand of R134 is read back from its own bytes. -/
theorem decodeCmd_encodeCmd (c : Cmd) (rest : Bytes) : decodeCmd (encodeCmd c ++ rest) = .ok (c, rest) := by
  have hbyte (b : Byte) (tail : Bytes) : readByte (b :: tail) = .ok (b, tail) := readByte_eq_ok.mpr rfl
  have hword (v : Word) (tail : Bytes) : readWord (writeWord v ++ tail) = .ok (v, tail) := readWord_eq_ok.mpr rfl
  cases c <;>
    simp [decodeCmd, encodeCmd, hbyte, hword, List.append_assoc, Bind.bind, Except.bind, Pure.pure, Except.pure]

/-- Bytes read as a CMD operand are the operand's own, each of them. -/
theorem eq_encodeCmd_of_decodeCmd {c : Cmd} (h : decodeCmd bs = .ok (c, rest)) : bs = encodeCmd c ++ rest := by
  simp only [decodeCmd, except_bind_eq_ok, Prod.exists, readByte_eq_ok] at h
  obtain ⟨tag, tail, rfl, h⟩ := h
  by_cases h0 : tag = 0
  · simp only [if_pos h0, except_bind_eq_ok, except_pure_eq_ok, Prod.exists, readWord_eq_ok, Prod.mk.injEq] at h
    obtain ⟨rpm, _, rfl, accel, _, rfl, rfl, rfl⟩ := h
    simp [h0, encodeCmd]
  by_cases h1 : tag = 1
  · simp only [if_neg h0, if_pos h1, except_bind_eq_ok, except_pure_eq_ok, Prod.exists, readByte_eq_ok,
      Prod.mk.injEq] at h
    obtain ⟨e, _, rfl, rfl, rfl⟩ := h
    simp [h1, encodeCmd]
  by_cases h2 : tag = 2
  · simp only [if_neg h0, if_neg h1, if_pos h2, except_bind_eq_ok, except_pure_eq_ok, Prod.exists, readWord_eq_ok,
      Prod.mk.injEq] at h
    obtain ⟨ma, _, rfl, rfl, rfl⟩ := h
    simp [h2, encodeCmd]
  by_cases h3 : tag = 3
  · simp only [if_neg h0, if_neg h1, if_neg h2, if_pos h3, except_bind_eq_ok, except_pure_eq_ok, Prod.exists,
      readWord_eq_ok, Prod.mk.injEq] at h
    obtain ⟨pct, _, rfl, rfl, rfl⟩ := h
    simp [h3, encodeCmd]
  by_cases h4 : tag = 4
  · simp only [if_neg h0, if_neg h1, if_neg h2, if_neg h3, if_pos h4, except_bind_eq_ok, except_pure_eq_ok,
      Prod.exists, readByte_eq_ok, readWord_eq_ok, Prod.mk.injEq] at h
    obtain ⟨sel, _, rfl, kp, _, rfl, ki, _, rfl, kd, _, rfl, kv, _, rfl, rfl, rfl⟩ := h
    simp [h4, encodeCmd]
  by_cases h5 : tag = 5
  · simp only [if_neg h0, if_neg h1, if_neg h2, if_neg h3, if_neg h4, if_pos h5, except_pure_eq_ok,
      Prod.mk.injEq] at h
    obtain ⟨rfl, rfl⟩ := h
    simp [h5, encodeCmd]
  · simp only [if_neg h0, if_neg h1, if_neg h2, if_neg h3, if_neg h4, if_neg h5, reduceCtorEq] at h

theorem decodeCmd_eq_ok {c : Cmd} : decodeCmd bs = .ok (c, rest) ↔ bs = encodeCmd c ++ rest :=
  ⟨eq_encodeCmd_of_decodeCmd, fun h => h ▸ decodeCmd_encodeCmd c rest⟩

/-! ### Host words (R132, R133, R334) -/

theorem opcodeOf_byte (o : Opcode) : opcodeOf o.byte = some o := by
  cases o <;> rfl

theorem byte_of_opcodeOf {b : Byte} {o : Opcode} (h : opcodeOf b = some o) : o.byte = b := by
  simpa using List.find?_some h

/-- A host operation at the front of a byte list is read from its own bytes (R133). -/
theorem decodeFront_encode (cap : BitVec 12) (sq : Byte) {i : Instr} (hi : i.isWire = false)
    (hwf : i.wellFormed cap = true) (rest : Bytes) : decodeFront (encode cap sq i ++ rest) = .ok (i, rest) := by
  have hbyte (b : Byte) (tail : Bytes) : readByte (b :: tail) = .ok (b, tail) := readByte_eq_ok.mpr rfl
  have hhalf (v : Half) (tail : Bytes) : readHalf (writeHalf v ++ tail) = .ok (v, tail) := readHalf_eq_ok.mpr rfl
  have hword (v : Word) (tail : Bytes) : readWord (writeWord v ++ tail) = .ok (v, tail) := readWord_eq_ok.mpr rfl
  have htime (v : Time) (tail : Bytes) : readTime (writeTime v ++ tail) = .ok (v, tail) := readTime_eq_ok.mpr rfl
  have hcmd (c : Cmd) (tail : Bytes) : decodeCmd (encodeCmd c ++ tail) = .ok (c, tail) := decodeCmd_eq_ok.mpr rfl
  cases i
  case velocity | enable | workingCurrent | holdingCurrentPercent | pidGains0 | pidGains1 | statusQuery =>
    cases hi
  case decodeOp variant frame =>
    have hframe : readBytes (writeBytes frame ++ rest) = .ok (frame, rest) := readBytes_eq_ok.mpr ⟨hwf, rfl⟩
    simp [encode, decodeFront, opcodeOf_byte, decodeOperands, hbyte, hframe, Bind.bind, Except.bind, Pure.pure,
      Except.pure]
  case rxFeed data =>
    have hdata : readBytes (writeBytes data ++ rest) = .ok (data, rest) := readBytes_eq_ok.mpr ⟨hwf, rfl⟩
    simp [encode, decodeFront, opcodeOf_byte, decodeOperands, hdata, Bind.bind, Except.bind, Pure.pure, Except.pure]
  case inputSample now targets =>
    have hl : fitsCount targets = true := hwf
    have htargets : readHalves targets.length (targets.flatMap writeHalf ++ rest) = .ok (targets, rest) :=
      readHalves_eq_ok.mpr ⟨rfl, rfl⟩
    simp only [encode, decodeFront, List.cons_append, opcodeOf_byte, decodeOperands, List.append_assoc, htime,
      hbyte, Bind.bind, Except.bind, toNat_ofNat_count hl, htargets, Pure.pure, Except.pure]
  all_goals
    simp [encode, decodeFront, opcodeOf_byte, decodeOperands, hbyte, hhalf, hword, htime, hcmd, List.append_assoc,
      Bind.bind, Except.bind, Pure.pure, Except.pure]

/-- The operands read after an opcode byte make up a host operation, and the bytes read are that operation's own. -/
theorem encode_of_decodeOperands {o : Opcode} {i : Instr} (h : decodeOperands o bs = .ok (i, rest))
    (cap : BitVec 12) (sq : Byte) :
    i.isWire = false ∧ i.wellFormed cap = true ∧ o.byte :: bs = encode cap sq i ++ rest := by
  cases o <;>
    simp only [decodeOperands, except_bind_eq_ok, except_pure_eq_ok, Prod.exists, readByte_eq_ok, readHalf_eq_ok,
      readWord_eq_ok, readTime_eq_ok, readBytes_eq_ok, readHalves_eq_ok, decodeCmd_eq_ok, Prod.mk.injEq] at h
  case cfgWrite => obtain ⟨idx, _, rfl, v, _, rfl, rfl, rfl⟩ := h; exact ⟨rfl, rfl, by simp [encode]⟩
  case regRead => obtain ⟨idx, _, rfl, rfl, rfl⟩ := h; exact ⟨rfl, rfl, rfl⟩
  case readLast => obtain ⟨which, _, rfl, rfl, rfl⟩ := h; exact ⟨rfl, rfl, rfl⟩
  case encodeOp =>
    obtain ⟨variant, _, rfl, addr, _, rfl, c, _, rfl, rfl, rfl⟩ := h
    exact ⟨rfl, rfl, by simp [encode]⟩
  case decodeOp => obtain ⟨variant, _, rfl, f, _, ⟨hf, rfl⟩, rfl, rfl⟩ := h; exact ⟨rfl, hf, rfl⟩
  case rxFeed => obtain ⟨data, _, ⟨hd, rfl⟩, rfl, rfl⟩ := h; exact ⟨rfl, hd, rfl⟩
  case rampEval =>
    obtain ⟨cur, _, rfl, tgt, _, rfl, delta, _, rfl, rfl, rfl⟩ := h
    exact ⟨rfl, rfl, by simp [encode]⟩
  case inputSample =>
    obtain ⟨now, _, rfl, k, _, rfl, l, _, ⟨hl, rfl⟩, rfl, rfl⟩ := h
    exact ⟨rfl, (fitsCount_iff l).mpr (by rw [hl]; exact k.isLt), by simp [encode, hl]⟩
  case enableToggle => obtain ⟨mask, _, rfl, rfl, rfl⟩ := h; exact ⟨rfl, rfl, rfl⟩
  case tick => obtain ⟨now, _, rfl, rfl, rfl⟩ := h; exact ⟨rfl, rfl, rfl⟩
  case transact =>
    obtain ⟨m, _, rfl, c, _, rfl, aw, _, rfl, rfl, rfl⟩ := h
    exact ⟨rfl, rfl, by simp [encode]⟩
  case rxNext | inputLost | ioError | transportReopened | shutdown =>
    obtain ⟨rfl, rfl⟩ := h; exact ⟨rfl, rfl, rfl⟩

theorem decodeWord_eq_ok {i : Instr} : decodeWord bs = .ok i ↔ decodeFront bs = .ok (i, []) := by
  unfold decodeWord
  split <;> simp_all

theorem decodeWord_encode (cap : BitVec 12) (sq : Byte) {i : Instr} (hi : i.isWire = false)
    (hwf : i.wellFormed cap = true) : decodeWord (encode cap sq i) = .ok i := by
  rw [decodeWord_eq_ok, ← List.append_nil (encode cap sq i), decodeFront_encode cap sq hi hwf]

theorem encode_of_decodeWord {i : Instr} (h : decodeWord bs = .ok i) (cap : BitVec 12) (sq : Byte) :
    i.isWire = false ∧ i.wellFormed cap = true ∧ encode cap sq i = bs := by
  rw [decodeWord_eq_ok] at h
  cases bs with
  | nil => cases h
  | cons b bs =>
    cases ho : opcodeOf b with
    | none => simp [decodeFront, ho] at h
    | some o =>
      simp only [decodeFront, ho] at h
      obtain ⟨hwire, hwf, hbytes⟩ := encode_of_decodeOperands h cap sq
      rw [byte_of_opcodeOf ho, List.append_nil] at hbytes
      exact ⟨hwire, hwf, hbytes.symm⟩

end

/-- Settles O3: every reader accepts only what its writer writes, so the bytes are the operation's word. -/
theorem hostWordsReadExactly : Obligations.HostWordsReadExactly := by
  intro bs i h
  refine ⟨(encode_of_decodeWord h 0 0).1, fun cap sq => ?_⟩
  obtain ⟨-, hwf, hbytes⟩ := encode_of_decodeWord h cap sq
  exact ⟨hwf, hbytes⟩

/-! ### Command payloads (R122, R130) -/

section
variable {cap : BitVec 12} {sq : Byte} {c : Cmd} {i : Instr} {q : Bytes}

theorem cmdOk_of_legal (h : c.legal cap = true) : cmdOk c = true := by
  cases c with
  | enable e => exact h
  | pidGains sel kp ki kd kv =>
    simp only [Cmd.legal, Bool.and_eq_true] at h
    exact h.1.1.1.1
  | _ => rfl

/-- A legal command is read back from its payload (R122, R181). -/
theorem parseCommand_of_legal (hsq : sq ∉ Config.fixedCodes) (h : c.legal cap = true) :
    parseCommand cap sq (c.payload cap sq) = some c := by
  rw [parseCommand_payload hsq (cmdOk_of_legal h), clampedCmd_of_legal h]

/-- A wire row is its command's payload, and its command's row is itself. -/
theorem wire_row (h : i.toCmd = some c) :
    encode cap sq i = c.payload cap sq ∧ i.wellFormed cap = c.legal cap ∧ instrOfCmd c = i := by
  cases i <;> cases h <;> exact ⟨rfl, rfl, rfl⟩

/-! #### What a payload read as a command is the image of (R174..R179) -/

theorem toInt_ofInt_small {x : Int} (hlo : -2147483648 ≤ x) (hhi : x < 2147483648) : (BitVec.ofInt 32 x).toInt = x := by
  rw [BitVec.toInt_ofInt, Int.bmod_eq_of_le] <;> omega

theorem toInt_ofNat_small {n : Nat} (h : n < 2147483648) : (BitVec.ofNat 32 n).toInt = n := by
  rw [← BitVec.ofInt_natCast, toInt_ofInt_small (by omega) (by omega)]

theorem inRange_ofNat {n : Nat} {lo hi : Int} (h : n < 2147483648) :
    inRange (BitVec.ofNat 32 n) lo hi = true ↔ lo ≤ n ∧ n ≤ hi := by
  simp only [inRange, toInt_ofNat_small h, Bool.and_eq_true, decide_eq_true_eq]

/-- The two bytes of a little-endian wire field are those of its value (R93). -/
theorem writeLE_wireLE16 (lo hi : Byte) : writeLE 2 (wireLE16 lo hi) = [lo, hi] := by
  have hl := lo.isLt
  have hh := hi.isLt
  have h1 : BitVec.ofNat 8 (wireLE16 lo hi) = lo :=
    BitVec.eq_of_toNat_eq (by rw [BitVec.toNat_ofNat, wireLE16]; omega)
  have h2 : BitVec.ofNat 8 (wireLE16 lo hi / 256) = hi :=
    BitVec.eq_of_toNat_eq (by rw [BitVec.toNat_ofNat, wireLE16]; omega)
  rw [writeLE_two, h1, h2]

/-- The byte B1 of a Velocity payload is its direction bit and the four bits below, where bits 6:4 are 0 (R125). -/
theorem velocityHigh_eq (b : Byte) (h : b.extractLsb' 4 3 = 0) :
    (if (b.extractLsb' 7 1 == 1) = true then (0x80 : Byte) else 0)
      ||| BitVec.ofNat 8 (b.extractLsb' 0 4).toNat = b := by
  revert b; decide

theorem image_of_parseVelocity {tail : Bytes} (h : parseVelocity cap (0xF6 :: tail) = some c) :
    c.legal cap = true ∧ c.payload cap sq = 0xF6 :: tail := by
  match tail, h with
  | [b1, b2, b3], h =>
    simp only [parseVelocity] at h
    split at h
    · cases h
    · next hres =>
      rw [ne_eq, not_not] at hres
      have hhigh := velocityHigh_eq b1 hres
      have hk := (b1.extractLsb' 0 4).isLt
      have hcap := cap.isLt
      have h2 := b2.isLt
      have h3 := b3.isLt
      generalize (b1.extractLsb' 0 4).toNat = k at h hhigh hk
      generalize (b1.extractLsb' 7 1 == 1) = dir at h hhigh
      split at h
      · cases h
      · next hok =>
        obtain ⟨hle, hdir⟩ := not_or.mp hok
        obtain rfl := Option.some.inj h
        have hrpm : (BitVec.ofInt 32 (if dir = true then -((k * 256 + b2.toNat : Nat) : Int)
            else (k * 256 + b2.toNat : Nat))).toInt
              = if dir = true then -((k * 256 + b2.toNat : Nat) : Int) else (k * 256 + b2.toNat : Nat) :=
          toInt_ofInt_small (by split <;> omega) (by split <;> omega)
        have haccel : (BitVec.ofNat 32 b3.toNat).toInt = b3.toNat := toInt_ofNat_small (by omega)
        have hmin : min (k * 256 + b2.toNat) cap.toNat = k * 256 + b2.toNat := by omega
        have hneg : (if dir = true then -((k * 256 + b2.toNat : Nat) : Int) else (k * 256 + b2.toNat : Nat)) < 0
            ∧ 0 < k * 256 + b2.toNat ↔ dir = true := by
          by_cases hd : dir = true
          · simp only [hd, if_true, iff_true]; simp [hd] at hdir; omega
          · simp only [hd, Bool.false_eq_true, if_false, iff_false]; omega
        refine ⟨?_, ?_⟩
        · simp only [Cmd.legal, inRange, hrpm, haccel, Bool.and_eq_true, decide_eq_true_eq]
          refine ⟨?_, by omega⟩
          split <;> omega
        · have habs : (if dir = true then -((k * 256 + b2.toNat : Nat) : Int)
              else (k * 256 + b2.toNat : Nat)).natAbs = k * 256 + b2.toNat := by split <;> omega
          have hdiv : (k * 256 + b2.toNat) / 256 = k := by omega
          have hmod : BitVec.ofNat 8 ((k * 256 + b2.toNat) % 256) = b2 :=
            BitVec.eq_of_toNat_eq (by rw [BitVec.toNat_ofNat]; omega)
          have hb3 : BitVec.ofInt 8 (clampInt (b3.toNat : Int) 0 Config.accelMax) = b3 := by
            rw [clampInt_of_mem (by omega) (by simp only [Config.accelMax]; omega), BitVec.ofInt_natCast,
              BitVec.ofNat_toNat, BitVec.setWidth_eq]
          simp only [Cmd.payload, velocityPayload, hrpm, haccel, habs, hmin, hneg, hdiv, hmod, hb3, hhigh]

theorem image_of_parseEnable {tail : Bytes} (h : parseEnable (0xF3 :: tail) = some c) :
    c.legal cap = true ∧ c.payload cap sq = 0xF3 :: tail := by
  match tail, h with
  | [e], h =>
    obtain ⟨he, hc⟩ := Option.ite_none_right_eq_some.mp h
    obtain rfl := Option.some.inj hc
    obtain rfl | rfl := he <;> exact ⟨rfl, rfl⟩

theorem image_of_parseWorkingCurrent {tail : Bytes} (h : parseWorkingCurrent (0x83 :: tail) = some c) :
    c.legal cap = true ∧ c.payload cap sq = 0x83 :: tail := by
  match tail, h with
  | [lo, hi], h =>
    obtain ⟨hle, hc⟩ := Option.ite_none_right_eq_some.mp h
    obtain rfl := Option.some.inj hc
    have hle : wireLE16 lo hi ≤ 3000 := hle
    have hint : (BitVec.ofNat 32 (wireLE16 lo hi)).toInt = wireLE16 lo hi := toInt_ofNat_small (by omega)
    refine ⟨(inRange_ofNat (by omega)).mpr (by omega), ?_⟩
    simp only [Cmd.payload, workingCurrentPayload, hint]
    rw [clampInt_of_mem (by omega) (by simp only [Config.wcMax]; omega), Int.toNat_natCast, writeLE_wireLE16]

theorem image_of_parseHoldingCurrentPercent {tail : Bytes}
    (h : parseHoldingCurrentPercent (0x9B :: tail) = some c) :
    c.legal cap = true ∧ c.payload cap sq = 0x9B :: tail := by
  match tail, h with
  | [i], h =>
    obtain ⟨hle, hc⟩ := Option.ite_none_right_eq_some.mp h
    obtain rfl := Option.some.inj hc
    have hint : (BitVec.ofNat 32 (10 * (i.toNat + 1))).toInt = (10 * (i.toNat + 1) : Nat) :=
      toInt_ofNat_small (by omega)
    refine ⟨?_, ?_⟩
    · simp only [Cmd.legal, Bool.and_eq_true, beq_iff_eq, inRange_ofNat (show 10 * (i.toNat + 1) < 2147483648 by omega),
        hint]
      omega
    · have hi : BitVec.ofNat 8 (10 * (10 * (i.toNat + 1) / 10) / 10 - 1) = i :=
        BitVec.eq_of_toNat_eq (by rw [BitVec.toNat_ofNat]; omega)
      simp only [Cmd.payload, holdingCurrentPayload, hint]
      rw [clampInt_of_mem (by omega) (by omega), Int.toNat_natCast, hi]

/-- A gain field of at most 1024 is legal and is written back as its own two bytes (R168). -/
theorem gain_of_wire {lo hi : Byte} (h : wireLE16 lo hi ≤ 1024) :
    inRange (BitVec.ofNat 32 (wireLE16 lo hi)) 0 1024 = true
      ∧ gainBytes (BitVec.ofNat 32 (wireLE16 lo hi)).toInt = [lo, hi] := by
  refine ⟨(inRange_ofNat (by omega)).mpr (by omega), ?_⟩
  rw [gainBytes, toInt_ofNat_small (by omega), clampInt_of_mem (by omega) (by simp only [Config.gainMax]; omega),
    Int.toNat_natCast, writeLE_wireLE16]

theorem image_of_parsePidGains {sel : Byte} {tail : Bytes} (hsel : sel = 0 ∨ sel = 1)
    (h : parsePidGains sel ((0x96 + sel) :: tail) = some c) :
    c.legal cap = true ∧ c.payload cap sq = (0x96 + sel) :: tail := by
  match tail, h with
  | [p0, p1, i0, i1, d0, d1, v0, v1], h =>
    obtain ⟨⟨hp, hi, hd, hv⟩, hc⟩ := Option.ite_none_right_eq_some.mp h
    obtain rfl := Option.some.inj hc
    obtain ⟨hp1, hp2⟩ := gain_of_wire hp
    obtain ⟨hi1, hi2⟩ := gain_of_wire hi
    obtain ⟨hd1, hd2⟩ := gain_of_wire hd
    obtain ⟨hv1, hv2⟩ := gain_of_wire hv
    refine ⟨?_, ?_⟩
    · simp only [Cmd.legal, hp1, hi1, hd1, hv1, Bool.and_true, Bool.or_eq_true, beq_iff_eq]
      exact hsel
    · simp only [Cmd.payload, pidGainsPayload, hp2, hi2, hd2, hv2]
      rfl

theorem image_of_parseStatusQuery {tail : Bytes} (h : parseStatusQuery (sq :: tail) = some c) :
    c.legal cap = true ∧ c.payload cap sq = sq :: tail := by
  match tail, h with
  | [], h =>
    obtain rfl := Option.some.inj h
    exact ⟨rfl, rfl⟩

/-- A payload read as a command is the image of that command, which is legal (R130). -/
theorem image_of_parseCommand (h : parseCommand cap sq q = some c) : c.legal cap = true ∧ c.payload cap sq = q := by
  cases q with
  | nil => cases h
  | cons code tail =>
    simp only [parseCommand] at h
    split at h
    · next hc => subst hc; exact image_of_parseVelocity h
    split at h
    · next hc => subst hc; exact image_of_parseEnable h
    split at h
    · next hc => subst hc; exact image_of_parseWorkingCurrent h
    split at h
    · next hc => subst hc; exact image_of_parseHoldingCurrentPercent h
    split at h
    · next hc => subst hc; exact image_of_parsePidGains (sel := 0) (.inl rfl) h
    split at h
    · next hc => subst hc; exact image_of_parsePidGains (sel := 1) (.inr rfl) h
    split at h
    · next hc => subst hc; exact image_of_parseStatusQuery h
    · cases h

end

/-- Settles O1: a wire row through its command's payload, a host operation through its word. -/
theorem everyInstructionRoundTrips : Obligations.EveryInstructionRoundTrips := by
  intro cap sq i hsq hwf
  refine ⟨fun hwire => ?_, fun hhost => decodeWord_encode cap sq hhost hwf⟩
  obtain ⟨c, hc⟩ := Option.isSome_iff_exists.mp hwire
  obtain ⟨hbytes, hlegal, hrow⟩ := wire_row (cap := cap) (sq := sq) hc
  rw [hbytes, decodePayload, parseCommand_of_legal hsq (hlegal ▸ hwf)]
  exact congrArg Except.ok hrow

/-- Settles O2: each row's parser answers only for an image, and an image is parsed by its own row. -/
theorem payloadReadsExactlyTheImages : Obligations.PayloadReadsExactlyTheImages := by
  intro cap sq q c hsq
  refine ⟨image_of_parseCommand, ?_⟩
  rintro ⟨hlegal, rfl⟩
  exact parseCommand_of_legal hsq hlegal

/-- Settles O4: each word is the encoding of its instruction, each payload the image of its command. -/
theorem specWordsDecode : Obligations.SpecWordsDecode := by
  have hword {i : Instr} (hi : i.isWire = false) (hwf : i.wellFormed 0 = true) := decodeWord_encode 0 0 hi hwf
  have hrow {i : Instr} (hwire : i.isWire = true) (hwf : i.wellFormed 3000 = true) :=
    (everyInstructionRoundTrips 3000 0x3A i (by decide) hwf).1 hwire
  exact ⟨hword (i := .cfgWrite 0x03 0x00320640) rfl rfl, hword (i := .regRead 0x11) rfl rfl,
    hword (i := .encodeOp 0 1 (.velocity 100 2)) rfl rfl, hword (i := .rxFeed [0xAA, 0xC5, 0x01]) rfl rfl,
    hword (i := .rampEval 0 100 30) rfl rfl, hword (i := .inputSample 100000 [0x0064, 0xFF9C]) rfl rfl,
    hword (i := .enableToggle 0x01) rfl rfl, hword (i := .tick 50000) rfl rfl,
    hword (i := .transact 0 .statusQuery 1) rfl rfl, hrow (i := .velocity (-50) 0) rfl rfl,
    hrow (i := .holdingCurrentPercent 50) rfl rfl, hrow (i := .statusQuery) rfl rfl⟩

end Sys2Proof.Machine
end

section
/-! PROOFS. The codec's port and DECODE: the payload each wire row builds (O7) and what DECODE answers to every byte list
(O10). -/

namespace Sys2Proof.Machine

/-! ### The command port (R122, R164..R169; log 6) -/

section
variable {i : Instr} {c : Cmd} {s : State}

theorem exec_wire (h : i.toCmd = some c) (s : State) : exec i s = openOp (buildPayload c) s := by
  cases i <;> cases h <;> rfl

/-- A wire row whose command has legal u8 operands and fits the format builds the payload of its rule. -/
theorem builds_of_wire (h : i.toCmd = some c) (hc : cmdOk c = true) (hp : payloadFits s.proto (s.payload c) = true) :
    s.builds i c := by
  have hb : (cmdOk c && payloadFits s.begin.proto (s.begin.payload c)) = true := by
    rw [hc]; exact hp
  refine ⟨s.payload c, ?_, ?_⟩
  · rw [payloadByRule_eq, if_pos hc]; rfl
  · rw [exec_wire h, openOp, buildPayload, if_pos hb, begin_answer]; rfl

theorem exec_wire_refused (h : i.toCmd = some c) (hc : ¬ (cmdOk c && payloadFits s.proto (s.payload c)) = true) :
    exec i s = .next (s.failedWith .invalidArgument) := by
  have hb : ¬ (cmdOk c && payloadFits s.begin.proto (s.begin.payload c)) = true := hc
  rw [exec_wire h, openOp, buildPayload, if_neg hb, begin_raise]

/-- A payload of PidGains has nine bytes, one more than a CAN frame carries (R122, R162). -/
theorem not_payloadFits_pidGains {sel : Byte} {kp ki kd kv : Word} (hp : s.proto = .can) :
    ¬ payloadFits s.proto (s.payload (.pidGains sel kp ki kd kv)) = true := by
  rw [hp, payloadFits_can]
  exact show ¬ 9 ≤ 8 by omega

end

/-- Settles O7: each row through the command it stands for. -/
theorem wirePayloadRowsBuildTheirPayload : Obligations.WirePayloadRowsBuildTheirPayload := by
  intro s
  have hfits (c : Cmd) (h : ∀ sel kp ki kd kv, c ≠ .pidGains sel kp ki kd kv) :
      payloadFits s.proto (s.payload c) = true :=
    payloadFits_payload fun sel kp ki kd kv e => absurd e (h sel kp ki kd kv)
  have hgains (sel : Byte) (kp ki kd kv : Word) (hp : s.proto = .rs485) :
      payloadFits s.proto (s.payload (.pidGains sel kp ki kd kv)) = true :=
    payloadFits_payload fun _ _ _ _ _ _ => hp
  have htooLong {sel : Byte} {kp ki kd kv : Word} (hp : s.proto = .can) :
      ¬ (cmdOk (.pidGains sel kp ki kd kv) && payloadFits s.proto (s.payload (.pidGains sel kp ki kd kv))) = true :=
    fun h => not_payloadFits_pidGains hp (Bool.and_eq_true_iff.mp h).2
  refine ⟨fun rpm accel => builds_of_wire rfl rfl (hfits _ (by simp)),
    fun e he => builds_of_wire rfl (cmdOk_enable.mpr he) (hfits _ (by simp)), fun e h0 h1 => ?_,
    fun ma => builds_of_wire rfl rfl (hfits _ (by simp)), fun pct => builds_of_wire rfl rfl (hfits _ (by simp)),
    fun kp ki kd kv hp => ⟨builds_of_wire rfl rfl (hgains 0 kp ki kd kv hp),
      builds_of_wire rfl rfl (hgains 1 kp ki kd kv hp)⟩,
    fun kp ki kd kv hp => ⟨exec_wire_refused rfl (htooLong hp), exec_wire_refused rfl (htooLong hp)⟩,
    builds_of_wire rfl rfl (hfits _ (by simp))⟩
  refine exec_wire_refused rfl fun h => ?_
  exact not_or.mpr ⟨h0, h1⟩ (cmdOk_enable.mp (Bool.and_eq_true_iff.mp h).1)

/-! ### DECODE (R170..R173) -/

section
variable {s : State} {v : Proto} {f : Bytes}

theorem decodeFrame_nil : decodeFrame v [] s = .error .truncated := by
  cases v <;> rfl

/-- A start marker with too few bytes to tell the length (R171, R172). -/
theorem unframe_cutHeader (hf : f ≠ []) (hm : f.getD 0 0 ∈ startMarkers v) (hl : f.length < headerLength v) :
    unframe v f s = .error .truncated := by
  have hne : f.length ≠ 0 := by simpa using hf
  cases v with
  | can =>
    have hm : f.getD 0 0 = 0xAA := by simpa only [startMarkers, List.mem_singleton] using hm
    have hl : f.length < 2 := hl
    simp only [unframe, unframeCan, if_neg hne, if_neg (not_not.mpr hm), if_pos hl]
  | rs485 =>
    have hm : ¬ (f.getD 0 0 ≠ 0xFA ∧ f.getD 0 0 ≠ 0xFB) := by
      simpa only [startMarkers, List.mem_cons, List.not_mem_nil, or_false, ← not_or, not_not] using hm
    have hl : f.length < 3 := hl
    simp only [unframe, unframeRs, if_neg hne, if_neg hm, if_pos hl]

theorem decodeFrame_of_cutHeader (hf : f ≠ []) (hm : f.getD 0 0 ∈ startMarkers v) (hl : f.length < headerLength v) :
    decodeFrame v f s = .error .truncated :=
  decodeFrame_of_unframe_error (unframe_cutHeader hf hm hl)

/-! #### The classification of a payload (R173) -/

variable {marker code : Byte} {addr : Nat} {data : Bytes}

theorem classify_nil : classify v ⟨marker, addr, []⟩ s = .error .unknownCommand := rfl

theorem classify_unknown (h : s.knownCode code = false) :
    classify v ⟨marker, addr, code :: data⟩ s = .error .unknownCommand := by
  simp only [classify, h, Bool.not_false, if_true]

theorem classify_response (h : s.knownCode code = true) :
    classify .rs485 ⟨0xFB, addr, code :: data⟩ s = .ok ⟨none, 0xFB, BitVec.ofNat 16 addr, code, data⟩ := by
  simp only [classify, h, Bool.not_true, Bool.false_eq_true, if_false, and_self, if_true]

/-- An RS485 request that is the image of no command. -/
theorem classify_badRequest (hc : parseCommand s.velCap s.sqCode (code :: data) = none) :
    classify .rs485 ⟨0xFA, addr, code :: data⟩ s = .error .unknownCommand := by
  cases h : s.knownCode code with
  | false => exact classify_unknown h
  | true =>
    have hm : ¬ (True ∧ (0xFA : Byte) = 0xFB) := by decide
    simp only [classify, h, Bool.not_true, Bool.false_eq_true, if_false, if_neg hm, hc, if_true]

/-- A CAN frame of a known code is a Response where it is the image of no command. -/
theorem classify_can (h : s.knownCode code = true) :
    classify .can ⟨0xAA, addr, code :: data⟩ s
      = .ok ⟨parseCommand s.velCap s.sqCode (code :: data), 0xAA, BitVec.ofNat 16 addr, code, data⟩ := by
  cases hc : parseCommand s.velCap s.sqCode (code :: data) with
  | some c => exact classify_request (v := .can) h hc
  | none =>
    simp only [classify, h, hc, Bool.not_true, Bool.false_eq_true, if_false, reduceCtorEq, false_and]

/-- A valid CAN frame, or a valid RS485 request that is the image of a command, of a known code. -/
theorem decodeFrame_of_request (hv : s.validAs v f = true) (hp : payloadIn v f = code :: data)
    (hk : s.knownCode code = true)
    (hc : v = .can ∨ f.getD 0 0 = 0xFA ∧ parseCommand s.velCap s.sqCode (code :: data) ≠ none) :
    decodeFrame v f s = .ok ⟨parseCommand s.velCap s.sqCode (code :: data), requestMarker v,
      BitVec.ofNat 16 (addressIn v f), code, data⟩ := by
  rw [decodeFrame_of_valid hv, hp]
  cases v with
  | can => rw [(validAs_can_spec hv).1]; exact classify_can hk
  | rs485 =>
    obtain hcan | ⟨hm, hc⟩ := hc
    · cases hcan
    · obtain ⟨c, hc⟩ := Option.ne_none_iff_exists'.mp hc
      rw [hm, hc]
      exact classify_request (v := .rs485) hk hc

end

/-- Settles O10: the checks of unframing in their order, then the classification of what a valid frame carries. -/
theorem decodeReturnsTheFrameOrAnError : Obligations.DecodeReturnsTheFrameOrAnError := by
  intro s variant f hr
  refine ⟨fun hv => decodeOp_badVariant hr (variantOf_none hv), fun v hv => ?_⟩
  have herror {e : Status} (h : decodeFrame v f s = .error e) := decodeOp_error hr (variantOf_eq hv) h
  have hok {d : Decoded} (h : decodeFrame v f s = .ok d) := decodeOp_ok hr (variantOf_eq hv) h
  refine ⟨fun hbad => ⟨fun hf => ?_, fun hf hm => herror (decodeFrame_of_notMarker hf hm),
    fun hf hm hl => herror (decodeFrame_of_cutHeader hf hm hl),
    fun hm hl ha => herror (decodeFrame_of_noLength hm hl ha), fun t ha =>
      ⟨fun hl => herror (decodeFrame_of_short ha hl),
        fun hl => herror (decodeFrame_of_invalid ha hl (by simp [hbad]))⟩⟩,
    fun hgood => ⟨fun hp => ?_, fun code data hp => ⟨fun hk => ?_, fun hk hrs hm => ?_, fun _ hrs hm hc => ?_,
      fun hk hc => hok (decodeFrame_of_request hgood hp hk hc)⟩⟩⟩
  · subst hf
    exact herror decodeFrame_nil
  · exact herror (by rw [decodeFrame_of_valid hgood, hp, classify_nil])
  · exact herror (by rw [decodeFrame_of_valid hgood, hp, classify_unknown hk])
  · refine hok ?_
    rw [decodeFrame_of_valid hgood, hp, hm]
    subst hrs
    exact classify_response hk
  · refine herror ?_
    rw [decodeFrame_of_valid hgood, hp, hm]
    subst hrs
    exact classify_badRequest hc

end Sys2Proof.Machine
end

section
/-! PROOFS. The registers' statements: what REG_READ returns (O16, O17) and what CFG_WRITE stores, checks and clears (O18,
O19, O20). -/

namespace Sys2Proof.Machine

/-! ### Fields of a register given as a number -/

section
variable {n k w : Nat}

theorem extractLsb'_ofNat_field (h : n < 4294967296) :
    (BitVec.ofNat 32 n).extractLsb' k w = BitVec.ofNat w (n / 2 ^ k) := by
  apply BitVec.eq_of_toNat_eq
  rw [BitVec.extractLsb'_toNat, BitVec.toNat_ofNat, BitVec.toNat_ofNat, Nat.mod_eq_of_lt h,
    Nat.shiftRight_eq_div_pow]

theorem getLsbD_ofNat_field (h : n < 4294967296) :
    (BitVec.ofNat 32 n).getLsbD k = decide (n / 2 ^ k % 2 = 1) := by
  rw [BitVec.getLsbD, BitVec.toNat_ofNat, Nat.mod_eq_of_lt h, Nat.testBit_eq_decide_div_mod_eq]

end

theorem ofNat_eq_zero {w n : Nat} (h : n % 2 ^ w = 0) : BitVec.ofNat w n = 0 :=
  BitVec.eq_of_toNat_eq (by rw [BitVec.toNat_ofNat, h]; rfl)

/-- A one-bit field that holds a flag reads as that flag. -/
theorem decide_flag (b : Bool) {n : Nat} (h : n = b.toNat) : decide (n = 1) = b := by
  subst h; cases b <;> rfl

/-! ### REG_READ (R33, R330) -/

theorem regOf_motor (m : MotorIx) : regOf (BitVec.ofNat 8 (0x20 + m.val)) = some (.motor m) := by
  revert m; decide

theorem regOf_setpoint (m : MotorIx) : regOf (BitVec.ofNat 8 (0x30 + m.val)) = some (.setpoint m) := by
  revert m; decide

theorem regOf_rampcur (m : MotorIx) : regOf (BitVec.ofNat 8 (0x38 + m.val)) = some (.rampcur m) := by
  revert m; decide

/-- The unassigned indices of R33. -/
theorem regOf_unassigned (idx : Byte) (h : (0x0A ≤ idx.toNat ∧ idx.toNat < 0x10) ∨ (0x17 ≤ idx.toNat ∧ idx.toNat < 0x20)
    ∨ (0x28 ≤ idx.toNat ∧ idx.toNat < 0x30) ∨ 0x40 ≤ idx.toNat) : regOf idx = none := by
  revert h; revert idx; decide

/-- Settles O16: the register each index names, and its stored value. -/
theorem regReadReturnsStoredRegisters : Obligations.RegReadReturnsStoredRegisters := by
  intro s
  have hread (r : Reg) {idx : Byte} (h : regOf idx = some r) := regRead_assigned s h
  exact ⟨hread .cfg rfl, hread .seq rfl, hread .vel rfl, hread .cur rfl, hread .ramp rfl, hread .wdTimeout rfl,
    hread .rspTimeout rfl, hread .sq rfl, hread .rsplen rfl, hread .verify rfl, hread .norspCnt rfl,
    hread .rxdropCnt rfl, hread .estopCnt rfl,
    fun m => hread _ (regOf_motor m),
    fun idx h => regRead_unassigned s (regOf_unassigned idx h)⟩

/-! #### The computed views (R48, R50, R51) -/

theorem statusReg_fields (s : State) :
    (statusReg s).extractLsb' 0 8 = s.sticky ∧ (statusReg s).getLsbD 8 = s.reopenReq
      ∧ (statusReg s).getLsbD 9 = s.halted ∧ (statusReg s).getLsbD 10 = s.inputValid
      ∧ (statusReg s).getLsbD 11 = s.inputLost ∧ (statusReg s).extractLsb' 12 20 = 0 := by
  have hs := s.sticky.isLt
  have h8 := s.reopenReq.toNat_le
  have h9 := s.halted.toNat_le
  have h10 := s.inputValid.toNat_le
  have h11 := s.inputLost.toNat_le
  have hlt : s.sticky.toNat + 256 * s.reopenReq.toNat + 512 * s.halted.toNat + 1024 * s.inputValid.toNat
      + 2048 * s.inputLost.toNat < 4294967296 := by omega
  simp only [statusReg, extractLsb'_ofNat_field hlt, getLsbD_ofNat_field hlt]
  refine ⟨BitVec.eq_of_toNat_eq ?_, decide_flag _ (by omega), decide_flag _ (by omega), decide_flag _ (by omega),
    decide_flag _ (by omega), ofNat_eq_zero (by omega)⟩
  rw [BitVec.toNat_ofNat]; omega

/-- GSTATE in numbers (R50). -/
theorem gstateReg_eq (s : State) : gstateReg s = BitVec.ofNat 32
    (mstateCode (s.stateOf 0) + 8 * (s.pendingOf 0).toNat + 16 * (mstateCode (s.stateOf 1) + 8 * (s.pendingOf 1).toNat)
      + 256 * (mstateCode (s.stateOf 2) + 8 * (s.pendingOf 2).toNat)
      + 4096 * (mstateCode (s.stateOf 3) + 8 * (s.pendingOf 3).toNat)) := by
  simp only [gstateReg, allGroups, List.map, List.sum_cons, List.sum_nil]
  norm_num [Nat.add_assoc]

theorem mstateCode_le (x : MState) : mstateCode x ≤ 4 := by
  cases x <;> decide

/-- The fields of GSTATE (R50). -/
theorem gstateReg_fields (s : State) : (gstateReg s).extractLsb' 16 16 = 0 ∧ ∀ g : GroupIx,
    (gstateReg s).extractLsb' (4 * g.val) 3 = BitVec.ofNat 3 (mstateCode (s.stateOf g))
      ∧ (gstateReg s).getLsbD (4 * g.val + 3) = s.pendingOf g := by
  have hc (g : GroupIx) := mstateCode_le (s.stateOf g)
  have hp (g : GroupIx) := (s.pendingOf g).toNat_le
  have hc0 := hc 0
  have hc1 := hc 1
  have hc2 := hc 2
  have hc3 := hc 3
  have hp0 := hp 0
  have hp1 := hp 1
  have hp2 := hp 2
  have hp3 := hp 3
  rw [gstateReg_eq]
  refine ⟨?_, fun g => ⟨?_, ?_⟩⟩
  · rw [extractLsb'_ofNat_field (by omega)]
    exact ofNat_eq_zero (by omega)
  · rw [extractLsb'_ofNat_field (by omega)]
    refine BitVec.eq_of_toNat_eq ?_
    rw [BitVec.toNat_ofNat, BitVec.toNat_ofNat]
    fin_cases g <;> simp <;> omega
  · rw [getLsbD_ofNat_field (by omega)]
    refine decide_flag _ ?_
    fin_cases g <;> simp <;> omega

/-- The fields of ECAUSE (R51). -/
theorem ecauseReg_fields (s : State) : (ecauseReg s).extractLsb' 8 24 = 0 ∧ ∀ g : GroupIx,
    (ecauseReg s).extractLsb' (2 * g.val) 2 = s.causeOf g := by
  have h0 := (s.causeOf 0).isLt
  have h1 := (s.causeOf 1).isLt
  have h2 := (s.causeOf 2).isLt
  have h3 := (s.causeOf 3).isLt
  have heq : ecauseReg s = BitVec.ofNat 32 ((s.causeOf 0).toNat + 4 * (s.causeOf 1).toNat
      + 16 * (s.causeOf 2).toNat + 64 * (s.causeOf 3).toNat) := by
    simp only [ecauseReg, allGroups, List.map, List.sum_cons, List.sum_nil]
    norm_num [Nat.add_assoc]
  rw [heq]
  refine ⟨?_, fun g => ?_⟩
  · rw [extractLsb'_ofNat_field (by omega)]
    exact ofNat_eq_zero (by omega)
  · rw [extractLsb'_ofNat_field (by omega)]
    refine BitVec.eq_of_toNat_eq ?_
    rw [BitVec.toNat_ofNat]
    fin_cases g <;> simp <;> omega

/-- Settles O17: each computed register is read as its view, and the fields of the views are the components. -/
theorem regReadComputesTheViews : Obligations.RegReadComputesTheViews := by
  intro s
  refine ⟨⟨statusReg s, regRead_assigned s (r := .status) rfl, statusReg_fields s⟩, ?_,
    ⟨ecauseReg s, regRead_assigned s (r := .ecause) rfl, ecauseReg_fields s⟩, fun hb => ?_, fun m => ?_, fun m => ?_⟩
  · obtain ⟨hres, hfields⟩ := gstateReg_fields s
    refine ⟨gstateReg s, regRead_assigned s (r := .gstate) rfl, hres, fun g => ⟨?_, (hfields g).2⟩⟩
    rw [(hfields g).1]
    cases s.stateOf g <;> rfl
  · refine ⟨BitVec.ofNat 32 s.rxbuf.length, regRead_assigned s (r := .rxLevel) rfl, ?_⟩
    rw [BitVec.toNat_ofNat]; omega
  · exact ⟨_, regRead_assigned s (regOf_setpoint m), BitVec.toInt_signExtend_of_le (by omega)⟩
  · exact ⟨_, regRead_assigned s (regOf_rampcur m), BitVec.toInt_signExtend_of_le (by omega)⟩

/-! ### CFG_WRITE (R332) -/

theorem exec_cfgWrite (idx : Byte) (v : Word) (s : State) : exec (.cfgWrite idx v) s = execCfgWrite idx v s := by rfl

section
variable {s t : State} {idx : Byte} {r : Reg} {v : Word}

theorem cfgWrite_accepted (hr : s.halted = false) (h : regOf idx = some r) (hw : writeReg r v s.begin = some t) :
    exec (.cfgWrite idx v) s = .next (t.answer .ok .none) := by
  rw [exec_cfgWrite, execCfgWrite, hostOp_running _ _ hr]
  simp only [h, hw]

theorem cfgWrite_refused (hr : s.halted = false) (h : regOf idx = some r) (hw : writeReg r v s.begin = none) :
    exec (.cfgWrite idx v) s = .next (s.failedWith .invalidArgument) := by
  rw [exec_cfgWrite, execCfgWrite, hostOp_running _ _ hr]
  simp only [h, hw, begin_raise]

theorem cfgWrite_unassigned (hr : s.halted = false) (h : regOf idx = none) :
    exec (.cfgWrite idx v) s = .next (s.failedWith .invalidArgument) := by
  rw [exec_cfgWrite, execCfgWrite, hostOp_running _ _ hr]
  simp only [h, begin_raise]

end

/-! #### The stored fields (R39, R41) -/

theorem legalSeq_fields (v : Word) :
    ((legalSeq v).extractLsb' 0 4).toNat = max 1 (v.extractLsb' 0 4).toNat
      ∧ ((legalSeq v).extractLsb' 4 4).toNat = max 1 (v.extractLsb' 4 4).toNat
      ∧ ((legalSeq v).extractLsb' 8 4).toNat = max 2 (v.extractLsb' 8 4).toNat ∧ (legalSeq v).extractLsb' 12 20 = 0 := by
  have h0 := (v.extractLsb' 0 4).isLt
  have h4 := (v.extractLsb' 4 4).isLt
  have h8 := (v.extractLsb' 8 4).isLt
  have hlt : max 1 (v.extractLsb' 0 4).toNat + 16 * max 1 (v.extractLsb' 4 4).toNat
      + 256 * max 2 (v.extractLsb' 8 4).toNat < 4294967296 := by omega
  simp only [legalSeq, extractLsb'_ofNat_field hlt, BitVec.toNat_ofNat]
  exact ⟨by omega, by omega, by omega, ofNat_eq_zero (by omega)⟩

theorem legalCur_fields (v : Word) :
    ((legalCur v).extractLsb' 0 12).toNat = min (v.extractLsb' 0 12).toNat 3000
      ∧ ((legalCur v).extractLsb' 16 8).toNat = 10 * (min (max (v.extractLsb' 16 8).toNat 10) 90 / 10)
      ∧ (legalCur v).extractLsb' 12 4 = 0 ∧ (legalCur v).extractLsb' 24 8 = 0 := by
  have h0 := (v.extractLsb' 0 12).isLt
  have h16 := (v.extractLsb' 16 8).isLt
  have hlt : min (v.extractLsb' 0 12).toNat Config.wcMax
      + 65536 * (10 * (min (max (v.extractLsb' 16 8).toNat 10) 90 / 10)) < 4294967296 := by omega
  simp only [legalCur, extractLsb'_ofNat_field hlt, BitVec.toNat_ofNat]
  have hma : min (v.extractLsb' 0 12).toNat Config.wcMax ≤ 3000 := Nat.min_le_right _ _
  have hpct : 10 * (min (max (v.extractLsb' 16 8).toNat 10) 90 / 10) ≤ 90 := by omega
  rw [show min (v.extractLsb' 0 12).toNat 3000 = min (v.extractLsb' 0 12).toNat Config.wcMax from rfl]
  generalize min (v.extractLsb' 0 12).toNat Config.wcMax = ma at hma
  generalize 10 * (min (max (v.extractLsb' 16 8).toNat 10) 90 / 10) = pct at hpct
  exact ⟨by omega, by omega, ofNat_eq_zero (by omega), ofNat_eq_zero (by omega)⟩

/-- Settles O18: each index names its register, and the register stores the legal form of the value. -/
theorem cfgWriteStoresLegalValues : Obligations.CfgWriteStoresLegalValues := by
  intro s v hr
  refine ⟨fun hproto => cfgWrite_accepted hr (r := .cfg)
      (t := s.begin.setRegs { s.regs with cfg := legalCfg v }) rfl ?_,
    ⟨legalSeq v, cfgWrite_accepted hr (r := .seq) rfl rfl, legalSeq_fields v⟩,
    cfgWrite_accepted hr (r := .vel) rfl rfl,
    ⟨legalCur v, cfgWrite_accepted hr (r := .cur) rfl rfl, legalCur_fields v⟩,
    cfgWrite_accepted hr (r := .ramp) rfl rfl, cfgWrite_accepted hr (r := .wdTimeout) rfl rfl,
    cfgWrite_accepted hr (r := .rspTimeout) rfl rfl, cfgWrite_accepted hr (r := .rsplen) rfl rfl,
    cfgWrite_accepted hr (r := .verify) rfl rfl⟩
  have hok : cfgWriteOk v s.begin = true := by
    simp only [cfgWriteOk, Bool.or_eq_true, beq_iff_eq]
    exact .inl hproto
  exact if_pos hok

/-! #### The checks (R37, R45, R54) -/

section
variable {s : State} {v : Word}

theorem allDisabled_iff (s : State) : s.allDisabled = true ↔ ∀ g : GroupIx, s.stateOf g = .disabled := by
  simp [State.allDisabled]

/-- R37's check on a write that changes PROTO. -/
theorem cfgWriteOk_iff (h : v.getLsbD 0 ≠ s.regs.cfg.getLsbD 0) :
    cfgWriteOk v s = true ↔ (∀ g : GroupIx, s.stateOf g = .disabled) ∧ (v.getLsbD 0 = true → ∀ m : MotorIx,
      (s.entryOf m).getLsbD 31 = true → ((s.entryOf m).extractLsb' 0 11).toNat ≤ 0xFF) := by
  simp only [cfgWriteOk, Bool.or_eq_true, beq_iff_eq, h, false_or, Bool.and_eq_true, allDisabled_iff,
    Bool.not_eq_true', List.all_eq_true, mem_allMotors, true_implies, decide_eq_true_eq, ← imp_iff_not_or,
    ← Bool.not_eq_true]
  rfl

/-- R54's checks on a write of a motor entry. -/
theorem motorWriteOk_iff (m : MotorIx) :
    motorWriteOk m v s = true ↔ (∀ g : GroupIx, s.stateOf g = .disabled) ∧
      (v.getLsbD 31 = true → (v.extractLsb' 0 11).toNat ≠ 0 ∧ (s.proto = .rs485 → (v.extractLsb' 0 11).toNat ≤ 0xFF) ∧
        ∀ k : MotorIx, k ≠ m → (s.entryOf k).getLsbD 31 = true →
          ((s.entryOf k).extractLsb' 0 11).toNat ≠ (v.extractLsb' 0 11).toNat) := by
  have htaken : addrTaken m (entryAddr v) s = false ↔ ∀ k : MotorIx, k ≠ m → (s.entryOf k).getLsbD 31 = true →
      ((s.entryOf k).extractLsb' 0 11).toNat ≠ (v.extractLsb' 0 11).toNat := by
    simp only [addrTaken, List.any_eq_false, mem_allMotors, true_implies, Bool.and_eq_true, bne_iff_ne, beq_iff_eq,
      not_and, entryValid, State.addrOf, entryAddr, and_imp]
  have hfits : (!(s.proto == .rs485 && decide (Config.rs485AddrMax < entryAddr v))) = true
      ↔ (s.proto = .rs485 → (v.extractLsb' 0 11).toNat ≤ 0xFF) := by
    simp only [Bool.not_eq_true', Bool.and_eq_false_iff, beq_eq_false_iff_ne, decide_eq_false_iff_not, not_lt,
      ← imp_iff_not_or]
    rfl
  have hvalid : (!entryValid v) = true ↔ ¬ v.getLsbD 31 = true := by
    simp only [entryValid, Bool.not_eq_true', Bool.not_eq_true]
  simp only [motorWriteOk, Bool.and_eq_true, Bool.or_eq_true, allDisabled_iff, hvalid, hfits, Bool.not_eq_true',
    htaken, bne_iff_ne, ← imp_iff_not_or, and_assoc]
  rfl

theorem sqWriteOk_iff : sqWriteOk v = true ↔ v.extractLsb' 0 8 ∉ [0xF6, 0xF3, 0x83, 0x9B, 0x96, 0x97] := by
  simp only [sqWriteOk, Bool.not_eq_true', List.contains_eq_mem, decide_eq_false_iff_not, Config.fixedCodes]

end

/-- An index of a read-only register or of none (R33, R34): no write is accepted there. -/
theorem cfgWrite_notWritable {s : State} {v : Word} (hr : s.halted = false) (idx : Byte)
    (h : (0x0A ≤ idx.toNat ∧ idx.toNat < 0x10) ∨ (0x11 ≤ idx.toNat ∧ idx.toNat < 0x20) ∨ 0x28 ≤ idx.toNat) :
    exec (.cfgWrite idx v) s = .next (s.failedWith .invalidArgument) := by
  have hreg : regOf idx = none ∨ ∃ r, regOf idx = some r ∧ (r ∈ [Reg.gstate, .ecause, .norspCnt, .rxdropCnt, .estopCnt,
      .rxLevel] ∨ (∃ m, r = .setpoint m) ∨ ∃ m, r = .rampcur m) := by
    revert h; revert idx; decide
  obtain hn | ⟨r, hs, hro⟩ := hreg
  · exact cfgWrite_unassigned hr hn
  · refine cfgWrite_refused hr hs ?_
    obtain hro | ⟨m, rfl⟩ | ⟨m, rfl⟩ := hro
    · simp only [List.mem_cons, List.not_mem_nil, or_false] at hro
      obtain rfl | rfl | rfl | rfl | rfl | rfl := hro <;> rfl
    · rfl
    · rfl

/-- Settles O19: the checks of the three restricted registers, and the indices no write is accepted at. -/
theorem cfgWriteChecksProtoSqAndMotor : Obligations.CfgWriteChecksProtoSqAndMotor := by
  intro s v hr
  refine ⟨fun hproto => ⟨fun hacc => ?_, fun hrej => ?_⟩, fun hsq => ?_, fun hsq => ?_,
    fun m => ⟨fun hacc => ?_, fun hrej => ?_⟩, cfgWrite_notWritable hr⟩
  · exact cfgWrite_accepted hr (r := .cfg) (t := s.begin.setRegs { s.regs with cfg := legalCfg v }) rfl
      (if_pos ((cfgWriteOk_iff (s := s.begin) hproto).mpr hacc))
  · exact cfgWrite_refused hr (r := .cfg) rfl (if_neg (mt (cfgWriteOk_iff (s := s.begin) hproto).mp hrej))
  · exact cfgWrite_refused hr (r := .sq) rfl (if_neg fun hok => sqWriteOk_iff.mp hok hsq)
  · exact cfgWrite_accepted hr (r := .sq) (t := s.begin.setRegs { s.regs with sq := legalSq v }) rfl
      (if_pos (sqWriteOk_iff.mpr hsq))
  · exact cfgWrite_accepted hr (t := s.begin.setMotor m (legalMotor v)) (regOf_motor m)
      (if_pos ((motorWriteOk_iff (s := s.begin) m).mpr hacc))
  · exact cfgWrite_refused hr (regOf_motor m) (if_neg (mt (motorWriteOk_iff (s := s.begin) m).mp hrej))

/-- Settles O20: the mask of the write, bit by bit. -/
theorem statusWriteClearsWrittenBits : Obligations.StatusWriteClearsWrittenBits := by
  intro s v hr
  refine ⟨_, cfgWrite_accepted hr (r := .status) rfl rfl, rfl, fun k hk => ?_⟩
  simp only [State.answer_sticky, State.clearFlags_sticky, BitVec.getLsbD_and, BitVec.getLsbD_not,
    BitVec.getLsbD_extractLsb', hk, decide_true, Bool.true_and, Nat.zero_add]
  rfl

end Sys2Proof.Machine
end

section
/-! PROOFS. Steps and reset: a step runs what its input decodes to (O47), refuses a word that is no operation (O5), takes the
reset input (O48), the reset state (O46) and its invariant (O45), and the two link reports (O24). -/

namespace Sys2Proof.Machine

/-! ### One step (R334, R391) -/

section
variable {s : State} {rest : List Input} {bs : Bytes}

theorem step_nil (h : s.inputs = []) : step s = .next s := by
  simp only [step, h]

theorem step_word (h : s.inputs = .word bs :: rest) : step s = runWord bs (s.setInputs rest) := by
  simp only [step, h]

theorem step_payload (h : s.inputs = .payload bs :: rest) : step s = runPayload bs (s.setInputs rest) := by
  simp only [step, h]

theorem runWord_ok {i : Instr} (h : decodeWord bs = .ok i) (s : State) : runWord bs s = exec i s := by
  simp only [runWord, h]

theorem runWord_error {e : Reject} (h : decodeWord bs = .error e) (s : State) : runWord bs s = badWord s := by
  simp only [runWord, h]

theorem runPayload_ok {i : Instr} (h : decodePayload s.velCap s.sqCode bs = .ok i) : runPayload bs s = exec i s := by
  simp only [runPayload, h]

theorem badWord_running (hr : s.halted = false) : badWord s = .next (s.failedWith .invalidArgument) := by
  rw [badWord, hostOp_running _ _ hr, begin_raise]

theorem badWord_halted (hh : s.halted = true) : badWord s = .next (s.returned .halted .none) := hostOp_halted _ s hh

/-- A byte list that is the word of no host operation is not decoded. -/
theorem decodeWord_error_of_noWord
    (h : ∀ i : Instr, i.isWire = false → i.wellFormed 0 = true → encode 0 0 i ≠ bs) : ∃ e, decodeWord bs = .error e := by
  cases hd : decodeWord bs with
  | error e => exact ⟨e, rfl⟩
  | ok i =>
    obtain ⟨hwire, hwf, hbytes⟩ := encode_of_decodeWord hd 0 0
    exact absurd hbytes (h i hwire hwf)

end

/-- Settles O47: the two ports, each through its decoder. -/
theorem stepRunsTheDecodedInstruction : Obligations.StepRunsTheDecodedInstruction := by
  intro s rest bs i
  refine ⟨fun h hd => ?_, fun h hd => ?_⟩
  · rw [step_word h, runWord_ok hd]; rfl
  · have hd : decodePayload (s.setInputs rest).velCap (s.setInputs rest).sqCode bs = .ok i := hd
    rw [step_payload h, runPayload_ok hd]; rfl

/-- Settles O5: only the words of host operations are decoded, so such a word is a bad word, running or halted. -/
theorem badHostWordRaisesInvalidArgument : Obligations.BadHostWordRaisesInvalidArgument := by
  intro s bs rest hin hno
  obtain ⟨e, he⟩ := decodeWord_error_of_noWord hno
  rw [step_word hin, runWord_error he]
  exact ⟨fun hr => badWord_running hr, fun hh => badWord_halted hh⟩

/-- Settles O48: the two inputs of R391. -/
theorem resetInputResetsTheBlock : Obligations.ResetInputResetsTheBlock := by
  intro s rest
  exact ⟨step_reset, step_nil⟩

/-! ### The reset state (R261, R390) -/

theorem mem_legalSqCodes {b : Byte} (h : b ∈ Config.legalSqCodes) : b ∉ Config.fixedCodes := by
  simpa using (List.mem_filter.mp h).2

/-- The open code after reset is a legal one, whichever it is (R11; log 5). -/
theorem sqCodeReset_legal : Config.sqCodeReset ∉ Config.fixedCodes := by
  have hlen : Config.legalSqCodes.length = 250 := by decide +kernel
  have hi : Config.sqCodeIndex.val < Config.legalSqCodes.length := by rw [hlen]; exact Config.sqCodeIndex.isLt
  have hget : Config.sqCodeReset = Config.legalSqCodes[Config.sqCodeIndex.val] := by
    rw [Config.sqCodeReset, List.getD_eq_getElem _ _ hi]
  rw [hget]
  exact mem_legalSqCodes (List.getElem_mem hi)

/-- What each group and each motor holds after reset. -/
theorem reset_components :
    (∀ g : GroupIx, State.reset.stateOf g = .disabled ∧ State.reset.pendingOf g = false ∧ State.reset.causeOf g = 0)
      ∧ ∀ m : MotorIx, State.reset.entryOf m = 0 ∧ State.reset.setpointOf m = 0 ∧ State.reset.rampOf m = 0 := by
  simp [State.stateOf, State.pendingOf, State.causeOf, State.entryOf, State.setpointOf, State.rampOf, State.reset]

/-- Settles O46: the components of the reset state, with SQ the open code. -/
theorem resetState : Obligations.ResetState :=
  ⟨rfl, ⟨Config.sqCodeReset, rfl, sqCodeReset_legal⟩, rfl, rfl, rfl, rfl, reset_components.1, reset_components.2, rfl, rfl,
    rfl, rfl, rfl, rfl, rfl, rfl⟩

theorem setWidth_sq_fields (q : Byte) :
    q.setWidth 32 &&& 0xFFFFFF00 = 0#32 ∧ (q.setWidth 32).extractLsb' 0 8 = q := by
  revert q; decide

/-- The registers after reset are legal (R34, R390). -/
theorem legal_reset : Regs.reset.Legal where
  cfg := by decide
  seqReserved := by decide
  enableAttempts := by decide
  disableAttempts := by decide
  zeroRepeat := by decide
  vel := by decide
  curReserved := by decide
  wcMa := by decide
  hcPct := by decide
  sqReserved := (setWidth_sq_fields Config.sqCodeReset).1
  sqCode := by
    show (Config.sqCodeReset.setWidth 32).extractLsb' 0 8 ∉ Config.fixedCodes
    rw [(setWidth_sq_fields Config.sqCodeReset).2]
    exact sqCodeReset_legal
  rsplen := by decide
  verify := by decide

/-- The empty motor table is legal (R54, R390). -/
theorem tableLegal_reset : State.reset.TableLegal := by
  have hentry (m : MotorIx) : State.reset.entryOf m = 0 := (reset_components.2 m).1
  have hvalid (m : MotorIx) : ¬ entryValid (State.reset.entryOf m) = true := by rw [hentry]; decide
  exact ⟨fun m => by rw [hentry]; decide, fun m h => absurd h (hvalid m), fun m h => absurd h (hvalid m),
    fun m _ h => absurd h (hvalid m)⟩

/-- Settles O45: everything is Disabled, at rest and legal. -/
theorem resetHasTheInvariant : Obligations.ResetHasTheInvariant := by
  have hst (g : GroupIx) : State.reset.stateOf g = .disabled := (reset_components.1 g).1
  exact {
    regs := legal_reset
    table := tableLegal_reset
    rxbuf := Nat.zero_le _
    lastTx := Nat.zero_le _
    lastRx := Nat.zero_le _
    visible := fun g => by rw [hst]; rfl
    noRequest := fun g _ => (reset_components.1 g).2.1
    causeSaved := fun g h => by rw [hst] at h; cases h
    rampsIdle := fun m h => absurd (reset_components.2 m).2.2 h
    sampled := fun g h => by rw [hst] at h; cases h
    stopped := fun h => by cases h }

/-! ### Link reports (R312, R317) -/

theorem exec_inputLost (s : State) : exec .inputLost s = execInputLost s := by rfl

theorem exec_transportReopened (s : State) : exec .transportReopened s = execTransportReopened s := by rfl

/-- Settles O24: both reports are one update and an answer. -/
theorem linkReportsSetTheirFlags : Obligations.LinkReportsSetTheirFlags := by
  intro s hr
  refine ⟨?_, ?_⟩
  · rw [exec_inputLost, execInputLost, hostOp_running _ _ hr]; rfl
  · rw [exec_transportReopened, execTransportReopened, hostOp_running _ _ hr]; rfl

end Sys2Proof.Machine
end

section
/-! PROOFS. What one operation can do, said once (`OpEnd`), and the statements that follow from it: the sticky bits (O22),
the fault statuses (O50), who sends (O52) and who writes what (O53). -/

namespace Sys2Proof.Machine

/-! ### TRANSACT, forwards (R336) -/

/-- TRANSACT's answer after its `Await`. -/
def answerAwait : Option Bytes × State → State
  | (none, u) => u.answer .noResponse (.bytes [])
  | (some d, u) => u.answer .ok (.bytes d)

/-- What TRANSACT leaves once its frame `f` to motor `k` is put on the link. -/
def State.transacted (k : MotorIx) (f : Bytes) (c : Cmd) (aw : Byte) (s : State) : State :=
  if sendOk s.nextSend then
    if aw = 0 then (s.recordSend f).answer .ok (.bytes [])
    else answerAwait ((s.recordSend f).await (s.addrOf k) ((s.payload c).headD 0))
  else (s.recordSend f).transportFault.answer .transportError (.bytes [])

theorem exec_transact (m : Byte) (c : Cmd) (aw : Byte) (s : State) :
    exec (.transact m c aw) s = execTransact m c aw s := by rfl

theorem transactFrame_begin (m : Byte) (c : Cmd) (aw : Byte) (s : State) :
    transactFrame m c aw s.begin = transactFrame m c aw s := rfl

section
variable {s : State} {m aw : Byte} {c : Cmd} {k : MotorIx} {f : Bytes}

theorem transact_refused (hr : s.halted = false) (h : transactFrame m c aw s = none) :
    exec (.transact m c aw) s = .next (s.failedWith .invalidArgument) := by
  rw [exec_transact, execTransact, hostOp_running _ _ hr]
  simp only [transactFrame_begin, h, begin_raise]

theorem transact_running (hr : s.halted = false) (h : transactFrame m c aw s = some (k, f)) :
    exec (.transact m c aw) s = .next (s.begin.transacted k f c aw) := by
  rw [exec_transact, execTransact, hostOp_running _ _ hr]
  simp only [transactFrame_begin, h, State.transmit, State.transacted]
  by_cases hs : sendOk s.begin.nextSend = true
  · simp only [if_pos hs]
    split
    · rfl
    · show _ = Host.Outcome.next (answerAwait ((s.begin.recordSend f).await ((s.begin.recordSend f).addrOf k)
        (((s.begin.recordSend f).payload c).headD 0)))
      rcases (s.begin.recordSend f).await ((s.begin.recordSend f).addrOf k)
        (((s.begin.recordSend f).payload c).headD 0) with ⟨_ | d, u⟩ <;> rfl
  · simp only [if_neg hs]

/-- TRANSACT is link traffic of one frame and an answer. -/
theorem transacted_effect (s : State) (k : MotorIx) (c : Cmd) (aw : Byte) :
    ∃ u st r, s.transacted k (s.frameFor k c) c aw = u.answer st r
      ∧ st ∈ [Status.ok, .noResponse, .transportError]
      ∧ LinkEffect (fun m' c' => m' = k ∧ c' = c) s u ∧ u.txLog = s.txLog ++ [⟨s.frameFor k c, s.nextSend⟩] := by
  have hl := command_effect (A := fun m' c' => m' = k ∧ c' = c) s k c ⟨rfl, rfl⟩
  have hlog : (s.command k c).2.txLog = s.txLog ++ [⟨s.frameFor k c, s.nextSend⟩] := transmit_txLog _ s
  unfold State.transacted
  by_cases hs : sendOk s.nextSend = true
  · rw [State.command, transmit_ok _ _ hs] at hl hlog
    rw [if_pos hs]
    split
    · exact ⟨_, _, _, rfl, by simp, hl, hlog⟩
    · have ha := LinkEffect_trans hl (await_effect (s.recordSend (s.frameFor k c)) (s.addrOf k) ((s.payload c).headD 0))
      have hsame : ((s.recordSend (s.frameFor k c)).await (s.addrOf k) ((s.payload c).headD 0)).2.txLog
          = (s.recordSend (s.frameFor k c)).txLog := by rw [await_frame]
      generalize (s.recordSend (s.frameFor k c)).await (s.addrOf k) ((s.payload c).headD 0) = r at ha hsame
      obtain ⟨_ | d, u⟩ := r
      · exact ⟨u, _, _, rfl, by simp, ha, hsame.trans hlog⟩
      · exact ⟨u, _, _, rfl, by simp, ha, hsame.trans hlog⟩
  · have hs' : sendOk s.nextSend = false := by simpa using hs
    rw [State.command, transmit_err _ _ hs'] at hl hlog
    rw [if_neg hs]
    generalize (s.recordSend (s.frameFor k c)).transportFault = u at hl hlog
    exact ⟨u, _, _, rfl, by simp, hl, hlog⟩

end

/-! ### What one operation can do -/

/-- How an operation ends. The operations that act do so while the block runs. -/
inductive OpEnd : Instr → State → State → Prop
  | returned (i : Instr) (s : State) (r : Result) : OpEnd i s (s.returned .ok r)
  | failed (i : Instr) (s : State) (st : Status) : OpEnd i s (s.failedWith st)
  | cfgWrite (idx : Byte) (v : Word) (s u : State) (r : Reg) (hr : s.halted = false) (hreg : regOf idx = some r)
      (hw : writeReg r v s.begin = some u) : OpEnd (.cfgWrite idx v) s (u.answer .ok .none)
  | rxFeed (data : Bytes) (s : State) (hr : s.halted = false) :
      OpEnd (.rxFeed data) s ((s.appendAll data).returned .ok .none)
  | rxNext (s : State) (rest l : Bytes) (n : Word) (r : Result) (hr : s.halted = false)
      (hrest : rest.length ≤ s.rxbuf.length) (hl : l = s.lastRx ∨ l.length ≤ 18) :
      OpEnd .rxNext s { s with rxbuf := rest, rxdropCnt := n, lastRx := l, reply := ⟨.ok, r, false, false⟩ }
  | inputSample (now : Time) (targets : List Half) (s : State) (hr : s.halted = false) :
      OpEnd (.inputSample now targets) s ((s.takeSample now targets).returned .ok .none)
  | inputLost (s : State) (hr : s.halted = false) : OpEnd .inputLost s (s.setLost.returned .ok .none)
  | enableToggle (mask : Byte) (s : State) (p : Vector Bool 4) (hr : s.halted = false) :
      OpEnd (.enableToggle mask) s { s with pending := p, reply := ⟨.ok, .none, false, false⟩ }
  | ioError (s u : State) (hr : s.halted = false) (hu : u = s.begin.transportFault) : OpEnd .ioError s u.answerEvents
  | transportReopened (s : State) (hr : s.halted = false) :
      OpEnd .transportReopened s ((s.emptyBuffer.setReopen false).returned .ok .none)
  | tick (now : Time) (s u : State) (hr : s.halted = false) (hu : u = s.begin.tickSteps now) :
      OpEnd (.tick now) s u.answerEvents
  | shutdown (s u : State) (hr : s.halted = false) (hu : u = forGroups State.shutdownGroup s.begin) :
      OpEnd .shutdown s u.setHalted.answerEvents
  | transact (m aw : Byte) (c : Cmd) (k : MotorIx) (s u : State) (st : Status) (r : Result) (hr : s.halted = false)
      (hf : transactFrame m c aw s = some (k, s.frameFor k c)) (hst : st ∈ [Status.ok, .noResponse, .transportError])
      (hl : LinkEffect (fun m' c' => m' = k ∧ c' = c) s.begin u)
      (hlog : u.txLog = s.txLog ++ [⟨s.frameFor k c, s.nextSend⟩]) :
      OpEnd (.transact m c aw) s (u.answer st r)

section
variable {i : Instr} {s t : State}

theorem opEnd_of_onlyAnswers (h : OnlyAnswers s (exec i s)) (he : exec i s = .next t) : OpEnd i s t := by
  rw [he] at h
  obtain ⟨r, h⟩ | ⟨st, -, h⟩ := h
  · rw [Host.Outcome.next.inj h]; exact .returned i s r
  · rw [Host.Outcome.next.inj h]; exact .failed i s st

theorem opEnd_of_halted (he : exec i s = .next (s.returned .halted .none)) (h : exec i s = .next t) : OpEnd i s t := by
  rw [he] at h
  rw [← Host.Outcome.next.inj h, returned_halted]
  exact .failed i s _

/-- A wire payload row builds its payload or raises InvalidArgument (log 6). -/
theorem opEnd_wire (hwire : i.isWire = true) (he : exec i s = .next t) : OpEnd i s t := by
  obtain ⟨c, hc⟩ := Option.isSome_iff_exists.mp hwire
  rw [exec_wire hc, openOp, buildPayload, Host.Outcome.next.injEq] at he
  subst he
  split
  · exact .returned i s _
  · rw [begin_raise]; exact .failed i s _

theorem opEnd_cfgWrite {idx : Byte} {v : Word} (hr : s.halted = false) (he : exec (.cfgWrite idx v) s = .next t) :
    OpEnd (.cfgWrite idx v) s t := by
  cases hreg : regOf idx with
  | none => rw [cfgWrite_unassigned hr hreg] at he; cases he; exact .failed _ _ _
  | some r =>
    cases hw : writeReg r v s.begin with
    | none => rw [cfgWrite_refused hr hreg hw] at he; cases he; exact .failed _ _ _
    | some u => rw [cfgWrite_accepted hr hreg hw] at he; cases he; exact .cfgWrite idx v s u r hr hreg hw

theorem opEnd_rxNext (hr : s.halted = false) (he : exec .rxNext s = .next t) : OpEnd .rxNext s t := by
  obtain ⟨dropped, kept, hb, -, ⟨f, rest, hk, hv, hs⟩ | ⟨-, hs⟩⟩ := scan_look_cases s s.rxbuf
  · rw [rxNext_of_found hr hs] at he
    cases he
    have h18 := (look_take s (f ++ []) f.length (look_of_valid s f [] hv)).2.1
    exact .rxNext s rest f _ _ hr (by rw [hb, hk]; simp only [List.length_append]; omega) (.inr h18)
  · rw [rxNext_of_none hr hs] at he
    cases he
    exact .rxNext s kept s.lastRx _ _ hr (by rw [hb]; simp only [List.length_append]; omega) (.inl rfl)

theorem opEnd_enableToggle {mask : Byte} (hr : s.halted = false) (he : exec (.enableToggle mask) s = .next t) :
    OpEnd (.enableToggle mask) s t := by
  by_cases hok : toggleOk mask s = true
  · rw [enableToggle_accepted hr hok, (foldl_latch (maskedGroups mask) s.begin).2] at he
    cases he
    exact .enableToggle mask s _ hr
  · rw [enableToggle_refused hr hok] at he; cases he; exact .failed _ _ _

theorem opEnd_transact {m aw : Byte} {c : Cmd} (hr : s.halted = false) (he : exec (.transact m c aw) s = .next t) :
    OpEnd (.transact m c aw) s t := by
  cases hf : transactFrame m c aw s with
  | none => rw [transact_refused hr hf] at he; cases he; exact .failed _ _ _
  | some r =>
    obtain ⟨k, f⟩ := r
    obtain ⟨rfl, -⟩ := transactFrame_spec m c aw s k f hf
    obtain ⟨u, st, r, hu, hst, hl, hlog⟩ := transacted_effect s.begin k c aw
    rw [transact_running hr hf, Host.Outcome.next.injEq] at he
    rw [← he, show s.frameFor k c = s.begin.frameFor k c from rfl, hu]
    exact .transact m aw c k s u st r hr hf hst hl hlog

/-- Every operation ends in one of these ways. -/
theorem exec_opEnd (he : exec i s = .next t) : OpEnd i s t := by
  cases i
  case velocity | enable | workingCurrent | holdingCurrentPercent | pidGains0 | pidGains1 | statusQuery =>
    exact opEnd_wire rfl he
  case regRead idx => exact opEnd_of_onlyAnswers (regRead_onlyAnswers idx) he
  case readLast which => exact opEnd_of_onlyAnswers (readLast_onlyAnswers which) he
  case rampEval cur tgt delta => exact opEnd_of_onlyAnswers (rampEval_onlyAnswers cur tgt delta) he
  case encodeOp variant addr c => exact opEnd_of_onlyAnswers (encodeOp_onlyAnswers variant addr c) he
  case decodeOp variant f => exact opEnd_of_onlyAnswers (decodeOp_onlyAnswers variant f) he
  all_goals
    cases hr : s.halted
    case true => exact opEnd_of_halted (exec_halted hr rfl (by simp) (by simp)) he
  case cfgWrite.false idx v => exact opEnd_cfgWrite hr he
  case rxFeed.false data =>
    rw [rxFeed_running data hr] at he; cases he; exact .rxFeed data s hr
  case rxNext.false => exact opEnd_rxNext hr he
  case inputSample.false now targets =>
    by_cases hl : targets.length ≤ 8
    · rw [inputSample_accepted now hr hl] at he; cases he; exact .inputSample now targets s hr
    · rw [inputSample_refused now hr (by omega)] at he; cases he; exact .failed _ _ _
  case inputLost.false => rw [(linkReportsSetTheirFlags s hr).1] at he; cases he; exact .inputLost s hr
  case enableToggle.false mask => exact opEnd_enableToggle hr he
  case ioError.false => rw [ioError_running hr, Host.Outcome.next.injEq] at he; subst he; exact .ioError s _ hr rfl
  case transportReopened.false =>
    rw [(linkReportsSetTheirFlags s hr).2] at he; cases he; exact .transportReopened s hr
  case tick.false now => rw [exec_tick s now hr, Host.Outcome.next.injEq] at he; subst he; exact .tick now s _ hr rfl
  case shutdown.false => rw [exec_shutdown s hr, Host.Outcome.next.injEq] at he; subst he; exact .shutdown s _ hr rfl
  case transact.false m c aw => exact opEnd_transact hr he

end

section
variable {s u : State}

/-- A TICK as a run (R263). -/
theorem ticked_run {now : Time} (hu : u = s.begin.tickSteps now) : RunEffect anyCmd s.begin u :=
  hu ▸ tickSteps_run now s.begin fun _ _ => trivial

/-- SHUTDOWN as a run (R345). -/
theorem shutDown_run (hu : u = forGroups State.shutdownGroup s.begin) : RunEffect anyCmd s.begin u :=
  hu ▸ shutdown_run s.begin fun _ _ => trivial

end

theorem runEffect_setHalted {A : MotorIx → Cmd → Prop} {s u : State} (h : RunEffect A s u) : RunEffect A s u.setHalted :=
  { h with keeps := { h.keeps with } }

/-! ### The statements -/

/-- Settles O22: a register write sets a sticky bit to 0 only through STATUS, and every other update of them is an or. -/
theorem stickyBitsStaySet : Obligations.StickyBitsStaySet := by
  intro i s t he hi k hk
  cases exec_opEnd he with
  | returned | rxNext | inputSample | inputLost | enableToggle | transportReopened => exact hk
  | failed st => simp [State.failedWith, hk]
  | cfgWrite idx v _ u r _ hreg hw =>
    obtain ⟨rs, rfl⟩ | ⟨rfl, -⟩ | ⟨m, w, -, rfl⟩ := writeReg_cases r v _ u hw
    · exact hk
    · exact absurd (by rw [regOf_status idx hreg]) (hi v)
    · exact hk
  | rxFeed data => exact appendAll_sticky data s k hk
  | ioError _ u _ hu => 
    simp [State.answerEvents, show u.sticky = _ from hu ▸ transportFault_sticky s.begin, hk]
  | tick now _ u _ hu => exact (ticked_run hu).sticky k hk
  | shutdown _ u _ hu => exact (shutDown_run hu).sticky k hk
  | transact _ _ _ _ _ u _ _ _ _ _ hl => exact hl.sticky k hk

theorem and_bit_eq {x : Byte} {k : Nat} (h : x.getLsbD k = true) : x &&& BitVec.twoPow 8 k = BitVec.twoPow 8 k := by
  rw [BitVec.and_twoPow, if_pos h]

/-- The status of an operation that reports events is no fault status (R368). -/
theorem answerEvents_status (s : State) :
    s.answerEvents.reply.status ∈ [Status.ok, .transportError, .verificationFailed] := by
  rw [State.answerEvents, State.answer_reply]
  split_ifs <;> simp

/-- Settles O50: only a refusal answers with a fault status. -/
theorem faultStatusChangesNothing : Obligations.FaultStatusChangesNothing := by
  intro i s t he hst
  have hevents {u : State} (h : u.reply.status ∈ [Status.ok, .transportError, .verificationFailed])
      (hu : u.reply.status ∈ [Status.invalidArgument, .checksumMismatch, .truncated, .unknownCommand, .halted]) :
      False := by
    generalize u.reply.status = st at h hu
    cases st <;> simp at h hu
  have hanswer {u : State} {st : Status} {r : Result} (h : st ∈ [Status.ok, .noResponse, .transportError])
      (hu : (u.answer st r).reply.status
        ∈ [Status.invalidArgument, .checksumMismatch, .truncated, .unknownCommand, .halted]) : False := by
    rw [State.answer_reply] at hu
    cases st <;> simp at h hu
  cases exec_opEnd he with
  | failed st => rfl
  | returned | rxNext | rxFeed | inputSample | inputLost | enableToggle | transportReopened => simp [State.returned] at hst
  | cfgWrite => exact (hanswer (by simp) hst).elim
  | ioError | tick | shutdown => exact (hevents (answerEvents_status _) hst).elim
  | transact _ _ _ _ _ u st r _ _ h => exact (hanswer h hst).elim

/-- Settles O52: no other operation touches the link. -/
theorem onlyThreeOperationsSend : Obligations.OnlyThreeOperationsSend := by
  intro i s t he htick hshut htrans
  cases exec_opEnd he with
  | returned | failed | rxNext | inputSample | inputLost | enableToggle | transportReopened =>
    exact ⟨rfl, rfl, rfl, rfl, rfl⟩
  | cfgWrite idx v _ u r _ hreg hw =>
    obtain ⟨rs, rfl⟩ | ⟨-, rfl⟩ | ⟨m, w, -, rfl⟩ := writeReg_cases r v _ u hw <;> exact ⟨rfl, rfl, rfl, rfl, rfl⟩
  | rxFeed data => rw [appendAll_frame]; exact ⟨rfl, rfl, rfl, rfl, rfl⟩
  | ioError _ u _ hu =>
    have hlog : u.txLog = s.txLog := hu ▸ transportFault_txLog s.begin
    have hlast : u.lastTx = s.lastTx := hu ▸ transportFault_lastTx s.begin
    have hsends : u.sends = s.sends := hu ▸ transportFault_sends s.begin
    have hcount : u.sendCount = s.sendCount := hu ▸ transportFault_sendCount s.begin
    have harr : u.arrivals = s.arrivals := hu ▸ transportFault_arrivals s.begin
    exact ⟨hlog, hlast, hsends, hcount, harr⟩
  | tick now => exact absurd rfl (htick now)
  | shutdown => exact absurd rfl hshut
  | transact m aw c => exact absurd rfl (htrans m c aw)

/-- Settles O53: each component changes only in the ends of the operations named for it. -/
theorem componentsHaveTheirWriters : Obligations.ComponentsHaveTheirWriters := by
  intro i s t he
  cases exec_opEnd he with
  | returned | failed | rxNext | inputSample | inputLost | enableToggle | transportReopened =>
    simp [State.returned, State.failedWith, State.takeSample, State.setLost, State.emptyBuffer, State.setReopen]
  | cfgWrite idx v _ u r _ hreg hw =>
    obtain ⟨rs, rfl⟩ | ⟨-, rfl⟩ | ⟨m, w, -, rfl⟩ := writeReg_cases r v _ u hw <;> simp [State.begin]
  | rxFeed data => rw [appendAll_frame]; simp [State.returned]
  | ioError _ u _ hu =>
    have hk : s.begin.KeepsConfig u := hu ▸ transportFault_keeps s.begin
    have hramp : u.rampcur = s.rampcur := hu ▸ transportFault_rampcur s.begin
    have hbuf : u.rxbuf = s.rxbuf := hu ▸ transportFault_rxbuf s.begin
    have hdrop : u.rxdropCnt = s.rxdropCnt := hu ▸ transportFault_rxdropCnt s.begin
    have hlast : u.lastRx = s.lastRx := hu ▸ transportFault_lastRx s.begin
    have hnorsp : u.norspCnt = s.norspCnt := hu ▸ transportFault_norspCnt s.begin
    have hhalt : u.halted = s.halted := hu ▸ transportFault_halted s.begin
    obtain ⟨h1, h2, h3, h4, h5, h6, h7⟩ := hk
    simp [State.answerEvents, h1, h2, h3, h4, h5, h6, h7, hramp, hbuf, hdrop, hlast, hnorsp, hhalt]
  | tick now _ u _ hu =>
    have hhalt : u.halted = s.halted := hu ▸ tickSteps_halted now s.begin
    obtain ⟨h1, h2, h3, h4, h5, h6, h7⟩ := (ticked_run hu).keeps
    simp_all [State.answerEvents]
  | shutdown _ u _ hu =>
    obtain ⟨h1, h2, h3, h4, h5, h6, h7⟩ := (shutDown_run hu).keeps
    simp_all [State.answerEvents]
  | transact _ _ _ _ _ u _ _ _ _ _ hl =>
    obtain ⟨h1, h2, h3, h4, h5, h6, h7⟩ := hl.keeps
    have hramp := hl.ramps
    have hhalt := hl.halted
    simp_all

/-- What O58 says of an operation that reports events. -/
def State.Reports (s t : State) : Prop :=
  ∃ sent : List Sent, t.txLog = s.txLog ++ sent ∧
    (t.reply.status = .transportError ↔ ∃ x ∈ sent, x.outcome ≠ .ok) ∧
    (t.reply.status = .transportError → t.sticky &&& 0x20 = 0x20 ∧ t.reopenReq = true) ∧
    (t.reply.status = .verificationFailed → t.sticky &&& 0x40 = 0x40) ∧
    t.reply.status ∈ [Status.ok, .transportError, .verificationFailed]

theorem answerEvents_transportError (s : State) :
    s.answerEvents.reply.status = .transportError ↔ s.reply.ioErr = true := by
  rw [State.answerEvents, State.answer_reply]; split_ifs <;> simp_all

theorem verifyFailed_of_answerEvents {s : State} (h : s.answerEvents.reply.status = .verificationFailed) :
    s.reply.verifyFailed = true := by
  rw [State.answerEvents, State.answer_reply] at h; split_ifs at h; simp_all

/-- A run reports its events (R365, R366, R368). -/
theorem reports_of_run {s u : State} (h : RunEffect anyCmd s.begin u) : s.Reports u.answerEvents := by
  obtain ⟨sent, hlog, -, hio, hflags⟩ := h.log
  have hio' : u.reply.ioErr = true ↔ ∃ x ∈ sent, x.outcome ≠ .ok := hio.trans (or_iff_right (by simp [State.begin, Reply.fresh]))
  refine ⟨sent, hlog, (answerEvents_transportError u).trans hio', fun ht => ?_, fun hv => ?_, answerEvents_status u⟩
  · obtain ⟨h5, hre⟩ := hflags (hio'.mp ((answerEvents_transportError u).mp ht))
    exact ⟨and_bit_eq (k := 5) h5, hre⟩
  · obtain h6 | h6 := h.verify (verifyFailed_of_answerEvents hv)
    · cases h6
    · exact and_bit_eq (k := 6) h6

/-- Settles O58: an operation that reports events answers TransportError exactly after an IoErr in it, and
VerificationFailed only after an exhausted verification. -/
theorem sequencesReportTheirEvents : Obligations.SequencesReportTheirEvents := by
  rintro i s t (⟨now, rfl⟩ | rfl) hr he
  · rw [exec_tick s now hr, Host.Outcome.next.injEq] at he
    exact he ▸ reports_of_run (ticked_run rfl)
  · rw [exec_shutdown s hr, Host.Outcome.next.injEq] at he
    exact he ▸ reports_of_run (u := (forGroups State.shutdownGroup s.begin).setHalted) (runEffect_setHalted (shutDown_run rfl))

end Sys2Proof.Machine
end

section
/-! PROOFS. Requests (O55), the emergency stop is not entered again (O56), and the TICK whose watchdog fires (O39). The
shared part is a run in which no group can react to a transport fault: it enters no emergency stop. -/

namespace Sys2Proof.Machine

/-! ### Requests are only dropped by TICK and SHUTDOWN (R262, R280) -/

section
variable {g : GroupIx} {now : Time} {s t : State}

theorem pendingOf_of_linkGroup (h : LinkGroup s t g) (hp : s.pendingOf g = false) : t.pendingOf g = false := by
  obtain ⟨-, -, h⟩ | ⟨-, -, -, h⟩ := h.cases
  · exact h.trans hp
  · exact h

theorem pendingOf_of_transitionEnd (h : TransitionEnd g now s t) (hp : s.pendingOf g = false) : t.pendingOf g = false := by
  cases h with
  | none h => exact h ▸ hp
  | discarded _ _ _ h => simp [h]
  | enabling _ _ _ _ cleared => exact cleared
  | disabling _ _ _ cleared => exact cleared
  | stopped _ _ _ pending => exact pending.trans hp
  | decelerated _ _ _ pending => exact pending.trans hp

theorem tickSteps_pendingOf (hp : s.pendingOf g = false) : (s.tickSteps now).pendingOf g = false := by
  obtain ⟨s1, s2, s3, s4, h1, -, h3, h4, h5, -, h7, -, -⟩ := tick_view now g s
  have hw : (s.watchdogCheck now).pendingOf g = false := by
    rw [(watchdogCheck_group now s g).2.2.1, hp]; simp
  have h3' := pendingOf_of_linkGroup h4.group (pendingOf_of_transitionEnd h3 (pendingOf_of_linkGroup h1.group hw))
  exact pendingOf_of_linkGroup h7.group (by rw [h5]; exact h3')

theorem shutdown_pendingOf (s : State) (g : GroupIx) : (forGroups State.shutdownGroup s).pendingOf g = false := by
  obtain ⟨s1, -, h2⟩ := shutdown_view g s
  exact pendingOf_of_linkGroup h2.group (shutdownGroup_spec (g := g) (A := anyCmd) s1 fun _ _ _ _ => trivial).2.1

end

/-- Settles O55: only the latch of ENABLE_TOGGLE sets a request. -/
theorem requestsComeFromToggles : Obligations.RequestsComeFromToggles := by
  intro i s t g he hp hs
  have hop := exec_opEnd he
  by_cases htick : ∃ now, i = .tick now
  · obtain ⟨now, rfl⟩ := htick
    cases hop with
    | returned | failed => simp_all [State.returned, State.failedWith, State.pendingOf]
    | tick _ _ u _ hu =>
      have hu : u.pendingOf g = false := hu ▸ tickSteps_pendingOf (s := s.begin) hs
      exact absurd (hu.symm.trans hp) (by decide)
  by_cases hshut : i = .shutdown
  · subst hshut
    cases hop with
    | returned | failed => simp_all [State.returned, State.failedWith, State.pendingOf]
    | shutdown _ u _ hu =>
      have hu : u.pendingOf g = false := hu ▸ shutdown_pendingOf s.begin g
      exact absurd (hu.symm.trans hp) (by decide)
  · obtain ⟨⟨-, -, h | ⟨mask, rfl, hm, hne⟩⟩ | ⟨-, hf, -⟩, -⟩ :=
      exec_group i s t g he (fun now h => htick ⟨now, h⟩) hshut
    · exact absurd (hs.symm.trans (h.symm.trans hp)) (by decide)
    · exact ⟨hne, mask, rfl, hm⟩
    · exact absurd (hf.2.2.symm.trans hp) (by decide)

/-! ### Runs in which no group can react to a transport fault -/

/-- No group is Enabled or Enabling. -/
def State.Still (s : State) : Prop := ∀ h, reactsToFault (s.stateOf h) = false

/-- Group `g`'s turn in a TICK will not enable it. -/
def State.Dormant (s : State) (now : Time) (g : GroupIx) : Prop :=
  s.stateOf g = .disabled → s.pendingOf g = true → s.stale now = true

/-- What such a run does to the groups: it stops some that were in EmergencyStop. -/
structure Dozes (s t : State) : Prop where
  keeps : s.KeepsConfig t
  state : ∀ h, t.stateOf h = s.stateOf h ∨ s.stateOf h = .emergencyStop ∧ t.stateOf h = .disabled
  cause : ∀ h, t.causeOf h = s.causeOf h
  estopCnt : t.estopCnt = s.estopCnt

theorem Dozes_refl (s : State) : Dozes s s := ⟨KeepsConfig_refl s, fun _ => .inl rfl, fun _ => rfl, rfl⟩

theorem Dozes_trans {a b c : State} (h : Dozes a b) (k : Dozes b c) : Dozes a c := by
  refine ⟨KeepsConfig_trans h.keeps k.keeps, fun x => ?_, fun x => (k.cause x).trans (h.cause x),
    k.estopCnt.trans h.estopCnt⟩
  obtain hx | ⟨hx, hy⟩ := h.state x
  · rw [← hx]; exact k.state x
  · obtain hz | ⟨hz, -⟩ := k.state x
    · exact .inr ⟨hx, hz.trans hy⟩
    · rw [hy] at hz; cases hz

section
variable {g : GroupIx} {now : Time} {s t : State}

theorem still_of_dozes (h : Dozes s t) (hs : s.Still) : t.Still := fun x => by
  obtain hx | ⟨-, hx⟩ := h.state x
  · rw [hx]; exact hs x
  · rw [hx]; rfl

/-- A sequence of group `g`, which ends it as it was or stopped. -/
theorem dozes_of_seq {A : MotorIx → Cmd → Prop} (h : SeqEffect g A s t) (hs : s.Still)
    (hst : t.stateOf g = s.stateOf g ∨ s.stateOf g = .emergencyStop ∧ t.stateOf g = .disabled)
    (hc : t.causeOf g = s.causeOf g) (he : t.estopCnt = s.estopCnt) : Dozes s t := by
  refine ⟨h.keeps, fun x => ?_, fun x => ?_, he⟩
  all_goals by_cases e : x = g
  · exact e ▸ hst
  · exact .inl (LinkGroup_notReacts (h.others x e) (hs x)).1
  · exact e ▸ hc
  · exact (LinkGroup_notReacts (h.others x e) (hs x)).2.1

theorem dozes_of_link {A : MotorIx → Cmd → Prop} (h : LinkEffect A s t) (hs : s.Still) : Dozes s t :=
  ⟨h.keeps, fun x => .inl (LinkGroup_notReacts (h.groups x) (hs x)).1,
    fun x => (LinkGroup_notReacts (h.groups x) (hs x)).2.1, h.idle hs⟩

/-- EStopStep(g) (R279). -/
theorem dozes_estopStepGroup (hs : s.Still) (hst : s.stateOf g = .emergencyStop) : Dozes s (s.estopStepGroup g) := by
  by_cases hr : ∀ m, s.isMember g m = true → s.rampOf m = 0
  · obtain ⟨h1, h2, h3, -, -, h6⟩ := stopToDisabled_spec (g := g) (A := anyCmd) s (fun _ _ _ _ => trivial) (hs g)
    rw [estopStepGroup_atRest s hr]
    exact dozes_of_seq h1 hs (.inr ⟨hst, h2⟩) h3 (h6 hs)
  · push Not at hr
    obtain ⟨h1, h2, h3, -, -, h6⟩ := estopStepGroup_decel (g := g) (A := anyCmd) s (fun _ _ _ => trivial) hst hr
    exact dozes_of_seq h1 hs (.inl (h2.trans hst.symm)) h3 (h6 hs)

theorem dozes_setPending (s : State) (b : Bool) : Dozes s (s.setPending g b) :=
  ⟨(setPending_effect (A := anyCmd) s b).keeps, fun _ => .inl rfl, fun _ => rfl, rfl⟩

/-- The turn of a dormant group (R263). -/
theorem dozes_transition (hs : s.Still) (hd : s.Dormant now g) : Dozes s (s.transition now g) := by
  have hg := hs g
  unfold State.transition
  cases hst : s.stateOf g with
  | disabled =>
    by_cases hp : s.pendingOf g = true
    · have hstale : (s.setPending g false).stale now = true := hd hst hp
      simp only [hp, if_true, State.requestEnable, hstale]
      exact dozes_setPending s false
    · simp only [hp]; exact Dozes_refl s
  | emergencyStop => exact dozes_estopStepGroup hs hst
  | disabling => exact Dozes_refl s
  | enabling | enabled => rw [hst] at hg; cases hg

/-- A turn of another group. -/
theorem dormant_transition {h : GroupIx} (hne : h ≠ g) (hs : s.Still) (hd : s.Dormant now h) :
    (s.transition now g).Dormant now h := by
  have ht := (transition_spec (g := g) (A := anyCmd) now s (fun _ _ _ _ => trivial) fun _ _ _ _ => trivial).1
  obtain ⟨h1, -, h3⟩ := LinkGroup_notReacts (ht.others h hne) (hs h)
  intro hst hp
  rw [keeps_stale ht.keeps]
  exact hd (h1.symm.trans hst) (h3.symm.trans hp)

theorem dozes_transitions (l : List GroupIx) (hn : l.Nodup) (s : State) (hs : s.Still) (hd : ∀ h ∈ l, s.Dormant now h) :
    Dozes s (l.foldl (fun s g => s.transition now g) s) := by
  induction l generalizing s with
  | nil => exact Dozes_refl s
  | cons k l ih =>
    obtain ⟨hk, hn⟩ := List.nodup_cons.mp hn
    have h1 := dozes_transition hs (hd k List.mem_cons_self)
    exact Dozes_trans h1 (ih hn _ (still_of_dozes h1 hs) fun h hh =>
      dormant_transition (fun e => hk (e ▸ hh)) hs (hd h (List.mem_cons_of_mem _ hh)))

/-- The ramp step touches no group (R281). -/
theorem dozes_rampStep (s : State) : Dozes s (forGroups State.rampGroup s) := by
  have h := (rampStep_spec s).2.2
  generalize forGroups State.rampGroup s = t at h
  rw [h]
  exact ⟨⟨rfl, rfl, rfl, rfl, rfl, rfl, rfl⟩, fun _ => .inl rfl, fun _ => rfl, rfl⟩

/-- The steps of a TICK after the watchdog, where every group is dormant (R263). -/
theorem dozes_tickSteps (hs : (s.watchdogCheck now).Still) (hd : ∀ h, (s.watchdogCheck now).Dormant now h) :
    Dozes (s.watchdogCheck now) (s.tickSteps now) := by
  unfold State.tickSteps
  generalize s.watchdogCheck now = u at hs hd
  have h1 : Dozes u (forGroups (State.transition now) u) :=
    dozes_transitions allGroups nodup_allGroups u hs fun h _ => hd h
  generalize forGroups (State.transition now) u = v at h1
  have h2 := Dozes_trans h1 (dozes_rampStep v)
  generalize forGroups State.rampGroup v = w at h2
  have h3 : LinkEffect anyCmd w (forGroups State.driveGroup w) := driveStep_effect w fun _ _ _ _ _ => trivial
  exact Dozes_trans h2 (dozes_of_link h3 (still_of_dozes h2 hs))

/-- SHUTDOWN's turn of a group that is not Enabled (R345). -/
theorem dozes_shutdownGroup (hs : s.Still) : Dozes s (s.shutdownGroup g) := by
  have hg := hs g
  unfold State.shutdownGroup
  cases hst : s.stateOf g with
  | emergencyStop =>
    obtain ⟨h1, h2, h3, -, -, h6⟩ := stopToDisabled_spec (g := g) (A := anyCmd) s (fun _ _ _ _ => trivial) (hs g)
    exact Dozes_trans (dozes_of_seq h1 hs (.inr ⟨hst, h2⟩) h3 (h6 hs)) (dozes_setPending _ false)
  | disabled | disabling => exact dozes_setPending s false
  | enabling | enabled => rw [hst] at hg; cases hg

theorem dozes_shutdown (hs : s.Still) : Dozes s (forGroups State.shutdownGroup s) :=
  foldl_keeps (P := Dozes s) _ _ s (fun _ _ _ h => Dozes_trans h (dozes_shutdownGroup (still_of_dozes h hs))) (Dozes_refl s)

/-- The watchdog finds nothing to stop (R313). -/
theorem watchdogCheck_still (hs : s.Still) : s.watchdogCheck now = s := by
  have hne (h : GroupIx) : s.stateOf h ≠ .enabled := fun e => by have := hs h; rw [e] at this; cases this
  unfold State.watchdogCheck
  split
  · exact foldl_keeps (P := fun t => t = s) _ _ s (fun t h _ ht => by subst ht; simp [hne h]) rfl
  · rfl

end

/-- A state of O56: every group in EmergencyStop, or Disabled without a request. -/
theorem still_of_stopped {s : State}
    (h : ∀ g, s.stateOf g = .emergencyStop ∨ s.stateOf g = .disabled ∧ s.pendingOf g = false) : s.Still := fun g => by
  obtain hg | ⟨hg, -⟩ := h g <;> rw [hg] <;> rfl

theorem dormant_of_stopped {s : State} {now : Time}
    (h : ∀ g, s.stateOf g = .emergencyStop ∨ s.stateOf g = .disabled ∧ s.pendingOf g = false) (g : GroupIx) :
    s.Dormant now g := fun hst hp => by
  obtain hg | ⟨-, hg⟩ := h g
  · rw [hst] at hg; cases hg
  · rw [hp] at hg; cases hg

/-- What O56 says of an operation. -/
def State.StaysStopped (s t : State) (g : GroupIx) : Prop :=
  (t.stateOf g = .emergencyStop ∨ t.stateOf g = .disabled) ∧ t.causeOf g = s.causeOf g ∧
  (s.pendingOf g = false → t.pendingOf g = false) ∧
  ((∀ h : GroupIx, s.stateOf h = .emergencyStop ∨ s.stateOf h = .disabled ∧ s.pendingOf h = false) →
    t.estopCnt = s.estopCnt)

theorem staysStopped_returned {s : State} {g : GroupIx} (h : s.stateOf g = .emergencyStop) (st : Status) (r : Result) :
    s.StaysStopped (s.returned st r) g := ⟨.inl h, rfl, id, fun _ => rfl⟩

theorem staysStopped_tick {s : State} {g : GroupIx} (now : Time) (h : s.stateOf g = .emergencyStop) :
    s.StaysStopped (s.tickSteps now) g := by
  obtain ⟨h1, -, h3, -⟩ := tick_estop s g now h
  refine ⟨?_, h3, tickSteps_pendingOf, fun hall => ?_⟩
  · rw [h1]; split <;> simp
  · have hw := watchdogCheck_still (now := now) (still_of_stopped hall)
    have := (dozes_tickSteps (now := now) (by rw [hw]; exact still_of_stopped hall)
      (by rw [hw]; exact dormant_of_stopped hall)).estopCnt
    rwa [hw] at this

theorem staysStopped_shutdown {s : State} {g : GroupIx} (h : s.stateOf g = .emergencyStop) :
    s.StaysStopped (forGroups State.shutdownGroup s) g := by
  obtain ⟨h1, h2, h3, -⟩ := shutdown_end g s (by rw [h]; rfl)
  exact ⟨.inr h1, h3.resolve_right (not_not.mpr h), fun _ => h2,
    fun hall => (dozes_shutdown (still_of_stopped hall)).estopCnt⟩

/-- Settles O56: TICK decelerates or stops a group in EmergencyStop, SHUTDOWN stops it, and nothing else touches it. -/
theorem emergencyStopIsNotReentered : Obligations.EmergencyStopIsNotReentered := by
  intro i s t g he hst
  change s.StaysStopped t g
  by_cases htick : ∃ now, i = .tick now
  · obtain ⟨now, rfl⟩ := htick
    obtain ⟨-, rfl⟩ | ⟨-, u, hu, rfl⟩ := tick_cases now s t he
    · exact staysStopped_returned hst _ _
    · obtain ⟨h1, h2, h3, h4⟩ := staysStopped_tick (s := s.begin) now hst
      rw [hu] at h1 h2 h3 h4
      exact ⟨h1, h2, h3, h4⟩
  by_cases hshut : i = .shutdown
  · subst hshut
    obtain ⟨-, rfl⟩ | ⟨-, u, hu, rfl⟩ := shutdown_cases s t he
    · exact staysStopped_returned hst _ _
    · obtain ⟨h1, h2, h3, h4⟩ := staysStopped_shutdown (s := s.begin) hst
      rw [hu] at h1 h2 h3 h4
      exact ⟨h1, h2, h3, h4⟩
  · obtain ⟨⟨h1, h2, h3⟩ | ⟨hr, -⟩, -, -, hcnt⟩ := exec_group i s t g he (fun now h => htick ⟨now, h⟩) hshut
    · refine ⟨.inl (h1.trans hst), h2, fun hp => ?_, fun hall => hcnt (still_of_stopped hall)⟩
      obtain h3 | ⟨-, -, -, hne⟩ := h3
      · exact h3.trans hp
      · exact absurd hst hne
    · rw [hst] at hr; cases hr

/-! ### The TICK whose watchdog fires (R313, R374) -/

section
variable {s : State} {now : Time}

/-- After a watchdog that fired no group is Enabled. -/
theorem watchdogCheck_stale_still (hs : s.stale now = true) (hb : ∀ g, boundary (s.stateOf g) = true) :
    (s.watchdogCheck now).Still := fun g => by
  rw [(watchdogCheck_group now s g).1, hs]
  obtain h | h | h := boundary_cases (hb g) <;> simp [h, reactsToFault]

theorem watchdogCheck_estopCnt (hs : s.stale now = true) : (s.watchdogCheck now).estopCnt
    = s.estopCnt + BitVec.ofNat 32 (allGroups.countP fun g => s.stateOf g == .enabled) := by
  rw [State.watchdogCheck, if_pos hs, estopWhere_estopCnt, List.countP_eq_length_filter]

/-- A stale TICK only dozes after its watchdog. -/
theorem dozes_staleTick (hs : s.stale now = true) (hb : ∀ g, boundary (s.stateOf g) = true) :
    Dozes (s.watchdogCheck now) (s.tickSteps now) :=
  dozes_tickSteps (watchdogCheck_stale_still hs hb) fun _ _ _ => by
    rw [keeps_stale (watchdogCheck_group now s 0).2.2.2.2.1, hs]

end

/-- Settles O39: the watchdog stops the Enabled groups, and what follows it in the TICK only dozes. -/
theorem watchdogStopsEveryEnabledGroup : Obligations.WatchdogStopsEveryEnabledGroup := by
  intro s now hr hs hb
  refine ⟨_, exec_tick s now hr, ?_⟩
  have hd := dozes_staleTick (s := s.begin) hs hb
  have hcnt := hd.estopCnt.trans (watchdogCheck_estopCnt (s := s.begin) hs)
  have hen := fun g hst => tick_watchdog s.begin g now hst hs
  have hw := watchdogCheck_group now s.begin
  generalize s.begin.tickSteps now = u at hd hcnt hen
  refine ⟨hcnt, fun g => ⟨fun hst => ?_, fun hst => ?_⟩⟩
  · obtain ⟨h1, h2, h3, -⟩ := hen g hst
    exact ⟨h1, h3, h2⟩
  · have hst' : ¬ (s.begin.stale now = true ∧ s.begin.stateOf g = .enabled) := fun h => hst h.2
    have h1 := (hw g).1.trans (if_neg hst')
    have h2 := (hw g).2.1.trans (if_neg hst')
    refine ⟨(hd.cause g).trans h2, fun e => ?_, fun e => ?_⟩
    all_goals obtain h | ⟨h, h'⟩ := hd.state g
    · exact hst ((h.trans h1).symm.trans e)
    · cases h'.symm.trans e
    · exact (h.trans h1).trans e
    · exact h'

end Sys2Proof.Machine
end

section
/-! PROOFS. Every step keeps the invariant (O44): the registers and the table under CFG_WRITE, the groups under each
operation (`OpEnd`), and the input that is taken. -/

namespace Sys2Proof.Machine

/-! ### Legal registers (R34, R39..R47) -/

theorem and_masks_zero {v a b : Word} (h : a &&& b = 0) : v &&& a &&& b = 0 := by
  rw [BitVec.and_assoc, h]; exact BitVec.and_zero

theorem getLsbD_of_extractLsb'_zero {x : Word} {a n i : Nat} (h : x.extractLsb' a n = 0) (ha : a ≤ i) (hn : i < a + n) :
    x.getLsbD i = false := by
  have := congrArg (fun y => y.getLsbD (i - a)) h
  simpa [BitVec.getLsbD_extractLsb', show i - a < n by omega, Nat.add_sub_cancel' ha] using this

theorem and_mask_zero {x mask : Word} (h : ∀ i < 32, mask.getLsbD i = true → x.getLsbD i = false) : x &&& mask = 0 := by
  refine BitVec.eq_of_getLsbD_eq fun i hi => ?_
  rw [BitVec.getLsbD_and]
  cases hm : mask.getLsbD i
  · simp
  · simp [h i hi hm]

theorem legalSeq_reserved (v : Word) : legalSeq v &&& 0xFFFFF000 = 0 := by
  have hbits : ∀ i < 32, (0xFFFFF000 : Word).getLsbD i = true → 12 ≤ i := by decide
  exact and_mask_zero fun i hi hm => getLsbD_of_extractLsb'_zero (legalSeq_fields v).2.2.2 (hbits i hi hm) (by omega)

theorem legalCur_reserved (v : Word) : legalCur v &&& 0xFF00F000 = 0 := by
  have hbits : ∀ i < 32, (0xFF00F000 : Word).getLsbD i = true → 12 ≤ i ∧ i < 16 ∨ 24 ≤ i := by decide
  obtain ⟨-, -, h12, h24⟩ := legalCur_fields v
  refine and_mask_zero fun i hi hm => ?_
  obtain ⟨h1, h2⟩ | h1 := hbits i hi hm
  · exact getLsbD_of_extractLsb'_zero h12 h1 (by omega)
  · exact getLsbD_of_extractLsb'_zero h24 h1 (by omega)

theorem hcPct_legal (n : Nat) : 10 * (min (max n 10) 90 / 10) ∈ [10, 20, 30, 40, 50, 60, 70, 80, 90] := by
  have h1 : 1 ≤ min (max n 10) 90 / 10 := by omega
  have h2 : min (max n 10) 90 / 10 ≤ 9 := by omega
  interval_cases min (max n 10) 90 / 10 <;> decide

theorem legalSq_code (v : Word) : (legalSq v).extractLsb' 0 8 = v.extractLsb' 0 8 := by
  refine BitVec.eq_of_getLsbD_eq fun i hi => ?_
  have hbit : ∀ i < 8, (0xFF#32).getLsbD i = true := by decide
  simp [legalSq, hi, hbit i hi]

section
variable {s t : State} {r : Reg} {v : Word}

theorem legal_of_writeReg (h : s.regs.Legal) (hw : writeReg r v s = some t) : t.regs.Legal := by
  cases r <;> simp only [writeReg, reduceCtorEq] at hw
  case cfg => obtain ⟨-, ⟨⟩⟩ := Option.ite_none_right_eq_some.mp hw; exact { h with cfg := and_masks_zero (by decide) }
  case seq =>
    obtain ⟨he, hd, hz, -⟩ := legalSeq_fields v
    cases hw
    exact { h with
      seqReserved := legalSeq_reserved v
      enableAttempts := he ▸ le_max_left _ _
      disableAttempts := hd ▸ le_max_left _ _
      zeroRepeat := hz ▸ le_max_left _ _ }
  case vel => cases hw; exact { h with vel := and_masks_zero (by decide) }
  case cur =>
    obtain ⟨hma, hpct, -⟩ := legalCur_fields v
    cases hw
    exact { h with
      curReserved := legalCur_reserved v
      wcMa := hma ▸ min_le_right _ _
      hcPct := hpct ▸ hcPct_legal _ }
  case sq =>
    obtain ⟨hok, ⟨⟩⟩ := Option.ite_none_right_eq_some.mp hw
    exact { h with
      sqReserved := and_masks_zero (by decide)
      sqCode := by
        show (legalSq v).extractLsb' 0 8 ∉ _
        rw [legalSq_code]; exact sqWriteOk_iff.mp hok }
  case rsplen => cases hw; exact { h with rsplen := and_masks_zero (by decide) }
  case verify => cases hw; exact { h with verify := and_masks_zero (by decide) }
  case motor => obtain ⟨-, ⟨⟩⟩ := Option.ite_none_right_eq_some.mp hw; exact h
  case status => cases hw; exact h
  all_goals cases hw; exact { h with }

/-! ### The motor table (R54) -/

theorem proto_rs485 (s : State) : s.proto = .rs485 ↔ s.regs.cfg.getLsbD 0 = true := by
  unfold State.proto; split <;> simp_all

/-- The rules of the table depend on the entries and the format alone. -/
theorem tableLegal_congr (h : s.TableLegal) (hm : t.motor = s.motor) (hp : t.proto = s.proto) : t.TableLegal := by
  have he (m : MotorIx) : t.entryOf m = s.entryOf m := by rw [State.entryOf, hm]; rfl
  have ha (m : MotorIx) : t.addrOf m = s.addrOf m := by rw [State.addrOf, he]; rfl
  exact ⟨fun m => he m ▸ h.reserved m, fun m hv => ha m ▸ h.addrPositive m (he m ▸ hv),
    fun m hv hr => ha m ▸ h.addrFits m (he m ▸ hv) (hp ▸ hr),
    fun m k hv hk e => h.addrUnique m k (he m ▸ hv) (he k ▸ hk) (by rw [← ha, ← ha, e])⟩

theorem tableLegal_keeps (h : s.TableLegal) (hk : s.KeepsConfig t) : t.TableLegal :=
  tableLegal_congr h hk.motor (keeps_proto hk)

/-- A write of CFG, PROTO included (R37). -/
theorem tableLegal_setCfg (h : s.TableLegal) (hok : cfgWriteOk v s = true) :
    (s.setRegs { s.regs with cfg := legalCfg v }).TableLegal := by
  have hbit : (legalCfg v).getLsbD 0 = v.getLsbD 0 := by simp [legalCfg]
  have hrs : (s.setRegs { s.regs with cfg := legalCfg v }).proto = .rs485 ↔ v.getLsbD 0 = true := by
    rw [proto_rs485, ← hbit]; rfl
  refine ⟨h.reserved, h.addrPositive, fun m hv hp => ?_, h.addrUnique⟩
  by_cases hsame : v.getLsbD 0 = s.regs.cfg.getLsbD 0
  · exact h.addrFits m hv ((proto_rs485 s).mpr (hsame ▸ hrs.mp hp))
  · exact ((cfgWriteOk_iff hsame).mp hok).2 (hrs.mp hp) m hv

theorem legalMotor_fields (v : Word) :
    (legalMotor v).getLsbD 31 = v.getLsbD 31 ∧ (legalMotor v).extractLsb' 0 11 = v.extractLsb' 0 11 := by
  refine ⟨by simp [legalMotor], BitVec.eq_of_getLsbD_eq fun i hi => ?_⟩
  have hbit : ∀ i < 11, (0x800037FF#32).getLsbD i = true := by decide
  simp [legalMotor, hi, hbit i hi]

/-- A write of a motor entry (R54). -/
theorem tableLegal_setMotor {m : MotorIx} (h : s.TableLegal) (hok : motorWriteOk m v s = true) :
    (s.setMotor m (legalMotor v)).TableLegal := by
  obtain ⟨hvalid, haddr⟩ := legalMotor_fields v
  obtain ⟨-, hchecks⟩ := (motorWriteOk_iff m).mp hok
  rw [← haddr, ← hvalid] at hchecks
  refine ⟨fun k => ?_, fun k => ?_, fun k => ?_, fun k l => ?_⟩ <;> simp only [State.addrOf, State.setMotor_entryOf]
  · by_cases hk : k = m
    · rw [if_pos hk]; exact and_masks_zero (by decide)
    · rw [if_neg hk]; exact h.reserved k
  · by_cases hk : k = m
    · rw [if_pos hk]; exact fun hv => Nat.pos_of_ne_zero (hchecks hv).1
    · rw [if_neg hk]; exact h.addrPositive k
  · by_cases hk : k = m
    · rw [if_pos hk]; exact fun hv => (hchecks hv).2.1
    · rw [if_neg hk]; exact h.addrFits k
  · by_cases hk : k = m <;> by_cases hl : l = m
    · exact fun _ _ _ => hk.trans hl.symm
    · rw [if_pos hk, if_neg hl]; exact fun hv hv' e => absurd e.symm ((hchecks hv).2.2 l hl hv')
    · rw [if_neg hk, if_pos hl]; exact fun hv' hv e => absurd e ((hchecks hv).2.2 k hk hv')
    · rw [if_neg hk, if_neg hl]; exact h.addrUnique k l

theorem tableLegal_of_writeReg (h : s.TableLegal) (hw : writeReg r v s = some t) : t.TableLegal := by
  cases r <;> simp only [writeReg, reduceCtorEq] at hw
  case cfg => obtain ⟨hok, ⟨⟩⟩ := Option.ite_none_right_eq_some.mp hw; exact tableLegal_setCfg h hok
  case sq => obtain ⟨-, ⟨⟩⟩ := Option.ite_none_right_eq_some.mp hw; exact tableLegal_congr h rfl rfl
  case motor m => obtain ⟨hok, ⟨⟩⟩ := Option.ite_none_right_eq_some.mp hw; exact tableLegal_setMotor h hok
  all_goals cases hw; exact tableLegal_congr h rfl rfl

end

/-! ### The invariant under each operation -/

section
variable {i : Instr} {s t u : State}

/-- With every group Disabled every ramp output is 0 (R247). -/
theorem rampOf_of_disabled (h : s.Inv) (hd : ∀ g, s.stateOf g = .disabled) (m : MotorIx) : s.rampOf m = 0 := by
  by_contra hne
  obtain ⟨g, -, hg⟩ := h.rampsIdle m hne
  rw [hd g] at hg; cases hg

theorem inv_reply (h : s.Inv) (st : Status) (r : Result) : (s.answer st r).Inv :=
  { h with table := { h.table with } }

theorem inv_begin (h : s.Inv) : s.begin.Inv := { h with table := { h.table with } }

theorem inv_returned (h : s.Inv) (st : Status) (r : Result) : (s.returned st r).Inv :=
  { h with table := { h.table with } }

theorem inv_failedWith (h : s.Inv) (st : Status) : (s.failedWith st).Inv := { h with table := { h.table with } }

theorem inv_setInputs (h : s.Inv) (l : List Input) : (s.setInputs l).Inv := { h with table := { h.table with } }

/-- A register write (R332). -/
theorem inv_writeReg {r : Reg} {v : Word} (h : s.Inv) (hw : writeReg r v s = some t) : t.Inv := by
  have hregs := legal_of_writeReg h.regs hw
  have htable := tableLegal_of_writeReg h.table hw
  obtain ⟨rs, rfl⟩ | ⟨-, rfl⟩ | ⟨m, w, hok, rfl⟩ := writeReg_cases r v s t hw
  · exact { h with regs := hregs, table := htable }
  · exact { h with table := htable }
  · have hd := ((motorWriteOk_iff m).mp hok).1
    exact { h with table := htable, rampsIdle := fun k hk => absurd (rampOf_of_disabled h hd k) hk }

/-- What only some groups feel: a latched request or the reaction to a transport fault (R262, R316). -/
theorem inv_of_groups (h : s.Inv) (hk : s.KeepsConfig t) (hrun : s.halted = false) (hb : t.rxbuf.length ≤ 256)
    (htx : t.lastTx.length ≤ 18) (hrx : t.lastRx.length ≤ 18) (hg : ∀ g, GroupAfter i s t g) : t.Inv := by
  have hdriven (g : GroupIx) : driven (t.stateOf g) = driven (s.stateOf g) := by
    obtain ⟨⟨hst, -⟩ | ⟨hr, hf, -⟩, -⟩ := hg g
    · rw [hst]
    · obtain hs | hs | hs := boundary_cases (h.visible g) <;> rw [hs] at hr ⊢
      · cases hr
      · rw [hf.1]; rfl
      · cases hr
  refine ⟨hk.regs ▸ h.regs, tableLegal_keeps h.table hk, hb, htx, hrx, fun g => ?_, fun g hst => ?_, fun g hst => ?_,
    fun m hm => ?_, fun g hd => ?_, fun hh => ?_⟩
  · obtain ⟨⟨hst, -⟩ | ⟨-, hf, -⟩, -⟩ := hg g
    · rw [hst]; exact h.visible g
    · rw [hf.1]; rfl
  · obtain ⟨⟨hs, -, hp | ⟨-, -, -, hne⟩⟩ | ⟨-, hf, -⟩, -⟩ := hg g
    · exact hp.trans (h.noRequest g (hs.symm.trans hst))
    · exact absurd (hs.symm.trans hst) hne
    · exact hf.2.2
  · obtain ⟨⟨hs, hc, -⟩ | ⟨-, hf, -⟩, -⟩ := hg g
    · rw [hc]; exact h.causeSaved g (hs.symm.trans hst)
    · rw [hf.2.1]; decide
  · rw [rampOf_eq_of_rampcur (hg 0).2.1] at hm
    obtain ⟨g, hmem, hd⟩ := h.rampsIdle m hm
    exact ⟨g, by rw [keeps_isMember hk]; exact hmem, by rw [hdriven]; exact hd⟩
  · rw [hk.inputValid]; exact h.sampled g (hdriven g ▸ hd)
  · rw [(hg 0).2.2.1, hrun] at hh; cases hh

/-- A group that is not Disabled after a TICK was driven before it, or the input was fresh (R264). -/
theorem sampled_tick {now : Time} {g : GroupIx} (h : s.Inv) (ht : TickEnd g now s t) (hd : driven (t.stateOf g) = true) :
    s.inputValid = true := by
  obtain hs | hs | hs := boundary_cases (h.visible g)
  · have hne : t.stateOf g ≠ .disabled := fun e => by rw [e] at hd; cases hd
    have hfresh := (ht.fromDisabled hs hne).2.1
    unfold State.stale at hfresh
    simp_all
  · exact h.sampled g (by rw [hs]; rfl)
  · exact h.sampled g (by rw [hs]; rfl)

/-- TICK (R263). -/
theorem inv_tick {now : Time} (h : s.Inv) (hrun : s.halted = false) (hr : RunEffect anyCmd s t)
    (hh : t.halted = s.halted) (ht : ∀ g, TickEnd g now s t) : t.Inv := by
  refine ⟨hr.keeps.regs ▸ h.regs, tableLegal_keeps h.table hr.keeps, hr.rxbuf h.rxbuf, hr.lastTx h.lastTx,
    hr.lastRx h.lastRx, fun g => (ht g).boundary, fun g hst => ?_, fun g hst => ?_, fun m hm => ?_, fun g hd => ?_,
    fun e => ?_⟩
  · by_contra hp
    obtain ⟨hs, hp⟩ := (ht g).request (by simpa using hp)
    exact absurd (h.noRequest g hs) (by simp [hp])
  · obtain hs | hs | hs := boundary_cases (h.visible g)
    · obtain ⟨-, -, he | hc⟩ := (ht g).fromDisabled hs (by rw [hst]; simp)
      · rw [hst] at he; cases he
      · rw [hc]; decide
    · exact (ht g).fromEnabled hs hst
    · rw [((ht g).fromEStop hs).2]; exact h.causeSaved g hs
  · by_contra hno
    push Not at hno
    by_cases hstray : ∀ g, s.isMember g m = false
    · rw [hr.stray m hstray] at hm
      obtain ⟨g, hmem, -⟩ := h.rampsIdle m hm
      rw [hstray g] at hmem; cases hmem
    · push Not at hstray
      obtain ⟨g, hg⟩ := hstray
      replace hg : s.isMember g m = true := by simpa using hg
      have hoff : driven (t.stateOf g) = false := by simpa using hno g (by rw [keeps_isMember hr.keeps]; exact hg)
      rw [(ht g).ramps hoff m hg] at hm
      split at hm
      · exact hm rfl
      · next hs =>
        obtain ⟨g', hmem, hd⟩ := h.rampsIdle m hm
        rw [isMember_unique s g' g m hmem hg] at hd
        exact hs hd
  · rw [hr.keeps.inputValid]; exact sampled_tick h (ht g) hd
  · rw [hh, hrun] at e; cases e

/-- SHUTDOWN (R345). -/
theorem inv_shutdown (h : s.Inv) (hu : u = forGroups State.shutdownGroup s) : u.setHalted.Inv := by
  have hr : RunEffect anyCmd s u := hu ▸ shutdown_run s fun _ _ => trivial
  have hend (g : GroupIx) := hu ▸ shutdown_end g s (h.visible g)
  have hst (g : GroupIx) : u.setHalted.stateOf g = .disabled := (hend g).1
  have hp (g : GroupIx) : u.setHalted.pendingOf g = false := (hend g).2.1
  have hramp (m : MotorIx) : u.rampOf m = 0 := by
    by_cases hstray : ∀ g, s.isMember g m = false
    · rw [hr.stray m hstray]
      by_contra hne
      obtain ⟨g, hmem, -⟩ := h.rampsIdle m hne
      rw [hstray g] at hmem; cases hmem
    · push Not at hstray
      obtain ⟨g, hg⟩ := hstray
      replace hg : s.isMember g m = true := by simpa using hg
      rw [(hend g).2.2.2.1 m hg]
      split
      · rfl
      · next hs =>
        by_contra hne
        obtain ⟨g', hmem, hd⟩ := h.rampsIdle m hne
        rw [isMember_unique s g' g m hmem hg] at hd
        exact hs hd
  exact {
    regs := hr.keeps.regs ▸ h.regs
    table := tableLegal_congr (t := u.setHalted) h.table hr.keeps.motor (keeps_proto (t := u) hr.keeps)
    rxbuf := hr.rxbuf h.rxbuf
    lastTx := hr.lastTx h.lastTx
    lastRx := hr.lastRx h.lastRx
    visible := fun g => by rw [hst]; rfl
    noRequest := fun g _ => hp g
    causeSaved := fun g hg => by rw [hst] at hg; cases hg
    rampsIdle := fun m hm => absurd (hramp m) hm
    sampled := fun g hg => by rw [hst] at hg; cases hg
    stopped := fun _ g => ⟨hst g, hp g⟩ }

/-- Every operation keeps the invariant. -/
theorem inv_exec (h : s.Inv) (he : exec i s = .next t) : t.Inv := by
  have hgroup := fun g => exec_group i s t g he
  cases exec_opEnd he with
  | returned _ _ r => exact inv_returned h _ r
  | failed _ _ st => exact inv_failedWith h st
  | cfgWrite _ _ _ u _ _ _ hw => exact inv_reply (inv_writeReg (inv_begin h) hw) _ _
  | rxFeed data =>
    have hb := appendAll_length_le data s h.rxbuf
    rw [appendAll_frame]
    exact { h with table := { h.table with }, rxbuf := hb }
  | rxNext _ rest l n r _ hrest hl =>
    have hlast : l.length ≤ 18 := by
      obtain rfl | hl := hl
      · exact h.lastRx
      · exact hl
    exact { h with table := { h.table with }, rxbuf := hrest.trans h.rxbuf, lastRx := hlast }
  | inputSample => exact { h with table := { h.table with }, sampled := fun _ _ => rfl }
  | inputLost => exact { h with table := { h.table with } }
  | transportReopened => exact { h with table := { h.table with }, rxbuf := Nat.zero_le _ }
  | enableToggle mask _ p hr =>
    exact inv_of_groups h ⟨rfl, rfl, rfl, rfl, rfl, rfl, rfl⟩ hr h.rxbuf h.lastTx h.lastRx
      fun g => hgroup g (by simp) (by simp)
  | ioError _ u hr hu =>
    have hk : s.begin.KeepsConfig u := hu ▸ transportFault_keeps s.begin
    have hbuf : u.rxbuf = s.rxbuf := hu ▸ transportFault_rxbuf s.begin
    have htx : u.lastTx = s.lastTx := hu ▸ transportFault_lastTx s.begin
    have hrx : u.lastRx = s.lastRx := hu ▸ transportFault_lastRx s.begin
    exact inv_of_groups h { hk with } hr (hbuf ▸ h.rxbuf) (htx ▸ h.lastTx) (hrx ▸ h.lastRx)
      fun g => hgroup g (by simp) (by simp)
  | tick now _ u hr hu =>
    have hh : u.halted = s.begin.halted := hu ▸ tickSteps_halted now s.begin
    have ht (g : GroupIx) : TickEnd g now s.begin u := hu ▸ tick_end g now s.begin (h.visible g)
    exact inv_reply (inv_tick (inv_begin h) hr (ticked_run hu) hh ht) _ _
  | shutdown _ u hr hu => exact inv_reply (inv_shutdown (inv_begin h) hu) _ _
  | transact _ _ _ _ _ u _ _ hr _ _ hl =>
    exact inv_of_groups h { hl.keeps with } hr (hl.rxbuf h.rxbuf) (hl.lastTx h.lastTx) (hl.lastRx h.lastRx)
      fun g => hgroup g (by simp) (by simp)

/-! ### Steps -/

theorem inv_afterReset (s : State) : s.afterReset.Inv :=
  { resetHasTheInvariant with table := { tableLegal_reset with } }

theorem inv_badWord (h : s.Inv) (he : badWord s = .next t) : t.Inv := by
  cases hr : s.halted
  · rw [badWord_running hr] at he; cases he; exact inv_failedWith h _
  · rw [badWord_halted hr] at he; cases he; exact inv_returned h _ _

theorem inv_runWord {bs : Bytes} (h : s.Inv) (he : runWord bs s = .next t) : t.Inv := by
  cases hd : decodeWord bs with
  | ok i => rw [runWord_ok hd] at he; exact inv_exec h he
  | error e => rw [runWord_error hd] at he; exact inv_badWord h he

theorem inv_runPayload {q : Bytes} (h : s.Inv) (he : runPayload q s = .next t) : t.Inv := by
  cases hd : decodePayload s.velCap s.sqCode q with
  | ok i => rw [runPayload_ok hd] at he; exact inv_exec h he
  | error e => rw [runPayload, hd] at he; cases he

end

/-- Settles O44: the invariant survives the input taken, the operation it decodes to, and the reset. -/
theorem stepKeepsTheInvariant : Obligations.StepKeepsTheInvariant := by
  intro s t h he
  cases hin : s.inputs with
  | nil => rw [step_nil hin] at he; cases he; exact h
  | cons x rest =>
    have hx := inv_setInputs h rest
    cases x with
    | word bs => rw [step_word hin] at he; exact inv_runWord hx he
    | payload q => rw [step_payload hin] at he; exact inv_runPayload hx he
    | reset => rw [step_reset hin, Host.Outcome.next.injEq] at he; subst he; exact inv_afterReset _

end Sys2Proof.Machine
end

section
/-! PROOFS. TICKs in which at most one group acts, on a transport whose answers are given: nothing to do (O28, O29), an
Enabled group (O34, O35) and a decelerating one (O36). -/

namespace Sys2Proof.Machine

/-! ### TICKs with every group Disabled (R263, R264) -/

section
variable {s t : State} {g : GroupIx} {now : Time}

/-- A TICK whose watchdog and transitions leave no group Enabled ends with them. -/
theorem tickSteps_of_watchdog (hw : s.watchdogCheck now = s) (ht : forGroups (State.transition now) s = t)
    (hst : ∀ g, t.stateOf g ≠ .enabled) : s.tickSteps now = t := by
  rw [State.tickSteps, hw, ht, forGroups_idle fun g => rampGroup_idle (hst g),
    forGroups_idle fun g => driveGroup_idle (hst g)]

theorem still_of_disabled (h : ∀ g, s.stateOf g = .disabled) : s.Still := fun g => by rw [h g]; rfl

/-- A stale turn of a Disabled group drops its request (R264). -/
theorem transition_stale (hst : s.stateOf g = .disabled) (hs : s.stale now = true) :
    s.transition now g = s.setPending g false := by
  cases hp : s.pendingOf g with
  | false =>
    have hset : s.pending.set g false = s.pending := by
      rw [← hp]; exact Vector.set_getElem_self _
    rw [transition_idle now hst hp, State.setPending, hset]
  | true =>
    have hs' : (s.setPending g false).stale now = true := hs
    rw [State.transition, hst]
    simp only [hp, if_true, State.requestEnable, hs']

/-- The stale turns of all groups. -/
theorem transitions_stale (hst : ∀ g, s.stateOf g = .disabled) (hs : s.stale now = true) :
    forGroups (State.transition now) s = { s with pending := Vector.replicate 4 false } := by
  have hall (v : Vector Bool 4) :
      (((v.set (0 : GroupIx) false).set (1 : GroupIx) false).set (2 : GroupIx) false).set (3 : GroupIx) false
        = Vector.replicate 4 false := by
    ext i hi
    interval_cases i <;> simp
  rw [← hall s.pending]
  show (((s.transition now 0).transition now 1).transition now 2).transition now 3 = _
  have hturn (p : Vector Bool 4) (g : GroupIx) :
      ({ s with pending := p } : State).transition now g = { s with pending := p.set g false } :=
    transition_stale (s := { s with pending := p }) (hst g) hs
  rw [transition_stale (hst 0) hs, State.setPending, hturn, hturn, hturn]

end

/-- Settles O28: the watchdog finds no group Enabled, and no group has a turn. -/
theorem quietTickChangesNothing : Obligations.QuietTickChangesNothing := by
  intro s now hr hq
  have hd (g : GroupIx) : s.begin.stateOf g = .disabled := (hq g).1
  have ht : s.begin.tickSteps now = s.begin :=
    tickSteps_of_watchdog (watchdogCheck_still (still_of_disabled hd))
      (forGroups_idle fun g => transition_idle now (hd g) (hq g).2) fun g => by rw [hd g]; decide
  rw [exec_tick s now hr, ht]
  rfl

/-- Settles O29: every turn drops the request of its group and nothing else. -/
theorem staleRequestIsDiscarded : Obligations.StaleRequestIsDiscarded := by
  intro s now hr hs hd
  have ht := tickSteps_of_watchdog (s := s.begin) (now := now) (watchdogCheck_still (still_of_disabled hd))
    (transitions_stale (s := s.begin) hd hs) fun g => by
      show s.stateOf g ≠ .enabled
      rw [hd g]; decide
  rw [exec_tick s now hr, ht]
  rfl

/-! ### A TICK in which one group acts (R263) -/

section
variable {s t : State} {g : GroupIx} {now : Time}

theorem othersIdle_of_seq {A : MotorIx → Cmd → Prop} (h : SeqEffect g A s t) (hidle : s.othersIdle g) :
    t.othersIdle g := fun k hk => by
  obtain ⟨hst, -, hp⟩ := LinkGroup_notReacts (h.others k hk) (by rw [(hidle k hk).1]; rfl)
  exact ⟨hst.trans (hidle k hk).1, hp.trans (hidle k hk).2⟩

theorem othersIdle_ne_enabled (hidle : s.othersIdle g) {k : GroupIx} (hk : k ≠ g) : s.stateOf k ≠ .enabled := by
  rw [(hidle k hk).1]; decide

theorem driveGroup_effect (s : State) (g : GroupIx) : LinkEffect anyCmd s (s.driveGroup g) :=
  foldl_effect _ _ _ (LinkEffect_refl anyCmd s) fun u m _ hu => by
    split
    · exact sendVelocity_effect m u trivial (LinkEffect_refl anyCmd u)
    · exact LinkEffect_refl anyCmd u

/-- Only one group's turn, ramp step and velocities. -/
theorem tickSteps_single (hw : s.watchdogCheck now = s) (hidle : s.othersIdle g) :
    s.tickSteps now = ((s.transition now g).rampGroup g).driveGroup g := by
  have hseq := (transition_spec (g := g) (A := anyCmd) now s (fun _ _ _ _ => trivial) fun _ _ _ _ => trivial).1
  have ht := othersIdle_of_seq hseq hidle
  have hturns : forGroups (State.transition now) s = s.transition now g :=
    forGroups_single (fun k hk => transition_idle now (hidle k hk).1 (hidle k hk).2) fun k hk =>
      transition_idle now (ht k hk).1 (ht k hk).2
  rw [State.tickSteps, hw, hturns]
  generalize s.transition now g = u at ht
  have hu : (u.rampGroup g).othersIdle g := by
    have hframe := (rampGroup_spec g u).2
    generalize u.rampGroup g = v at hframe
    rw [hframe]; exact ht
  rw [forGroups_single (g := g) (fun k hk => rampGroup_idle (othersIdle_ne_enabled ht hk)) fun k hk =>
    rampGroup_idle (othersIdle_ne_enabled hu hk)]
  have hv := othersIdle_of_seq (LinkEffect_seq (driveGroup_effect (u.rampGroup g) g)) hu
  exact forGroups_single (fun k hk => driveGroup_idle (othersIdle_ne_enabled hu hk)) fun k hk =>
    driveGroup_idle (othersIdle_ne_enabled hv hk)

theorem watchdogCheck_fresh (h : s.stale now = false) : s.watchdogCheck now = s := by
  rw [State.watchdogCheck, h]; rfl

/-- Such a TICK of a group that its turn does not leave Enabled. -/
theorem tickSteps_single_stopped (hw : s.watchdogCheck now = s) (hidle : s.othersIdle g)
    (hst : (s.transition now g).stateOf g ≠ .enabled) : s.tickSteps now = s.transition now g := by
  rw [tickSteps_single hw hidle, rampGroup_idle hst, driveGroup_idle hst]

/-! ### Ramp steps as whole states -/

theorem rampcur_eq_rampsWith {f : MotorIx → Half}
    (h : ∀ m, t.rampOf m = if m ∈ s.members g then f m else s.rampOf m) : t.rampcur = s.rampsWith g f := by
  refine Vector.ext fun i hi => ?_
  have hm := h ⟨i, hi⟩
  simp only [mem_members] at hm
  simpa [State.rampsWith, State.rampOf] using hm

theorem rampsWith_rampOf {f : MotorIx → Half} {m : MotorIx} (hm : m ∈ s.members g) :
    ({ s with rampcur := s.rampsWith g f } : State).rampOf m = f m := by
  simp [State.rampsWith, State.rampOf, (mem_members s g m).mp hm]

theorem rampGroup_enabled (hst : s.stateOf g = .enabled) :
    s.rampGroup g = { s with rampcur := s.rampsWith g s.rampedOf } := by
  obtain ⟨hramp, hframe⟩ := rampMotors_spec (s.members g) (nodup_members s g) s
  rw [State.rampGroup, if_pos hst, hframe, rampcur_eq_rampsWith hramp]

theorem decelMotors_eq (s : State) (g : GroupIx) :
    (s.members g).foldl (fun s m => s.decelMotor m) s = { s with rampcur := s.rampsWith g s.deceledOf } := by
  obtain ⟨hramp, hframe⟩ := decelMotors_spec (s.members g) (nodup_members s g) s
  rw [hframe, rampcur_eq_rampsWith hramp]

theorem zeroRamps_eq (s : State) (g : GroupIx) :
    s.zeroRamps (s.members g) = { s with rampcur := s.rampsWith g fun _ => 0 } := by
  obtain ⟨hramp, hframe⟩ := zeroRamps_spec (s.members g) s
  rw [hframe, rampcur_eq_rampsWith hramp]

/-! ### Velocities on a transport that accepts them (R282, R283) -/

/-- The velocity frames of motors at their ramp outputs. -/
def State.velocityFrames (s : State) (ms : List MotorIx) : List Bytes :=
  ms.map fun m => s.frameFor m (s.velocityCmd (s.rampOf m))

/-- The frames after a ramp step are those of the stepped outputs. -/
theorem velocityFrames_rampsWith (s : State) (g : GroupIx) (f : MotorIx → Half) :
    ({ s with rampcur := s.rampsWith g f } : State).velocityFrames (s.members g)
      = (s.members g).map fun m => s.frameFor m (s.velocityCmd (f m)) :=
  List.map_congr_left fun m hm => by rw [rampsWith_rampOf hm]; rfl

variable {later : List SendOutcome}

theorem sendVelocity_accepted (m : MotorIx) (hrsp : s.rspExpected = false) (h : s.sends = .ok :: later) :
    s.sendVelocity m = s.sentOk (s.velocityFrames [m]) later := by
  have hrsp' (frames : List Bytes) : (s.sentOk frames later).rspExpected = false := hrsp
  rw [State.sendVelocity, command_accepted m _ h]
  simp only [hrsp', Bool.false_eq_true, if_false]
  rfl

theorem sendVelocity_missed (m : MotorIx) (hrsp : s.rspExpected = true) (hb : s.rxbuf = []) (ha : s.arrivals = [])
    (h : s.sends = .ok :: later) : s.sendVelocity m = (s.sentOk (s.velocityFrames [m]) later).noResponse := by
  have hrsp' (frames : List Bytes) : (s.sentOk frames later).rspExpected = true := hrsp
  have hawait (frames : List Bytes) (addr : Nat) :
      (s.sentOk frames later).await addr 0xF6 = (none, (s.sentOk frames later).noResponse) :=
    await_nothing addr _ _ hb ha
  rw [State.sendVelocity, command_accepted m _ h]
  simp only [hrsp', if_true, hawait]
  rfl

/-- Driving motors without awaiting (R282). -/
theorem driveMotors_accepted (ms : List MotorIx) (hst : s.stateOf g = .enabled) (hrsp : s.rspExpected = false)
    (h : s.sends = List.replicate ms.length .ok ++ later) :
    ms.foldl (fun s m => if s.stateOf g = .enabled then s.sendVelocity m else s) s
      = s.sentOk (s.velocityFrames ms) later := by
  induction ms generalizing s with
  | nil => exact (sentOk_nil h).symm
  | cons m ms ih =>
    have h' : s.sends = .ok :: (List.replicate ms.length .ok ++ later) := h
    rw [List.foldl_cons, if_pos hst, sendVelocity_accepted m hrsp h',
      ih (s := s.sentOk (s.velocityFrames [m]) _) hst hrsp rfl, sentOk_sentOk]
    rfl

/-- Driving motors that should answer and do not (R283). -/
theorem driveMotors_missed (ms : List MotorIx) (hst : s.stateOf g = .enabled) (hrsp : s.rspExpected = true)
    (hb : s.rxbuf = []) (ha : s.arrivals = []) (h : s.sends = List.replicate ms.length .ok ++ later) :
    ms.foldl (fun s m => if s.stateOf g = .enabled then s.sendVelocity m else s) s
      = (s.sentOk (s.velocityFrames ms) later).missed ms.length := by
  induction ms generalizing s with
  | nil => exact ((missed_zero _).trans (sentOk_nil h)).symm
  | cons m ms ih =>
    have h' : s.sends = .ok :: (List.replicate ms.length .ok ++ later) := h
    have hsplit : s.velocityFrames (m :: ms) = s.velocityFrames [m] ++ s.velocityFrames ms := rfl
    rw [List.foldl_cons, if_pos hst, sendVelocity_missed m hrsp hb ha h',
      ih (s := (s.sentOk (s.velocityFrames [m]) _).noResponse) hst hrsp hb ha rfl, hsplit,
      ← sentOk_sentOk _ _ _ (List.replicate ms.length .ok ++ later), List.length_cons, ← noResponse_missed]
    rfl

/-- Velocities of the emergency stop (R279). -/
theorem velocities_accepted (ms : List MotorIx) (h : s.sends = List.replicate ms.length .ok ++ later) :
    ms.foldl (fun s m => (s.command m (s.velocityCmd (s.rampOf m))).2) s = s.sentOk (s.velocityFrames ms) later := by
  induction ms generalizing s with
  | nil => exact (sentOk_nil h).symm
  | cons m ms ih =>
    have h' : s.sends = .ok :: (List.replicate ms.length .ok ++ later) := h
    rw [List.foldl_cons, command_accepted m _ h', ih rfl, sentOk_sentOk]
    rfl

/-! ### A frame that the transport refuses while one group reacts (R316) -/

/-- A transport fault felt by one group. -/
def State.faultOf (g : GroupIx) (s : State) : State :=
  (((s.setFlag .transport).setReopen true).noteIoErr).enterEStop g 3

theorem transportFault_single (hst : reactsToFault (s.stateOf g) = true)
    (hidle : ∀ k, k ≠ g → reactsToFault (s.stateOf k) = false) : s.transportFault = s.faultOf g := by
  unfold State.transportFault State.faultOf
  generalize hu : ((s.setFlag .transport).setReopen true).noteIoErr = u
  have hu (k : GroupIx) : u.stateOf k = s.stateOf k := by rw [← hu]; rfl
  have hturn : (if reactsToFault (u.stateOf g) then u.enterEStop g 3 else u) = u.enterEStop g 3 := by
    rw [hu, if_pos hst]
  have h := forGroups_single (s := u) (g := g)
    (f := fun k t => if reactsToFault (t.stateOf k) then t.enterEStop k 3 else t)
    (fun k hk => by rw [hu, hidle k hk]; rfl)
    (fun k hk => by
      have hk' : (u.enterEStop g 3).stateOf k = s.stateOf k := by
        rw [State.enterEStop_stateOf, if_neg hk, hu]
      rw [hturn, hk', hidle k hk]; rfl)
  exact h.trans hturn

/-- The state after a refused frame that one group reacts to. -/
def State.refused (g : GroupIx) (f : Bytes) (n : Nat) (later : List SendOutcome) (s : State) : State :=
  State.faultOf g { s with
    lastTx := f, txLog := s.txLog ++ [⟨f, .ioErr n⟩], sends := later, sendCount := s.sendCount + 1 }

theorem command_refused {n : Nat} (m : MotorIx) (c : Cmd) (h : s.sends = .ioErr n :: later)
    (hst : reactsToFault (s.stateOf g) = true) (hidle : ∀ k, k ≠ g → reactsToFault (s.stateOf k) = false) :
    s.command m c = (false, s.refused g (s.frameFor m c) n later) := by
  have hn : s.nextSend = .ioErr n := by simp [State.nextSend, h]
  have hfault : (s.recordSend (s.frameFor m c)).transportFault = (s.recordSend (s.frameFor m c)).faultOf g :=
    transportFault_single hst hidle
  rw [State.command, transmit_err _ _ (by rw [hn]; rfl), hfault, State.recordSend, hn, h]
  rfl

theorem othersIdle_notReacts (hidle : s.othersIdle g) (k : GroupIx) (hk : k ≠ g) :
    reactsToFault (s.stateOf k) = false := by
  rw [(hidle k hk).1]; rfl

theorem refused_stateOf (f : Bytes) (n : Nat) (s : State) : (s.refused g f n later).stateOf g = .emergencyStop := by
  rw [State.refused, State.faultOf, State.enterEStop_stateOf, if_pos rfl]

/-! ### The TICK of an Enabled group without a request (R263, R281) -/

/-- The state in which the members of an Enabled group have made their ramp step. -/
def State.stepped (s : State) (g : GroupIx) : State := { s with rampcur := s.rampsWith g s.rampedOf }

theorem tickSteps_driving (hfresh : s.stale now = false) (hst : s.stateOf g = .enabled) (hp : s.pendingOf g = false)
    (hidle : s.othersIdle g) : s.tickSteps now = (s.stepped g).driveGroup g := by
  have hturn : s.transition now g = s := by
    rw [State.transition, hst]
    simp only [hp, Bool.false_eq_true, if_false]
  rw [tickSteps_single (watchdogCheck_fresh hfresh) hidle, hturn, rampGroup_enabled hst]
  rfl

/-- The velocity frames of a group's members after their ramp step. -/
def State.drivingFrames (s : State) (g : GroupIx) : List Bytes :=
  (s.members g).map fun m => s.frameFor m (s.velocityCmd (s.rampedOf m))

theorem driveGroup_accepted (hst : s.stateOf g = .enabled) (hrsp : s.rspExpected = false)
    (h : s.sends = List.replicate (s.drivingFrames g).length .ok ++ later) :
    (s.stepped g).driveGroup g = (s.stepped g).sentOk (s.drivingFrames g) later := by
  have h' : (s.stepped g).sends = List.replicate (s.members g).length .ok ++ later := by
    rw [State.drivingFrames, List.length_map] at h; exact h
  rw [State.drivingFrames, ← velocityFrames_rampsWith]
  exact driveMotors_accepted (s := s.stepped g) (s.members g) hst hrsp h'

theorem driveGroup_missed (hst : s.stateOf g = .enabled) (hrsp : s.rspExpected = true) (hb : s.rxbuf = [])
    (ha : s.arrivals = []) (h : s.sends = List.replicate (s.drivingFrames g).length .ok ++ later) :
    (s.stepped g).driveGroup g = ((s.stepped g).sentOk (s.drivingFrames g) later).missed (s.members g).length := by
  have h' : (s.stepped g).sends = List.replicate (s.members g).length .ok ++ later := by
    rw [State.drivingFrames, List.length_map] at h; exact h
  rw [State.drivingFrames, ← velocityFrames_rampsWith]
  exact driveMotors_missed (s := s.stepped g) (s.members g) hst hrsp hb ha h'

theorem driveGroup_refused {m : MotorIx} {ms : List MotorIx} {n : Nat} (hmem : s.members g = m :: ms)
    (hst : s.stateOf g = .enabled) (hidle : s.othersIdle g) (h : s.sends = .ioErr n :: later) :
    s.driveGroup g = s.refused g (s.frameFor m (s.velocityCmd (s.rampOf m))) n later := by
  have hsend : s.sendVelocity m = s.refused g (s.frameFor m (s.velocityCmd (s.rampOf m))) n later := by
    rw [State.sendVelocity, command_refused (g := g) m _ h (by rw [hst]; rfl) (othersIdle_notReacts hidle)]
  rw [State.driveGroup, hmem, List.foldl_cons, if_pos hst, hsend]
  refine foldl_keeps (P := fun t => t = s.refused g _ n later) _ ms _ (fun t k _ ht => ?_) rfl
  rw [ht, refused_stateOf, if_neg (by decide)]

end

/-- Settles O34: one ramp step, then the velocities, awaited or not. -/
theorem drivingTickRampsAndSends : Obligations.DrivingTickRampsAndSends := by
  intro s g now later hr hfresh hst hp hidle frames hsends
  have htick := tickSteps_driving (s := s.begin) hfresh hst hp hidle
  rw [exec_tick s now hr, htick]
  refine ⟨fun hrsp => ?_, fun hrsp hb ha => ?_⟩
  · rw [driveGroup_accepted (s := s.begin) hst hrsp hsends]
    rfl
  · have hsticky : (if s.members g = [] then s.sticky else s.sticky ||| 0x10)
        = if (s.members g).length = 0 then s.sticky else s.sticky ||| 0x10 := by simp only [List.length_eq_zero_iff]
    rw [driveGroup_missed (s := s.begin) hst hrsp hb ha hsends, hsticky]
    rfl

/-- Settles O35: the first frame puts the group in EmergencyStop, and the other motors get none. -/
theorem drivingStopsAtAnIoErr : Obligations.DrivingStopsAtAnIoErr := by
  intro s g m ms now n later hr hfresh hst hp hidle hmem hsends
  have htick := tickSteps_driving (s := s.begin) hfresh hst hp hidle
  have hdrive := driveGroup_refused (s := s.begin.stepped g) hmem hst hidle hsends
  have hramp : (s.begin.stepped g).rampOf m = s.rampedOf m :=
    rampsWith_rampOf (s := s.begin) (f := s.begin.rampedOf) (hmem ▸ List.mem_cons_self)
  have hpend : s.pending.set g false = s.pending := by rw [← hp]; exact Vector.set_getElem_self _
  rw [hramp] at hdrive
  rw [exec_tick s now hr, htick, hdrive]
  conv_rhs => rw [← hpend]
  rfl

/-! ### The TICK of a group in EmergencyStop that is not at rest (R279) -/

section
variable {s : State} {g : GroupIx} {now : Time} {later : List SendOutcome}

theorem still_of_estop (hst : s.stateOf g = .emergencyStop) (hidle : s.othersIdle g) : s.Still := fun k => by
  by_cases hk : k = g
  · rw [hk, hst]; rfl
  · exact othersIdle_notReacts hidle k hk

theorem transition_estop (hst : s.stateOf g = .emergencyStop) : s.transition now g = s.estopStepGroup g := by
  rw [State.transition, hst]

theorem estopStepGroup_moving (hm : ∃ m, s.isMember g m = true ∧ s.rampOf m ≠ 0)
    (h : s.sends = List.replicate (s.members g).length .ok ++ later) :
    s.estopStepGroup g = ({ s with rampcur := s.rampsWith g s.deceledOf } : State).sentOk
      ((s.members g).map fun m => s.frameFor m (s.velocityCmd (s.deceledOf m))) later := by
  have hall : ¬ ((s.members g).all fun m => s.rampOf m == 0) = true := by
    obtain ⟨m, hmem, hne⟩ := hm
    rw [List.all_eq_true]
    exact fun hz => hne (by simpa using hz m ((mem_members s g m).mpr hmem))
  have h' : ({ s with rampcur := s.rampsWith g s.deceledOf } : State).sends
      = List.replicate (s.members g).length .ok ++ later := h
  rw [State.estopStepGroup]
  simp only [if_neg hall, decelMotors_eq]
  rw [velocities_accepted _ h', velocityFrames_rampsWith]

end

/-- Settles O36: the watchdog has nothing to stop, and the group's turn is the deceleration. -/
theorem eStopTickDecelerates : Obligations.EStopTickDecelerates := by
  intro s g now later hr hst hidle hm frames hsends
  have hturn : s.begin.transition now g = s.begin.estopStepGroup g := transition_estop hst
  have hlen : frames.length = (s.members g).length := List.length_map _
  rw [hlen] at hsends
  rw [estopStepGroup_moving (s := s.begin) hm hsends] at hturn
  have hst' : (s.begin.transition now g).stateOf g ≠ .enabled := by
    rw [hturn]; show s.stateOf g ≠ .enabled; rw [hst]; decide
  have hw : s.begin.watchdogCheck now = s.begin := watchdogCheck_still (still_of_estop (s := s.begin) hst hidle)
  rw [exec_tick s now hr, tickSteps_single_stopped hw hidle hst', hturn]
  rfl

end Sys2Proof.Machine
end

section
/-! PROOFS. The TICK that enables one group: accepted without verification (O30), verified by a response (O31), and cut off by
a refused frame (O33). -/

namespace Sys2Proof.Machine

section
variable {s : State} {g : GroupIx} {m : MotorIx} {later : List SendOutcome}

/-! ### The commands (R271, R281) -/

theorem handshake_eq (s : State) : s.handshake
    = match s.regs.cfg.getLsbD 11, s.regs.cfg.getLsbD 12, s.regs.cfg.getLsbD 13 with
      | false, false, _ => []
      | true, false, _ => [Cmd.workingCurrent ((s.regs.cur.extractLsb' 0 12).setWidth 32)]
      | false, true, _ => [Cmd.holdingCurrentPercent ((s.regs.cur.extractLsb' 16 8).setWidth 32)]
      | true, true, false => [Cmd.workingCurrent ((s.regs.cur.extractLsb' 0 12).setWidth 32),
          Cmd.holdingCurrentPercent ((s.regs.cur.extractLsb' 16 8).setWidth 32)]
      | true, true, true => [Cmd.holdingCurrentPercent ((s.regs.cur.extractLsb' 16 8).setWidth 32),
          Cmd.workingCurrent ((s.regs.cur.extractLsb' 0 12).setWidth 32)] := by
  unfold State.handshake State.hsWc State.hsHc State.hsOrder State.wcMa State.hcPct
  cases s.regs.cfg.getLsbD 11 <;> cases s.regs.cfg.getLsbD 12 <;> cases s.regs.cfg.getLsbD 13 <;> rfl

/-! ### Sending a list of commands to one member (R270) -/

theorem sendUntilErr_append (m : MotorIx) (a b : List Cmd) (s : State) :
    sendUntilErr m (a ++ b) s = match sendUntilErr m a s with
      | (true, t) => sendUntilErr m b t
      | (false, t) => (false, t) := by
  induction a generalizing s with
  | nil => rfl
  | cons c a ih =>
    rw [List.cons_append, sendUntilErr, sendUntilErr]
    split
    · exact ih _
    · rfl

/-- What is left when `k` of the frames of a list are accepted and the next is refused. -/
def State.cut (g : GroupIx) (frames : List Bytes) (k n : Nat) (later : List SendOutcome) (s : State) : State :=
  (s.sentOk (frames.take k) (.ioErr n :: later)).refused g (frames.getD k []) n later

/-- The group that reacts to a transport fault, and no other. -/
structure State.Alone (s : State) (g : GroupIx) : Prop where
  reacts : reactsToFault (s.stateOf g) = true
  others : ∀ k, k ≠ g → reactsToFault (s.stateOf k) = false

theorem cut_zero (f : Bytes) (fs : List Bytes) (n : Nat) (h : s.sends = .ioErr n :: later) :
    s.cut g (f :: fs) 0 n later = s.refused g f n later := by
  rw [State.cut, List.take_zero, sentOk_nil h]
  rfl

theorem cut_append_left {a : List Bytes} (b : List Bytes) {k : Nat} (n : Nat) (h : k < a.length) :
    s.cut g (a ++ b) k n later = s.cut g a k n later := by
  rw [State.cut, State.cut, List.take_append_of_le_length h.le, List.getD_append _ _ _ _ h]

theorem cut_append_right (a b : List Bytes) (k n : Nat) (l : List SendOutcome) :
    s.cut g (a ++ b) (a.length + k) n later = (s.sentOk a l).cut g b k n later := by
  rw [State.cut, State.cut, List.take_length_add_append, List.getD_append_right _ _ _ _ (Nat.le_add_right _ _),
    Nat.add_sub_cancel_left, sentOk_sentOk]

theorem cut_succ (f : Bytes) (fs : List Bytes) (k n : Nat) (l : List SendOutcome) :
    s.cut g (f :: fs) (k + 1) n later = (s.sentOk [f] l).cut g fs k n later := by
  rw [Nat.add_comm k 1]
  exact cut_append_right [f] fs k n l

theorem sendUntilErr_cut (m : MotorIx) (cs : List Cmd) {k n : Nat} (hk : k < cs.length)
    (h : s.sends = List.replicate k .ok ++ .ioErr n :: later) (ha : s.Alone g) :
    sendUntilErr m cs s = (false, s.cut g (cs.map (s.frameFor m)) k n later) := by
  induction cs generalizing s k with
  | nil => cases hk
  | cons c cs ih =>
    rw [sendUntilErr, List.map_cons]
    cases k with
    | zero => rw [command_refused m c h ha.reacts ha.others, cut_zero _ _ _ h]
    | succ k =>
      have h' : s.sends = .ok :: (List.replicate k .ok ++ .ioErr n :: later) := h
      rw [command_accepted m c h']
      simp only
      rw [ih (s := s.sentOk _ _) (by simpa using hk) rfl ⟨ha.reacts, ha.others⟩,
        cut_succ _ _ _ _ (List.replicate k .ok ++ .ioErr n :: later)]
      rfl

/-! ### Enabling without verification (R270) -/

/-- The frames that enable a list of members without verification. -/
def State.memberFrames (s : State) (ms : List MotorIx) : List Bytes :=
  ms.flatMap fun m => (s.handshake ++ [Cmd.enable 1]).map (s.frameFor m)

theorem memberFrames_cons (s : State) (m : MotorIx) (ms : List MotorIx) :
    s.memberFrames (m :: ms) = (s.handshake ++ [Cmd.enable 1]).map (s.frameFor m) ++ s.memberFrames ms := rfl

/-- One member without verification: the handshake and one Enable(true). -/
theorem enableMembers_unverified (ms : List MotorIx) (hv : s.verifyEn = false) (ha : 1 ≤ s.enableAttempts) :
    enableMembers g (m :: ms) s = match sendUntilErr m (s.handshake ++ [Cmd.enable 1]) s with
      | (true, t) => enableMembers g ms t
      | (false, t) => t := by
  have heff := sendUntilErr_effect (A := anyCmd) m s.handshake (fun _ _ => trivial) s (LinkEffect_refl anyCmd s)
  rw [enableMembers, sendUntilErr_append]
  split
  · next t e => rw [e]
  · next t e =>
    rw [e] at heff ⊢
    obtain ⟨n, hn⟩ := Nat.exists_eq_add_of_le' ((keeps_enableAttempts heff.keeps).symm ▸ ha)
    have hv1 := (keeps_verifyEn (command_effect (A := anyCmd) t m (.enable 1) trivial).keeps).trans
      ((keeps_verifyEn heff.keeps).trans hv)
    simp only
    rw [hn, tryEnable, sendUntilErr]
    rcases hcmd : t.command m (.enable 1) with ⟨ok, u⟩
    rw [hcmd] at hv1
    cases ok with
    | false => rfl
    | true => simp only [hv1, Bool.not_false, if_true]; rfl

theorem enableMembers_accepted (ms : List MotorIx) (hv : s.verifyEn = false) (ha : 1 ≤ s.enableAttempts)
    (h : s.sends = List.replicate (s.memberFrames ms).length .ok ++ later) :
    enableMembers g ms s = (s.sentOk (s.memberFrames ms) later).setState g .enabled := by
  induction ms generalizing s with
  | nil => rw [enableMembers, show s.sentOk (s.memberFrames []) later = s from sentOk_nil h]
  | cons m ms ih =>
    rw [memberFrames_cons, List.length_append, List.length_map, List.replicate_add, List.append_assoc] at h
    rw [enableMembers_unverified ms hv ha, sendUntilErr_accepted m _ h]
    simp only
    rw [ih (s := s.sentOk _ _) hv ha rfl, sentOk_sentOk]
    rfl

theorem enableMembers_cut (ms : List MotorIx) (hv : s.verifyEn = false) (ha : 1 ≤ s.enableAttempts) {k n : Nat}
    (hk : k < (s.memberFrames ms).length) (h : s.sends = List.replicate k .ok ++ .ioErr n :: later) (hal : s.Alone g) :
    enableMembers g ms s = s.cut g (s.memberFrames ms) k n later := by
  induction ms generalizing s k with
  | nil => cases hk
  | cons m ms ih =>
    rw [enableMembers_unverified ms hv ha, memberFrames_cons]
    by_cases hlt : k < (s.handshake ++ [Cmd.enable 1]).length
    · rw [sendUntilErr_cut m _ hlt h hal, cut_append_left _ _ (by rw [List.length_map]; exact hlt)]
    · obtain ⟨j, rfl⟩ := Nat.exists_eq_add_of_le (Nat.le_of_not_lt hlt)
      have hj : j < (s.memberFrames ms).length := by
        simp only [memberFrames_cons, List.length_append, List.length_map] at hk
        omega
      rw [List.replicate_add, List.append_assoc] at h
      rw [sendUntilErr_accepted m _ h]
      simp only
      rw [ih (s := s.sentOk _ _) hv ha hj rfl ⟨hal.reacts, hal.others⟩,
        ← List.length_map (as := s.handshake ++ [Cmd.enable 1]) (s.frameFor m), cut_append_right]
      rfl

/-! ### One attempt with verification (R270, R272) -/

theorem firstByteIs_iff (v : Byte) (d : Bytes) : firstByteIs v (some d) = true ↔ d.head? = some v := by
  cases d <;> simp [firstByteIs]

/-- What an answered `Await` leaves. -/
def State.heard (rsp rest : Bytes) (s : State) : State :=
  { s with rxbuf := rest, arrivals := s.arrivals.tail, lastRx := rsp }

theorem answered_sentOk {addr : Nat} {code : Byte} {skipped : List Bytes} {rsp rest : Bytes}
    (h : s.Answered addr code skipped rsp rest) (frames : List Bytes) (l : List SendOutcome) :
    (s.sentOk frames l).Answered addr code skipped rsp rest := ⟨h.stream, h.fits, h.skips, h.valid, h.answers⟩

theorem tryEnable_verified {n : Nat} {skipped : List Bytes} {rsp rest : Bytes} (hv : s.verifyEn = true) (hn : 1 ≤ n)
    (ha : s.Answered (s.addrOf m) s.sqCode skipped rsp rest) (hok : (dataByRule s.proto rsp).head? = some s.enOkVal)
    (h : s.sends = .ok :: .ok :: later) :
    tryEnable m n s
      = (.verified, (s.sentOk ([Cmd.enable 1, Cmd.statusQuery].map (s.frameFor m)) later).heard rsp rest) := by
  obtain ⟨n, rfl⟩ := Nat.exists_eq_add_of_le' hn
  have hv' (frames : List Bytes) (l : List SendOutcome) : (s.sentOk frames l).verifyEn = true := hv
  have hawait (frames : List Bytes) : (s.sentOk frames later).await (s.addrOf m) s.sqCode
      = (some (dataByRule s.proto rsp), (s.sentOk frames later).heard rsp rest) :=
    await_answered (answered_sentOk ha frames later)
  have hfirst : firstByteIs s.enOkVal (some (dataByRule s.proto rsp)) = true := (firstByteIs_iff _ _).mpr hok
  rw [tryEnable, command_accepted m _ h]
  simp only [hv', Bool.not_true, Bool.false_eq_true, if_false]
  rw [command_accepted m _ rfl, sentOk_sentOk]
  simp only
  rw [show ∀ frames, (s.sentOk frames later).addrOf m = s.addrOf m from fun _ => rfl,
    show ∀ frames, (s.sentOk frames later).sqCode = s.sqCode from fun _ => rfl, hawait]
  simp only
  rw [if_pos]
  · rfl
  · exact hfirst

/-- The attempts to enable a member that does not answer, cut off by a refused frame. -/
theorem tryEnable_cut (m : MotorIx) (n : Nat) {k e : Nat} (hq : s.Silent) (hal : s.Alone g)
    (hk : k < (List.replicate n [Cmd.enable 1, Cmd.statusQuery]).flatten.length)
    (h : s.sends = List.replicate k .ok ++ .ioErr e :: later) :
    tryEnable m n s = (.ioErr, (s.missed (k / 2)).cut g
      ((List.replicate n [Cmd.enable 1, Cmd.statusQuery]).flatten.map (s.frameFor m)) k e later) := by
  induction n generalizing s k with
  | zero => cases hk
  | succ n ih =>
    rw [List.replicate_succ, List.flatten_cons] at hk ⊢
    rw [List.map_append]
    obtain rfl | rfl | ⟨j, rfl⟩ : k = 0 ∨ k = 1 ∨ ∃ j, k = 2 + j := by
      obtain _ | _ | j := k
      · exact .inl rfl
      · exact .inr (.inl rfl)
      · exact .inr (.inr ⟨j, by omega⟩)
    · rw [tryEnable, command_refused m _ h hal.reacts hal.others, missed_zero]
      simp only
      rw [cut_append_left _ _ (by simp)]
      exact congrArg _ (cut_zero _ _ _ h).symm
    · have hv (frames : List Bytes) (l : List SendOutcome) : (s.sentOk frames l).verifyEn = true := hq.verifyEn
      rw [tryEnable, command_accepted m _ (later := .ioErr e :: later) h]
      simp only [hv, Bool.not_true, Bool.false_eq_true, if_false]
      rw [command_refused (s := s.sentOk _ (.ioErr e :: later)) m _ rfl hal.reacts hal.others,
        cut_append_left _ _ (by simp), show 1 / 2 = 0 from rfl, missed_zero]
      rfl
    · have hnext : s.sends = .ok :: .ok :: (List.replicate j .ok ++ .ioErr e :: later) := by
        rw [h, List.replicate_add]; rfl
      have hj : j < (List.replicate n [Cmd.enable 1, Cmd.statusQuery]).flatten.length := by
        simp at hk ⊢
        omega
      rw [tryEnable_miss m n hq hnext,
        ih (silent_noResponse (silent_sentOk hq _ _)) ⟨hal.reacts, hal.others⟩ hj rfl,
        show (2 + j) / 2 = j / 2 + 1 by omega, ← noResponse_missed,
        show 2 + j = ([Cmd.enable 1, Cmd.statusQuery].map (s.frameFor m)).length + j from rfl, cut_append_right]
      rfl

/-- Enabling one member whose first query is answered as it should be. -/
theorem enableMembers_verified {skipped : List Bytes} {rsp rest : Bytes} (hv : s.verifyEn = true)
    (hn : 1 ≤ s.enableAttempts) (ha : s.Answered (s.addrOf m) s.sqCode skipped rsp rest)
    (hok : (dataByRule s.proto rsp).head? = some s.enOkVal)
    (h : s.sends = List.replicate (s.handshake ++ [Cmd.enable 1, Cmd.statusQuery]).length .ok ++ later) :
    enableMembers g [m] s = ((s.sentOk ((s.handshake ++ [Cmd.enable 1, Cmd.statusQuery]).map (s.frameFor m)) later).heard
      rsp rest).setState g .enabled := by
  rw [List.length_append, List.replicate_add, List.append_assoc] at h
  have h' : s.sends = List.replicate s.handshake.length .ok ++ (.ok :: .ok :: later) := h
  have hn' (frames : List Bytes) (l : List SendOutcome) : (s.sentOk frames l).enableAttempts = s.enableAttempts := rfl
  rw [enableMembers, sendUntilErr_accepted m _ h']
  simp only
  rw [hn', tryEnable_verified (s := s.sentOk _ _) hv hn (answered_sentOk ha _ _) hok rfl, List.map_append,
    ← sentOk_sentOk _ _ _ (.ok :: .ok :: later)]
  rfl

/-- Enabling one member that does not answer, cut off by a refused frame. -/
theorem enableMembers_silent_cut {k e : Nat} (hq : s.Silent) (hal : s.Alone g)
    (hk : k < (s.handshake ++ (List.replicate s.enableAttempts [Cmd.enable 1, Cmd.statusQuery]).flatten).length)
    (h : s.sends = List.replicate k .ok ++ .ioErr e :: later) :
    enableMembers g [m] s = (s.missed ((k - s.handshake.length) / 2)).cut g
      ((s.handshake ++ (List.replicate s.enableAttempts [Cmd.enable 1, Cmd.statusQuery]).flatten).map (s.frameFor m))
      k e later := by
  rw [enableMembers, List.map_append]
  by_cases hlt : k < s.handshake.length
  · rw [sendUntilErr_cut m _ hlt h hal, cut_append_left _ _ (by rw [List.length_map]; exact hlt),
      show (k - s.handshake.length) / 2 = 0 by omega, missed_zero]
  · obtain ⟨j, rfl⟩ := Nat.exists_eq_add_of_le (Nat.le_of_not_lt hlt)
    have hj : j < (List.replicate s.enableAttempts [Cmd.enable 1, Cmd.statusQuery]).flatten.length := by
      rw [List.length_append] at hk
      exact Nat.lt_of_add_lt_add_left hk
    rw [List.replicate_add, List.append_assoc] at h
    have hn' (frames : List Bytes) (l : List SendOutcome) : (s.sentOk frames l).enableAttempts = s.enableAttempts := rfl
    rw [sendUntilErr_accepted m _ h]
    simp only
    rw [hn', tryEnable_cut (s := s.sentOk _ _) m _ (silent_sentOk hq _ _) ⟨hal.reacts, hal.others⟩ hj rfl,
      ← List.length_map (as := s.handshake) (s.frameFor m), cut_append_right, List.length_map, Nat.add_sub_cancel_left]
    rfl

/-! ### The TICK that enables a group (R263, R264) -/

/-- A group whose request is consumed and whose Enabling has begun. -/
def State.asked (s : State) (g : GroupIx) : State := (s.setPending g false).setState g .enabling

theorem asked_stateOf (s : State) (g : GroupIx) : (s.asked g).stateOf g = .enabling := by
  rw [State.asked, State.setState_stateOf, if_pos rfl]

theorem asked_others (s : State) {g k : GroupIx} (hk : k ≠ g) :
    (s.asked g).stateOf k = s.stateOf k ∧ (s.asked g).pendingOf k = s.pendingOf k := by
  rw [State.asked, State.setState_stateOf, State.setState_pendingOf, State.setPending_pendingOf, if_neg hk, if_neg hk]
  exact ⟨rfl, rfl⟩

theorem asked_alone (hidle : s.othersIdle g) : (s.asked g).Alone g :=
  ⟨by rw [asked_stateOf]; rfl, fun k hk => by rw [(asked_others s hk).1, (hidle k hk).1]; rfl⟩

variable {now : Time}

theorem transition_asked (hfresh : s.stale now = false) (hst : s.stateOf g = .disabled) (hp : s.pendingOf g = true) :
    s.transition now g = enableMembers g (s.members g) (s.asked g) := by
  have hfresh' : (s.setPending g false).stale now = false := hfresh
  rw [State.transition, hst]
  simp only [hp, if_true, State.requestEnable, hfresh', Bool.false_eq_true, if_false]
  rfl

theorem cut_stateOf (frames : List Bytes) (k n : Nat) : (s.cut g frames k n later).stateOf g = .emergencyStop :=
  refused_stateOf _ _ _

/-- An Enabling that is cut off is all the TICK does. -/
theorem tickSteps_cut {t : State} {frames : List Bytes} {k n : Nat} (hfresh : s.stale now = false) (hst : s.stateOf g = .disabled)
    (hp : s.pendingOf g = true) (hidle : s.othersIdle g)
    (ht : enableMembers g (s.members g) (s.asked g) = t.cut g frames k n later) :
    s.tickSteps now = t.cut g frames k n later := by
  have hturn := (transition_asked hfresh hst hp).trans ht
  rw [tickSteps_single_stopped (watchdogCheck_fresh hfresh) hidle (by rw [hturn, cut_stateOf]; decide), hturn]

/-- An Enabling that succeeds is followed by the ramp step and the velocities. -/
theorem tickSteps_enabled {t : State} (hfresh : s.stale now = false) (hst : s.stateOf g = .disabled)
    (hp : s.pendingOf g = true) (hidle : s.othersIdle g)
    (ht : enableMembers g (s.members g) (s.asked g) = t.setState g .enabled) (hrsp : t.rspExpected = false)
    (hsends : t.sends = List.replicate (t.drivingFrames g).length .ok ++ later) :
    s.tickSteps now = ((t.setState g .enabled).stepped g).sentOk (t.drivingFrames g) later := by
  have hst' : (t.setState g .enabled).stateOf g = .enabled := by rw [State.setState_stateOf, if_pos rfl]
  rw [tickSteps_single (watchdogCheck_fresh hfresh) hidle, transition_asked hfresh hst hp, ht, rampGroup_enabled hst']
  exact driveGroup_accepted hst' hrsp hsends

end

section
variable {s t : State} {g : GroupIx} {m : MotorIx} {now : Time} {later : List SendOutcome}

/-! ### What the frames and the ramp steps depend on -/

theorem memberFrames_keeps (hk : s.KeepsConfig t) (ms : List MotorIx) : t.memberFrames ms = s.memberFrames ms := by
  have hf (m : MotorIx) : t.frameFor m = s.frameFor m := funext (keeps_frameFor hk m)
  simp only [State.memberFrames, keeps_handshake hk, hf]

theorem rampedOf_congr (hk : s.KeepsConfig t) (hr : t.rampcur = s.rampcur) : t.rampedOf = s.rampedOf :=
  funext fun m => by
    rw [State.rampedOf, State.rampedOf, rampOf_eq_of_rampcur hr, keeps_target hk, keeps_rampStep hk]

theorem rampsWith_congr (hk : s.KeepsConfig t) (hr : t.rampcur = s.rampcur) (f : MotorIx → Half) :
    t.rampsWith g f = s.rampsWith g f := by
  simp only [State.rampsWith, keeps_isMember hk, rampOf_eq_of_rampcur hr]

theorem drivingFrames_congr (hk : s.KeepsConfig t) (hr : t.rampcur = s.rampcur) :
    t.drivingFrames g = s.drivingFrames g := by
  simp only [State.drivingFrames, keeps_members hk, keeps_frameFor hk, keeps_velocityCmd hk, rampedOf_congr hk hr]

theorem begin_keeps (s : State) : s.KeepsConfig s.begin := ⟨rfl, rfl, rfl, rfl, rfl, rfl, rfl⟩

theorem asked_keeps (s : State) (g : GroupIx) : s.KeepsConfig (s.asked g) := ⟨rfl, rfl, rfl, rfl, rfl, rfl, rfl⟩

theorem heard_keeps (rsp rest : Bytes) (s : State) : s.KeepsConfig (s.heard rsp rest) := ⟨rfl, rfl, rfl, rfl, rfl, rfl, rfl⟩

/-- What a TICK that enabled a group leaves, after its link traffic ended in `t`. -/
def State.enabledWith (s : State) (g : GroupIx) (t : State) : State :=
  { t with mstate := s.mstate.set g .enabled, pending := s.pending.set g false, rampcur := s.rampsWith g s.rampedOf }

/-- The ramp step and the velocities after an Enabling that ended in `u`. -/
theorem tickSteps_enabledWith {u : State} (hk : (s.asked g).KeepsConfig u) (hr : u.rampcur = s.rampcur)
    (hm : u.mstate = (s.asked g).mstate) (hp : u.pending = (s.asked g).pending) :
    ((u.setState g .enabled).stepped g).sentOk (u.drivingFrames g) later
      = s.enabledWith g (u.sentOk (s.drivingFrames g) later) := by
  have hk' : s.KeepsConfig u := KeepsConfig_trans (asked_keeps s g) hk
  have hku : u.KeepsConfig (u.setState g .enabled) := ⟨rfl, rfl, rfl, rfl, rfl, rfl, rfl⟩
  have hset : u.mstate.set g .enabled = s.mstate.set g .enabled := by
    rw [hm]; exact Vector.set_set ..
  have hpend : u.pending = s.pending.set g false := hp
  rw [State.stepped, rampedOf_congr hku rfl, rampsWith_congr hku rfl, rampedOf_congr hk' hr, rampsWith_congr hk' hr,
    drivingFrames_congr hk' hr, State.enabledWith, ← hset, ← hpend]
  rfl

/-- The TICK that enables a group without verification. -/
theorem tickSteps_unverified (hfresh : s.stale now = false) (hst : s.stateOf g = .disabled) (hp : s.pendingOf g = true)
    (hidle : s.othersIdle g) (hv : s.verifyEn = false) (hrsp : s.rspExpected = false) (ha : 1 ≤ s.enableAttempts)
    (h : s.sends = List.replicate (s.memberFrames (s.members g) ++ s.drivingFrames g).length .ok ++ later) :
    s.tickSteps now = s.enabledWith g (s.sentOk (s.memberFrames (s.members g) ++ s.drivingFrames g) later) := by
  rw [List.length_append, List.replicate_add, List.append_assoc, ← memberFrames_keeps (asked_keeps s g)] at h
  have hen := enableMembers_accepted (s := s.asked g) (g := g) (s.members g) hv ha h
  rw [memberFrames_keeps (asked_keeps s g)] at hen
  generalize s.memberFrames (s.members g) = a at hen
  have hk := sentOk_keeps (s.asked g) a (List.replicate (s.drivingFrames g).length .ok ++ later)
  rw [tickSteps_enabled (later := later) hfresh hst hp hidle hen hrsp
    (by rw [drivingFrames_congr (KeepsConfig_trans (asked_keeps s g) hk) rfl]; rfl),
    tickSteps_enabledWith hk rfl rfl rfl, sentOk_sentOk]
  rfl

/-- The TICK that enables a group of one member, verified by the first response. -/
theorem tickSteps_verified {skipped : List Bytes} {rsp rest : Bytes} {sent : List Bytes} (hfresh : s.stale now = false)
    (hst : s.stateOf g = .disabled) (hp : s.pendingOf g = true) (hidle : s.othersIdle g) (hm : s.members g = [m])
    (hv : s.verifyEn = true) (hrsp : s.rspExpected = false) (hn : 1 ≤ s.enableAttempts)
    (ha : s.Answered (s.addrOf m) s.sqCode skipped rsp rest) (hok : (dataByRule s.proto rsp).head? = some s.enOkVal)
    (hsent : sent = (s.handshake ++ [Cmd.enable 1, Cmd.statusQuery]).map (s.frameFor m))
    (h : s.sends = List.replicate (sent ++ s.drivingFrames g).length .ok ++ later) :
    s.tickSteps now = s.enabledWith g ((s.sentOk (sent ++ s.drivingFrames g) later).heard rsp rest) := by
  rw [List.length_append, List.replicate_add, List.append_assoc] at h
  have hen : enableMembers g (s.members g) (s.asked g)
      = (((s.asked g).sentOk sent (List.replicate (s.drivingFrames g).length .ok ++ later)).heard rsp rest).setState g
        .enabled := by
    rw [hm, hsent]
    rw [hsent, List.length_map] at h
    exact enableMembers_verified (s := s.asked g) hv hn ⟨ha.stream, ha.fits, ha.skips, ha.valid, ha.answers⟩ hok h
  clear hsent
  have hk := KeepsConfig_trans (sentOk_keeps (s.asked g) sent (List.replicate (s.drivingFrames g).length .ok ++ later))
    (heard_keeps rsp rest _)
  rw [tickSteps_enabled (later := later) hfresh hst hp hidle hen hrsp
    (by rw [drivingFrames_congr (KeepsConfig_trans (asked_keeps s g) hk) rfl]; rfl),
    tickSteps_enabledWith hk rfl rfl rfl, ← sentOk_sentOk _ _ _ (List.replicate (s.drivingFrames g).length .ok ++ later)]
  rfl

theorem drivingFrames_single (hm : s.members g = [m]) :
    s.drivingFrames g = [s.frameFor m (s.velocityCmd (s.rampedOf m))] := by
  rw [State.drivingFrames, hm]; rfl

/-- The answer of a TICK in which nothing went wrong. -/
theorem answerEvents_enabledWith (t : State) (h : t.reply = Reply.fresh) : (s.begin.enabledWith g t).answerEvents
    = { s.enabledWith g t with reply := ⟨.ok, .none, false, false⟩ } := by
  have hf : s.begin.rampedOf = s.rampedOf := rampedOf_congr (begin_keeps s) rfl
  have hr : s.begin.rampsWith g s.begin.rampedOf = s.rampsWith g s.rampedOf := by
    rw [hf]; exact rampsWith_congr (begin_keeps s) rfl _
  rw [State.answerEvents, State.enabledWith, hr, State.enabledWith]
  simp only [h]
  rfl

end

/-- Settles O30: the commands as their definitions read them; the transition, the ramp step and the velocities, all
accepted. -/
theorem enablingTickDrivesTheGroup : Obligations.EnablingTickDrivesTheGroup := by
  intro s
  refine ⟨handshake_eq s, fun v => rfl, ?_⟩
  intro g now later hr hfresh hst hp hidle hv hrsp ha frames hsends
  have hframes : s.begin.memberFrames (s.begin.members g) ++ s.begin.drivingFrames g = frames := by
    rw [keeps_members (begin_keeps s), memberFrames_keeps (begin_keeps s), drivingFrames_congr (begin_keeps s) rfl]
    rfl
  have htick := tickSteps_unverified (s := s.begin) (later := later) hfresh hst hp hidle hv hrsp ha
    (by rw [hframes]; exact hsends)
  rw [hframes] at htick
  generalize frames = sent at htick
  rw [exec_tick s now hr, htick, answerEvents_enabledWith _ rfl]
  rfl

/-- Settles O31: the query of the first attempt is answered, so the Enabling succeeds at once. -/
theorem enablingVerifiedByAResponse : Obligations.EnablingVerifiedByAResponse := by
  intro s g m now later skipped rsp rest hr hfresh hst hp hidle hm hv hrsp hn ha hok frames hsends
  have hsent : (s.handshake ++ [Cmd.enable 1, Cmd.statusQuery]).map (s.frameFor m)
      = (s.begin.handshake ++ [Cmd.enable 1, Cmd.statusQuery]).map (s.begin.frameFor m) := by
    rw [keeps_handshake (begin_keeps s), funext (keeps_frameFor (begin_keeps s) m)]
  have hframes : (s.handshake ++ [Cmd.enable 1, Cmd.statusQuery]).map (s.frameFor m) ++ s.begin.drivingFrames g
      = frames := by
    rw [drivingFrames_congr (begin_keeps s) rfl, drivingFrames_single hm]
    simp [frames]
  have htick := tickSteps_verified (s := s.begin) (later := later) hfresh hst hp hidle hm hv hrsp hn
    ⟨ha.stream, ha.fits, ha.skips, ha.valid, ha.answers⟩ hok hsent (by rw [hframes]; exact hsends)
  rw [hframes] at htick
  generalize frames = sent at htick
  rw [exec_tick s now hr, htick, answerEvents_enabledWith _ rfl]
  rfl

/-- The state of R273 (b), from the cut of an Enabling that has missed some responses. -/
theorem cut_cutAt {s : State} {g : GroupIx} {frames : List Bytes} {k n j : Nat} {later : List SendOutcome}
    (hk : k < frames.length) :
    (((s.begin.asked g).missed j).cut g frames k n later).answerEvents = { s.cutAt g frames k n later with
      norspCnt := s.norspCnt + BitVec.ofNat 32 j
      sticky := s.sticky ||| (if j = 0 then 0x20 else 0x30) } := by
  have hset : (s.mstate.set g .enabling).set g .emergencyStop = s.mstate.set g .emergencyStop := Vector.set_set ..
  have hpend : (s.pending.set g false).set g false = s.pending.set g false := Vector.set_set ..
  have hlen : (frames.take k).length = k := List.length_take_of_le hk.le
  have hsticky : (if j = 0 then s.sticky else s.sticky ||| 0x10) ||| 0x20
      = s.sticky ||| (if j = 0 then 0x20 else 0x30) := by
    split
    · rfl
    · exact BitVec.or_assoc ..
  have hcount : s.sendCount + (frames.take k).length = s.sendCount + k := by rw [hlen]
  rw [State.cutAt, ← hset, ← hsticky, ← hcount, ← hpend]
  rfl

/-- Settles O33: the refused frame ends the Enabling and puts the group in EmergencyStop. -/
theorem enablingStopsAtAnIoErr : Obligations.EnablingStopsAtAnIoErr := by
  intro s g now k n later hr hfresh hst hp hidle ha hsends
  have hal : (s.begin.asked g).Alone g := asked_alone (s := s.begin) hidle
  have hkeeps : s.KeepsConfig (s.begin.asked g) := KeepsConfig_trans (begin_keeps s) (asked_keeps _ g)
  refine ⟨fun hv hk => ?_, ?_⟩
  · have hframes : (s.begin.asked g).memberFrames (s.members g) = s.enableFrames g := memberFrames_keeps hkeeps _
    have hcut := enableMembers_cut (s := s.begin.asked g) (s.members g) hv ha (by rw [hframes]; exact hk) hsends hal
    rw [hframes] at hcut
    generalize s.enableFrames g = frames at hcut hk
    have hnone := cut_cutAt (s := s) (g := g) (n := n) (j := 0) (later := later) hk
    rw [missed_zero] at hnone
    rw [exec_tick s now hr, tickSteps_cut (s := s.begin) hfresh hst hp hidle hcut, hnone]
    simp [State.cutAt]
  · intro m hv hm hb harr frames missing hk
    have hq : (s.begin.asked g).Silent := ⟨hv, hb, harr⟩
    have hframes : ((s.begin.asked g).handshake ++ (List.replicate (s.begin.asked g).enableAttempts
        [Cmd.enable 1, Cmd.statusQuery]).flatten).map ((s.begin.asked g).frameFor m) = frames := by
      rw [keeps_handshake hkeeps, keeps_enableAttempts hkeeps, funext (keeps_frameFor hkeeps m)]
    have hcut := enableMembers_silent_cut (s := s.begin.asked g) (m := m) hq hal
      (by rw [← List.length_map ((s.begin.asked g).frameFor m), hframes]; exact hk) hsends
    rw [hframes, keeps_handshake hkeeps] at hcut
    generalize frames = sent at hcut hk
    rw [exec_tick s now hr, tickSteps_cut (s := s.begin) hfresh hst hp hidle
      (by rw [show s.begin.members g = [m] from hm]; exact hcut)]
    exact congrArg _ (cut_cutAt hk)

end Sys2Proof.Machine
end

section
/-! PROOFS. The stop sequence on a transport that accepts every frame, in the four ways of `State.StopsTo`: at rest in
EmergencyStop (O37) and on a request while Enabled (O38). -/

namespace Sys2Proof.Machine

section
variable {s t u : State} {g : GroupIx} {m : MotorIx} {later : List SendOutcome}

/-! ### The rounds of Velocity(0) (R275) -/

theorem zeroRound_accepted (ms : List MotorIx) (h : s.sends = List.replicate ms.length .ok ++ later) :
    s.zeroRound ms = s.sentOk (ms.map fun m => s.frameFor m (s.velocityCmd 0)) later := by
  unfold State.zeroRound
  induction ms generalizing s with
  | nil => exact (sentOk_nil h).symm
  | cons m ms ih =>
    have h' : s.sends = .ok :: (List.replicate ms.length .ok ++ later) := h
    rw [List.foldl_cons, command_accepted m _ h', ih rfl, sentOk_sentOk]
    rfl

theorem zeroRounds_accepted (ms : List MotorIx) (k : Nat)
    (h : s.sends = List.replicate (List.replicate k
      (ms.map fun m => s.frameFor m (s.velocityCmd 0))).flatten.length .ok ++ later) :
    zeroRounds ms k s
      = s.sentOk (List.replicate k (ms.map fun m => s.frameFor m (s.velocityCmd 0))).flatten later := by
  induction k generalizing s with
  | zero => exact (sentOk_nil h).symm
  | succ k ih =>
    rw [List.replicate_succ, List.flatten_cons, List.length_append, List.length_map, List.replicate_add,
      List.append_assoc] at h
    rw [zeroRounds, zeroRound_accepted ms h, ih (s := s.sentOk _ _) rfl, sentOk_sentOk]
    rfl

/-! ### Disabling the members (R275) -/

theorem disableMembers_unverified (ms : List MotorIx) (hv : s.verifyDis = false)
    (h : s.sends = List.replicate ms.length .ok ++ later) :
    disableMembers ms s = (true, s.sentOk (ms.map fun m => s.frameFor m (.enable 0)) later) := by
  induction ms generalizing s with
  | nil => exact congrArg _ (sentOk_nil h).symm
  | cons m ms ih =>
    have h' : s.sends = .ok :: (List.replicate ms.length .ok ++ later) := h
    have hone : s.disableMember m = (true, s.sentOk [s.frameFor m (.enable 0)] (List.replicate ms.length .ok ++ later)) := by
      rw [State.disableMember, hv, command_accepted m _ h']
      rfl
    rw [disableMembers, hone]
    simp only
    rw [ih (s := s.sentOk _ _) hv rfl, sentOk_sentOk]
    rfl

theorem missed_missed (s : State) (a b : Nat) : (s.missed a).missed b = s.missed (a + b) := by
  have hsticky : (if b = 0 then (if a = 0 then s.sticky else s.sticky ||| 0x10)
      else (if a = 0 then s.sticky else s.sticky ||| 0x10) ||| 0x10)
      = if a + b = 0 then s.sticky else s.sticky ||| 0x10 := by
    by_cases ha : a = 0 <;> by_cases hb : b = 0 <;> simp [ha, hb, BitVec.or_assoc]
  simp only [State.missed, hsticky, BitVec.add_assoc, ← BitVec.ofNat_add]

/-- The commands of one unanswered member. -/
def disableCmds (n : Nat) : List Cmd := (List.replicate n [Cmd.enable 0, Cmd.statusQuery]).flatten

/-- The two frames of one attempt, and the state in which its answer is awaited. -/
theorem tryDisable_succ (m : MotorIx) (n : Nat) (h : s.sends = .ok :: .ok :: later) :
    tryDisable m (n + 1) s
      = (let v := (s.sentOk [s.frameFor m (.enable 0), s.frameFor m .statusQuery] later).await (s.addrOf m) s.sqCode
        if firstByteIs v.2.disOkVal v.1 then (true, v.2) else tryDisable m n v.2) := by
  rw [tryDisable, command_accepted m _ h]
  simp only
  rw [command_accepted m _ rfl, sentOk_sentOk]
  rfl

theorem tryDisable_silent (m : MotorIx) (n : Nat) (hb : s.rxbuf = []) (ha : s.arrivals = [])
    (h : s.sends = List.replicate (disableCmds n).length .ok ++ later) :
    tryDisable m n s = (false, (s.sentOk ((disableCmds n).map (s.frameFor m)) later).missed n) := by
  induction n generalizing s with
  | zero => rw [tryDisable, missed_zero]; exact congrArg _ (sentOk_nil h).symm
  | succ n ih =>
    have hcmds : disableCmds (n + 1) = [Cmd.enable 0, Cmd.statusQuery] ++ disableCmds n := rfl
    rw [hcmds, List.length_append, List.replicate_add, List.append_assoc] at h
    have h' : s.sends = .ok :: .ok :: (List.replicate (disableCmds n).length .ok ++ later) := h
    have hawait (frames : List Bytes) (l : List SendOutcome) (addr : Nat) (code : Byte) :
        (s.sentOk frames l).await addr code = (none, (s.sentOk frames l).noResponse) :=
      await_nothing addr code _ hb ha
    rw [tryDisable_succ m n h', hawait]
    simp only [firstByteIs, Bool.false_eq_true, if_false]
    rw [ih (s := (s.sentOk _ _).noResponse) hb ha rfl, hcmds, List.map_append,
      ← sentOk_sentOk _ _ _ (List.replicate (disableCmds n).length .ok ++ later), ← noResponse_missed]
    rfl

theorem disableMembers_silent (ms : List MotorIx) (hv : s.verifyDis = true) (hb : s.rxbuf = []) (ha : s.arrivals = [])
    (h : s.sends = List.replicate (ms.flatMap fun m => (disableCmds s.disableAttempts).map (s.frameFor m)).length .ok
      ++ later) :
    disableMembers ms s = (ms.isEmpty,
      (s.sentOk (ms.flatMap fun m => (disableCmds s.disableAttempts).map (s.frameFor m)) later).missed
        (ms.length * s.disableAttempts)) := by
  induction ms generalizing s with
  | nil => rw [disableMembers, List.length_nil, Nat.zero_mul, missed_zero]; exact congrArg _ (sentOk_nil h).symm
  | cons m ms ih =>
    rw [List.flatMap_cons, List.length_append, List.length_map, List.replicate_add, List.append_assoc] at h
    have hone : s.disableMember m = tryDisable m s.disableAttempts s := by rw [State.disableMember, if_pos hv]
    rw [disableMembers, hone, tryDisable_silent m _ hb ha h]
    simp only [Bool.false_and, List.isEmpty_cons]
    rw [ih (s := (s.sentOk _ _).missed _) hv hb ha rfl, List.flatMap_cons,
      ← sentOk_sentOk _ _ _ (List.replicate (ms.flatMap fun m =>
        (disableCmds s.disableAttempts).map (s.frameFor m)).length .ok ++ later), List.length_cons, Nat.succ_mul,
      Nat.add_comm, ← missed_missed]
    rfl

section
variable {skipped : List Bytes} {rsp rest : Bytes} (hv : s.verifyDis = true)
  (ha : s.Answered (s.addrOf m) s.sqCode skipped rsp rest) (h : s.sends = .ok :: .ok :: later)
include hv ha h

theorem disableMembers_verified (hn : 1 ≤ s.disableAttempts) (hok : (dataByRule s.proto rsp).head? = some s.disOkVal) :
    disableMembers [m] s
      = (true, (s.sentOk [s.frameFor m (.enable 0), s.frameFor m .statusQuery] later).heard rsp rest) := by
  obtain ⟨n, hn⟩ := Nat.exists_eq_add_of_le' hn
  have hawait (frames : List Bytes) : (s.sentOk frames later).await (s.addrOf m) s.sqCode
      = (some (dataByRule s.proto rsp), (s.sentOk frames later).heard rsp rest) :=
    await_answered (answered_sentOk ha frames later)
  have hfirst (frames : List Bytes) : firstByteIs ((s.sentOk frames later).heard rsp rest).disOkVal
      (some (dataByRule s.proto rsp)) = true := (firstByteIs_iff _ _).mpr hok
  rw [disableMembers, State.disableMember, if_pos hv, hn, tryDisable_succ m n h, hawait]
  simp only [hfirst, if_true, disableMembers, Bool.and_true]

theorem disableMembers_refuted (hn : s.disableAttempts = 1)
    (hok : (dataByRule s.proto rsp).head? ≠ some s.disOkVal) :
    disableMembers [m] s
      = (false, (s.sentOk [s.frameFor m (.enable 0), s.frameFor m .statusQuery] later).heard rsp rest) := by
  have hawait (frames : List Bytes) : (s.sentOk frames later).await (s.addrOf m) s.sqCode
      = (some (dataByRule s.proto rsp), (s.sentOk frames later).heard rsp rest) :=
    await_answered (answered_sentOk ha frames later)
  have hfirst (frames : List Bytes) : firstByteIs ((s.sentOk frames later).heard rsp rest).disOkVal
      (some (dataByRule s.proto rsp)) = false := by
    rw [← Bool.not_eq_true, firstByteIs_iff]; exact hok
  rw [disableMembers, State.disableMember, if_pos hv, hn, tryDisable_succ m 0 h, hawait]
  simp only [hfirst, Bool.false_eq_true, if_false, tryDisable, disableMembers, Bool.and_true]

end

/-! ### The stop sequence (R275, R276) -/

/-- The sequence from its two stages. -/
theorem stopSequence_of {ok : Bool} (hz : s.sends = List.replicate (s.zeroFrames g).length .ok ++ later)
    (hd : disableMembers (s.members g) (s.sentOk (s.zeroFrames g) later) = (ok, u)) (hk : s.KeepsConfig u)
    (hr : u.rampcur = s.rampcur) :
    s.stopSequence g = (if ok then { u with rampcur := s.rampsWith g fun _ => 0 }
      else ({ u with rampcur := s.rampsWith g fun _ => 0 } : State).verifyFailure) := by
  have hzero : zeroRounds (s.members g) s.zeroRepeat s = s.sentOk (s.zeroFrames g) later :=
    zeroRounds_accepted (s.members g) s.zeroRepeat hz
  have hramps : u.zeroRamps (s.members g) = { u with rampcur := s.rampsWith g fun _ => 0 } := by
    rw [← keeps_members hk, zeroRamps_eq, rampsWith_congr hk hr]
  rw [State.stopSequence]
  simp only [hzero, hd, hramps]

theorem zeroFrames_keeps (hk : s.KeepsConfig t) : t.zeroFrames g = s.zeroFrames g := by
  simp only [State.zeroFrames, keeps_zeroRepeat hk, keeps_members hk, keeps_frameFor hk, keeps_velocityCmd hk]

theorem stopFrames_keeps (hk : s.KeepsConfig t) : t.stopFrames g = s.stopFrames g := by
  simp only [State.stopFrames, zeroFrames_keeps hk, keeps_members hk, keeps_frameFor hk]

theorem exhaustedStopFrames_keeps (hk : s.KeepsConfig t) : t.exhaustedStopFrames g = s.exhaustedStopFrames g := by
  have hf (m : MotorIx) : t.frameFor m = s.frameFor m := funext (keeps_frameFor hk m)
  simp only [State.exhaustedStopFrames, zeroFrames_keeps hk, keeps_members hk, keeps_disableAttempts hk, hf]

theorem stopSequence_unverified (hv : s.verifyDis = false)
    (h : s.sends = List.replicate (s.stopFrames g).length .ok ++ later) :
    s.stopSequence g = { s.sentOk (s.stopFrames g) later with rampcur := s.rampsWith g fun _ => 0 } := by
  rw [State.stopFrames, List.length_append, List.length_map, List.replicate_add, List.append_assoc] at h
  have hd := disableMembers_unverified (later := later) (s := s.sentOk (s.zeroFrames g) _) (s.members g) hv rfl
  rw [sentOk_sentOk] at hd
  exact stopSequence_of h hd (sentOk_keeps s _ _) rfl

theorem stopSequence_exhausted (hv : s.verifyDis = true) (hm : s.members g ≠ []) (hb : s.rxbuf = [])
    (ha : s.arrivals = []) (h : s.sends = List.replicate (s.exhaustedStopFrames g).length .ok ++ later) :
    s.stopSequence g = ({ (s.sentOk (s.exhaustedStopFrames g) later).missed ((s.members g).length * s.disableAttempts) with
      rampcur := s.rampsWith g fun _ => 0 } : State).verifyFailure := by
  rw [State.exhaustedStopFrames, List.length_append, List.replicate_add, List.append_assoc] at h
  have hd := disableMembers_silent (later := later) (s := s.sentOk (s.zeroFrames g) (List.replicate ((s.members g).flatMap fun m =>
    (disableCmds s.disableAttempts).map (s.frameFor m)).length .ok ++ later)) (s.members g) hv hb ha rfl
  have hne : (s.members g).isEmpty = false := by rw [List.isEmpty_eq_false_iff]; exact hm
  rw [sentOk_sentOk, hne] at hd
  exact stopSequence_of h hd (KeepsConfig_trans (sentOk_keeps s _ _) (missed_keeps _ _)) rfl

section
variable {skipped : List Bytes} {rsp rest : Bytes} (hv : s.verifyDis = true) (hm : s.members g = [m])
  (ha : s.Answered (s.addrOf m) s.sqCode skipped rsp rest)
  (h : s.sends = List.replicate ((s.zeroFrames g).length + 2) .ok ++ later)
include hv hm ha h

theorem stopSequence_verified (hn : 1 ≤ s.disableAttempts) (hok : (dataByRule s.proto rsp).head? = some s.disOkVal) :
    s.stopSequence g = { (s.sentOk (s.zeroFrames g ++ [s.frameFor m (.enable 0), s.frameFor m .statusQuery]) later).heard
      rsp rest with rampcur := s.rampsWith g fun _ => 0 } := by
  rw [List.replicate_add, List.append_assoc] at h
  have hd := disableMembers_verified (s := s.sentOk (s.zeroFrames g) (.ok :: .ok :: later)) hv
    (answered_sentOk ha _ _) rfl hn hok
  rw [sentOk_sentOk, ← hm] at hd
  exact stopSequence_of h hd (KeepsConfig_trans (sentOk_keeps s _ _) (heard_keeps _ _ _)) rfl

theorem stopSequence_refuted (hn : s.disableAttempts = 1) (hok : (dataByRule s.proto rsp).head? ≠ some s.disOkVal) :
    s.stopSequence g = ({ (s.sentOk (s.zeroFrames g ++ [s.frameFor m (.enable 0), s.frameFor m .statusQuery]) later).heard
      rsp rest with rampcur := s.rampsWith g fun _ => 0 } : State).verifyFailure := by
  rw [List.replicate_add, List.append_assoc] at h
  have hd := disableMembers_refuted (s := s.sentOk (s.zeroFrames g) (.ok :: .ok :: later)) hv
    (answered_sentOk ha _ _) rfl hn hok
  rw [sentOk_sentOk, ← hm] at hd
  exact stopSequence_of h hd (KeepsConfig_trans (sentOk_keeps s _ _) (heard_keeps _ _ _)) rfl

end

/-! ### The four ways of `StopsTo` -/

/-- A stop sequence that begins an operation, in a state that may differ in the groups. -/
theorem stopSequence_stopsTo {x : Vector MState 4} {p : Vector Bool 4} (h : s.StopsTo g t)
    (hu : u = { s with mstate := x, pending := p, reply := Reply.fresh }) :
    (u.stopSequence g).answerEvents
      = { t with mstate := x, pending := p, rampcur := s.rampsWith g fun _ => 0 } := by
  have hk : s.KeepsConfig u := hu ▸ ⟨rfl, rfl, rfl, rfl, rfl, rfl, rfl⟩
  have hramp : u.rampsWith g (fun _ => 0) = s.rampsWith g fun _ => 0 := rampsWith_congr hk (by rw [hu]) _
  have hsends : u.sends = s.sends := by rw [hu]
  have hmem : u.members g = s.members g := keeps_members hk g
  cases h with
  | unverified later hv h =>
    rw [stopSequence_unverified (later := later) ((keeps_verifyDis hk).trans hv)
      (by rw [hsends, stopFrames_keeps hk]; exact h), stopFrames_keeps hk, hramp, hu]
    rfl
  | exhausted later hv hn hm hb ha h =>
    have hpos : (s.members g).length * s.disableAttempts ≠ 0 :=
      Nat.mul_ne_zero (fun e => hm (List.length_eq_zero_iff.mp e)) (by omega)
    have hsticky : s.sticky ||| 0x10 ||| 0x40 = s.sticky ||| 0x50 := BitVec.or_assoc ..
    rw [stopSequence_exhausted (later := later) ((keeps_verifyDis hk).trans hv) (hmem ▸ hm) (by rw [hu]; exact hb)
      (by rw [hu]; exact ha) (by rw [hsends, exhaustedStopFrames_keeps hk]; exact h), exhaustedStopFrames_keeps hk, hramp,
      hmem, keeps_disableAttempts hk, missed_of_pos (Nat.pos_of_ne_zero hpos), ← hsticky, hu]
    rfl
  | verified m skipped rsp rest later hv hn hm ha hok h =>
    have ha' : u.Answered (u.addrOf m) u.sqCode skipped rsp rest := by
      rw [hu]; exact ⟨ha.stream, ha.fits, ha.skips, ha.valid, ha.answers⟩
    rw [stopSequence_verified (later := later) ((keeps_verifyDis hk).trans hv) (hmem.trans hm) ha'
      (by rw [hsends, zeroFrames_keeps hk]; exact h) (by rw [keeps_disableAttempts hk]; exact hn)
      (by rw [keeps_proto hk, keeps_disOkVal hk]; exact hok), zeroFrames_keeps hk, keeps_frameFor hk, keeps_frameFor hk,
      hramp, hu]
    rfl
  | refuted m skipped rsp rest later hv hn hm ha hok h =>
    have ha' : u.Answered (u.addrOf m) u.sqCode skipped rsp rest := by
      rw [hu]; exact ⟨ha.stream, ha.fits, ha.skips, ha.valid, ha.answers⟩
    rw [stopSequence_refuted (later := later) ((keeps_verifyDis hk).trans hv) (hmem.trans hm) ha'
      (by rw [hsends, zeroFrames_keeps hk]; exact h) (by rw [keeps_disableAttempts hk]; exact hn)
      (by rw [keeps_proto hk, keeps_disOkVal hk]; exact hok), zeroFrames_keeps hk, keeps_frameFor hk, keeps_frameFor hk,
      hramp, hu]
    rfl

/-- `StopsTo` says nothing of the groups and the ramp outputs. -/
theorem stopsTo_frame (h : s.StopsTo g t) : t.mstate = s.mstate ∧ t.pending = s.pending ∧ t.rampcur = s.rampcur := by
  cases h <;> exact ⟨rfl, rfl, rfl⟩

variable {now : Time}

theorem tickSteps_stopToDisabled (hw : s.watchdogCheck now = s) (hidle : s.othersIdle g)
    (ht : s.transition now g = u.stopToDisabled g) : s.tickSteps now = (u.stopSequence g).setState g .disabled := by
  have hst : (s.transition now g).stateOf g ≠ .enabled := by
    rw [ht, State.stopToDisabled, State.setState_stateOf, if_pos rfl]; decide
  rw [tickSteps_single_stopped hw hidle hst, ht, State.stopToDisabled]

end

/-- Settles O37: the group's turn is the stop sequence, and the ramp outputs are 0 already. -/
theorem eStopTickAtRestDisables : Obligations.EStopTickAtRestDisables := by
  intro s t g now hr hst hidle hrest h
  have hturn : s.begin.transition now g = s.begin.stopToDisabled g :=
    (transition_estop (s := s.begin) hst).trans (estopStepGroup_atRest s.begin hrest)
  have hw : s.begin.watchdogCheck now = s.begin := watchdogCheck_still (still_of_estop (s := s.begin) hst hidle)
  have hstop := stopSequence_stopsTo (u := s.begin) (x := s.mstate) (p := s.pending) h rfl
  have hramp : s.rampcur = s.rampsWith g fun _ => 0 := rampcur_eq_rampsWith fun m => by
    split
    · next hm => exact hrest m ((mem_members s g m).mp hm)
    · rfl
  obtain ⟨hm, hp, hc⟩ := stopsTo_frame h
  rw [← hramp, ← hm, ← hp, ← hc] at hstop
  rw [exec_tick s now hr, tickSteps_stopToDisabled hw hidle hturn]
  generalize s.begin.stopSequence g = v at hstop
  rw [← hm]
  exact congrArg (fun t => Host.Outcome.next (t.setState g .disabled)) hstop

/-- Settles O38: the group's turn is Disabling, whose stop sequence zeroes the ramp outputs. -/
theorem disablingTickStopsTheGroup : Obligations.DisablingTickStopsTheGroup := by
  intro s t g now hr hfresh hst hp hidle h
  have hturn : s.begin.transition now g = ((s.begin.setPending g false).setState g .disabling).stopToDisabled g := by
    have hst' : s.begin.stateOf g = .enabled := hst
    have hp' : s.begin.pendingOf g = true := hp
    rw [State.transition, hst']
    simp only [hp', if_true]
    rfl
  have hstop := stopSequence_stopsTo (u := (s.begin.setPending g false).setState g .disabling)
    (x := s.mstate.set g .disabling) (p := s.pending.set g false) h rfl
  have hset : (s.mstate.set g .disabling).set g .disabled = s.mstate.set g .disabled := Vector.set_set ..
  have hw : s.begin.watchdogCheck now = s.begin := watchdogCheck_fresh hfresh
  rw [exec_tick s now hr, tickSteps_stopToDisabled hw hidle hturn, ← hset]
  generalize ((s.begin.setPending g false).setState g .disabling).stopSequence g = v at hstop
  exact congrArg (fun t => Host.Outcome.next (t.setState g .disabled)) hstop

end Sys2Proof.Machine
end

section
/-! PROOFS. TRANSACT: what it refuses and what it sends and returns (O42), and its transport fault (O43). -/

namespace Sys2Proof.Machine

section
variable {s : State} {m aw : Byte} {c : Cmd} {k : MotorIx} {f : Bytes} {later : List SendOutcome}

/-! ### The frame TRANSACT sends (R336) -/

theorem motorIxOf_eq (h : m.toNat = k.val) : motorIxOf m = some k := by
  rw [motorIxOf, dif_pos (h ▸ k.isLt)]
  exact congrArg some (Fin.ext h)

theorem motorIxOf_none (h : 8 ≤ m.toNat) : motorIxOf m = none := dif_neg (Nat.not_lt.mpr h)

theorem transactFrame_of_index (h : m.toNat = k.val) : transactFrame m c aw s
    = if entryValid (s.entryOf k) && !ownedByFsm c && (aw == 0 || aw == 1) then
        (encodeFrame s.proto (s.addrOf k) c s).toOption.map (k, ·)
      else none := by
  rw [transactFrame, motorIxOf_eq h]
  simp only
  split
  · cases encodeFrame s.proto (s.addrOf k) c s <;> rfl
  · rfl

theorem commandFrame_eq (s : State) (k : MotorIx) (c : Cmd) :
    s.commandFrame k c = (encodeFrame s.proto (s.addrOf k) c s).toOption.map (·.map BitVec.toNat) :=
  frameByRule_payloadByRule s s.proto (s.addrOf k) c

theorem map_toNat_injective : Function.Injective (fun l : Bytes => l.map BitVec.toNat) :=
  List.map_injective_iff.mpr fun _ _ h => BitVec.eq_of_toNat_eq h

/-- The rules give the frame the encoder builds. -/
theorem encodeFrame_of_commandFrame (h : s.commandFrame k c = some (f.map BitVec.toNat)) :
    encodeFrame s.proto (s.addrOf k) c s = .ok f := by
  rw [commandFrame_eq] at h
  cases he : encodeFrame s.proto (s.addrOf k) c s with
  | error e => rw [he] at h; cases h
  | ok l =>
    rw [he] at h
    exact congrArg _ (map_toNat_injective (Option.some.inj h))

theorem not_ownedByFsm (hv : ∀ rpm accel, c ≠ .velocity rpm accel) (he : ∀ e, c ≠ .enable e) : ownedByFsm c = false := by
  cases c with
  | velocity rpm accel => exact absurd rfl (hv rpm accel)
  | enable e => exact absurd rfl (he e)
  | _ => rfl

theorem transactFrame_accepted (hm : m.toNat = k.val) (haw : aw = 0 ∨ aw = 1) (hvalid : (s.entryOf k).getLsbD 31 = true)
    (hv : ∀ rpm accel, c ≠ .velocity rpm accel) (he : ∀ e, c ≠ .enable e)
    (hf : s.commandFrame k c = some (f.map BitVec.toNat)) : transactFrame m c aw s = some (k, f) := by
  have hvalid' : entryValid (s.entryOf k) = true := hvalid
  rw [transactFrame_of_index hm, encodeFrame_of_commandFrame hf, if_pos]
  · rfl
  · simpa [hvalid', not_ownedByFsm hv he] using haw

theorem transactFrame_refused (h : 8 ≤ m.toNat ∨ 1 < aw.toNat ∨ (∃ rpm accel, c = .velocity rpm accel) ∨ (∃ e, c = .enable e)) :
    transactFrame m c aw s = none := by
  by_cases hm : m.toNat < 8
  · rw [transactFrame_of_index (k := ⟨m.toNat, hm⟩) rfl, if_neg]
    obtain h | h | ⟨rpm, accel, rfl⟩ | ⟨e, rfl⟩ := h
    · omega
    · have h0 : (aw == 0) = false := by rw [beq_eq_false_iff_ne]; rintro rfl; simp at h
      have h1 : (aw == 1) = false := by rw [beq_eq_false_iff_ne]; rintro rfl; simp at h
      simp only [h0, h1, Bool.or_self, Bool.and_false, Bool.false_eq_true, not_false_eq_true]
    · simp [ownedByFsm]
    · simp [ownedByFsm]
  · rw [transactFrame, motorIxOf_none (by omega)]

theorem transactFrame_none (hm : m.toNat = k.val) (h : (s.entryOf k).getLsbD 31 = false ∨ s.commandFrame k c = none) :
    transactFrame m c aw s = none := by
  rw [transactFrame_of_index hm]
  obtain h | h := h
  · have hvalid : entryValid (s.entryOf k) = false := h
    simp [hvalid]
  · rw [commandFrame_eq, Option.map_eq_none_iff] at h
    simp [h]

/-- The payload of a frame that was built (R111, R117). -/
theorem payloadIn_frameOf (v : Proto) (hi : BitVec 4) (addr : Nat) (p : Bytes) : payloadIn v (frameOf v hi addr p) = p := by
  cases v <;> simp [payloadIn, frameOf, frameCan, frameRs]

theorem code_of_commandFrame (hf : s.commandFrame k c = some (f.map BitVec.toNat)) :
    (payloadIn s.proto f).headD 0 = (s.payload c).headD 0 := by
  have he := encodeFrame_of_commandFrame hf
  unfold encodeFrame at he
  split at he
  · cases he; rw [payloadIn_frameOf]
  · cases he

/-! ### What `Await` answers (R222, R223) -/

/-- The two outcomes of an `Await`: a counted NoResponse, or the data of a frame that matches and is LAST_RX. -/
inductive AwaitEnd (v : Proto) (addr : Nat) (code : Byte) (s : State) : Option Bytes × State → Prop
  | noResponse (t : State) (counted : t.norspCnt = s.norspCnt + 1) (last : t.lastRx = s.lastRx) :
      AwaitEnd v addr code s (none, t)
  | answered (t : State) (matched : matchByRule v addr code t.lastRx) (counted : t.norspCnt = s.norspCnt) :
      AwaitEnd v addr code s (some (dataByRule v t.lastRx), t)

theorem awaitEnd_before {v : Proto} {addr : Nat} {code : Byte} {u : State} {r : Option Bytes × State}
    (h : AwaitEnd v addr code u r) (hn : u.norspCnt = s.norspCnt) (hl : u.lastRx = s.lastRx) :
    AwaitEnd v addr code s r := by
  cases h with
  | noResponse t counted last => exact .noResponse t (counted.trans (congrArg (· + 1) hn)) (last.trans hl)
  | answered t matched counted => exact .answered t matched (counted.trans hn)

theorem awaitLoop_end (addr : Nat) (code : Byte) (n : Nat) (s : State) :
    AwaitEnd s.proto addr code s (awaitLoop addr code n s) := by
  induction n generalizing s with
  | zero => exact .noResponse _ rfl rfl
  | succ n ih =>
    have hproto : s.nextFrame.2.proto = s.proto := rfl
    have hnorsp : s.nextFrame.2.norspCnt = s.norspCnt := rfl
    have hlast : s.nextFrame.2.lastRx = s.lastRx := rfl
    rw [awaitLoop]
    generalize s.nextFrame = r at hproto hnorsp hlast
    obtain ⟨_ | f, t⟩ := r
    · exact .noResponse _ (congrArg (· + 1) hnorsp) hlast
    · simp only
      split
      · next hm =>
        rw [rspData_eq]
        exact .answered (t.setLastRx f) ((matchesRsp_iff _ _ _ _).mp hm) hnorsp
      · exact hproto ▸ awaitEnd_before (ih t) hnorsp hlast

theorem await_end (addr : Nat) (code : Byte) (s : State) : AwaitEnd s.proto addr code s (s.await addr code) := by
  have hframe := appendAll_frame s.nextArrival s.popArrival
  rw [State.await]
  generalize s.popArrival.appendAll s.nextArrival = u at hframe
  have hproto : u.proto = s.proto := by rw [hframe]; rfl
  have hnorsp : u.norspCnt = s.norspCnt := by rw [hframe]; rfl
  have hlast : u.lastRx = s.lastRx := by rw [hframe]; rfl
  exact hproto ▸ awaitEnd_before (awaitLoop_end addr code _ u) hnorsp hlast

/-! ### TRANSACT on a transport that accepts its frame -/

theorem transacted_sent (h : s.sends = .ok :: later) (f : Bytes) :
    s.transacted k f c aw = if aw = 0 then (s.sentOk [f] later).answer .ok (.bytes [])
      else answerAwait ((s.sentOk [f] later).await (s.addrOf k) ((s.payload c).headD 0)) := by
  have hn : s.nextSend = .ok := by simp [State.nextSend, h]
  have hrec : s.recordSend f = s.sentOk [f] later := by simp [State.recordSend, State.sentOk, hn, h]
  rw [State.transacted, if_pos (by rw [hn]; rfl), hrec]

theorem transacted_unsent {n : Nat} (h : s.sends = .ioErr n :: later) (f : Bytes) :
    s.transacted k f c aw = ({ s with
      lastTx := f, txLog := s.txLog ++ [⟨f, .ioErr n⟩], sends := later
      sendCount := s.sendCount + 1 } : State).transportFault.answer .transportError (.bytes []) := by
  have hn : s.nextSend = .ioErr n := by simp [State.nextSend, h]
  rw [State.transacted, if_neg (by rw [hn]; simp [sendOk]), State.recordSend, hn, h]
  rfl

/-- What TRANSACT with await leaves, whatever comes (R222). -/
theorem transacted_awaits (s : State) (h : s.sends = .ok :: later) (f : Bytes) :
    ∃ t : State, s.begin.transacted k f c 1 = t ∧ t.lastTx = f ∧ t.txLog = s.txLog ++ [⟨f, .ok⟩] ∧ s.KeepsConfig t ∧
      (t.reply = ⟨.noResponse, .bytes [], false, false⟩ ∧ t.norspCnt = s.norspCnt + 1 ∧ t.lastRx = s.lastRx ∨
        matchByRule s.proto (s.addrOf k) ((s.payload c).headD 0) t.lastRx ∧ t.norspCnt = s.norspCnt ∧
          t.reply = ⟨.ok, .bytes (dataByRule s.proto t.lastRx), false, false⟩) := by
  refine ⟨_, rfl, ?_⟩
  rw [transacted_sent (s := s.begin) h, if_neg (by decide)]
  have hend : AwaitEnd s.proto (s.addrOf k) ((s.payload c).headD 0) s _ := awaitEnd_before
    (await_end (s.begin.addrOf k) ((s.begin.payload c).headD 0) (s.begin.sentOk [f] later)) rfl rfl
  have hframe := await_frame (s.begin.addrOf k) ((s.begin.payload c).headD 0) (s.begin.sentOk [f] later)
  generalize (s.begin.sentOk [f] later).await (s.begin.addrOf k) ((s.begin.payload c).headD 0) = r at hend hframe
  have hkeeps : s.KeepsConfig r.2 := by rw [hframe]; exact ⟨rfl, rfl, rfl, rfl, rfl, rfl, rfl⟩
  have htx : r.2.lastTx = f := by rw [hframe]; rfl
  have hlog : r.2.txLog = s.txLog ++ [⟨f, .ok⟩] := by rw [hframe]; rfl
  have hreply : r.2.reply = Reply.fresh := by rw [hframe]; rfl
  cases hend with
  | noResponse t counted last =>
    exact ⟨htx, hlog, { hkeeps with }, .inl ⟨by rw [answerAwait, State.answer_reply, hreply]; rfl, counted, last⟩⟩
  | answered t matched counted =>
    exact ⟨htx, hlog, { hkeeps with }, .inr ⟨matched, counted, by rw [answerAwait, State.answer_reply, hreply]; rfl⟩⟩

end

/-- Settles O42: its checks, the frame accepted by the transport, and the three forms of an `Await`. -/
theorem transactSendsOneFrame : Obligations.TransactSendsOneFrame := by
  intro s m c aw hr
  refine ⟨fun h => transact_refused hr (transactFrame_refused h), fun k hk h => transact_refused hr (transactFrame_none hk h), ?_⟩
  intro k f later hm hvalid hv he hf hsends code
  have hcode : code = (s.payload c).headD 0 := code_of_commandFrame hf
  have hrun (haw : aw = 0 ∨ aw = 1) := transact_running hr (transactFrame_accepted hm haw hvalid hv he hf)
  have hsent := transacted_sent (s := s.begin) (k := k) (c := c) (aw := aw) hsends f
  refine ⟨fun haw => ?_, fun haw => ?_⟩
  · rw [hrun (.inl haw), hsent, if_pos haw]
    rfl
  · have hne : aw ≠ 0 := by rw [haw]; decide
    rw [hcode]
    refine ⟨?_, fun skipped rest hu => ?_, fun skipped rsp rest ha => ?_⟩
    · obtain ⟨t, ht, h⟩ := transacted_awaits (k := k) (c := c) s hsends f
      exact ⟨t, by rw [hrun (.inr haw), haw, ht], h⟩
    · have hw := await_unanswered (s := s.begin.sentOk [f] later) (addr := s.begin.addrOf k)
        (code := (s.begin.payload c).headD 0) ⟨hu.stream, hu.fits, hu.skips, hu.waits⟩
      rw [hrun (.inr haw), hsent, if_neg hne, hw]
      rfl
    · have hw := await_answered (s := s.begin.sentOk [f] later) (addr := s.begin.addrOf k)
        (code := (s.begin.payload c).headD 0) ⟨ha.stream, ha.fits, ha.skips, ha.valid, ha.answers⟩
      rw [hrun (.inr haw), hsent, if_neg hne, hw]
      rfl

/-- Settles O43: the frame is recorded and the fault of R316 taken. -/
theorem transactIoErrIsATransportFault : Obligations.TransactIoErrIsATransportFault := by
  intro s m aw c k f n later hr hm haw hvalid hv he hf hsends
  have haw' : aw = 0 ∨ aw = 1 := by
    have : aw.toNat = 0 ∨ aw.toNat = 1 := by omega
    exact this.imp (fun h => BitVec.eq_of_toNat_eq h) fun h => BitVec.eq_of_toNat_eq h
  rw [transact_running hr (transactFrame_accepted hm haw' hvalid hv he hf), transacted_unsent (s := s.begin) hsends]
  generalize hu : ({ s.begin with
    lastTx := f, txLog := s.begin.txLog ++ [⟨f, .ioErr n⟩], sends := later
    sendCount := s.begin.sendCount + 1 } : State) = u
  have hfault := transportFault_faultTaken u
  have hkeeps := transportFault_keeps u
  have htx := transportFault_lastTx u
  have hlog := transportFault_txLog u
  have hs := transportFault_sends u
  have hcount := transportFault_sendCount u
  have harr := transportFault_arrivals u
  have hreply := transportFault_reply u
  generalize u.transportFault = v at *
  subst hu
  exact ⟨_, rfl, ⟨hfault.sticky, hfault.reopen, hfault.state, hfault.cause, hfault.pending, hfault.entries, hfault.ramps,
    hfault.buffer, hfault.halted⟩, { hkeeps with }, htx, hlog, hs, hcount, harr, by rw [State.answer_reply, hreply]; rfl⟩

end Sys2Proof.Machine
end

section
/-! PROOFS. The transition table between operation boundaries (O54): a group that a transport fault has stopped is stopped
in an operation that saw an IoErr (`Noted`). -/

namespace Sys2Proof.Machine

/-! ### Faults are events of the operation -/

/-- What others do to group `g`: nothing, or a transport fault that is an event of the operation (R316, R365). -/
structure Noted (g : GroupIx) (s t : State) : Prop where
  event : s.reply.ioErr = true → t.reply.ioErr = true
  group : (t.stateOf g = s.stateOf g ∧ t.causeOf g = s.causeOf g ∧ t.pendingOf g = s.pendingOf g) ∨
    (reactsToFault (s.stateOf g) = true ∧ faulted t g ∧ t.reply.ioErr = true)

section
variable {g h : GroupIx} {s t u : State} {now : Time}

theorem Noted_refl (g : GroupIx) (s : State) : Noted g s s := ⟨id, .inl ⟨rfl, rfl, rfl⟩⟩

theorem Noted_trans (h : Noted g s t) (k : Noted g t u) : Noted g s u := by
  refine ⟨fun e => k.event (h.event e), ?_⟩
  obtain ⟨h1, h2, h3⟩ | ⟨hr, hf, he⟩ := h.group
  · obtain ⟨k1, k2, k3⟩ | ⟨kr, kf, ke⟩ := k.group
    · exact .inl ⟨k1.trans h1, k2.trans h2, k3.trans h3⟩
    · exact .inr ⟨h1 ▸ kr, kf, ke⟩
  · obtain ⟨k1, k2, k3⟩ | ⟨kr, -⟩ := k.group
    · exact .inr ⟨hr, ⟨k1.trans hf.1, k2.trans hf.2.1, k3.trans hf.2.2⟩, k.event he⟩
    · rw [hf.1] at kr; cases kr

/-- Updates that leave the group and the events alone. -/
theorem noted_of_same (he : t.reply.ioErr = s.reply.ioErr) (h1 : t.stateOf g = s.stateOf g)
    (h2 : t.causeOf g = s.causeOf g) (h3 : t.pendingOf g = s.pendingOf g) : Noted g s t :=
  ⟨fun e => he.trans e, .inl ⟨h1, h2, h3⟩⟩

theorem noted_of_link {A : MotorIx → Cmd → Prop} (h : LinkEffect A s t) : Noted g s t := by
  obtain ⟨sent, -, -, hio, hquiet, -⟩ := h.log
  refine ⟨fun e => hio.mpr (.inl e), ?_⟩
  by_cases hbad : ∃ x ∈ sent, x.outcome ≠ .ok
  · obtain hg | ⟨hr, hf⟩ := (h.groups g).cases
    · exact .inl hg
    · exact .inr ⟨hr, hf, hio.mpr (.inr hbad)⟩
  · push Not at hbad
    obtain ⟨h1, h2, h3, h4, -⟩ := hquiet hbad
    exact .inl (quiet_stateOf ⟨h1, h2, h3, h4⟩ g)

theorem noted_setState (hne : g ≠ h) (s : State) (x : MState) : Noted g s (s.setState h x) :=
  noted_of_same rfl (by simp [hne]) rfl rfl

theorem noted_setPending (hne : g ≠ h) (s : State) (b : Bool) : Noted g s (s.setPending h b) :=
  noted_of_same rfl rfl rfl (by simp [hne])

theorem noted_verifyFailure (s : State) : Noted g s s.verifyFailure := noted_of_same rfl rfl rfl rfl

theorem noted_setRampcur (s : State) (r : Vector Half 8) : Noted g s { s with rampcur := r } := noted_of_same rfl rfl rfl rfl

/-! ### The sequences of another group -/

theorem noted_stopSequence (g h : GroupIx) (s : State) : Noted g s (s.stopSequence h) := by
  have h1 : LinkEffect anyCmd s (stopTraffic h s) := stopTraffic_effect (fun _ _ _ _ => trivial) s (LinkEffect_refl _ s)
  have h2 : Noted g s ((stopTraffic h s).zeroRamps (s.members h)) := by
    rw [(zeroRamps_spec (s.members h) (stopTraffic h s)).2]
    exact Noted_trans (noted_of_link h1) (noted_setRampcur _ _)
  obtain e | e := stopSequence_eq h s <;> rw [e]
  · exact h2
  · exact Noted_trans h2 (noted_verifyFailure _)

theorem noted_stopToDisabled (hne : g ≠ h) (s : State) : Noted g s (s.stopToDisabled h) :=
  Noted_trans (noted_stopSequence g h s) (noted_setState hne _ _)

theorem noted_disabling (hne : g ≠ h) (s : State) : Noted g s (s.disabling h) :=
  Noted_trans (noted_setState hne s _) (noted_stopToDisabled hne _)

theorem noted_estopStepGroup (hne : g ≠ h) (s : State) : Noted g s (s.estopStepGroup h) := by
  rw [State.estopStepGroup]
  split
  · exact noted_stopToDisabled hne s
  · have h1 := (decelMotors_spec (s.members h) (nodup_members s h) s).2
    generalize (s.members h).foldl (fun s m => s.decelMotor m) s = u at h1
    have h2 : LinkEffect anyCmd u ((s.members h).foldl (fun s m => (s.command m (s.velocityCmd (s.rampOf m))).2) u) :=
      foldl_effect _ _ u (LinkEffect_refl _ u) fun t m _ _ => command_effect t m _ trivial
    have h3 : Noted g s u := by rw [h1]; exact noted_setRampcur s _
    exact Noted_trans h3 (noted_of_link h2)

/-- How the member loop of Enabling(h) ends: traffic, then the group's new state, or none after an IoErr (R270, R273). -/
inductive EnableStop (h : GroupIx) (u : State) : State → Prop
  | ioErr : EnableStop h u u
  | enabled : EnableStop h u (u.setState h .enabled)
  | failed : EnableStop h u (u.setState h .disabled).verifyFailure

theorem enableMembers_stop (h : GroupIx) (ms : List MotorIx) (s : State) :
    ∃ u, LinkEffect anyCmd s u ∧ EnableStop h u (enableMembers h ms s) := by
  induction ms generalizing s with
  | nil => exact ⟨s, LinkEffect_refl _ s, .enabled⟩
  | cons m ms ih =>
    have h1 := sendUntilErr_effect (A := anyCmd) m s.handshake (fun _ _ => trivial) s (LinkEffect_refl _ s)
    unfold enableMembers
    split
    · next s1 e => rw [e] at h1; exact ⟨s1, h1, .ioErr⟩
    · next s1 e =>
      rw [e] at h1
      have h2 := tryEnable_effect (A := anyCmd) m trivial trivial s1.enableAttempts s1 h1
      split
      · next s2 e2 => rw [e2] at h2; exact ⟨s2, h2, .ioErr⟩
      · next s2 e2 =>
        rw [e2] at h2
        exact ⟨_, foldl_effect _ _ s2 h2 fun t k _ _ => command_effect t k _ trivial, .failed⟩
      · next s2 e2 =>
        rw [e2] at h2
        obtain ⟨u, hu, hend⟩ := ih s2
        exact ⟨u, LinkEffect_trans h2 hu, hend⟩

theorem noted_enabling (hne : g ≠ h) (s : State) : Noted g s (s.enabling h) := by
  obtain ⟨u, hu, hend⟩ := enableMembers_stop h (s.members h) (s.setState h .enabling)
  have h1 : Noted g s u := Noted_trans (noted_setState hne s _) (noted_of_link hu)
  change EnableStop h u (s.enabling h) at hend
  generalize s.enabling h = t at hend
  cases hend with
  | ioErr => exact h1
  | enabled => exact Noted_trans h1 (noted_setState hne u _)
  | failed => exact Noted_trans h1 (Noted_trans (noted_setState hne u _) (noted_verifyFailure _))

theorem noted_transition (hne : g ≠ h) (now : Time) (s : State) : Noted g s (s.transition now h) := by
  unfold State.transition
  split
  · split
    · unfold State.requestEnable
      split
      · exact noted_setPending hne s false
      · exact Noted_trans (noted_setPending hne s false) (noted_enabling hne _)
    · exact Noted_refl g s
  · split
    · exact Noted_trans (noted_setPending hne s false) (noted_disabling hne _)
    · exact Noted_refl g s
  · exact noted_estopStepGroup hne s
  all_goals exact Noted_refl g s

theorem noted_shutdownGroup (hne : g ≠ h) (s : State) : Noted g s (s.shutdownGroup h) := by
  unfold State.shutdownGroup
  simp only
  split
  · exact Noted_trans (noted_disabling hne s) (noted_setPending hne _ _)
  · exact Noted_trans (noted_stopToDisabled hne s) (noted_setPending hne _ _)
  all_goals exact noted_setPending hne s _

/-! ### The group's own turn -/

/-- An Enabling that ends in EmergencyStop saw an IoErr (R273). -/
theorem enabling_estop (hst : (s.enabling g).stateOf g = .emergencyStop) : (s.enabling g).reply.ioErr = true := by
  obtain ⟨u, hu, hend⟩ := enableMembers_stop g (s.members g) (s.setState g .enabling)
  change EnableStop g u (s.enabling g) at hend
  generalize s.enabling g = t at hst hend
  cases hend with
  | ioErr =>
    obtain ⟨h1, -⟩ | ⟨-, -, he⟩ := (noted_of_link (g := g) hu).group
    · simp [h1] at hst
    · exact he
  | enabled => simp at hst
  | failed => simp [State.verifyFailure] at hst

theorem transition_estop_of_disabled (hst : s.stateOf g = .disabled)
    (ht : (s.transition now g).stateOf g = .emergencyStop) : (s.transition now g).reply.ioErr = true := by
  unfold State.transition at ht ⊢
  rw [hst] at ht ⊢
  simp only at ht ⊢
  split at ht
  · next hp =>
    rw [if_pos hp]
    unfold State.requestEnable at ht ⊢
    split at ht
    · rw [State.setPending_stateOf, hst] at ht; cases ht
    · next hs => rw [if_neg hs]; exact enabling_estop ht
  · rw [hst] at ht; cases ht

theorem transition_event (now : Time) (g : GroupIx) (s : State) (he : s.reply.ioErr = true) :
    (s.transition now g).reply.ioErr = true := by
  obtain ⟨_, -, -, hio, -⟩ :=
    (transition_spec (g := g) (A := anyCmd) now s (fun _ _ _ _ => trivial) fun _ _ _ _ => trivial).1.log
  exact hio.mpr (.inl he)

/-! ### A group's view of TICK and SHUTDOWN -/

/-- The loop over the groups, seen from one of them, with the events (cf. `forGroups_view`). -/
theorem forGroups_noted (f : GroupIx → State → State) (g : GroupIx) (s : State)
    (hf : ∀ h t, h ≠ g → Outside g t (f h t) ∧ Noted g t (f h t)) :
    ∃ s1, (Outside g s s1 ∧ Noted g s s1) ∧ Noted g (f g s1) (forGroups f s) := by
  obtain ⟨pre, post, hl⟩ := List.append_of_mem (mem_allGroups g)
  have hn := nodup_allGroups
  rw [hl] at hn
  have hpre : g ∉ pre := fun hm => List.disjoint_of_nodup_append hn hm List.mem_cons_self
  have hpost : g ∉ post := (List.nodup_cons.mp (List.nodup_append.mp hn).2.1).1
  refine ⟨pre.foldl (fun s g => f g s) s, ?_, ?_⟩
  · exact foldl_keeps (P := fun t => Outside g s t ∧ Noted g s t) _ pre s
      (fun t k hk ht => have hk' := hf k t fun e => hpre (e ▸ hk)
        ⟨Outside_trans ht.1 hk'.1, Noted_trans ht.2 hk'.2⟩) ⟨Outside_refl g s, Noted_refl g s⟩
  · rw [forGroups, hl, List.foldl_append, List.foldl_cons]
    exact foldl_keeps (P := Noted g _) _ post _ (fun t k hk ht => Noted_trans ht (hf k t fun e => hpost (e ▸ hk)).2)
      (Noted_refl g _)

/-- A TICK with fresh input seen from group `g`, with the events (cf. `tick_view`). -/
theorem tick_noted (now : Time) (g : GroupIx) (s : State) (hs : s.stale now = false) :
    ∃ s1, (Outside g s s1 ∧ Noted g s s1) ∧ Noted g (s1.transition now g) (s.tickSteps now) := by
  have hw : s.watchdogCheck now = s := by rw [State.watchdogCheck, if_neg (by simp [hs])]
  obtain ⟨s1, h1, h2⟩ := forGroups_noted (State.transition now) g s fun h t hh =>
    ⟨transition_outside now g h t hh, noted_transition hh.symm now t⟩
  refine ⟨s1, h1, Noted_trans h2 ?_⟩
  unfold State.tickSteps
  rw [hw]
  generalize forGroups (State.transition now) s = u
  have hr := (rampStep_spec u).2.2
  generalize forGroups State.rampGroup u = v at hr
  have hd : LinkEffect anyCmd v (forGroups State.driveGroup v) := driveStep_effect v fun _ _ _ _ _ => trivial
  have hv : Noted g u v := by rw [hr]; exact noted_setRampcur u _
  exact Noted_trans hv (noted_of_link hd)

theorem shutdown_noted (g : GroupIx) (s : State) :
    ∃ s1, (Outside g s s1 ∧ Noted g s s1) ∧ Noted g (s1.shutdownGroup g) (forGroups State.shutdownGroup s) :=
  forGroups_noted State.shutdownGroup g s fun _ t hh =>
    ⟨SeqEffect_outside (A := anyCmd) hh.symm (shutdownGroup_spec t fun _ _ _ _ => trivial).1, noted_shutdownGroup hh.symm t⟩

/-- A Disabled group that a TICK leaves in EmergencyStop (R273). -/
theorem tick_disabled_estop (hs : s.stale now = false) (hst : s.stateOf g = .disabled)
    (ht : (s.tickSteps now).stateOf g = .emergencyStop) : (s.tickSteps now).reply.ioErr = true := by
  obtain ⟨s1, ⟨-, h1⟩, h2⟩ := tick_noted now g s hs
  obtain ⟨hst1, -⟩ | ⟨hr, -⟩ := h1.group
  · obtain ⟨h, -⟩ | ⟨-, -, he⟩ := h2.group
    · exact h2.event (transition_estop_of_disabled (hst1.trans hst) (h.symm.trans ht))
    · exact he
  · rw [hst] at hr; cases hr

theorem maxRamp_outside (h : Outside g s t) : t.maxRamp g = s.maxRamp g := by
  rw [State.maxRamp, State.maxRamp, keeps_members h.keeps]
  exact congrArg _ (List.map_congr_left fun m hm => by rw [h.ramps m ((mem_members s g m).mp hm)])

/-- An Enabled group under a TICK with fresh input: driven on, stopped on its request, or stopped by a transport fault
(R263, R316). -/
inductive DrivenTick (g : GroupIx) (s t : State) : Prop
  | driven (state : t.stateOf g = .enabled)
  | stopped (pending : s.pendingOf g = true) (state : t.stateOf g = .disabled) (cause : t.causeOf g = s.causeOf g)
  | fault (state : t.stateOf g = .emergencyStop ∨ t.stateOf g = .disabled ∧ s.maxRamp g = 0) (cause : t.causeOf g = 3)
    (event : t.reply.ioErr = true)

theorem tick_enabled (hs : s.stale now = false) (hst : s.stateOf g = .enabled) : DrivenTick g s (s.tickSteps now) := by
  obtain ⟨s1, ⟨ho, h1⟩, h2⟩ := tick_noted now g s hs
  have hturn := (transition_spec (g := g) (A := anyCmd) now s1 (fun _ _ _ _ => trivial) fun _ _ _ _ => trivial).2
  have hevent := transition_event now g s1
  generalize s1.transition now g = s2 at h2 hturn hevent
  generalize s.tickSteps now = t at h2
  have calm (hr : reactsToFault (s2.stateOf g) = false) : t.stateOf g = s2.stateOf g ∧ t.causeOf g = s2.causeOf g := by
    obtain ⟨h1, h2, -⟩ | ⟨h, -⟩ := h2.group
    · exact ⟨h1, h2⟩
    · rw [hr] at h; cases h
  obtain ⟨a1, a2, a3⟩ | ⟨-, ⟨a1, a2, -⟩, ae⟩ := h1.group
  · rw [hst] at a1
    cases hturn with
    | none h =>
      subst h
      obtain ⟨b1, -⟩ | ⟨-, ⟨b1, b2, -⟩, be⟩ := h2.group
      · exact .driven (b1.trans a1)
      · exact .fault (.inl b1) b2 be
    | disabling _ pending after _ cause =>
      obtain ⟨b1, b2⟩ := calm (by rw [after]; rfl)
      exact .stopped (a3.symm.trans pending) (b1.trans after) (b2.trans (cause.trans a2))
    | discarded st | enabling st | stopped st | decelerated st => rw [a1] at st; cases st
  · cases hturn with
    | none _ why => exact absurd a1 why.1
    | stopped _ rest after _ cause =>
      obtain ⟨b1, b2⟩ := calm (by rw [after]; rfl)
      exact .fault (.inr ⟨b1.trans after, (maxRamp_outside ho).symm.trans ((maxRamp_zero s1 g).mpr rest)⟩)
        (b2.trans (cause.trans a2)) (h2.event (hevent ae))
    | decelerated _ _ after _ cause =>
      obtain ⟨b1, b2⟩ := calm (by rw [after]; rfl)
      exact .fault (.inl (b1.trans after)) (b2.trans (cause.trans a2)) (h2.event (hevent ae))
    | discarded st | enabling st | disabling st => rw [a1] at st; cases st

/-- An Enabled group that SHUTDOWN has disabled keeps its cause, or a transport fault stopped it first (R345, R316). -/
theorem shutdown_cause (g : GroupIx) (s : State) (hb : boundary (s.stateOf g) = true) :
    (forGroups State.shutdownGroup s).causeOf g = s.causeOf g ∨
      (forGroups State.shutdownGroup s).causeOf g = 3 ∧ (forGroups State.shutdownGroup s).reply.ioErr = true := by
  obtain ⟨s1, ⟨-, h1⟩, h2⟩ := shutdown_noted g s
  obtain ⟨hseq, -, hcause, hdis, -⟩ := shutdownGroup_spec (g := g) (A := anyCmd) s1 fun _ _ _ _ => trivial
  obtain ⟨_, -, -, hio, -⟩ := hseq.log
  have hb1 : boundary (s1.stateOf g) = true := by
    obtain ⟨h, -⟩ | ⟨-, ⟨h, -⟩, -⟩ := h1.group <;> rw [h]
    · exact hb
    · rfl
  have hc : (forGroups State.shutdownGroup s).causeOf g = s1.causeOf g := by
    obtain ⟨-, h, -⟩ | ⟨hr, -⟩ := h2.group
    · exact h.trans hcause
    · rw [hdis hb1] at hr; cases hr
  obtain ⟨-, h, -⟩ | ⟨-, ⟨-, h, -⟩, he⟩ := h1.group
  · exact .inl (hc.trans h)
  · exact .inr ⟨hc.trans h, h2.event (hio.mpr (.inl he))⟩

end

/-! ### The table -/

/-- An operation whose run noted a fault saw an IoErr. -/
theorem sawIoErr_of_run {A : MotorIx → Cmd → Prop} {s u t : State} (h : RunEffect A s.begin u) (ht : t.txLog = u.txLog)
    (he : u.reply.ioErr = true) : s.sawIoErr t := by
  obtain ⟨sent, hlog, -, hio, -⟩ := h.log
  have hlog' : t.txLog = s.txLog ++ sent := ht.trans hlog
  rw [State.sawIoErr, hlog', List.drop_left]
  obtain h | h := hio.mp he
  · cases h
  · exact h

/-- What O54 says of an operation and a group. -/
def State.Moves (i : Instr) (s t : State) (g : GroupIx) : Prop :=
  let watchdog (now : Time) := s.stale now = true ∧ t.causeOf g = if s.inputLost = true then 2 else 1
  let fault := s.sawIoErr t ∧ t.causeOf g = 3
  t.stateOf g = s.stateOf g ∨
  (s.stateOf g = .disabled ∧ (t.stateOf g = .enabled ∨ t.stateOf g = .emergencyStop ∧ fault) ∧
    s.pendingOf g = true ∧ ∃ now, i = .tick now ∧ s.stale now = false) ∨
  (s.stateOf g = .enabled ∧ t.stateOf g = .disabled ∧
    ((∃ now, i = .tick now ∧ s.stale now = false ∧ s.pendingOf g = true ∧ t.causeOf g = s.causeOf g) ∨
      (∃ now, i = .tick now ∧ s.maxRamp g = 0 ∧ (watchdog now ∨ s.stale now = false ∧ fault)) ∨
      (i = .shutdown ∧ (t.causeOf g = s.causeOf g ∨ fault)))) ∨
  (s.stateOf g = .enabled ∧ t.stateOf g = .emergencyStop ∧
    ((∃ now, i = .tick now ∧ (s.maxRamp g ≠ 0 ∧ watchdog now ∨ s.stale now = false ∧ fault)) ∨
      (i = .ioError ∧ t.causeOf g = 3) ∨ ((∃ m c aw, i = .transact m c aw) ∧ fault))) ∨
  (s.stateOf g = .emergencyStop ∧ t.stateOf g = .disabled ∧ t.causeOf g = s.causeOf g ∧
    ((∃ now, i = .tick now ∧ s.maxRamp g = 0) ∨ i = .shutdown))

section
variable {s u : State} {g : GroupIx} {now : Time}

theorem moves_tick_disabled (hu : u = s.begin.tickSteps now) (hst : s.stateOf g = .disabled) :
    s.Moves (.tick now) u.answerEvents g := by
  have hend := tick_end g now s.begin (by rw [State.begin_stateOf, hst]; rfl)
  have hfault := tick_disabled_estop (s := s.begin) (g := g) (now := now)
  rw [← hu] at hend hfault
  by_cases hd : u.stateOf g = .disabled
  · exact .inl (hd.trans hst.symm)
  obtain ⟨hp, hs, -⟩ := hend.fromDisabled hst hd
  have hcause : u.stateOf g = .emergencyStop → u.causeOf g = 3 := fun h => by
    obtain ⟨-, -, h' | h'⟩ := hend.fromDisabled hst hd
    · rw [h] at h'; cases h'
    · exact h'
  refine .inr (.inl ⟨hst, ?_, hp, now, rfl, hs⟩)
  obtain h | h | h := boundary_cases hend.boundary
  · exact absurd h hd
  · exact .inl h
  · exact .inr ⟨h, sawIoErr_of_run (ticked_run hu) rfl (hfault hs hst h), hcause h⟩

theorem moves_tick_enabled (hu : u = s.begin.tickSteps now) (hst : s.stateOf g = .enabled) :
    s.Moves (.tick now) u.answerEvents g := by
  by_cases hs : s.stale now = true
  · obtain ⟨h1, -, h3, -⟩ := tick_watchdog s.begin g now hst hs
    rw [← hu] at h1 h3
    by_cases hm : s.maxRamp g = 0
    · exact .inr (.inr (.inl ⟨hst, h1.trans (if_pos hm), .inr (.inl ⟨now, rfl, hm, .inl ⟨hs, h3⟩⟩)⟩))
    · exact .inr (.inr (.inr (.inl ⟨hst, h1.trans (if_neg hm), .inl ⟨now, rfl, .inl ⟨hm, hs, h3⟩⟩⟩)))
  · have hs : s.stale now = false := by simpa using hs
    have hend := tick_enabled (s := s.begin) (g := g) hs hst
    rw [← hu] at hend
    cases hend with
    | driven state => exact .inl (state.trans hst.symm)
    | stopped pending state cause =>
      exact .inr (.inr (.inl ⟨hst, state, .inl ⟨now, rfl, hs, pending, cause⟩⟩))
    | fault state cause event =>
      have hsaw : s.sawIoErr u.answerEvents := sawIoErr_of_run (ticked_run hu) rfl event
      obtain h | ⟨h, hm⟩ := state
      · exact .inr (.inr (.inr (.inl ⟨hst, h, .inl ⟨now, rfl, .inr ⟨hs, hsaw, cause⟩⟩⟩)))
      · exact .inr (.inr (.inl ⟨hst, h, .inr (.inl ⟨now, rfl, hm, .inr ⟨hs, hsaw, cause⟩⟩)⟩))

theorem moves_tick_estop (hu : u = s.begin.tickSteps now) (hst : s.stateOf g = .emergencyStop) :
    s.Moves (.tick now) u.answerEvents g := by
  obtain ⟨h1, -, h3, -⟩ := tick_estop s.begin g now hst
  rw [← hu] at h1 h3
  by_cases hm : s.maxRamp g = 0
  · exact .inr (.inr (.inr (.inr ⟨hst, h1.trans (if_pos hm), h3, .inl ⟨now, rfl, hm⟩⟩)))
  · exact .inl ((h1.trans (if_neg hm)).trans hst.symm)

theorem moves_shutdown (hu : u = forGroups State.shutdownGroup s.begin) (hb : boundary (s.stateOf g) = true) :
    s.Moves .shutdown u.setHalted.answerEvents g := by
  obtain ⟨h1, -, h3, -⟩ := shutdown_end g s.begin hb
  have hcause := shutdown_cause g s.begin hb
  rw [← hu] at h1 h3 hcause
  obtain hst | hst | hst := boundary_cases hb
  · exact .inl (h1.trans hst.symm)
  · refine .inr (.inr (.inl ⟨hst, h1, .inr (.inr ⟨rfl, hcause.imp_right fun ⟨h, he⟩ => ⟨?_, h⟩⟩)⟩))
    exact sawIoErr_of_run (shutDown_run hu) rfl he
  · exact .inr (.inr (.inr (.inr ⟨hst, h1, h3.resolve_right (not_not.mpr hst), .inr rfl⟩)))

/-- A transport fault outside the sequences stops an Enabled group. -/
theorem enabled_of_reacts (hb : boundary (s.stateOf g) = true) (hr : reactsToFault (s.stateOf g) = true) :
    s.stateOf g = .enabled := by
  obtain h | h | h := boundary_cases hb
  · rw [h] at hr; cases hr
  · exact h
  · rw [h] at hr; cases hr

theorem moves_ioError (hu : u = s.begin.transportFault) (hb : boundary (s.stateOf g) = true) :
    s.Moves .ioError u.answerEvents g := by
  have h1 : u.stateOf g = _ := hu ▸ transportFault_stateOf s.begin g
  have h2 : u.causeOf g = _ := hu ▸ transportFault_causeOf s.begin g
  by_cases hr : reactsToFault (s.stateOf g) = true
  · exact .inr (.inr (.inr (.inl ⟨enabled_of_reacts hb hr, h1.trans (if_pos hr), .inr (.inl ⟨rfl, h2.trans (if_pos hr)⟩)⟩)))
  · exact .inl (h1.trans (if_neg hr))

theorem moves_transact {A : MotorIx → Cmd → Prop} {m aw : Byte} {c : Cmd} {st : Status} {r : Result}
    (hl : LinkEffect A s.begin u) (hb : boundary (s.stateOf g) = true) :
    s.Moves (.transact m c aw) (u.answer st r) g := by
  obtain ⟨h, -⟩ | ⟨hr, ⟨h1, h2, -⟩, he⟩ := (noted_of_link (g := g) hl).group
  · exact .inl h
  · have hsaw : s.sawIoErr (u.answer st r) := sawIoErr_of_run (SeqEffect_run (LinkEffect_seq (g := g) hl)) rfl he
    exact .inr (.inr (.inr (.inl ⟨enabled_of_reacts hb hr, h1, .inr (.inr ⟨⟨m, c, aw, rfl⟩, hsaw, h2⟩)⟩)))

end

/-- Settles O54: TICK by the state the group begins it in, SHUTDOWN, and the two faults outside them; no other operation
writes a group's state. -/
theorem transitionsAreTheTable : Obligations.TransitionsAreTheTable := by
  intro i s t g he hb
  change s.Moves i t g
  cases exec_opEnd he with
  | returned | failed | rxNext | inputSample | inputLost | enableToggle | transportReopened => exact .inl rfl
  | cfgWrite idx v _ u r _ hreg hw =>
    obtain ⟨rs, rfl⟩ | ⟨-, rfl⟩ | ⟨m, w, -, rfl⟩ := writeReg_cases r v _ u hw <;> exact .inl rfl
  | rxFeed data => rw [appendAll_frame]; exact .inl rfl
  | ioError _ u _ hu => exact moves_ioError hu hb
  | tick now _ u _ hu =>
    obtain hst | hst | hst := boundary_cases hb
    · exact moves_tick_disabled hu hst
    · exact moves_tick_enabled hu hst
    · exact moves_tick_estop hu hst
  | shutdown _ u _ hu => exact moves_shutdown hu hb
  | transact _ _ _ _ _ u _ _ _ _ _ hl => exact moves_transact hl hb

end Sys2Proof.Machine
end

section
/-! PROOFS. The frames of a TICK (O59): each is accounted for by a member of a group and a command of the sequences, or by
a velocity to a group that is still driven at the end. -/

namespace Sys2Proof.Machine

/-! ### The sequences' frames are ENCODE's (R160, log 10) -/

section
variable {s : State} {m : MotorIx} {c : Cmd}

theorem addrOf_lt (s : State) (m : MotorIx) : s.addrOf m < 2048 := ((s.entryOf m).extractLsb' 0 11).isLt

theorem addrOf_toNat (s : State) (m : MotorIx) : (((s.entryOf m).extractLsb' 0 11).setWidth 16).toNat = s.addrOf m := by
  rw [BitVec.toNat_setWidth, Nat.mod_eq_of_lt]
  · rfl
  · exact Nat.lt_trans ((s.entryOf m).extractLsb' 0 11).isLt (by decide)

/-- The address of a valid entry of a legal table passes ENCODE's check (R54, R162, R163). -/
theorem addrOk_of_tableLegal (h : s.TableLegal) (hv : entryValid (s.entryOf m) = true) : addrOk s.proto (s.addrOf m) = true := by
  have hpos := h.addrPositive m hv
  cases hp : s.proto with
  | can => exact (addrOk_can _).mpr ⟨hpos, Nat.le_of_lt_succ (addrOf_lt s m)⟩
  | rs485 => exact (addrOk_rs485 _).mpr ⟨hpos, h.addrFits m hv hp⟩

theorem cmdOk_of_operands (he : ∀ e, c = .enable e → e = 0 ∨ e = 1)
    (hp : ∀ sel kp ki kd kv, c = .pidGains sel kp ki kd kv → sel = 0 ∨ sel = 1) : cmdOk c = true := by
  cases c with
  | enable e => exact cmdOk_enable.mpr (he e rfl)
  | pidGains sel kp ki kd kv => exact cmdOk_pidGains.mpr (hp sel kp ki kd kv rfl)
  | _ => rfl

theorem variantOf_proto (v : Proto) : variantOf (if v = .can then 0 else 1) = some v := by cases v <;> rfl

/-- ENCODE of the configured format and a valid entry's address gives the sequences' frame. -/
theorem encodeOp_frameFor (hr : s.halted = false) (ht : s.TableLegal) (hv : entryValid (s.entryOf m) = true)
    (hc : cmdOk c = true) (hf : payloadFits s.proto (s.payload c) = true) :
    exec (.encodeOp (if s.proto = .can then 0 else 1) (((s.entryOf m).extractLsb' 0 11).setWidth 16) c) s
      = .next (s.returned .ok (.bytes (s.frameFor m c))) := by
  refine encodeOp_ok hr (variantOf_proto s.proto) ?_
  rw [addrOf_toNat, encodeFrame, hc, addrOk_of_tableLegal ht hv, hf]
  rfl

end

/-! ### Accounting for the frames -/

/-- Every frame sent between `s` and `t` is a command of the sequences to a member of some group, or a velocity to a member
of a group of `P` that is driven at `t` (R285). -/
def Accounted (P : GroupIx → Prop) (s t : State) : Prop :=
  ∃ sent : List Sent, t.txLog = s.txLog ++ sent ∧
    ∀ x ∈ sent, ∃ (g : GroupIx) (m : MotorIx) (c : Cmd), s.isMember g m = true ∧ x.frame = s.frameFor m c ∧
      (seqCmd s c ∨ P g ∧ ∃ v : Half, c = s.velocityCmd v ∧ driven (t.stateOf g) = true)

section
variable {P Q : GroupIx → Prop} {s t u : State} {g : GroupIx} {now : Time}

theorem accounted_of_txLog (h : t.txLog = s.txLog) : Accounted P s t := ⟨[], by simp [h], by simp⟩

theorem Accounted_trans (h : Accounted P s t) (k : Accounted Q t u) (hk : s.KeepsConfig t)
    (hd : ∀ g, P g → driven (t.stateOf g) = true → Q g ∧ driven (u.stateOf g) = true) : Accounted Q s u := by
  obtain ⟨l, hl, h⟩ := h
  obtain ⟨l', hl', h'⟩ := k
  refine ⟨l ++ l', by rw [hl', hl, List.append_assoc], fun x hx => ?_⟩
  obtain hx | hx := List.mem_append.mp hx
  · obtain ⟨g, m, c, hm, hf, hc⟩ := h x hx
    refine ⟨g, m, c, hm, hf, hc.imp_right fun ⟨hP, v, hv, hdr⟩ => ?_⟩
    obtain ⟨hQ, hdr'⟩ := hd g hP hdr
    exact ⟨hQ, v, hv, hdr'⟩
  · obtain ⟨g, m, c, hm, hf, hc⟩ := h' x hx
    refine ⟨g, m, c, ?_, hf.trans (keeps_frameFor hk m c), hc.imp (seqCmd_keeps hk c).mp fun ⟨hQ, v, hv, hdr⟩ => ?_⟩
    · rwa [keeps_isMember hk] at hm
    · exact ⟨hQ, v, hv.trans (keeps_velocityCmd hk v), hdr⟩

/-- A driven group stays driven under other groups' traffic. -/
theorem driven_of_linkGroup (h : LinkGroup s t g) (hd : driven (s.stateOf g) = true) : driven (t.stateOf g) = true := by
  obtain ⟨h, -⟩ | ⟨-, h, -⟩ := h.cases <;> rw [h]
  · exact hd
  · rfl

/-- What group `g` sends in its turn. -/
def turnCmd (g : GroupIx) (s t : State) (m : MotorIx) (c : Cmd) : Prop :=
  s.isMember g m = true ∧ (seqCmd s c ∨ ∃ v : Half, c = s.velocityCmd v ∧ driven (t.stateOf g) = true)

/-- A velocity of the turn goes to a group that its turn leaves in EmergencyStop (R279, R285). -/
theorem transition_turn (now : Time) (g : GroupIx) (s : State) :
    SeqEffect g (turnCmd g s (s.transition now g)) s (s.transition now g) := by
  by_cases hd : driven ((s.transition now g).stateOf g) = true
  · exact (transition_spec now s (fun m c hm hc => ⟨hm, .inl hc⟩) fun _ m v hm => ⟨hm, .inr ⟨v, rfl, hd⟩⟩).1
  · by_cases hst : s.stateOf g = .emergencyStop
    · have he : s.transition now g = s.estopStepGroup g := by simp [State.transition, hst]
      have hrest : ∀ m, s.isMember g m = true → s.rampOf m = 0 := by
        by_contra hmove
        push Not at hmove
        refine hd ?_
        rw [he, (estopStepGroup_decel (A := anyCmd) s (fun _ _ _ => trivial) hst hmove).2.1]
        rfl
      rw [he, estopStepGroup_atRest s hrest]
      exact (stopToDisabled_spec s (fun m c hm hc => ⟨hm, .inl hc⟩) (by rw [hst]; rfl)).1
    · exact (transition_spec now s (fun m c hm hc => ⟨hm, .inl hc⟩) fun h => absurd h hst).1

theorem accounted_of_turn (h : SeqEffect g (turnCmd g s t) s t) (hP : P g) : Accounted P s t := by
  obtain ⟨sent, hlog, hframes, -⟩ := h.log
  refine ⟨sent, hlog, fun x hx => ?_⟩
  obtain ⟨m, c, ⟨hm, hc⟩, hf⟩ := hframes x hx
  exact ⟨g, m, c, hm, hf, hc.imp_right fun hv => ⟨hP, hv⟩⟩

/-- The transitions of a list of groups that have not had their turn. -/
theorem accounted_transitions (l : List GroupIx) (hn : l.Nodup) (P : GroupIx → Prop) (hl : ∀ g ∈ l, ¬ P g) (t : State)
    (hk : s.KeepsConfig t) (h : Accounted P s t) :
    s.KeepsConfig (l.foldl (fun s g => s.transition now g) t) ∧
      Accounted (fun _ => True) s (l.foldl (fun s g => s.transition now g) t) := by
  induction l generalizing P t with
  | nil => exact ⟨hk, Accounted_trans h (accounted_of_txLog rfl) hk fun g _ hd => ⟨trivial, hd⟩⟩
  | cons k l ih =>
    obtain ⟨hkl, hn⟩ := List.nodup_cons.mp hn
    have hturn := transition_turn now k t
    refine ih hn (fun g => P g ∨ g = k) (fun g hg => ?_) _ (KeepsConfig_trans hk hturn.keeps) ?_
    · rintro (hP | rfl)
      · exact hl g (List.mem_cons_of_mem _ hg) hP
      · exact hkl hg
    · refine Accounted_trans h (accounted_of_turn hturn (.inr rfl)) hk fun g hP hd => ⟨.inl hP, ?_⟩
      have hne : g ≠ k := fun e => hl k List.mem_cons_self (e ▸ hP)
      exact driven_of_linkGroup (hturn.others g hne) hd

/-- The velocities of the driving step (R282, R285). -/
theorem accounted_drive (s : State) : Accounted (fun _ => True) s (forGroups State.driveGroup s) ∧
    ∀ g, LinkGroup s (forGroups State.driveGroup s) g := by
  have h : LinkEffect (fun m c => ∃ g v, s.isMember g m = true ∧ s.stateOf g = .enabled ∧ c = s.velocityCmd v) s
      (forGroups State.driveGroup s) := driveStep_effect s fun g m v hm hst => ⟨g, v, hm, hst, rfl⟩
  generalize forGroups State.driveGroup s = t at h
  refine ⟨?_, h.groups⟩
  obtain ⟨sent, hlog, hframes, -⟩ := h.log
  refine ⟨sent, hlog, fun x hx => ?_⟩
  obtain ⟨m, c, ⟨g, v, hm, hst, rfl⟩, hf⟩ := hframes x hx
  exact ⟨g, m, _, hm, hf, .inr ⟨trivial, v, rfl, driven_of_linkGroup (h.groups g) (by rw [hst]; rfl)⟩⟩

/-- Every frame of a TICK is accounted for (R285). -/
theorem accounted_tick (now : Time) (s : State) : Accounted (fun _ => True) s (s.tickSteps now) := by
  obtain ⟨-, -, -, -, hkw, -, hlog⟩ := watchdogCheck_group now s 0
  have h1 := accounted_transitions (s := s) (now := now) allGroups nodup_allGroups (fun _ => False) (fun _ _ => id)
    (s.watchdogCheck now) hkw (accounted_of_txLog hlog)
  obtain ⟨hk, h1⟩ := h1
  unfold State.tickSteps
  change s.KeepsConfig (forGroups (State.transition now) (s.watchdogCheck now)) at hk
  change Accounted _ s (forGroups (State.transition now) (s.watchdogCheck now)) at h1
  generalize forGroups (State.transition now) (s.watchdogCheck now) = u at hk h1
  have hr := (rampStep_spec u).2.2
  generalize forGroups State.rampGroup u = v at hr
  have hkv : s.KeepsConfig v := by rw [hr]; exact { hk with }
  have h2 : Accounted (fun _ => True) s v := by rw [hr]; exact h1
  obtain ⟨h3, hg⟩ := accounted_drive v
  exact Accounted_trans h2 h3 hkv fun g _ hd => ⟨trivial, driven_of_linkGroup (hg g) hd⟩

end

/-- Settles O59: the frames of a TICK are accounted for, and ENCODE accepts a valid entry of a legal table. -/
theorem tickSendsOnlyItsCommands : Obligations.TickSendsOnlyItsCommands := by
  intro s
  refine ⟨fun m c hr ht hv he hp => ?_, fun t now he => ?_⟩
  · exact encodeOp_frameFor hr ht hv (cmdOk_of_operands he fun sel kp ki kd kv h => (hp sel kp ki kd kv h).2)
      (payloadFits_payload fun sel kp ki kd kv h => (hp sel kp ki kd kv h).1)
  · have h : Accounted (fun _ => True) s t := by
      obtain ⟨-, rfl⟩ | ⟨-, u, hu, rfl⟩ := tick_cases now s t he
      · exact accounted_of_txLog rfl
      · exact show Accounted _ s.begin u from hu ▸ accounted_tick now s.begin
    obtain ⟨sent, hlog, h⟩ := h
    refine ⟨sent, hlog, fun x hx => ?_⟩
    obtain ⟨g, m, c, hm, hf, hc⟩ := h x hx
    refine ⟨g, m, c, hm, hf, ?_⟩
    obtain (h | h | h | h | h) | ⟨-, h⟩ := hc
    · exact .inl h
    · exact .inr (.inl h)
    · exact .inr (.inr (.inl h))
    · exact .inr (.inr (.inr (.inl h)))
    · exact .inr (.inr (.inr (.inr (.inl h))))
    · exact .inr (.inr (.inr (.inr (.inr h))))

end Sys2Proof.Machine
end

section
/-! PROOFS. The bound on the frames of each operation that sends (O60). -/

namespace Sys2Proof.Machine

/-- At most `n` frames are put on the transmit stream, and the configuration stays. -/
structure SendsAtMost (n : Nat) (s t : State) : Prop where
  keeps : s.KeepsConfig t
  log : ∃ sent : List Sent, t.txLog = s.txLog ++ sent ∧ sent.length ≤ n

section
variable {n k : Nat} {s t u : State} {g : GroupIx} {now : Time}

theorem sendsAtMost_of_txLog (hk : s.KeepsConfig t) (h : t.txLog = s.txLog) : SendsAtMost 0 s t :=
  ⟨hk, [], by simp [h], Nat.le_refl 0⟩

theorem SendsAtMost_refl (s : State) : SendsAtMost 0 s s := sendsAtMost_of_txLog (KeepsConfig_refl s) rfl

theorem SendsAtMost_mono (h : SendsAtMost n s t) (hn : n ≤ k) : SendsAtMost k s t := by
  obtain ⟨hk, sent, hlog, hl⟩ := h
  exact ⟨hk, sent, hlog, Nat.le_trans hl hn⟩

theorem SendsAtMost_trans (h : SendsAtMost n s t) (h' : SendsAtMost k t u) : SendsAtMost (n + k) s u := by
  obtain ⟨hk, l, hlog, hl⟩ := h
  obtain ⟨hk', l', hlog', hl'⟩ := h'
  exact ⟨KeepsConfig_trans hk hk', l ++ l', by rw [hlog', hlog, List.append_assoc],
    by rw [List.length_append]; exact Nat.add_le_add hl hl'⟩

/-- An update before or after that sends nothing. -/
theorem SendsAtMost_after (h : SendsAtMost n s t) (h' : SendsAtMost 0 t u) : SendsAtMost n s u := SendsAtMost_trans h h'

theorem SendsAtMost_before (h : SendsAtMost 0 s t) (h' : SendsAtMost n t u) : SendsAtMost n s u :=
  SendsAtMost_mono (SendsAtMost_trans h h') (Nat.le_of_eq (Nat.zero_add n))

/-! ### The parts of the sequences -/

theorem sendsAtMost_command (s : State) (m : MotorIx) (c : Cmd) : SendsAtMost 1 s (s.command m c).2 :=
  ⟨(command_effect (A := anyCmd) s m c trivial).keeps, _, transmit_txLog _ s, Nat.le_refl 1⟩

theorem sendsAtMost_await (s : State) (addr : Nat) (code : Byte) : SendsAtMost 0 s (s.await addr code).2 :=
  sendsAtMost_of_txLog (await_effect (A := anyCmd) s addr code).keeps (by rw [await_frame])

/-- A fold whose every step, from the same configuration, sends at most `n`. -/
theorem sendsAtMost_foldl {α : Type} (f : State → α → State) (l : List α)
    (h : ∀ t a, SendsAtMost n t (f t a)) (s : State) : SendsAtMost (l.length * n) s (l.foldl f s) := by
  induction l generalizing s with
  | nil => exact SendsAtMost_mono (SendsAtMost_refl s) (Nat.zero_le _)
  | cons a l ih =>
    refine SendsAtMost_mono (SendsAtMost_trans (h s a) (ih (f s a))) (Nat.le_of_eq ?_)
    rw [List.length_cons, Nat.succ_mul, Nat.add_comm]

theorem sendsAtMost_zeroRounds (ms : List MotorIx) (n : Nat) (s : State) :
    SendsAtMost (ms.length * n) s (zeroRounds ms n s) := by
  induction n generalizing s with
  | zero => exact SendsAtMost_refl s
  | succ n ih =>
    have h1 : SendsAtMost (ms.length * 1) s (s.zeroRound ms) := sendsAtMost_foldl _ ms (fun t m => sendsAtMost_command t m _) s
    exact SendsAtMost_mono (SendsAtMost_trans h1 (ih (s.zeroRound ms))) (Nat.le_of_eq (by ring))

theorem sendsAtMost_tryDisable (m : MotorIx) (n : Nat) (s : State) : SendsAtMost (2 * n) s (tryDisable m n s).2 := by
  induction n generalizing s with
  | zero => exact SendsAtMost_refl s
  | succ n ih =>
    unfold tryDisable
    have h1 := SendsAtMost_trans (sendsAtMost_command s m (.enable 0)) (sendsAtMost_command _ m .statusQuery)
    simp only
    generalize ((s.command m (.enable 0)).2.command m .statusQuery).2 = u at h1 ⊢
    have h2 := SendsAtMost_after h1 (sendsAtMost_await u (u.addrOf m) u.sqCode)
    split
    · exact SendsAtMost_mono h2 (by omega)
    · exact SendsAtMost_mono (SendsAtMost_trans h2 (ih _)) (by omega)

theorem sendsAtMost_disableMember (m : MotorIx) (hd : 1 ≤ s.disableAttempts) :
    SendsAtMost (2 * s.disableAttempts) s (s.disableMember m).2 := by
  unfold State.disableMember
  split
  · exact sendsAtMost_tryDisable m _ s
  · exact SendsAtMost_mono (sendsAtMost_command s m _) (by omega)

theorem sendsAtMost_disableMembers (ms : List MotorIx) (s : State) (hd : 1 ≤ s.disableAttempts) :
    SendsAtMost (ms.length * (2 * s.disableAttempts)) s (disableMembers ms s).2 := by
  induction ms generalizing s with
  | nil => exact SendsAtMost_mono (SendsAtMost_refl s) (Nat.zero_le _)
  | cons m ms ih =>
    have h1 := sendsAtMost_disableMember (s := s) m hd
    have hda := keeps_disableAttempts h1.keeps
    have h2 := ih (s.disableMember m).2 (hda.symm ▸ hd)
    rw [hda] at h2
    unfold disableMembers
    exact SendsAtMost_mono (SendsAtMost_trans h1 h2) (Nat.le_of_eq (by rw [List.length_cons]; ring))

theorem sendsAtMost_sendUntilErr (m : MotorIx) (cs : List Cmd) (s : State) :
    SendsAtMost cs.length s (sendUntilErr m cs s).2 := by
  induction cs generalizing s with
  | nil => exact SendsAtMost_refl s
  | cons c cs ih =>
    have h1 := sendsAtMost_command s m c
    unfold sendUntilErr
    split
    · next s1 e =>
      rw [e] at h1
      exact SendsAtMost_mono (SendsAtMost_trans h1 (ih s1)) (Nat.le_of_eq (Nat.add_comm 1 _))
    · next s1 e => rw [e] at h1; exact SendsAtMost_mono h1 (by simp)

theorem sendsAtMost_tryEnable (m : MotorIx) (n : Nat) (s : State) : SendsAtMost (2 * n) s (tryEnable m n s).2 := by
  induction n generalizing s with
  | zero => exact SendsAtMost_refl s
  | succ n ih =>
    have h1 := sendsAtMost_command s m (.enable 1)
    unfold tryEnable
    split
    · next s1 e => rw [e] at h1; exact SendsAtMost_mono h1 (by omega)
    · next s1 e =>
      rw [e] at h1
      have h2 := SendsAtMost_trans h1 (sendsAtMost_command s1 m .statusQuery)
      split
      · exact SendsAtMost_mono h1 (by omega)
      · split
        · next s2 e2 => rw [e2] at h2; exact SendsAtMost_mono h2 (by omega)
        · next s2 e2 =>
          rw [e2] at h2
          have h3 := SendsAtMost_after h2 (sendsAtMost_await s2 (s2.addrOf m) s2.sqCode)
          simp only
          split
          · exact SendsAtMost_mono h3 (by omega)
          · exact SendsAtMost_mono (SendsAtMost_trans h3 (ih _)) (by omega)

/-! ### The sequences of one group -/

theorem sendsAtMost_setState (s : State) (g : GroupIx) (x : MState) : SendsAtMost 0 s (s.setState g x) :=
  sendsAtMost_of_txLog (setState_effect (g := g) (A := anyCmd) s x).keeps rfl

theorem sendsAtMost_setPending (s : State) (g : GroupIx) (b : Bool) : SendsAtMost 0 s (s.setPending g b) :=
  sendsAtMost_of_txLog (setPending_effect (g := g) (A := anyCmd) s b).keeps rfl

theorem sendsAtMost_verifyFailure (s : State) : SendsAtMost 0 s s.verifyFailure :=
  sendsAtMost_of_txLog (verifyFailure_effect (g := 0) (A := anyCmd) s).keeps rfl

theorem sendsAtMost_setRampcur (s : State) (r : Vector Half 8) : SendsAtMost 0 s { s with rampcur := r } :=
  sendsAtMost_of_txLog ⟨rfl, rfl, rfl, rfl, rfl, rfl, rfl⟩ rfl

/-- StopSequence(g) (R275). -/
theorem sendsAtMost_stopSequence (g : GroupIx) (hd : 1 ≤ s.disableAttempts) :
    SendsAtMost (s.stopBound g) s (s.stopSequence g) := by
  have h1 := sendsAtMost_zeroRounds (s.members g) s.zeroRepeat s
  have hda := keeps_disableAttempts h1.keeps
  have h2 := sendsAtMost_disableMembers (s.members g) _ (hda.symm ▸ hd)
  rw [hda, ← Nat.mul_assoc] at h2
  have h3 : SendsAtMost (s.stopBound g) s (stopTraffic g s) := SendsAtMost_trans h1 h2
  have h4 : SendsAtMost (s.stopBound g) s ((stopTraffic g s).zeroRamps (s.members g)) := by
    rw [(zeroRamps_spec (s.members g) (stopTraffic g s)).2]
    exact SendsAtMost_after h3 (sendsAtMost_setRampcur _ _)
  obtain e | e := stopSequence_eq g s <;> rw [e]
  · exact h4
  · exact SendsAtMost_after h4 (sendsAtMost_verifyFailure _)

theorem sendsAtMost_stopToDisabled (g : GroupIx) (hd : 1 ≤ s.disableAttempts) :
    SendsAtMost (s.stopBound g) s (s.stopToDisabled g) :=
  SendsAtMost_after (sendsAtMost_stopSequence g hd) (sendsAtMost_setState _ g _)

theorem sendsAtMost_disabling (g : GroupIx) (hd : 1 ≤ s.disableAttempts) :
    SendsAtMost (s.stopBound g) s (s.disabling g) :=
  SendsAtMost_before (sendsAtMost_setState s g .disabling) (sendsAtMost_stopToDisabled (s := s.setState g .disabling) g hd)

/-- EStopStep(g) (R279): one velocity for each member is less than one round of Velocity(0). -/
theorem sendsAtMost_estopStepGroup (g : GroupIx) (hz : 1 ≤ s.zeroRepeat) (hd : 1 ≤ s.disableAttempts) :
    SendsAtMost (s.stopBound g) s (s.estopStepGroup g) := by
  rw [State.estopStepGroup]
  split
  · exact sendsAtMost_stopToDisabled g hd
  · have h1 := (decelMotors_spec (s.members g) (nodup_members s g) s).2
    generalize (s.members g).foldl (fun s m => s.decelMotor m) s = u at h1
    have h2 : SendsAtMost 0 s u := by rw [h1]; exact sendsAtMost_setRampcur s _
    refine SendsAtMost_before h2 (SendsAtMost_mono
      (sendsAtMost_foldl (n := 1) _ (s.members g) (fun t m => sendsAtMost_command t m _) u) ?_)
    exact Nat.le_trans (Nat.mul_le_mul_left _ hz) (Nat.le_add_right _ _)

theorem handshake_length (s : State) : s.handshake.length ≤ 2 := by
  unfold State.handshake
  cases s.hsWc <;> cases s.hsHc <;> cases s.hsOrder <;> simp

theorem sendsAtMost_enableFailed (g : GroupIx) (s : State) : SendsAtMost (s.members g).length s (s.enableFailed g) := by
  have h := sendsAtMost_foldl (n := 1) (fun s m => (s.command m (.enable 0)).2) (s.members g)
    (fun t m => sendsAtMost_command t m _) s
  exact SendsAtMost_after (SendsAtMost_after (SendsAtMost_mono h (Nat.le_of_eq (Nat.mul_one _)))
    (sendsAtMost_setState _ g _)) (sendsAtMost_verifyFailure _)

theorem sendsAtMost_enableMembers (g : GroupIx) (ms : List MotorIx) (s : State) :
    SendsAtMost (ms.length * (2 + 2 * s.enableAttempts) + (s.members g).length) s (enableMembers g ms s) := by
  induction ms generalizing s with
  | nil => exact SendsAtMost_mono (sendsAtMost_setState s g .enabled) (Nat.zero_le _)
  | cons m ms ih =>
    have h1 := SendsAtMost_mono (sendsAtMost_sendUntilErr m s.handshake s) (handshake_length s)
    have hlen : (m :: ms).length * (2 + 2 * s.enableAttempts)
        = ms.length * (2 + 2 * s.enableAttempts) + (2 + 2 * s.enableAttempts) := by rw [List.length_cons, Nat.succ_mul]
    rw [hlen]
    unfold enableMembers
    split
    · next s1 e => rw [e] at h1; exact SendsAtMost_mono h1 (by omega)
    · next s1 e =>
      rw [e] at h1
      have h2 := SendsAtMost_trans h1 (sendsAtMost_tryEnable m s1.enableAttempts s1)
      rw [keeps_enableAttempts h1.keeps] at h2 ⊢
      split
      · next s2 e2 => rw [e2] at h2; exact SendsAtMost_mono h2 (by omega)
      · next s2 e2 =>
        rw [e2] at h2
        have h3 := sendsAtMost_enableFailed g s2
        rw [keeps_members h2.keeps] at h3
        exact SendsAtMost_mono (SendsAtMost_trans h2 h3) (by omega)
      · next s2 e2 =>
        rw [e2] at h2
        have h3 := ih s2
        rw [keeps_members h2.keeps, keeps_enableAttempts h2.keeps] at h3
        exact SendsAtMost_mono (SendsAtMost_trans h2 h3) (by omega)

theorem sendsAtMost_enabling (g : GroupIx) (s : State) : SendsAtMost (s.enableBound g) s (s.enabling g) :=
  SendsAtMost_before (sendsAtMost_setState s g .enabling) (sendsAtMost_enableMembers g (s.members g) (s.setState g .enabling))

/-- One group's transition (R263). -/
theorem sendsAtMost_transition (now : Time) (g : GroupIx) (hz : 1 ≤ s.zeroRepeat) (hd : 1 ≤ s.disableAttempts) :
    SendsAtMost (max (s.enableBound g) (s.stopBound g)) s (s.transition now g) := by
  have nothing : SendsAtMost (max (s.enableBound g) (s.stopBound g)) s s :=
    SendsAtMost_mono (SendsAtMost_refl s) (Nat.zero_le _)
  have hpend := sendsAtMost_setPending s g false
  unfold State.transition
  split
  · split
    · unfold State.requestEnable
      split
      · exact SendsAtMost_mono hpend (Nat.zero_le _)
      · exact SendsAtMost_mono (SendsAtMost_before hpend (sendsAtMost_enabling g (s.setPending g false))) (Nat.le_max_left _ _)
    · exact nothing
  · split
    · exact SendsAtMost_mono (SendsAtMost_before hpend (sendsAtMost_disabling (s := s.setPending g false) g hd))
        (Nat.le_max_right _ _)
    · exact nothing
  · exact SendsAtMost_mono (sendsAtMost_estopStepGroup g hz hd) (Nat.le_max_right _ _)
  all_goals exact nothing

theorem sendsAtMost_sendVelocity (m : MotorIx) (s : State) : SendsAtMost 1 s (s.sendVelocity m) := by
  have h1 := sendsAtMost_command s m (s.velocityCmd (s.rampOf m))
  unfold State.sendVelocity
  split
  · next s1 e => rw [e] at h1; exact h1
  · next s1 e =>
    rw [e] at h1
    split
    · exact SendsAtMost_after h1 (sendsAtMost_await s1 _ _)
    · exact h1

/-- One group's driving (R282). -/
theorem sendsAtMost_driveGroup (g : GroupIx) (s : State) : SendsAtMost (s.members g).length s (s.driveGroup g) := by
  have h := sendsAtMost_foldl (n := 1) (fun s m => if s.stateOf g = .enabled then s.sendVelocity m else s) (s.members g)
    (fun t m => by
      split
      · exact sendsAtMost_sendVelocity m t
      · exact SendsAtMost_mono (SendsAtMost_refl t) (Nat.zero_le 1)) s
  exact SendsAtMost_mono h (Nat.le_of_eq (Nat.mul_one _))

/-- SHUTDOWN's turn of one group (R345). -/
theorem sendsAtMost_shutdownGroup (g : GroupIx) (hd : 1 ≤ s.disableAttempts) :
    SendsAtMost (s.stopBound g) s (s.shutdownGroup g) := by
  unfold State.shutdownGroup
  simp only
  split
  · exact SendsAtMost_after (sendsAtMost_disabling g hd) (sendsAtMost_setPending _ g _)
  · exact SendsAtMost_after (sendsAtMost_stopToDisabled g hd) (sendsAtMost_setPending _ g _)
  all_goals exact SendsAtMost_mono (sendsAtMost_setPending s g _) (Nat.zero_le _)

/-! ### The loops over the groups -/

/-- A loop over the groups sends at most what its turns send. -/
theorem sendsAtMost_forGroups (f : GroupIx → State → State) (b : GroupIx → Nat) (s : State)
    (h : ∀ g t, s.KeepsConfig t → SendsAtMost (b g) t (f g t)) : SendsAtMost ((allGroups.map b).sum) s (forGroups f s) := by
  have key (l : List GroupIx) (t : State) (hk : s.KeepsConfig t) :
      SendsAtMost ((l.map b).sum) t (l.foldl (fun s g => f g s) t) := by
    induction l generalizing t with
    | nil => exact SendsAtMost_refl t
    | cons g l ih =>
      have hg := h g t hk
      rw [List.map_cons, List.sum_cons]
      exact SendsAtMost_trans hg (ih (f g t) (KeepsConfig_trans hk hg.keeps))
  exact key allGroups s (KeepsConfig_refl s)

theorem keeps_stopBound (h : s.KeepsConfig t) (g : GroupIx) : t.stopBound g = s.stopBound g := by
  rw [State.stopBound, State.stopBound, keeps_members h, keeps_zeroRepeat h, keeps_disableAttempts h]

theorem keeps_enableBound (h : s.KeepsConfig t) (g : GroupIx) : t.enableBound g = s.enableBound g := by
  rw [State.enableBound, State.enableBound, keeps_members h, keeps_enableAttempts h]

/-- A whole TICK (R289). -/
theorem sendsAtMost_tick (now : Time) (hz : 1 ≤ s.zeroRepeat) (hd : 1 ≤ s.disableAttempts) :
    SendsAtMost ((allGroups.map fun g => max (s.enableBound g) (s.stopBound g) + (s.members g).length).sum) s
      (s.tickSteps now) := by
  obtain ⟨-, -, -, -, hkw, -, hlog⟩ := watchdogCheck_group now s 0
  have h1 : SendsAtMost ((allGroups.map fun g => max (s.enableBound g) (s.stopBound g)).sum) (s.watchdogCheck now)
      (forGroups (State.transition now) (s.watchdogCheck now)) :=
    sendsAtMost_forGroups _ _ _ fun g t hk => by
      have hk := KeepsConfig_trans hkw hk
      rw [← keeps_enableBound hk, ← keeps_stopBound hk]
      exact sendsAtMost_transition now g ((keeps_zeroRepeat hk).symm ▸ hz) ((keeps_disableAttempts hk).symm ▸ hd)
  have h2 := SendsAtMost_before (sendsAtMost_of_txLog hkw hlog) h1
  unfold State.tickSteps
  generalize forGroups (State.transition now) (s.watchdogCheck now) = u at h2
  have hr := (rampStep_spec u).2.2
  generalize forGroups State.rampGroup u = v at hr
  have h3 : SendsAtMost ((allGroups.map fun g => max (s.enableBound g) (s.stopBound g)).sum) s v :=
    SendsAtMost_after h2 (by rw [hr]; exact sendsAtMost_setRampcur u _)
  have h4 : SendsAtMost ((allGroups.map fun g => (s.members g).length).sum) v (forGroups State.driveGroup v) :=
    sendsAtMost_forGroups _ _ _ fun g t hk => by
      rw [← keeps_members (KeepsConfig_trans h3.keeps hk)]
      exact sendsAtMost_driveGroup g t
  exact SendsAtMost_mono (SendsAtMost_trans h3 h4) (Nat.le_of_eq List.sum_map_add.symm)

end

theorem log_of_sendsAtMost {n : Nat} {s u t : State} (h : SendsAtMost n s.begin u) (ht : t.txLog = u.txLog) :
    ∃ sent : List Sent, t.txLog = s.txLog ++ sent ∧ sent.length ≤ n := by
  obtain ⟨-, sent, hlog, hl⟩ := h
  exact ⟨sent, ht.trans hlog, hl⟩

/-- Settles O60: the bounds of the turns add up over the groups. -/
theorem framesAreBounded : Obligations.FramesAreBounded := by
  intro s t hregs
  have hz : 1 ≤ s.zeroRepeat := Nat.le_of_succ_le hregs.zeroRepeat
  have hd : 1 ≤ s.disableAttempts := hregs.disableAttempts
  refine ⟨fun now he => ?_, fun he => ?_, fun m c aw he => ?_⟩
  · obtain ⟨-, rfl⟩ | ⟨-, u, hu, rfl⟩ := tick_cases now s t he
    · exact ⟨[], (List.append_nil _).symm, Nat.zero_le _⟩
    · exact log_of_sendsAtMost (u := u) (hu ▸ sendsAtMost_tick (s := s.begin) now hz hd) rfl
  · obtain ⟨-, rfl⟩ | ⟨-, u, hu, rfl⟩ := shutdown_cases s t he
    · exact ⟨[], (List.append_nil _).symm, Nat.zero_le _⟩
    · have h : SendsAtMost ((allGroups.map s.begin.stopBound).sum) s.begin (forGroups State.shutdownGroup s.begin) :=
        sendsAtMost_forGroups _ _ _ fun g v hk => by
          rw [← keeps_stopBound hk]
          exact sendsAtMost_shutdownGroup g ((keeps_disableAttempts hk).symm ▸ hd)
      exact log_of_sendsAtMost (u := u) (hu ▸ h) rfl
  · cases exec_opEnd he with
    | returned | failed => exact ⟨[], (List.append_nil _).symm, Nat.zero_le _⟩
    | transact _ _ _ k _ u st r _ _ _ _ hlog => exact ⟨_, hlog, Nat.le_refl 1⟩

end Sys2Proof.Machine
end

section
/-! PROOFS. SHUTDOWN (O41): the exact frames and missing responses of its stop sequences, whatever the transport answers. -/

namespace Sys2Proof.Machine

/-! ### Traffic that the transport's answers do not bend -/

/-- Traffic that sends exactly `frames`, misses `missed` responses, fails to verify `unverified` members, and hears nothing. -/
structure Traffic (frames : List Bytes) (missed unverified : Nat) (s t : State) : Prop where
  keeps : s.KeepsConfig t
  frames : t.framesSent = s.framesSent ++ frames
  rxbuf : t.rxbuf = s.rxbuf
  arrivals : t.arrivals = s.arrivals
  rxdropCnt : t.rxdropCnt = s.rxdropCnt
  lastRx : t.lastRx = s.lastRx
  norspCnt : t.norspCnt = s.norspCnt + BitVec.ofNat 32 missed
  sticky : ∀ j, s.sticky.getLsbD j = true → t.sticky.getLsbD j = true
  norspFlag : 0 < missed → t.sticky.getLsbD 4 = true
  verifyFlag : 0 < unverified → t.sticky.getLsbD 6 = true
  verifyEvent : t.reply.verifyFailed = true ↔ s.reply.verifyFailed = true ∨ 0 < unverified

section
variable {s t u : State} {fs fs' : List Bytes} {n n' v v' : Nat} {g : GroupIx}

/-- Updates of the groups and the ramp outputs only. -/
theorem traffic_of_same {x : Vector MState 4} {p : Vector Bool 4} {r : Vector Half 8} :
    Traffic [] 0 0 s { s with mstate := x, pending := p, rampcur := r } where
  keeps := ⟨rfl, rfl, rfl, rfl, rfl, rfl, rfl⟩
  frames := (List.append_nil _).symm
  rxbuf := rfl
  arrivals := rfl
  rxdropCnt := rfl
  lastRx := rfl
  norspCnt := (BitVec.add_zero _).symm
  sticky := fun _ h => h
  norspFlag := fun h => absurd h (Nat.lt_irrefl 0)
  verifyFlag := fun h => absurd h (Nat.lt_irrefl 0)
  verifyEvent := (or_iff_left (Nat.lt_irrefl 0)).symm

theorem Traffic_refl (s : State) : Traffic [] 0 0 s s := traffic_of_same

theorem Traffic_trans (h : Traffic fs n v s t) (k : Traffic fs' n' v' t u) : Traffic (fs ++ fs') (n + n') (v + v') s u where
  keeps := KeepsConfig_trans h.keeps k.keeps
  frames := by rw [k.frames, h.frames, List.append_assoc]
  rxbuf := k.rxbuf.trans h.rxbuf
  arrivals := k.arrivals.trans h.arrivals
  rxdropCnt := k.rxdropCnt.trans h.rxdropCnt
  lastRx := k.lastRx.trans h.lastRx
  norspCnt := by rw [k.norspCnt, h.norspCnt, BitVec.add_assoc, BitVec.ofNat_add]
  sticky := fun j hj => k.sticky j (h.sticky j hj)
  norspFlag := fun hn => by
    obtain hn | hn : 0 < n ∨ 0 < n' := by omega
    · exact k.sticky 4 (h.norspFlag hn)
    · exact k.norspFlag hn
  verifyFlag := fun hv => by
    obtain hv | hv : 0 < v ∨ 0 < v' := by omega
    · exact k.sticky 6 (h.verifyFlag hv)
    · exact k.verifyFlag hv
  verifyEvent := by
    rw [k.verifyEvent, h.verifyEvent, or_assoc]
    exact or_congr_right (by omega)

theorem Traffic_after (h : Traffic fs n v s t) (k : Traffic [] 0 0 t u) : Traffic fs n v s u := by
  simpa using Traffic_trans h k

theorem Traffic_before (h : Traffic [] 0 0 s t) (k : Traffic fs n v t u) : Traffic fs n v s u := by
  simpa using Traffic_trans h k

/-- One command, accepted or not (R14, R316). -/
theorem traffic_command (s : State) (m : MotorIx) (c : Cmd) : Traffic [s.frameFor m c] 0 0 s (s.command m c).2 := by
  have hl := command_effect (A := anyCmd) s m c trivial
  have hlog : (s.command m c).2.txLog = s.txLog ++ [⟨s.frameFor m c, s.nextSend⟩] := transmit_txLog _ s
  have hrx : (s.command m c).2.rxbuf = s.rxbuf ∧ (s.command m c).2.arrivals = s.arrivals
      ∧ (s.command m c).2.rxdropCnt = s.rxdropCnt ∧ (s.command m c).2.lastRx = s.lastRx
      ∧ (s.command m c).2.norspCnt = s.norspCnt := by
    rw [State.command]
    obtain ⟨-, e⟩ | ⟨-, e⟩ := transmit_cases (s.frameFor m c) s <;> rw [e]
    · exact ⟨rfl, rfl, rfl, rfl, rfl⟩
    · simp
  generalize (s.command m c).2 = t at hl hlog hrx
  obtain ⟨h1, h2, h3, h4, h5⟩ := hrx
  exact {
    keeps := hl.keeps
    frames := by rw [State.framesSent, State.framesSent, hlog, List.map_append]; rfl
    rxbuf := h1
    arrivals := h2
    rxdropCnt := h3
    lastRx := h4
    norspCnt := h5.trans (BitVec.add_zero _).symm
    sticky := hl.sticky
    norspFlag := fun h => absurd h (Nat.lt_irrefl 0)
    verifyFlag := fun h => absurd h (Nat.lt_irrefl 0)
    verifyEvent := by rw [hl.reply.1, or_iff_left (Nat.lt_irrefl 0)] }

/-- An `Await` that hears nothing (R222, R364). -/
theorem traffic_noResponse (s : State) : Traffic [] 1 0 s s.noResponse where
  keeps := ⟨rfl, rfl, rfl, rfl, rfl, rfl, rfl⟩
  frames := (List.append_nil _).symm
  rxbuf := rfl
  arrivals := rfl
  rxdropCnt := rfl
  lastRx := rfl
  norspCnt := rfl
  sticky := fun j h => by simp [h]
  norspFlag := fun _ => by simp [flagMask]
  verifyFlag := fun h => absurd h (Nat.lt_irrefl 0)
  verifyEvent := (or_iff_left (Nat.lt_irrefl 0)).symm

/-- Exhausted attempts of `k` members (R277). -/
theorem traffic_verifyFailure (s : State) {k : Nat} (hk : 0 < k) : Traffic [] 0 k s s.verifyFailure where
  keeps := ⟨rfl, rfl, rfl, rfl, rfl, rfl, rfl⟩
  frames := (List.append_nil _).symm
  rxbuf := rfl
  arrivals := rfl
  rxdropCnt := rfl
  lastRx := rfl
  norspCnt := (BitVec.add_zero _).symm
  sticky := fun j h => by simp [State.verifyFailure, h]
  norspFlag := fun h => absurd h (Nat.lt_irrefl 0)
  verifyFlag := fun _ => by simp [State.verifyFailure, flagMask]
  verifyEvent := ⟨fun _ => .inr hk, fun _ => rfl⟩

/-! ### The parts of the stop sequence (R275) -/

theorem frameFor_keeps (hk : s.KeepsConfig t) : t.frameFor = s.frameFor := by
  funext m c; exact keeps_frameFor hk m c

/-- One command to each of a list of motors. -/
theorem traffic_foldl (c : State → Cmd) (hc : ∀ a b : State, a.KeepsConfig b → c b = c a) (ms : List MotorIx) (s : State) :
    Traffic (ms.map fun m => s.frameFor m (c s)) 0 0 s (ms.foldl (fun s m => (s.command m (c s)).2) s) := by
  induction ms generalizing s with
  | nil => exact Traffic_refl s
  | cons m ms ih =>
    have h1 := traffic_command s m (c s)
    have h2 := ih (s.command m (c s)).2
    rw [frameFor_keeps h1.keeps, hc _ _ h1.keeps] at h2
    exact Traffic_trans h1 h2

theorem traffic_zeroRounds (ms : List MotorIx) (k : Nat) (s : State) :
    Traffic (List.replicate k (ms.map fun m => s.frameFor m (s.velocityCmd 0))).flatten 0 0 s (zeroRounds ms k s) := by
  induction k generalizing s with
  | zero => exact Traffic_refl s
  | succ k ih =>
    have h1 : Traffic (ms.map fun m => s.frameFor m (s.velocityCmd 0)) 0 0 s (s.zeroRound ms) :=
      traffic_foldl (fun s => s.velocityCmd 0) (fun _ _ h => keeps_velocityCmd h 0) ms s
    have h2 := ih (s.zeroRound ms)
    rw [frameFor_keeps h1.keeps, keeps_velocityCmd h1.keeps] at h2
    exact Traffic_trans h1 h2

/-- Disabling without verification: one Enable(false) for each member. -/
theorem traffic_disableMembers_unverified (ms : List MotorIx) (s : State) (hv : s.verifyDis = false) :
    (disableMembers ms s).1 = true ∧
      Traffic (ms.map fun m => s.frameFor m (.enable 0)) 0 0 s (disableMembers ms s).2 := by
  induction ms generalizing s with
  | nil => exact ⟨rfl, Traffic_refl s⟩
  | cons m ms ih =>
    have h1 := traffic_command s m (.enable 0)
    have hone : s.disableMember m = (true, (s.command m (.enable 0)).2) := by rw [State.disableMember, hv]; rfl
    rw [disableMembers, hone]
    simp only
    generalize (s.command m (.enable 0)).2 = t at h1
    obtain ⟨hok, h2⟩ := ih t ((keeps_verifyDis h1.keeps).trans hv)
    rw [frameFor_keeps h1.keeps] at h2
    exact ⟨hok, Traffic_trans h1 h2⟩

/-- The attempts to disable one member that never answers. -/
theorem traffic_tryDisable_silent (m : MotorIx) (k : Nat) (s : State) (hb : s.rxbuf = []) (ha : s.arrivals = []) :
    (tryDisable m k s).1 = false ∧ Traffic ((disableCmds k).map (s.frameFor m)) k 0 s (tryDisable m k s).2 := by
  induction k generalizing s with
  | zero => exact ⟨rfl, Traffic_refl s⟩
  | succ k ih =>
    have h1 := traffic_command s m (.enable 0)
    have h2 := traffic_command (s.command m (.enable 0)).2 m .statusQuery
    rw [frameFor_keeps h1.keeps] at h2
    have h12 := Traffic_trans h1 h2
    rw [tryDisable]
    simp only
    generalize ((s.command m (.enable 0)).2.command m .statusQuery).2 = t at h12
    have hb' : t.rxbuf = [] := h12.rxbuf.trans hb
    have ha' : t.arrivals = [] := h12.arrivals.trans ha
    rw [await_nothing _ _ _ hb' ha']
    have h3 := Traffic_trans h12 (traffic_noResponse t)
    obtain ⟨hno, h4⟩ := ih t.noResponse hb' ha'
    rw [frameFor_keeps h3.keeps] at h4
    refine ⟨hno, ?_⟩
    have h := Traffic_trans h3 h4
    rw [show 0 + 0 + 1 + k = k + 1 by omega] at h
    exact h

/-- Disabling with verification of members that never answer: none is verified. -/
theorem traffic_disableMembers_silent (ms : List MotorIx) (s : State) (hv : s.verifyDis = true) (hb : s.rxbuf = [])
    (ha : s.arrivals = []) : (disableMembers ms s).1 = ms.isEmpty ∧
      Traffic (ms.flatMap fun m => (disableCmds s.disableAttempts).map (s.frameFor m)) (ms.length * s.disableAttempts) 0 s
        (disableMembers ms s).2 := by
  induction ms generalizing s with
  | nil => rw [List.length_nil, Nat.zero_mul]; exact ⟨rfl, Traffic_refl s⟩
  | cons m ms ih =>
    have hone : s.disableMember m = tryDisable m s.disableAttempts s := if_pos hv
    obtain ⟨hno, h1⟩ := traffic_tryDisable_silent m s.disableAttempts s hb ha
    rw [disableMembers, hone]
    generalize tryDisable m s.disableAttempts s = r at hno h1
    obtain ⟨ok, t⟩ := r
    obtain ⟨-, h2⟩ := ih t ((keeps_verifyDis h1.keeps).trans hv) (h1.rxbuf.trans hb) (h1.arrivals.trans ha)
    rw [frameFor_keeps h1.keeps, keeps_disableAttempts h1.keeps] at h2
    refine ⟨by rw [show ok = false from hno]; rfl, ?_⟩
    have h := Traffic_trans h1 h2
    rw [show s.disableAttempts + ms.length * s.disableAttempts = (m :: ms).length * s.disableAttempts by
      rw [List.length_cons]; ring] at h
    exact h

/-! ### The stop sequence -/

theorem traffic_zeroRamps (ms : List MotorIx) (s : State) : Traffic [] 0 0 s (s.zeroRamps ms) := by
  rw [(zeroRamps_spec ms s).2]
  exact traffic_of_same

theorem traffic_stopSequence_unverified (g : GroupIx) (s : State) (hv : s.verifyDis = false) :
    Traffic (s.stopFrames g) 0 0 s (s.stopSequence g) := by
  have h1 := traffic_zeroRounds (s.members g) s.zeroRepeat s
  rw [State.stopSequence]
  simp only
  generalize zeroRounds (s.members g) s.zeroRepeat s = t at h1
  obtain ⟨hok, h2⟩ := traffic_disableMembers_unverified (s.members g) t ((keeps_verifyDis h1.keeps).trans hv)
  rw [hok, if_pos rfl]
  rw [frameFor_keeps h1.keeps] at h2
  exact Traffic_after (Traffic_trans h1 h2) (traffic_zeroRamps _ _)

theorem traffic_stopSequence_silent (g : GroupIx) (s : State) (hv : s.verifyDis = true) (hb : s.rxbuf = [])
    (ha : s.arrivals = []) : Traffic (s.exhaustedStopFrames g) ((s.members g).length * s.disableAttempts)
      (s.members g).length s (s.stopSequence g) := by
  have h1 := traffic_zeroRounds (s.members g) s.zeroRepeat s
  rw [State.stopSequence]
  simp only
  generalize zeroRounds (s.members g) s.zeroRepeat s = t at h1
  obtain ⟨hok, h2⟩ := traffic_disableMembers_silent (s.members g) t ((keeps_verifyDis h1.keeps).trans hv)
    (h1.rxbuf.trans hb) (h1.arrivals.trans ha)
  rw [frameFor_keeps h1.keeps, keeps_disableAttempts h1.keeps] at h2
  have h3 : Traffic (s.exhaustedStopFrames g) ((s.members g).length * s.disableAttempts) 0 s
      ((disableMembers (s.members g) t).2.zeroRamps (s.members g)) := by
    have h := Traffic_after (Traffic_trans h1 h2) (traffic_zeroRamps (s.members g) _)
    rw [Nat.zero_add] at h
    exact h
  rw [hok]
  split
  · next he => rw [List.isEmpty_iff.mp he] at h3 ⊢; exact h3
  · next he =>
    have hpos : 0 < (s.members g).length := List.length_pos_iff.mpr fun e => he (List.isEmpty_iff.mpr e)
    have h := Traffic_trans h3 (traffic_verifyFailure _ hpos)
    rw [List.append_nil, Nat.add_zero, Nat.zero_add] at h
    exact h

/-! ### SHUTDOWN's loop (R345) -/

/-- What the stop sequences of SHUTDOWN send, miss and leave unverified, group by group, from the configuration and the
buffer of `s`. -/
structure Stops (s : State) (fs : GroupIx → List Bytes) (missed unverified : GroupIx → Nat) : Prop where
  stop : ∀ g t, s.KeepsConfig t → t.rxbuf = s.rxbuf → t.arrivals = s.arrivals →
    Traffic (fs g) (missed g) (unverified g) t (t.stopSequence g)

theorem stops_unverified (hv : s.verifyDis = false) : Stops s s.stopFrames (fun _ => 0) fun _ => 0 :=
  ⟨fun g t hk _ _ => stopFrames_keeps (g := g) hk ▸ traffic_stopSequence_unverified g t ((keeps_verifyDis hk).trans hv)⟩

theorem stops_silent (hv : s.verifyDis = true) (hb : s.rxbuf = []) (ha : s.arrivals = []) :
    Stops s s.exhaustedStopFrames (fun g => (s.members g).length * s.disableAttempts) fun g => (s.members g).length := by
  refine ⟨fun g t hk hb' ha' => ?_⟩
  have h := traffic_stopSequence_silent g t ((keeps_verifyDis hk).trans hv) (hb'.trans hb) (ha'.trans ha)
  rwa [exhaustedStopFrames_keeps hk, keeps_members hk, keeps_disableAttempts hk] at h

variable {F : GroupIx → List Bytes} {N V : GroupIx → Nat}

/-- One group's turn: its stop sequence if it is driven, else nothing. -/
theorem traffic_shutdownGroup (hs : Stops s F N V) (h : Traffic fs n v s t) :
    Traffic (fs ++ if driven (t.stateOf g) then F g else []) (n + if driven (t.stateOf g) then N g else 0)
      (v + if driven (t.stateOf g) then V g else 0) s (t.shutdownGroup g) := by
  refine Traffic_trans h ?_
  have hstop (u : State) (hu : Traffic [] 0 0 t u) : Traffic (F g) (N g) (V g) t ((u.stopToDisabled g).setPending g false) := by
    have hsu := Traffic_trans h hu
    exact Traffic_after (Traffic_before hu (hs.stop g u hsu.keeps hsu.rxbuf hsu.arrivals)) traffic_of_same
  unfold State.shutdownGroup
  cases t.stateOf g with
  | enabled => exact hstop (t.setState g .disabling) traffic_of_same
  | emergencyStop => exact hstop t (Traffic_refl t)
  | disabled | enabling | disabling => exact traffic_of_same

/-- Between boundaries a group is driven or not, whatever the others' traffic does. -/
theorem driven_outside (h : Outside g s t) (hb : boundary (s.stateOf g) = true) :
    driven (t.stateOf g) = driven (s.stateOf g) ∧ boundary (t.stateOf g) = true := by
  obtain ⟨h, -⟩ | ⟨hr, h, -⟩ := h.group.cases
  · rw [h]; exact ⟨rfl, hb⟩
  · rw [h, enabled_of_reacts hb hr]; exact ⟨rfl, rfl⟩

/-- The turns of a list of groups that have not had theirs. -/
theorem traffic_shutdown (hs : Stops s F N V) (l : List GroupIx) (hn : l.Nodup) (t : State) (h : Traffic fs n v s t)
    (hb : ∀ g ∈ l, boundary (t.stateOf g) = true) :
    Traffic (fs ++ l.flatMap fun g => if driven (t.stateOf g) then F g else [])
      (n + (l.map fun g => if driven (t.stateOf g) then N g else 0).sum)
      (v + (l.map fun g => if driven (t.stateOf g) then V g else 0).sum) s (l.foldl (fun s g => s.shutdownGroup g) t) := by
  induction l generalizing t fs n v with
  | nil => simpa using h
  | cons k l ih =>
    obtain ⟨hk, hn⟩ := List.nodup_cons.mp hn
    have hout (g : GroupIx) (hg : g ∈ l) : Outside g t (t.shutdownGroup k) :=
      SeqEffect_outside (A := anyCmd) (fun e : g = k => hk (e ▸ hg)) (shutdownGroup_spec t fun _ _ _ _ => trivial).1
    have hstep (g : GroupIx) (hg : g ∈ l) := driven_outside (hout g hg) (hb g (List.mem_cons_of_mem _ hg))
    have h2 := ih hn (t.shutdownGroup k) (traffic_shutdownGroup (g := k) hs h) fun g hg => (hstep g hg).2
    have hF : (l.flatMap fun g => if driven ((t.shutdownGroup k).stateOf g) then F g else [])
        = l.flatMap fun g => if driven (t.stateOf g) then F g else [] :=
      List.flatMap_congr fun g hg => by rw [(hstep g hg).1]
    have hN (W : GroupIx → Nat) : (l.map fun g => if driven ((t.shutdownGroup k).stateOf g) then W g else 0)
        = l.map fun g => if driven (t.stateOf g) then W g else 0 :=
      List.map_congr_left fun g hg => by rw [(hstep g hg).1]
    rw [hF, hN, hN, List.append_assoc, Nat.add_assoc, Nat.add_assoc] at h2
    exact h2

/-- SHUTDOWN's traffic as a whole. -/
theorem traffic_shutdownGroups (hs : Stops s F N V) (hb : ∀ g, boundary (s.stateOf g) = true) :
    Traffic (allGroups.flatMap fun g => if driven (s.stateOf g) then F g else [])
      ((allGroups.map fun g => if driven (s.stateOf g) then N g else 0).sum)
      ((allGroups.map fun g => if driven (s.stateOf g) then V g else 0).sum) s (forGroups State.shutdownGroup s) := by
  have h := traffic_shutdown hs allGroups nodup_allGroups s (Traffic_refl s) fun g _ => hb g
  rwa [List.nil_append, Nat.zero_add, Nat.zero_add] at h

/-- The ramp outputs after SHUTDOWN (R276, R345). -/
theorem shutdown_ramps (hb : ∀ g, boundary (s.stateOf g) = true) (m : MotorIx) :
    ((∃ g, s.isMember g m = true ∧ driven (s.stateOf g) = true) → (forGroups State.shutdownGroup s).rampOf m = 0) ∧
      ((∀ g, s.isMember g m = true → driven (s.stateOf g) = false) →
        (forGroups State.shutdownGroup s).rampOf m = s.rampOf m) := by
  have hramp (g : GroupIx) (hm : s.isMember g m = true) := (shutdown_end g s (hb g)).2.2.2.1 m hm
  refine ⟨fun ⟨g, hm, hd⟩ => (hramp g hm).trans (if_pos hd), fun hall => ?_⟩
  by_cases hm : ∃ g, s.isMember g m = true
  · obtain ⟨g, hm⟩ := hm
    exact (hramp g hm).trans (if_neg (by rw [hall g hm]; decide))
  · exact (shutdown_run (A := anyCmd) s fun _ _ => trivial).stray m fun g => by
      by_contra h
      exact hm ⟨g, by simpa using h⟩

theorem answerEvents_of_verifyFailed (h : s.reply.verifyFailed = true) :
    s.answerEvents.reply.status ∈ [Status.transportError, .verificationFailed] := by
  rw [State.answerEvents, State.answer_reply]
  split_ifs <;> simp

end

/-- Settles O41: the loop's turns add up, and neither an IoErr nor a missing answer shortens a stop sequence. -/
theorem shutdownStopsEveryGroup : Obligations.ShutdownStopsEveryGroup := by
  intro s hr hb
  refine ⟨_, exec_shutdown s hr, ?_⟩
  have hgroups (g : GroupIx) := shutdown_end g s.begin (hb g)
  have hramps := shutdown_ramps (s := s.begin) hb
  have hkeeps := (shutDown_run (s := s) rfl).keeps
  have hplain (hv : s.verifyDis = false) := traffic_shutdownGroups (stops_unverified (s := s.begin) hv) hb
  have hsilent (hv : s.verifyDis = true) (hrx : s.rxbuf = []) (ha : s.arrivals = []) :=
    traffic_shutdownGroups (stops_silent (s := s.begin) hv hrx ha) hb
  generalize forGroups State.shutdownGroup s.begin = u at hgroups hramps hkeeps hplain hsilent
  refine ⟨rfl, fun g => ⟨(hgroups g).1, (hgroups g).2.1⟩, hramps, { hkeeps with }, answerEvents_status _,
    fun hv => ?_, fun hv hrx ha => ?_⟩
  · obtain ⟨-, hf, h1, h2, h3, h4, h5, -, -, -, h6⟩ := hplain hv
    simp only [ite_self, List.map_const', List.sum_replicate, smul_zero] at h5 h6
    have hnorsp : u.norspCnt = s.norspCnt := by simpa using h5
    refine ⟨hf, h1, h3, hnorsp, h4, h2, fun hst => ?_⟩
    have := h6.mp (verifyFailed_of_answerEvents hst)
    simp [State.begin, Reply.fresh] at this
  · obtain ⟨-, hf, h1, h2, h3, h4, h5, -, h6, h7, h8⟩ := hsilent hv hrx ha
    intro stopped
    have hmissed : (allGroups.map fun g => if driven (s.begin.stateOf g) then
        (s.begin.members g).length * s.begin.disableAttempts else 0).sum = stopped * s.disableAttempts := by
      rw [← List.sum_map_mul_right]
      exact congrArg _ (List.map_congr_left fun g _ => by
        rw [ite_mul, Nat.zero_mul]
        rfl)
    rw [hmissed] at h5 h6
    exact ⟨hf, h1.trans hrx, h2.trans ha, h3, h4, h5, fun h => and_bit_eq (k := 4) (h6 h),
      fun h => ⟨and_bit_eq (k := 6) (h7 h), answerEvents_of_verifyFailed (h8.mpr (.inr h))⟩⟩

end Sys2Proof.Machine
end
